-- ==== Sys2Proof/Word.lean ====
section
/-! DEFINITION. The word types (spec/00_scope.md R9, R10, R14): every register and address is 32 bits,
an ARM instruction one word, a THUMB instruction one halfword, and memory is addressed by bytes. -/

namespace Sys2Proof

/-- A register value, an address or an ARM instruction (R9, R10). -/
abbrev Word := BitVec 32

/-- A THUMB instruction (R9). -/
abbrev Half := BitVec 16

/-- The smallest addressable unit (R10). -/
abbrev Byte := BitVec 8

end Sys2Proof
end

