-- ==== Sys2Proof/Syntax.lean ====
section
/-! DEFINITION. The instructions: one constructor of `Instr` for each row of spec/opcode_table.json, with the
operand fields of spec/30_encoding.md. Should-be-zero and should-be-one fields the decoder does not test are
kept as fields, because such a word is refused only when it executes (R104). -/

namespace Sys2Proof

/-- A register number, the 4-bit operand field (R105 to R112); 15 is R15. -/
abbrev Reg := BitVec 4

/-- The 3-bit register field of THUMB formats 1 to 12: R0 to R7 (R122). -/
abbrev LoReg := BitVec 3

/-- The condition codes (R101). -/
inductive Cond where
  | eq | ne | cs | cc | mi | pl | vs | vc | hi | ls | ge | lt | gt | le | al | nv
  deriving DecidableEq, Repr

/-- The shift types (R117). -/
inductive ShiftType where
  | lsl | lsr | asr | ror
  deriving DecidableEq, Repr

/-- Operand 2 of a data-processing instruction, its three forms (R105). -/
inductive Operand2 where
  /-- `imm8` rotated right by twice `rotate` (R116). -/
  | imm (rotate : BitVec 4) (imm8 : BitVec 8)
  /-- `rm` shifted by the 5-bit amount (R117). -/
  | shiftImm (amount : BitVec 5) (ty : ShiftType) (rm : Reg)
  /-- `rm` shifted by the low byte of `rs` (R117). -/
  | shiftReg (rs : Reg) (ty : ShiftType) (rm : Reg)
  deriving DecidableEq, Repr

/-- The offset of a single data transfer (R111, R118). -/
inductive TransferOffset where
  | imm (offset : BitVec 12)
  | reg (amount : BitVec 5) (ty : ShiftType) (rm : Reg)
  deriving DecidableEq, Repr

/-- The offset of a halfword or signed transfer (R109, R119); the register form has a should-be-zero field. -/
inductive HalfOffset where
  | imm (offset : BitVec 8)
  | reg (sbz : BitVec 4) (rm : Reg)
  deriving DecidableEq, Repr

/-- One constructor per row of the opcode table. -/
inductive Instr where
  -- ARM multiply (R107)
  | mul (c : Cond) (s : Bool) (rd : Reg) (sbz : BitVec 4) (rs rm : Reg)
  | mla (c : Cond) (s : Bool) (rd rn rs rm : Reg)
  | umull (c : Cond) (s : Bool) (rdHi rdLo rs rm : Reg)
  | umlal (c : Cond) (s : Bool) (rdHi rdLo rs rm : Reg)
  | smull (c : Cond) (s : Bool) (rdHi rdLo rs rm : Reg)
  | smlal (c : Cond) (s : Bool) (rdHi rdLo rs rm : Reg)
  -- ARM swap (R108)
  | swp (c : Cond) (rn rd rm : Reg)
  | swpb (c : Cond) (rn rd rm : Reg)
  -- ARM Undefined lines 4 and 5 (R102): the bits the line leaves free
  | undMulSwap (c : Cond) (op : BitVec 5) (mid : BitVec 12) (low : BitVec 4)
  | undSignedStore (c : Cond) (op : BitVec 4) (mid : BitVec 12) (h : Bool) (low : BitVec 4)
  -- ARM halfword and signed transfer (R109): P, U, W, base, register, offset
  | strh (c : Cond) (p u w : Bool) (rn rd : Reg) (off : HalfOffset)
  | ldrh (c : Cond) (p u w : Bool) (rn rd : Reg) (off : HalfOffset)
  | ldrsb (c : Cond) (p u w : Bool) (rn rd : Reg) (off : HalfOffset)
  | ldrsh (c : Cond) (p u w : Bool) (rn rd : Reg) (off : HalfOffset)
  -- ARM branch and exchange (R110)
  | bx (c : Cond) (rm : Reg)
  -- ARM PSR transfer (R106); `r` selects the SPSR
  | mrs (c : Cond) (r : Bool) (sbo : BitVec 4) (rd : Reg) (sbzHi : BitVec 4) (sbzMid : BitVec 2) (sbzLo : BitVec 4)
  | msrReg (c : Cond) (r : Bool) (mask sbo sbzHi : BitVec 4) (sbzMid : BitVec 2) (rm : Reg)
  | msrImm (c : Cond) (r : Bool) (mask sbo rotate : BitVec 4) (imm8 : BitVec 8)
  -- ARM Undefined line 11 (R102)
  | undPsr (c : Cond) (i : Bool) (op : BitVec 2) (low : BitVec 20)
  -- ARM data processing (R105); `sbz` is Rn of MOV and MVN, Rd of TST, TEQ, CMP and CMN
  | and (c : Cond) (s : Bool) (rn rd : Reg) (op2 : Operand2)
  | eor (c : Cond) (s : Bool) (rn rd : Reg) (op2 : Operand2)
  | sub (c : Cond) (s : Bool) (rn rd : Reg) (op2 : Operand2)
  | rsb (c : Cond) (s : Bool) (rn rd : Reg) (op2 : Operand2)
  | add (c : Cond) (s : Bool) (rn rd : Reg) (op2 : Operand2)
  | adc (c : Cond) (s : Bool) (rn rd : Reg) (op2 : Operand2)
  | sbc (c : Cond) (s : Bool) (rn rd : Reg) (op2 : Operand2)
  | rsc (c : Cond) (s : Bool) (rn rd : Reg) (op2 : Operand2)
  | tst (c : Cond) (rn : Reg) (sbz : BitVec 4) (op2 : Operand2)
  | teq (c : Cond) (rn : Reg) (sbz : BitVec 4) (op2 : Operand2)
  | cmp (c : Cond) (rn : Reg) (sbz : BitVec 4) (op2 : Operand2)
  | cmn (c : Cond) (rn : Reg) (sbz : BitVec 4) (op2 : Operand2)
  | orr (c : Cond) (s : Bool) (rn rd : Reg) (op2 : Operand2)
  | mov (c : Cond) (s : Bool) (sbz : BitVec 4) (rd : Reg) (op2 : Operand2)
  | bic (c : Cond) (s : Bool) (rn rd : Reg) (op2 : Operand2)
  | mvn (c : Cond) (s : Bool) (sbz : BitVec 4) (rd : Reg) (op2 : Operand2)
  -- ARM Undefined line 13 (R102)
  | undMedia (c : Cond) (mid : BitVec 20) (low : BitVec 4)
  -- ARM single data transfer (R111): U, W (pre-indexed only), base, register, offset
  | strPre (c : Cond) (u w : Bool) (rn rd : Reg) (off : TransferOffset)
  | strPost (c : Cond) (u : Bool) (rn rd : Reg) (off : TransferOffset)
  | ldrPre (c : Cond) (u w : Bool) (rn rd : Reg) (off : TransferOffset)
  | ldrPost (c : Cond) (u : Bool) (rn rd : Reg) (off : TransferOffset)
  | strbPre (c : Cond) (u w : Bool) (rn rd : Reg) (off : TransferOffset)
  | strbPost (c : Cond) (u : Bool) (rn rd : Reg) (off : TransferOffset)
  | ldrbPre (c : Cond) (u w : Bool) (rn rd : Reg) (off : TransferOffset)
  | ldrbPost (c : Cond) (u : Bool) (rn rd : Reg) (off : TransferOffset)
  | strt (c : Cond) (u : Bool) (rn rd : Reg) (off : TransferOffset)
  | ldrt (c : Cond) (u : Bool) (rn rd : Reg) (off : TransferOffset)
  | strbt (c : Cond) (u : Bool) (rn rd : Reg) (off : TransferOffset)
  | ldrbt (c : Cond) (u : Bool) (rn rd : Reg) (off : TransferOffset)
  -- ARM block data transfer (R112); the two LDM^ forms hold the list of R0 to R14
  | stm (c : Cond) (p u w : Bool) (rn : Reg) (list : BitVec 16)
  | ldm (c : Cond) (p u w : Bool) (rn : Reg) (list : BitVec 16)
  | stmUser (c : Cond) (p u w : Bool) (rn : Reg) (list : BitVec 16)
  | ldmUser (c : Cond) (p u w : Bool) (rn : Reg) (list : BitVec 15)
  | ldmReturn (c : Cond) (p u w : Bool) (rn : Reg) (list : BitVec 15)
  -- ARM branches (R113)
  | b (c : Cond) (offset : BitVec 24)
  | bl (c : Cond) (offset : BitVec 24)
  -- ARM coprocessor words (R114), Undefined line 17
  | stc (c : Cond) (p u n w : Bool) (rn crd cp : BitVec 4) (offset : BitVec 8)
  | ldc (c : Cond) (p u n w : Bool) (rn crd cp : BitVec 4) (offset : BitVec 8)
  | cdp (c : Cond) (op1 crn crd cp : BitVec 4) (op2 : BitVec 3) (crm : BitVec 4)
  | mcr (c : Cond) (op1 : BitVec 3) (crn rd cp : BitVec 4) (op2 : BitVec 3) (crm : BitVec 4)
  | mrc (c : Cond) (op1 : BitVec 3) (crn rd cp : BitVec 4) (op2 : BitVec 3) (crm : BitVec 4)
  -- ARM software interrupt (R115)
  | swi (c : Cond) (comment : BitVec 24)
  -- THUMB format 2 (R122)
  | tAddReg (rn rs rd : LoReg)
  | tSubReg (rn rs rd : LoReg)
  | tAddImm3 (imm3 : BitVec 3) (rs rd : LoReg)
  | tSubImm3 (imm3 : BitVec 3) (rs rd : LoReg)
  -- THUMB format 1
  | tLslImm (off5 : BitVec 5) (rs rd : LoReg)
  | tLsrImm (off5 : BitVec 5) (rs rd : LoReg)
  | tAsrImm (off5 : BitVec 5) (rs rd : LoReg)
  -- THUMB format 3
  | tMovImm (rd : LoReg) (imm8 : BitVec 8)
  | tCmpImm (rd : LoReg) (imm8 : BitVec 8)
  | tAddImm8 (rd : LoReg) (imm8 : BitVec 8)
  | tSubImm8 (rd : LoReg) (imm8 : BitVec 8)
  -- THUMB format 4 (R123)
  | tAnd (rs rd : LoReg)
  | tEor (rs rd : LoReg)
  | tLslReg (rs rd : LoReg)
  | tLsrReg (rs rd : LoReg)
  | tAsrReg (rs rd : LoReg)
  | tAdc (rs rd : LoReg)
  | tSbc (rs rd : LoReg)
  | tRorReg (rs rd : LoReg)
  | tTst (rs rd : LoReg)
  | tNeg (rs rd : LoReg)
  | tCmpReg (rs rd : LoReg)
  | tCmn (rs rd : LoReg)
  | tOrr (rs rd : LoReg)
  | tMul (rs rd : LoReg)
  | tBic (rs rd : LoReg)
  | tMvn (rs rd : LoReg)
  -- THUMB format 5: full register numbers H1:Rd and H2:Rs
  | tAddHi (hs hd : Reg)
  | tCmpHi (hs hd : Reg)
  | tMovHi (hs hd : Reg)
  | tBx (h1 : Bool) (hs : Reg) (sbz : BitVec 3)
  -- THUMB format 6
  | tLdrPc (rd : LoReg) (imm8 : BitVec 8)
  -- THUMB format 7
  | tStrReg (ro rb rd : LoReg)
  | tStrbReg (ro rb rd : LoReg)
  | tLdrReg (ro rb rd : LoReg)
  | tLdrbReg (ro rb rd : LoReg)
  -- THUMB format 8
  | tStrhReg (ro rb rd : LoReg)
  | tLdrsbReg (ro rb rd : LoReg)
  | tLdrhReg (ro rb rd : LoReg)
  | tLdrshReg (ro rb rd : LoReg)
  -- THUMB format 9
  | tStrImm (off5 : BitVec 5) (rb rd : LoReg)
  | tLdrImm (off5 : BitVec 5) (rb rd : LoReg)
  | tStrbImm (off5 : BitVec 5) (rb rd : LoReg)
  | tLdrbImm (off5 : BitVec 5) (rb rd : LoReg)
  -- THUMB format 10
  | tStrhImm (off5 : BitVec 5) (rb rd : LoReg)
  | tLdrhImm (off5 : BitVec 5) (rb rd : LoReg)
  -- THUMB format 11
  | tStrSp (rd : LoReg) (imm8 : BitVec 8)
  | tLdrSp (rd : LoReg) (imm8 : BitVec 8)
  -- THUMB format 12
  | tAddPc (rd : LoReg) (imm8 : BitVec 8)
  | tAddSp (rd : LoReg) (imm8 : BitVec 8)
  -- THUMB format 13
  | tSpAdd (imm7 : BitVec 7)
  | tSpSub (imm7 : BitVec 7)
  -- THUMB format 14
  | tPush (r : Bool) (rlist : BitVec 8)
  | tPop (r : Bool) (rlist : BitVec 8)
  -- THUMB Undefined line 15 (R124)
  | tUnd1011 (bits : BitVec 12)
  -- THUMB format 15
  | tStmia (rb : LoReg) (rlist : BitVec 8)
  | tLdmia (rb : LoReg) (rlist : BitVec 8)
  -- THUMB format 17, Undefined line 18, format 16
  | tSwi (value : BitVec 8)
  | tUndCond (bits : BitVec 8)
  | tBCond (c : Cond) (offset : BitVec 8)
  -- THUMB format 18, Undefined line 21, format 19
  | tB (offset : BitVec 11)
  | tUnd11101 (bits : BitVec 11)
  | tBlPrefix (offset : BitVec 11)
  | tBlSuffix (offset : BitVec 11)
  deriving DecidableEq, Repr

end Sys2Proof
end

