-- ==== Sys2Proof/WellFormed.lean ====
section
/-! DEFINITION. Which terms of `Instr` are instructions: a term whose free bits would place its word on an
earlier line of the decode priority lists (spec/30_encoding.md R102, R124) is none. -/

namespace Sys2Proof

/-- Line 4 of R102 after lines 1 to 3: `op` is w[24:20] and `mid` w[19:8]. Not MUL or MLA (w[24:22] = 000), not a
long multiply (w[24:23] = 01), not SWP or SWPB (w[24:23] = 10, w[21:20] = 00, w[11:8] = 0000). -/
def wfMulSwapSpace (op : BitVec 5) (mid : BitVec 12) : Bool :=
  op.extractLsb' 2 3 != 0 && op.extractLsb' 3 2 != 1 &&
    !(op.extractLsb' 3 2 == 2 && op.extractLsb' 0 2 == 0 && mid.extractLsb' 0 4 == 0)

/-- Line 11 of R102 after lines 1 to 10: `i` is w[25], `op` w[22:21] and `low` w[19:0]. With w[25] = 1 not MSR
immediate (w[21] = 1). With w[25] = 0 exactly one of w[7] and w[4] is set (both set is lines 1 to 6, none is MRS
or MSR register), and the word is not BX. -/
def wfPsrSpace (i : Bool) (op : BitVec 2) (low : BitVec 20) : Bool :=
  if i then !op.getLsbD 0
  else (low.getLsbD 7 != low.getLsbD 4) && !(op == 1 && low.extractLsb' 4 16 == 0xFFF1)

/-- Line 15 of R124 after lines 13 and 14: `bits` is h[11:0]. -/
def wf1011Space (bits : BitVec 12) : Bool :=
  bits.extractLsb' 8 4 != 0 && bits.extractLsb' 9 2 != 2

/-- Format 16 conditions are 0000 to 1101 (R122); 1110 is Undefined and 1111 is SWI. -/
def wfThumbCond : Cond → Bool
  | .al => false
  | .nv => false
  | .eq | .ne | .cs | .cc | .mi | .pl | .vs | .vc | .hi | .ls | .ge | .lt | .gt | .le => true

/-- A term of `Instr` that stands for some word. -/
def wellFormed : Instr → Bool
  | .undMulSwap _ op mid _ => wfMulSwapSpace op mid
  | .undPsr _ i op low => wfPsrSpace i op low
  | .tUnd1011 bits => wf1011Space bits
  | .tBCond c _ => wfThumbCond c
  | .mul _ _ _ _ _ _ | .mla _ _ _ _ _ _ | .umull _ _ _ _ _ _ | .umlal _ _ _ _ _ _ | .smull _ _ _ _ _ _ |
    .smlal _ _ _ _ _ _ | .swp _ _ _ _ | .swpb _ _ _ _ | .undSignedStore _ _ _ _ _ | .strh _ _ _ _ _ _ _ |
    .ldrh _ _ _ _ _ _ _ | .ldrsb _ _ _ _ _ _ _ | .ldrsh _ _ _ _ _ _ _ | .bx _ _ | .mrs _ _ _ _ _ _ _ |
    .msrReg _ _ _ _ _ _ _ | .msrImm _ _ _ _ _ _ | .and _ _ _ _ _ | .eor _ _ _ _ _ | .sub _ _ _ _ _ |
    .rsb _ _ _ _ _ | .add _ _ _ _ _ | .adc _ _ _ _ _ | .sbc _ _ _ _ _ | .rsc _ _ _ _ _ | .tst _ _ _ _ |
    .teq _ _ _ _ | .cmp _ _ _ _ | .cmn _ _ _ _ | .orr _ _ _ _ _ | .mov _ _ _ _ _ | .bic _ _ _ _ _ |
    .mvn _ _ _ _ _ | .undMedia _ _ _ | .strPre _ _ _ _ _ _ | .strPost _ _ _ _ _ | .ldrPre _ _ _ _ _ _ |
    .ldrPost _ _ _ _ _ | .strbPre _ _ _ _ _ _ | .strbPost _ _ _ _ _ | .ldrbPre _ _ _ _ _ _ |
    .ldrbPost _ _ _ _ _ | .strt _ _ _ _ _ | .ldrt _ _ _ _ _ | .strbt _ _ _ _ _ | .ldrbt _ _ _ _ _ |
    .stm _ _ _ _ _ _ | .ldm _ _ _ _ _ _ | .stmUser _ _ _ _ _ _ | .ldmUser _ _ _ _ _ _ |
    .ldmReturn _ _ _ _ _ _ | .b _ _ | .bl _ _ | .stc _ _ _ _ _ _ _ _ _ | .ldc _ _ _ _ _ _ _ _ _ |
    .cdp _ _ _ _ _ _ _ | .mcr _ _ _ _ _ _ _ | .mrc _ _ _ _ _ _ _ | .swi _ _ | .tAddReg _ _ _ |
    .tSubReg _ _ _ | .tAddImm3 _ _ _ | .tSubImm3 _ _ _ | .tLslImm _ _ _ | .tLsrImm _ _ _ | .tAsrImm _ _ _ |
    .tMovImm _ _ | .tCmpImm _ _ | .tAddImm8 _ _ | .tSubImm8 _ _ | .tAnd _ _ | .tEor _ _ | .tLslReg _ _ |
    .tLsrReg _ _ | .tAsrReg _ _ | .tAdc _ _ | .tSbc _ _ | .tRorReg _ _ | .tTst _ _ | .tNeg _ _ |
    .tCmpReg _ _ | .tCmn _ _ | .tOrr _ _ | .tMul _ _ | .tBic _ _ | .tMvn _ _ | .tAddHi _ _ | .tCmpHi _ _ |
    .tMovHi _ _ | .tBx _ _ _ | .tLdrPc _ _ | .tStrReg _ _ _ | .tStrbReg _ _ _ | .tLdrReg _ _ _ |
    .tLdrbReg _ _ _ | .tStrhReg _ _ _ | .tLdrsbReg _ _ _ | .tLdrhReg _ _ _ | .tLdrshReg _ _ _ |
    .tStrImm _ _ _ | .tLdrImm _ _ _ | .tStrbImm _ _ _ | .tLdrbImm _ _ _ | .tStrhImm _ _ _ | .tLdrhImm _ _ _ |
    .tStrSp _ _ | .tLdrSp _ _ | .tAddPc _ _ | .tAddSp _ _ | .tSpAdd _ | .tSpSub _ | .tPush _ _ | .tPop _ _ |
    .tStmia _ _ | .tLdmia _ _ | .tSwi _ | .tUndCond _ | .tB _ | .tUnd11101 _ | .tBlPrefix _ |
    .tBlSuffix _ => true

end Sys2Proof
end

