-- ==== Sys2Proof/Decode.lean ====
section
/-! DEFINITION. The decoder, a first-match priority list for each state (spec/30_encoding.md R102, R124), total on
every word and every halfword, and after it the encoder, written from the same field tables (R105 to R115, R122,
R123). -/

namespace Sys2Proof

/-! ## Fields -/

/-- The condition code of a 4-bit field (R101). -/
def condOfBits (b : BitVec 4) : Cond :=
  match b.toNat with
  | 0 => .eq | 1 => .ne | 2 => .cs | 3 => .cc | 4 => .mi | 5 => .pl | 6 => .vs | 7 => .vc
  | 8 => .hi | 9 => .ls | 10 => .ge | 11 => .lt | 12 => .gt | 13 => .le | 14 => .al | _ => .nv

/-- The 4-bit field of a condition code (R101). -/
def condBits : Cond → BitVec 4
  | .eq => 0 | .ne => 1 | .cs => 2 | .cc => 3 | .mi => 4 | .pl => 5 | .vs => 6 | .vc => 7
  | .hi => 8 | .ls => 9 | .ge => 10 | .lt => 11 | .gt => 12 | .le => 13 | .al => 14 | .nv => 15

/-- The shift type of the 2-bit field (R117). -/
def shiftOfBits (b : BitVec 2) : ShiftType :=
  match b.toNat with
  | 0 => .lsl | 1 => .lsr | 2 => .asr | _ => .ror

/-- The 2-bit field of a shift type (R117). -/
def shiftBits : ShiftType → BitVec 2
  | .lsl => 0 | .lsr => 1 | .asr => 2 | .ror => 3

/-- `w[lo+n-1:lo]` (spec/00_scope.md R13). -/
abbrev field {m : Nat} (w : BitVec m) (lo n : Nat) : BitVec n := w.extractLsb' lo n

/-- A one-bit field as a Boolean (R13). -/
abbrev flag {m : Nat} (w : BitVec m) (i : Nat) : Bool := w.getLsbD i

/-! ## ARM words, the lines of R102 -/

/-- The condition field, w[31:28] (R101). -/
def condOf (w : Word) : Cond := condOfBits (field w 28 4)

/-- Line 1: MUL, MLA (R107). -/
def decodeMultiply (w : Word) : Instr :=
  if flag w 21 then .mla (condOf w) (flag w 20) (field w 16 4) (field w 12 4) (field w 8 4) (field w 0 4)
  else .mul (condOf w) (flag w 20) (field w 16 4) (field w 12 4) (field w 8 4) (field w 0 4)

/-- Line 2: the long multiplies, by U (w[22]) and A (w[21]) (R107). -/
def decodeMultiplyLong (w : Word) : Instr :=
  match flag w 22, flag w 21 with
  | false, false => .umull (condOf w) (flag w 20) (field w 16 4) (field w 12 4) (field w 8 4) (field w 0 4)
  | false, true => .umlal (condOf w) (flag w 20) (field w 16 4) (field w 12 4) (field w 8 4) (field w 0 4)
  | true, false => .smull (condOf w) (flag w 20) (field w 16 4) (field w 12 4) (field w 8 4) (field w 0 4)
  | true, true => .smlal (condOf w) (flag w 20) (field w 16 4) (field w 12 4) (field w 8 4) (field w 0 4)

/-- Line 3: SWP, SWPB, by B (w[22]) (R108). -/
def decodeSwap (w : Word) : Instr :=
  if flag w 22 then .swpb (condOf w) (field w 16 4) (field w 12 4) (field w 0 4)
  else .swp (condOf w) (field w 16 4) (field w 12 4) (field w 0 4)

/-- The offset of the halfword format, by I (w[22]) (R109, R119). -/
def decodeHalfOffset (w : Word) : HalfOffset :=
  if flag w 22 then .imm (field w 8 4 ++ field w 0 4) else .reg (field w 8 4) (field w 0 4)

/-- Line 6: the halfword and signed transfers, by L (w[20]) and S:H (w[6:5]) (R109); lines 1 to 5 have taken
S:H = 00 and the signed stores. -/
def decodeHalfword (w : Word) : Instr :=
  match flag w 20, flag w 6, flag w 5 with
  | false, _, _ => .strh (condOf w) (flag w 24) (flag w 23) (flag w 21) (field w 16 4) (field w 12 4) (decodeHalfOffset w)
  | true, false, _ => .ldrh (condOf w) (flag w 24) (flag w 23) (flag w 21) (field w 16 4) (field w 12 4) (decodeHalfOffset w)
  | true, true, false => .ldrsb (condOf w) (flag w 24) (flag w 23) (flag w 21) (field w 16 4) (field w 12 4) (decodeHalfOffset w)
  | true, true, true => .ldrsh (condOf w) (flag w 24) (flag w 23) (flag w 21) (field w 16 4) (field w 12 4) (decodeHalfOffset w)

/-- Operand 2, by I (w[25]) and w[4] (R105). -/
def decodeOperand2 (w : Word) : Operand2 :=
  if flag w 25 then .imm (field w 8 4) (field w 0 8)
  else if flag w 4 then .shiftReg (field w 8 4) (shiftOfBits (field w 5 2)) (field w 0 4)
  else .shiftImm (field w 7 5) (shiftOfBits (field w 5 2)) (field w 0 4)

/-- Line 12: the sixteen data-processing opcodes, w[24:21] (R105). -/
def decodeDataProcessing (w : Word) : Instr :=
  let c := condOf w
  let s := flag w 20
  let rn := field w 16 4
  let rd := field w 12 4
  let op2 := decodeOperand2 w
  match (field w 21 4).toNat with
  | 0 => .and c s rn rd op2
  | 1 => .eor c s rn rd op2
  | 2 => .sub c s rn rd op2
  | 3 => .rsb c s rn rd op2
  | 4 => .add c s rn rd op2
  | 5 => .adc c s rn rd op2
  | 6 => .sbc c s rn rd op2
  | 7 => .rsc c s rn rd op2
  | 8 => .tst c rn rd op2
  | 9 => .teq c rn rd op2
  | 10 => .cmp c rn rd op2
  | 11 => .cmn c rn rd op2
  | 12 => .orr c s rn rd op2
  | 13 => .mov c s rn rd op2
  | 14 => .bic c s rn rd op2
  | _ => .mvn c s rn rd op2

/-- The offset of the single-transfer format, by I (w[25]) (R111, R118). -/
def decodeTransferOffset (w : Word) : TransferOffset :=
  if flag w 25 then .reg (field w 7 5) (shiftOfBits (field w 5 2)) (field w 0 4) else .imm (field w 0 12)

/-- Line 14: the single transfers, by P (w[24]), W (w[21]), B (w[22]) and L (w[20]) (R111). -/
def decodeSingleTransfer (w : Word) : Instr :=
  let c := condOf w
  let u := flag w 23
  let rn := field w 16 4
  let rd := field w 12 4
  let off := decodeTransferOffset w
  if flag w 24 then
    match flag w 22, flag w 20 with
    | false, false => .strPre c u (flag w 21) rn rd off
    | false, true => .ldrPre c u (flag w 21) rn rd off
    | true, false => .strbPre c u (flag w 21) rn rd off
    | true, true => .ldrbPre c u (flag w 21) rn rd off
  else if flag w 21 then
    match flag w 22, flag w 20 with
    | false, false => .strt c u rn rd off
    | false, true => .ldrt c u rn rd off
    | true, false => .strbt c u rn rd off
    | true, true => .ldrbt c u rn rd off
  else
    match flag w 22, flag w 20 with
    | false, false => .strPost c u rn rd off
    | false, true => .ldrPost c u rn rd off
    | true, false => .strbPost c u rn rd off
    | true, true => .ldrbPost c u rn rd off

/-- Line 15: the block transfers, by S (w[22]), L (w[20]) and, for LDM^, w[15] (R112). -/
def decodeBlockTransfer (w : Word) : Instr :=
  let c := condOf w
  let p := flag w 24
  let u := flag w 23
  let wb := flag w 21
  let rn := field w 16 4
  match flag w 22, flag w 20, flag w 15 with
  | false, false, _ => .stm c p u wb rn (field w 0 16)
  | false, true, _ => .ldm c p u wb rn (field w 0 16)
  | true, false, _ => .stmUser c p u wb rn (field w 0 16)
  | true, true, false => .ldmUser c p u wb rn (field w 0 15)
  | true, true, true => .ldmReturn c p u wb rn (field w 0 15)

/-- Line 17: the coprocessor words (R114). -/
def decodeCoprocessor (w : Word) : Instr :=
  let c := condOf w
  if field w 25 3 = 6 then
    if flag w 20 then
      .ldc c (flag w 24) (flag w 23) (flag w 22) (flag w 21) (field w 16 4) (field w 12 4) (field w 8 4) (field w 0 8)
    else
      .stc c (flag w 24) (flag w 23) (flag w 22) (flag w 21) (field w 16 4) (field w 12 4) (field w 8 4) (field w 0 8)
  else if flag w 4 then
    if flag w 20 then .mrc c (field w 21 3) (field w 16 4) (field w 12 4) (field w 8 4) (field w 5 3) (field w 0 4)
    else .mcr c (field w 21 3) (field w 16 4) (field w 12 4) (field w 8 4) (field w 5 3) (field w 0 4)
  else .cdp c (field w 20 4) (field w 16 4) (field w 12 4) (field w 8 4) (field w 5 3) (field w 0 4)

/-- Lines 1 to 6: the words with w[27:25] = 000 and w[7] = w[4] = 1. -/
def decodeExtension (w : Word) : Instr :=
  if field w 22 6 = 0 ∧ field w 4 4 = 9 then decodeMultiply w
  else if field w 23 5 = 1 ∧ field w 4 4 = 9 then decodeMultiplyLong w
  else if field w 23 5 = 2 ∧ field w 20 2 = 0 ∧ field w 4 8 = 9 then decodeSwap w
  else if field w 4 4 = 9 then .undMulSwap (condOf w) (field w 20 5) (field w 8 12) (field w 0 4)
  else if flag w 20 = false ∧ flag w 6 = true then
    .undSignedStore (condOf w) (field w 21 4) (field w 8 12) (flag w 5) (field w 0 4)
  else decodeHalfword w

/-- Lines 7 to 12: the other words with w[27:26] = 00. -/
def decodePsrOrData (w : Word) : Instr :=
  let c := condOf w
  if field w 4 24 = 0x12FFF1 then .bx c (field w 0 4)
  else if field w 23 5 = 2 ∧ field w 20 2 = 0 ∧ flag w 7 = false ∧ flag w 4 = false then
    .mrs c (flag w 22) (field w 16 4) (field w 12 4) (field w 8 4) (field w 5 2) (field w 0 4)
  else if field w 23 5 = 2 ∧ field w 20 2 = 2 ∧ flag w 7 = false ∧ flag w 4 = false then
    .msrReg c (flag w 22) (field w 16 4) (field w 12 4) (field w 8 4) (field w 5 2) (field w 0 4)
  else if field w 23 5 = 6 ∧ field w 20 2 = 2 then
    .msrImm c (flag w 22) (field w 16 4) (field w 12 4) (field w 8 4) (field w 0 8)
  else if field w 23 2 = 2 ∧ flag w 20 = false then
    .undPsr c (flag w 25) (field w 21 2) (field w 0 20)
  else decodeDataProcessing w

/-- The ARM decoder: the priority list of R102, in its order. Lines 1 to 6 all need w[27:25] = 000, w[7] = 1 and
w[4] = 1, and take every word that has them (R102, totality). -/
def decodeArm (w : Word) : Instr :=
  if field w 25 3 = 0 ∧ flag w 7 = true ∧ flag w 4 = true then decodeExtension w
  else if field w 26 2 = 0 then decodePsrOrData w
  else if field w 25 3 = 3 ∧ flag w 4 = true then .undMedia (condOf w) (field w 5 20) (field w 0 4)
  else if field w 26 2 = 1 then decodeSingleTransfer w
  else if field w 25 3 = 4 then decodeBlockTransfer w
  else if field w 25 3 = 5 then
    (if flag w 24 then .bl (condOf w) (field w 0 24) else .b (condOf w) (field w 0 24))
  else if field w 25 3 = 6 ∨ field w 24 4 = 14 then decodeCoprocessor w
  else .swi (condOf w) (field w 0 24)

/-! ## THUMB halfwords, the lines of R124 -/

/-- Format 4, by op (h[9:6]) (R123). -/
def decodeThumbAlu (h : Half) : Instr :=
  let rs := field h 3 3
  let rd := field h 0 3
  match (field h 6 4).toNat with
  | 0 => .tAnd rs rd
  | 1 => .tEor rs rd
  | 2 => .tLslReg rs rd
  | 3 => .tLsrReg rs rd
  | 4 => .tAsrReg rs rd
  | 5 => .tAdc rs rd
  | 6 => .tSbc rs rd
  | 7 => .tRorReg rs rd
  | 8 => .tTst rs rd
  | 9 => .tNeg rs rd
  | 10 => .tCmpReg rs rd
  | 11 => .tCmn rs rd
  | 12 => .tOrr rs rd
  | 13 => .tMul rs rd
  | 14 => .tBic rs rd
  | _ => .tMvn rs rd

/-- Formats 1, 2 and 3 (lines 1 to 3). -/
def decodeThumbShiftAddImm (h : Half) : Instr :=
  if field h 11 5 = 3 then
    match flag h 10, flag h 9 with
    | false, false => .tAddReg (field h 6 3) (field h 3 3) (field h 0 3)
    | false, true => .tSubReg (field h 6 3) (field h 3 3) (field h 0 3)
    | true, false => .tAddImm3 (field h 6 3) (field h 3 3) (field h 0 3)
    | true, true => .tSubImm3 (field h 6 3) (field h 3 3) (field h 0 3)
  else if field h 13 3 = 0 then
    match flag h 12, flag h 11 with
    | false, false => .tLslImm (field h 6 5) (field h 3 3) (field h 0 3)
    | false, true => .tLsrImm (field h 6 5) (field h 3 3) (field h 0 3)
    | true, _ => .tAsrImm (field h 6 5) (field h 3 3) (field h 0 3)
  else
    match flag h 12, flag h 11 with
    | false, false => .tMovImm (field h 8 3) (field h 0 8)
    | false, true => .tCmpImm (field h 8 3) (field h 0 8)
    | true, false => .tAddImm8 (field h 8 3) (field h 0 8)
    | true, true => .tSubImm8 (field h 8 3) (field h 0 8)

/-- Format 5 (line 5): Hd = H1:h[2:0], Hs = H2:h[5:3]. -/
def decodeThumbHi (h : Half) : Instr :=
  match flag h 9, flag h 8 with
  | false, false => .tAddHi (field h 3 4) (field h 7 1 ++ field h 0 3)
  | false, true => .tCmpHi (field h 3 4) (field h 7 1 ++ field h 0 3)
  | true, false => .tMovHi (field h 3 4) (field h 7 1 ++ field h 0 3)
  | true, true => .tBx (flag h 7) (field h 3 4) (field h 0 3)

/-- Formats 7 and 8 (lines 7 and 8), by h[11:10] and h[9]. -/
def decodeThumbRegOffset (h : Half) : Instr :=
  match flag h 9, flag h 11, flag h 10 with
  | false, false, false => .tStrReg (field h 6 3) (field h 3 3) (field h 0 3)
  | false, false, true => .tStrbReg (field h 6 3) (field h 3 3) (field h 0 3)
  | false, true, false => .tLdrReg (field h 6 3) (field h 3 3) (field h 0 3)
  | false, true, true => .tLdrbReg (field h 6 3) (field h 3 3) (field h 0 3)
  | true, false, false => .tStrhReg (field h 6 3) (field h 3 3) (field h 0 3)
  | true, false, true => .tLdrsbReg (field h 6 3) (field h 3 3) (field h 0 3)
  | true, true, false => .tLdrhReg (field h 6 3) (field h 3 3) (field h 0 3)
  | true, true, true => .tLdrshReg (field h 6 3) (field h 3 3) (field h 0 3)

/-- Format 9 (line 9), by B (h[12]) and L (h[11]). -/
def decodeThumbImmOffset (h : Half) : Instr :=
  match flag h 12, flag h 11 with
  | false, false => .tStrImm (field h 6 5) (field h 3 3) (field h 0 3)
  | false, true => .tLdrImm (field h 6 5) (field h 3 3) (field h 0 3)
  | true, false => .tStrbImm (field h 6 5) (field h 3 3) (field h 0 3)
  | true, true => .tLdrbImm (field h 6 5) (field h 3 3) (field h 0 3)

/-- Formats 13 and 14 and the Undefined rest of h[15:12] = 1011 (lines 13 to 15). -/
def decodeThumbMisc (h : Half) : Instr :=
  if field h 8 4 = 0 then
    (if flag h 7 then .tSpSub (field h 0 7) else .tSpAdd (field h 0 7))
  else if field h 9 2 = 2 then
    (if flag h 11 then .tPop (flag h 8) (field h 0 8) else .tPush (flag h 8) (field h 0 8))
  else .tUnd1011 (field h 0 12)

/-- The lines with h[15:12] from 1100 to 1111 (lines 16 to 22). -/
def decodeThumbBranch (h : Half) : Instr :=
  if field h 12 4 = 12 then
    (if flag h 11 then .tLdmia (field h 8 3) (field h 0 8) else .tStmia (field h 8 3) (field h 0 8))
  else if field h 8 8 = 0xDF then .tSwi (field h 0 8)
  else if field h 8 8 = 0xDE then .tUndCond (field h 0 8)
  else if field h 12 4 = 13 then .tBCond (condOfBits (field h 8 4)) (field h 0 8)
  else if field h 11 5 = 28 then .tB (field h 0 11)
  else if field h 11 5 = 29 then .tUnd11101 (field h 0 11)
  else (if flag h 11 then .tBlSuffix (field h 0 11) else .tBlPrefix (field h 0 11))

/-- The THUMB decoder: the priority list of R124, in its order. -/
def decodeThumb (h : Half) : Instr :=
  if field h 14 2 = 0 then decodeThumbShiftAddImm h
  else if field h 10 6 = 16 then decodeThumbAlu h
  else if field h 10 6 = 17 then decodeThumbHi h
  else if field h 11 5 = 9 then .tLdrPc (field h 8 3) (field h 0 8)
  else if field h 12 4 = 5 then decodeThumbRegOffset h
  else if field h 13 3 = 3 then decodeThumbImmOffset h
  else if field h 12 4 = 8 then
    (if flag h 11 then .tLdrhImm (field h 6 5) (field h 3 3) (field h 0 3)
     else .tStrhImm (field h 6 5) (field h 3 3) (field h 0 3))
  else if field h 12 4 = 9 then
    (if flag h 11 then .tLdrSp (field h 8 3) (field h 0 8) else .tStrSp (field h 8 3) (field h 0 8))
  else if field h 12 4 = 10 then
    (if flag h 11 then .tAddSp (field h 8 3) (field h 0 8) else .tAddPc (field h 8 3) (field h 0 8))
  else if field h 12 4 = 11 then decodeThumbMisc h
  else decodeThumbBranch h

/-! ## Bytes -/

/-- The word whose bytes, lowest address first, are the list (spec/20_memory.md R76: little-endian). -/
def leWord : List Byte → Word
  | [] => 0
  | b :: bs => (leWord bs <<< 8) ||| b.setWidth 32

/-- The `n` low bytes of a word, lowest address first (spec/20_memory.md R76). -/
def leBytes : Nat → Word → List Byte
  | 0, _ => []
  | n + 1, v => v.setWidth 8 :: leBytes n (v >>> 8)

/-- Why bytes give no instruction: the only case is that the list is shorter than the instruction, because the
two priority lists are total (R102, R124). -/
inductive DecodeError where
  | truncated
  deriving DecidableEq, Repr

/-- Decodes the first instruction of a list of bytes in the given state (R100: the state alone fixes the length)
and returns it with the rest of the list. -/
def decodeBytes (thumb : Bool) (bytes : List Byte) : Except DecodeError (Instr × List Byte) :=
  match thumb, bytes with
  | true, b0 :: b1 :: rest => .ok (decodeThumb ((leWord [b0, b1]).setWidth 16), rest)
  | false, b0 :: b1 :: b2 :: b3 :: rest => .ok (decodeArm (leWord [b0, b1, b2, b3]), rest)
  | _, _ => .error .truncated

/-- The instruction a fetched value holds: all of it in ARM state, its low halfword in THUMB state (spec/40 R150). -/
def decodeFetched (thumb : Bool) (v : Word) : Instr :=
  if thumb then decodeThumb (v.setWidth 16) else decodeArm v

/-- The instruction of a row of the opcode table whose bits are `w`: a row of 16 bits or fewer is a THUMB halfword
and a longer one an ARM word. -/
def decodeTableWord (nbits w : Nat) : Option Instr :=
  let thumb := decide (nbits ≤ 16)
  match decodeBytes thumb (leBytes (if thumb then 2 else 4) (BitVec.ofNat 32 w)) with
  | .ok (i, _) => some i
  | .error _ => none

/-! ## The encoder -/

/-- A one-bit field. -/
abbrev bit (b : Bool) : BitVec 1 := BitVec.ofBool b

/-- The word or halfword of an instruction, with the state that fetches it. -/
inductive Encoding where
  | arm (w : Word)
  | thumb (h : Half)
  deriving DecidableEq, Repr

/-- Bits 25 and 11:0 of an operand 2 (R105). -/
def encodeOperand2 : Operand2 → BitVec 1 × BitVec 12
  | .imm rotate imm8 => (1, rotate ++ imm8)
  | .shiftImm amount ty rm => (0, amount ++ shiftBits ty ++ 0#1 ++ rm)
  | .shiftReg rs ty rm => (0, rs ++ 0#1 ++ shiftBits ty ++ 1#1 ++ rm)

/-- A data-processing word (R105): condition, opcode, S, Rn field, Rd field, operand 2. -/
def encodeData (c : Cond) (opcode : BitVec 4) (s : BitVec 1) (rn rd : BitVec 4) (op2 : Operand2) : Word :=
  condBits c ++ 0#2 ++ (encodeOperand2 op2).1 ++ opcode ++ s ++ rn ++ rd ++ (encodeOperand2 op2).2

/-- Bits 25 and 11:0 of a single-transfer offset (R111). -/
def encodeTransferOffset : TransferOffset → BitVec 1 × BitVec 12
  | .imm offset => (0, offset)
  | .reg amount ty rm => (1, amount ++ shiftBits ty ++ 0#1 ++ rm)

/-- A single-transfer word (R111): condition, P, U, B, W, L, Rn, Rd, offset. -/
def encodeSingle (c : Cond) (p u b w l : BitVec 1) (rn rd : Reg) (off : TransferOffset) : Word :=
  condBits c ++ 1#2 ++ (encodeTransferOffset off).1 ++ p ++ u ++ b ++ w ++ l ++ rn ++ rd ++ (encodeTransferOffset off).2

/-- Bits 22, 11:8 and 3:0 of a halfword offset (R109). -/
def encodeHalfOffset : HalfOffset → BitVec 1 × BitVec 4 × BitVec 4
  | .imm offset => (1, offset.extractLsb' 4 4, offset.extractLsb' 0 4)
  | .reg sbz rm => (0, sbz, rm)

/-- A halfword or signed transfer word (R109): condition, P, U, W, L, Rn, Rd, S:H, offset. -/
def encodeHalf (c : Cond) (p u w : Bool) (l : BitVec 1) (rn rd : Reg) (sh : BitVec 2) (off : HalfOffset) : Word :=
  condBits c ++ 0#3 ++ bit p ++ bit u ++ (encodeHalfOffset off).1 ++ bit w ++ l ++ rn ++ rd ++
    (encodeHalfOffset off).2.1 ++ 1#1 ++ sh ++ 1#1 ++ (encodeHalfOffset off).2.2

/-- A multiply word (R107): condition, w[27:21], S, w[19:16], w[15:12], Rs, Rm. -/
def encodeMultiply (c : Cond) (op : BitVec 7) (s : Bool) (hi lo rs rm : BitVec 4) : Word :=
  condBits c ++ op ++ bit s ++ hi ++ lo ++ rs ++ 9#4 ++ rm

/-- A block-transfer word (R112): condition, P, U, S, W, L, Rn, list. -/
def encodeBlock (c : Cond) (p u : Bool) (s : BitVec 1) (w : Bool) (l : BitVec 1) (rn : Reg) (list : BitVec 16) : Word :=
  condBits c ++ 4#3 ++ bit p ++ bit u ++ s ++ bit w ++ l ++ rn ++ list

/-- The word of an instruction. -/
def encode : Instr → Encoding
  | .mul c s rd sbz rs rm => .arm (encodeMultiply c 0 s rd sbz rs rm)
  | .mla c s rd rn rs rm => .arm (encodeMultiply c 1 s rd rn rs rm)
  | .umull c s rdHi rdLo rs rm => .arm (encodeMultiply c 4 s rdHi rdLo rs rm)
  | .umlal c s rdHi rdLo rs rm => .arm (encodeMultiply c 5 s rdHi rdLo rs rm)
  | .smull c s rdHi rdLo rs rm => .arm (encodeMultiply c 6 s rdHi rdLo rs rm)
  | .smlal c s rdHi rdLo rs rm => .arm (encodeMultiply c 7 s rdHi rdLo rs rm)
  | .swp c rn rd rm => .arm (condBits c ++ 0x10#8 ++ rn ++ rd ++ 9#8 ++ rm)
  | .swpb c rn rd rm => .arm (condBits c ++ 0x14#8 ++ rn ++ rd ++ 9#8 ++ rm)
  | .undMulSwap c op mid low => .arm (condBits c ++ 0#3 ++ op ++ mid ++ 9#4 ++ low)
  | .undSignedStore c op mid h low => .arm (condBits c ++ 0#3 ++ op ++ 0#1 ++ mid ++ 3#2 ++ bit h ++ 1#1 ++ low)
  | .strh c p u w rn rd off => .arm (encodeHalf c p u w 0 rn rd 1 off)
  | .ldrh c p u w rn rd off => .arm (encodeHalf c p u w 1 rn rd 1 off)
  | .ldrsb c p u w rn rd off => .arm (encodeHalf c p u w 1 rn rd 2 off)
  | .ldrsh c p u w rn rd off => .arm (encodeHalf c p u w 1 rn rd 3 off)
  | .bx c rm => .arm (condBits c ++ 0x12FFF1#24 ++ rm)
  | .mrs c r sbo rd sbzHi sbzMid sbzLo =>
    .arm (condBits c ++ 2#5 ++ bit r ++ 0#2 ++ sbo ++ rd ++ sbzHi ++ 0#1 ++ sbzMid ++ 0#1 ++ sbzLo)
  | .msrReg c r mask sbo sbzHi sbzMid rm =>
    .arm (condBits c ++ 2#5 ++ bit r ++ 2#2 ++ mask ++ sbo ++ sbzHi ++ 0#1 ++ sbzMid ++ 0#1 ++ rm)
  | .msrImm c r mask sbo rotate imm8 => .arm (condBits c ++ 6#5 ++ bit r ++ 2#2 ++ mask ++ sbo ++ rotate ++ imm8)
  | .undPsr c i op low => .arm (condBits c ++ 0#2 ++ bit i ++ 2#2 ++ op ++ 0#1 ++ low)
  | .and c s rn rd op2 => .arm (encodeData c 0 (bit s) rn rd op2)
  | .eor c s rn rd op2 => .arm (encodeData c 1 (bit s) rn rd op2)
  | .sub c s rn rd op2 => .arm (encodeData c 2 (bit s) rn rd op2)
  | .rsb c s rn rd op2 => .arm (encodeData c 3 (bit s) rn rd op2)
  | .add c s rn rd op2 => .arm (encodeData c 4 (bit s) rn rd op2)
  | .adc c s rn rd op2 => .arm (encodeData c 5 (bit s) rn rd op2)
  | .sbc c s rn rd op2 => .arm (encodeData c 6 (bit s) rn rd op2)
  | .rsc c s rn rd op2 => .arm (encodeData c 7 (bit s) rn rd op2)
  | .tst c rn sbz op2 => .arm (encodeData c 8 1 rn sbz op2)
  | .teq c rn sbz op2 => .arm (encodeData c 9 1 rn sbz op2)
  | .cmp c rn sbz op2 => .arm (encodeData c 10 1 rn sbz op2)
  | .cmn c rn sbz op2 => .arm (encodeData c 11 1 rn sbz op2)
  | .orr c s rn rd op2 => .arm (encodeData c 12 (bit s) rn rd op2)
  | .mov c s sbz rd op2 => .arm (encodeData c 13 (bit s) sbz rd op2)
  | .bic c s rn rd op2 => .arm (encodeData c 14 (bit s) rn rd op2)
  | .mvn c s sbz rd op2 => .arm (encodeData c 15 (bit s) sbz rd op2)
  | .undMedia c mid low => .arm (condBits c ++ 3#3 ++ mid ++ 1#1 ++ low)
  | .strPre c u w rn rd off => .arm (encodeSingle c 1 (bit u) 0 (bit w) 0 rn rd off)
  | .strPost c u rn rd off => .arm (encodeSingle c 0 (bit u) 0 0 0 rn rd off)
  | .ldrPre c u w rn rd off => .arm (encodeSingle c 1 (bit u) 0 (bit w) 1 rn rd off)
  | .ldrPost c u rn rd off => .arm (encodeSingle c 0 (bit u) 0 0 1 rn rd off)
  | .strbPre c u w rn rd off => .arm (encodeSingle c 1 (bit u) 1 (bit w) 0 rn rd off)
  | .strbPost c u rn rd off => .arm (encodeSingle c 0 (bit u) 1 0 0 rn rd off)
  | .ldrbPre c u w rn rd off => .arm (encodeSingle c 1 (bit u) 1 (bit w) 1 rn rd off)
  | .ldrbPost c u rn rd off => .arm (encodeSingle c 0 (bit u) 1 0 1 rn rd off)
  | .strt c u rn rd off => .arm (encodeSingle c 0 (bit u) 0 1 0 rn rd off)
  | .ldrt c u rn rd off => .arm (encodeSingle c 0 (bit u) 0 1 1 rn rd off)
  | .strbt c u rn rd off => .arm (encodeSingle c 0 (bit u) 1 1 0 rn rd off)
  | .ldrbt c u rn rd off => .arm (encodeSingle c 0 (bit u) 1 1 1 rn rd off)
  | .stm c p u w rn list => .arm (encodeBlock c p u 0 w 0 rn list)
  | .ldm c p u w rn list => .arm (encodeBlock c p u 0 w 1 rn list)
  | .stmUser c p u w rn list => .arm (encodeBlock c p u 1 w 0 rn list)
  | .ldmUser c p u w rn list => .arm (encodeBlock c p u 1 w 1 rn (0#1 ++ list))
  | .ldmReturn c p u w rn list => .arm (encodeBlock c p u 1 w 1 rn (1#1 ++ list))
  | .b c offset => .arm (condBits c ++ 10#4 ++ offset)
  | .bl c offset => .arm (condBits c ++ 11#4 ++ offset)
  | .stc c p u n w rn crd cp offset =>
    .arm (condBits c ++ 6#3 ++ bit p ++ bit u ++ bit n ++ bit w ++ 0#1 ++ rn ++ crd ++ cp ++ offset)
  | .ldc c p u n w rn crd cp offset =>
    .arm (condBits c ++ 6#3 ++ bit p ++ bit u ++ bit n ++ bit w ++ 1#1 ++ rn ++ crd ++ cp ++ offset)
  | .cdp c op1 crn crd cp op2 crm => .arm (condBits c ++ 14#4 ++ op1 ++ crn ++ crd ++ cp ++ op2 ++ 0#1 ++ crm)
  | .mcr c op1 crn rd cp op2 crm => .arm (condBits c ++ 14#4 ++ op1 ++ 0#1 ++ crn ++ rd ++ cp ++ op2 ++ 1#1 ++ crm)
  | .mrc c op1 crn rd cp op2 crm => .arm (condBits c ++ 14#4 ++ op1 ++ 1#1 ++ crn ++ rd ++ cp ++ op2 ++ 1#1 ++ crm)
  | .swi c comment => .arm (condBits c ++ 15#4 ++ comment)
  | .tAddReg rn rs rd => .thumb (0x0C#7 ++ rn ++ rs ++ rd)
  | .tSubReg rn rs rd => .thumb (0x0D#7 ++ rn ++ rs ++ rd)
  | .tAddImm3 imm3 rs rd => .thumb (0x0E#7 ++ imm3 ++ rs ++ rd)
  | .tSubImm3 imm3 rs rd => .thumb (0x0F#7 ++ imm3 ++ rs ++ rd)
  | .tLslImm off5 rs rd => .thumb (0#5 ++ off5 ++ rs ++ rd)
  | .tLsrImm off5 rs rd => .thumb (1#5 ++ off5 ++ rs ++ rd)
  | .tAsrImm off5 rs rd => .thumb (2#5 ++ off5 ++ rs ++ rd)
  | .tMovImm rd imm8 => .thumb (4#5 ++ rd ++ imm8)
  | .tCmpImm rd imm8 => .thumb (5#5 ++ rd ++ imm8)
  | .tAddImm8 rd imm8 => .thumb (6#5 ++ rd ++ imm8)
  | .tSubImm8 rd imm8 => .thumb (7#5 ++ rd ++ imm8)
  | .tAnd rs rd => .thumb (16#6 ++ 0#4 ++ rs ++ rd)
  | .tEor rs rd => .thumb (16#6 ++ 1#4 ++ rs ++ rd)
  | .tLslReg rs rd => .thumb (16#6 ++ 2#4 ++ rs ++ rd)
  | .tLsrReg rs rd => .thumb (16#6 ++ 3#4 ++ rs ++ rd)
  | .tAsrReg rs rd => .thumb (16#6 ++ 4#4 ++ rs ++ rd)
  | .tAdc rs rd => .thumb (16#6 ++ 5#4 ++ rs ++ rd)
  | .tSbc rs rd => .thumb (16#6 ++ 6#4 ++ rs ++ rd)
  | .tRorReg rs rd => .thumb (16#6 ++ 7#4 ++ rs ++ rd)
  | .tTst rs rd => .thumb (16#6 ++ 8#4 ++ rs ++ rd)
  | .tNeg rs rd => .thumb (16#6 ++ 9#4 ++ rs ++ rd)
  | .tCmpReg rs rd => .thumb (16#6 ++ 10#4 ++ rs ++ rd)
  | .tCmn rs rd => .thumb (16#6 ++ 11#4 ++ rs ++ rd)
  | .tOrr rs rd => .thumb (16#6 ++ 12#4 ++ rs ++ rd)
  | .tMul rs rd => .thumb (16#6 ++ 13#4 ++ rs ++ rd)
  | .tBic rs rd => .thumb (16#6 ++ 14#4 ++ rs ++ rd)
  | .tMvn rs rd => .thumb (16#6 ++ 15#4 ++ rs ++ rd)
  | .tAddHi hs hd => .thumb (0x44#8 ++ hd.extractLsb' 3 1 ++ hs ++ hd.extractLsb' 0 3)
  | .tCmpHi hs hd => .thumb (0x45#8 ++ hd.extractLsb' 3 1 ++ hs ++ hd.extractLsb' 0 3)
  | .tMovHi hs hd => .thumb (0x46#8 ++ hd.extractLsb' 3 1 ++ hs ++ hd.extractLsb' 0 3)
  | .tBx h1 hs sbz => .thumb (0x47#8 ++ bit h1 ++ hs ++ sbz)
  | .tLdrPc rd imm8 => .thumb (9#5 ++ rd ++ imm8)
  | .tStrReg ro rb rd => .thumb (0x28#7 ++ ro ++ rb ++ rd)
  | .tStrbReg ro rb rd => .thumb (0x2A#7 ++ ro ++ rb ++ rd)
  | .tLdrReg ro rb rd => .thumb (0x2C#7 ++ ro ++ rb ++ rd)
  | .tLdrbReg ro rb rd => .thumb (0x2E#7 ++ ro ++ rb ++ rd)
  | .tStrhReg ro rb rd => .thumb (0x29#7 ++ ro ++ rb ++ rd)
  | .tLdrsbReg ro rb rd => .thumb (0x2B#7 ++ ro ++ rb ++ rd)
  | .tLdrhReg ro rb rd => .thumb (0x2D#7 ++ ro ++ rb ++ rd)
  | .tLdrshReg ro rb rd => .thumb (0x2F#7 ++ ro ++ rb ++ rd)
  | .tStrImm off5 rb rd => .thumb (12#5 ++ off5 ++ rb ++ rd)
  | .tLdrImm off5 rb rd => .thumb (13#5 ++ off5 ++ rb ++ rd)
  | .tStrbImm off5 rb rd => .thumb (14#5 ++ off5 ++ rb ++ rd)
  | .tLdrbImm off5 rb rd => .thumb (15#5 ++ off5 ++ rb ++ rd)
  | .tStrhImm off5 rb rd => .thumb (16#5 ++ off5 ++ rb ++ rd)
  | .tLdrhImm off5 rb rd => .thumb (17#5 ++ off5 ++ rb ++ rd)
  | .tStrSp rd imm8 => .thumb (18#5 ++ rd ++ imm8)
  | .tLdrSp rd imm8 => .thumb (19#5 ++ rd ++ imm8)
  | .tAddPc rd imm8 => .thumb (20#5 ++ rd ++ imm8)
  | .tAddSp rd imm8 => .thumb (21#5 ++ rd ++ imm8)
  | .tSpAdd imm7 => .thumb (0x160#9 ++ imm7)
  | .tSpSub imm7 => .thumb (0x161#9 ++ imm7)
  | .tPush r rlist => .thumb (0x5A#7 ++ bit r ++ rlist)
  | .tPop r rlist => .thumb (0x5E#7 ++ bit r ++ rlist)
  | .tUnd1011 bits => .thumb (11#4 ++ bits)
  | .tStmia rb rlist => .thumb (24#5 ++ rb ++ rlist)
  | .tLdmia rb rlist => .thumb (25#5 ++ rb ++ rlist)
  | .tSwi value => .thumb (0xDF#8 ++ value)
  | .tUndCond bits => .thumb (0xDE#8 ++ bits)
  | .tBCond c offset => .thumb (13#4 ++ condBits c ++ offset)
  | .tB offset => .thumb (28#5 ++ offset)
  | .tUnd11101 bits => .thumb (29#5 ++ bits)
  | .tBlPrefix offset => .thumb (30#5 ++ offset)
  | .tBlSuffix offset => .thumb (31#5 ++ offset)

/-- The decoder on a word of either state. -/
def decode : Encoding → Instr
  | .arm w => decodeArm w
  | .thumb h => decodeThumb h

/-- The bits of an instruction as one 32-bit value (a THUMB halfword in the low half): the recorded value of an
Undefined Instruction or a Software Interrupt (spec/00_scope.md R18). -/
def instrWord (i : Instr) : Word :=
  match encode i with
  | .arm w => w
  | .thumb h => h.setWidth 32

end Sys2Proof
end

