-- ==== Sys2Proof/Config.lean ====
section
/-! DEFINITION. What the spec leaves open: the values it calls UNKNOWN (spec/00_scope.md R21) and the answers
of the platform parameter `Bus` that no one has supplied (spec/00_scope.md R11). Each is a constant with no
body: nothing can be proved about its value, so a claim holds whatever it is. -/

namespace Sys2Proof

/-- One answer of the platform parameter `Bus` (spec/20_memory.md R73, R75, R78): to a read, `abort` or the
value; to a write, `abort` or ok, and the bytes of memory the bus changed (an unaligned or an aborted write
leaves in memory what the bus decides: spec/93_implementation_defined.md T17, T18). -/
structure BusAnswer where
  /-- The bus answers `abort` in place of a value or ok (R73). -/
  aborts : Bool
  /-- The value of a read; the core takes the low bytes of the access size (R75). -/
  value : Word
  /-- The bytes a write left changed, in order (R78). -/
  stored : List (Word × Byte)
  deriving DecidableEq, Repr, Inhabited

namespace Config

/-- An UNKNOWN bit, at the draw counter (R21; log 4). -/
opaque freeBit : Nat → Bool

/-- An UNKNOWN word, at the draw counter (R21; log 4). -/
opaque freeWord : Nat → BitVec 32

/-- An UNKNOWN byte of memory the core has not written, at the draw counter and the address (R75; log 6). -/
opaque freeByte : Nat → Nat → BitVec 8

/-- What the bus answers when State holds no answer for it (R11, R73; log 8). -/
opaque busAnswer : Nat → BusAnswer

/-- The value one register of Reset's UNKNOWN registers takes (spec/60_exceptions.md R412; log 5): the draw
counter and the register's number in the reset order. -/
opaque resetWord : Nat → Nat → BitVec 32

end Config
end Sys2Proof
end

