-- ==== Sys2Proof/Machine/State.lean ====
section
/-! DEFINITION. The state of the machine as plain data (spec/10_state.md R30 to R62), with the platform's parameters
and the record of a step's outputs (spec/60_exceptions.md R426), the reasons a step stops (spec/70_reset_and_hazards.md
R442, spec/60_exceptions.md R428), and the state after reset (spec/70_reset_and_hazards.md R431). -/

namespace Sys2Proof.Machine

/-- The seven operating modes (spec/10_state.md R42). -/
inductive Mode where
  | usr | fiq | irq | svc | abt | und | sys
  deriving DecidableEq, Repr

/-- The six banks of R13 and R14 (R31): USR and SYS share the User bank. -/
inductive Bank where
  | usr | fiq | irq | svc | abt | und
  deriving DecidableEq, Repr

/-- The 31 physical registers (R31): R0-R7, R8_usr-R12_usr, R8_fiq-R12_fiq, the six R13, the six R14, and R15. -/
inductive PhysReg where
  | low (i : Fin 8)
  | high (i : Fin 5)
  | highFiq (i : Fin 5)
  | sp (b : Bank)
  | lr (b : Bank)
  | r15
  deriving DecidableEq, Repr

/-- Storage of the general registers other than R15 (R31); R13 and R14 are indexed by bank. -/
structure RegFile where
  /-- R0 to R7. -/
  low : Vector Word 8
  /-- R8_usr to R12_usr. -/
  high : Vector Word 5
  /-- R8_fiq to R12_fiq. -/
  highFiq : Vector Word 5
  /-- R13_usr, R13_fiq, R13_irq, R13_svc, R13_abt, R13_und. -/
  sp : Vector Word 6
  /-- R14_usr, R14_fiq, R14_irq, R14_svc, R14_abt, R14_und. -/
  lr : Vector Word 6
  deriving DecidableEq, Repr

/-- The five saved program status registers (R51). -/
structure SpsrFile where
  fiq : Word
  irq : Word
  svc : Word
  abt : Word
  und : Word
  deriving DecidableEq, Repr

/-- The entries of the exception descriptor table (spec/60_exceptions.md R391); `address` is the legacy entry that
never dispatches (R413). -/
inductive ExcType where
  | reset | undefined | softwareInterrupt | prefetchAbort | dataAbort | address | irq | fiq
  deriving DecidableEq, Repr

/-- One character of a descriptor's mask string (R391): `1`, `0`, `u`. -/
inductive MaskStep where
  | set | clear | keep
  deriving DecidableEq, Repr

/-- One row of the descriptor table (R391); the legacy row has no entry mode. -/
structure Descriptor where
  vector : Word
  priority : Nat
  mode : Option Mode
  maskI : MaskStep
  maskF : MaskStep
  deriving DecidableEq, Repr

/-- The dispatcher's own state (spec/10_state.md R54). -/
inductive DispatcherState where
  | idle | pending | dispatching
  deriving DecidableEq, Repr

/-- The stop status (R56). -/
inductive StopStatus where
  | running | fatal
  deriving DecidableEq, Repr

/-- The levels of the three input lines at one boundary (spec/60_exceptions.md R392). -/
structure Lines where
  reset : Bool
  fiq : Bool
  irq : Bool
  deriving DecidableEq, Repr

/-- A range of addresses, `base` to `base + size - 1`. -/
structure Region where
  base : Nat
  size : Nat
  deriving DecidableEq, Repr

/-- The kind of a bus access (spec/20_memory.md R74). -/
inductive AccessKind where
  | fetch | data | dataUser
  deriving DecidableEq, Repr

/-- The size of a bus access, 1, 2 or 4 bytes (R71). -/
inductive Size where
  | byte | half | word
  deriving DecidableEq, Repr

/-- One bus request (spec/60_exceptions.md R426): a write carries the value written, a read none. -/
structure BusRequest where
  addr : Word
  size : Size
  write : Option Word
  kind : AccessKind
  locked : Bool
  deriving DecidableEq, Repr

/-- What a dispatched exception records beside its kind (spec/00_scope.md R18): the instruction word, or the aborted
address. -/
inductive ExcInfo where
  | none
  | word (w : Word)
  | addr (a : Word)
  deriving DecidableEq, Repr

/-- The outcome of a step that has a next state (spec/60_exceptions.md R427), with the address A of the instruction
that raised an exception (for an interrupt, of the one not yet fetched). -/
inductive Report where
  | completed
  | skipped
  | exception (e : ExcType) (at_ : Word) (info : ExcInfo)
  deriving DecidableEq, Repr

/-- The outputs of the latest step (R426): its bus requests in order, and its report. -/
structure Output where
  requests : List BusRequest
  report : Report
  deriving DecidableEq, Repr

/-- The bytes the core has written (spec/20_memory.md R75): addresses strictly rising; an unlisted address holds no
byte of the core's and reads as an UNKNOWN one. -/
abbrev Memory := List Host.Cell

/-- The state of the machine. -/
structure State where
  /-- R0 to R14 of every bank (spec/10_state.md R31). -/
  regs : RegFile
  /-- R15, between steps the address of the next instruction (R37). -/
  pc : Word
  /-- CPSR (R41). -/
  cpsr : Word
  /-- The SPSRs (R51). -/
  spsr : SpsrFile
  /-- The bytes written in memory (spec/20_memory.md R70, R75). -/
  mem : Memory
  /-- UserBankHazard (spec/10_state.md R62). -/
  hazard : Bool
  /-- The dispatcher's state (R54). -/
  dispatcher : DispatcherState
  /-- The stop status (R56). -/
  stop : StopStatus
  /-- How many UNKNOWN values have been drawn (spec/00_scope.md R21; log 4). -/
  draws : Nat
  /-- The levels of the lines at the coming boundaries, next first; deasserted when empty (R11; log 10). -/
  lines : List Lines
  /-- The answers the platform's `Bus` will give, next first; free when empty (R11; log 8). -/
  bus : List BusAnswer
  /-- `PlainMemory`, the addresses that behave as memory (R11; log 7). -/
  plain : List Region
  /-- The outputs of the latest step (spec/60_exceptions.md R426; log 11). -/
  out : Output
  deriving DecidableEq, Repr

/-- Why the machine stops with a fault: the fatal channel (spec/60_exceptions.md R428). -/
inductive Fault where
  /-- `fatal(CorruptMode)`: an MSR or an exception return would write an illegal mode into CPSR.M, or the state
  already holds one. Raised by MSR, by the exception returns and by `step`. Safe: the spec stops here too; `left` is
  the state the step leaves, with the stop status Fatal. -/
  | corruptMode (left : State)
  /-- A step of a core whose stop status is Fatal: there is none (spec/10_state.md R56). Raised by `step`. Safe. -/
  | stopped
  deriving DecidableEq, Repr

/-- Why a step has no meaning: the spec's `refuse(reason)` (spec/00_scope.md R19), the reasons of
spec/70_reset_and_hazards.md R442. Each is safe: the spec refuses the step by the same name. -/
inductive Refusal where
  /-- An instruction this model gives no meaning yet. Raised by `exec`. Safe. -/
  | notModelled (mnemonic : String)
  /-- A should-be-zero or should-be-one field violated (spec/30_encoding.md R104). Raised by the instruction. Safe. -/
  | sbz
  /-- An ARM-state write of R15 with bits 1:0 not 0 (spec/40 R157), or a BX to an ARM target with bit 1 set (R158). Safe. -/
  | misalignedArmPC
  /-- Rs = R15 in a register-specified shift (spec/40 R155). Raised by data processing. Safe. -/
  | shiftByPC
  /-- Rd = R15 with a register-specified shift (spec/40 R155). Raised by data processing. Safe. -/
  | regShiftToPC
  /-- R15 as an operand of a multiply (spec/41 R190 to R195). Safe. -/
  | mulPC
  /-- Rd = Rm in MUL or MLA (R190, R191), Rd = Rs in THUMB MUL (spec/49 R335). Safe. -/
  | mulRdEqRm
  /-- RdHi, RdLo and Rm of a long multiply not distinct (spec/41 R192). Safe. -/
  | mulLongOverlap
  /-- Rm = R15 as a halfword offset (spec/42 R200). Safe. -/
  | halfwordRmPC
  /-- P = 0 with W = 1 in a halfword transfer (spec/42 R200). Safe. -/
  | halfwordPostW
  /-- Rd = R15 in a halfword transfer (spec/42 R200). Safe. -/
  | halfwordRdPC
  /-- Write-back to R15 (spec/42 R200, spec/45 R250). Safe. -/
  | writebackPC
  /-- Write-back with Rn = Rd (spec/42 R200, spec/45 R250). Safe. -/
  | writebackRnEqRd
  /-- MRS into R15 (spec/43 R210). Safe. -/
  | mrsPC
  /-- MSR from R15 (spec/43 R211). Safe. -/
  | msrPC
  /-- An MSR that would change CPSR.T (spec/43 R213). Safe. -/
  | msrChangesT
  /-- An SPSR access or exception return in USR or SYS (spec/43 R210, R213, spec/44 R238, spec/46 R275). Safe. -/
  | noSpsr
  /-- Rm = R15 as a single-transfer offset (spec/45 R250). Safe. -/
  | offsetRmPC
  /-- Write-back with a register offset Rm = Rn (spec/45 R250). Safe. -/
  | writebackRmEqRn
  /-- A byte transfer of R15 (spec/45 R250). Safe. -/
  | bytePC
  /-- R15 as the base of a block transfer (spec/46 R275). Safe. -/
  | blockBasePC
  /-- An empty register list (spec/46 R275, spec/49 R363 to R366). Safe. -/
  | emptyList
  /-- A load multiple that writes back and loads its base (spec/46 R275, spec/49 R366). Safe. -/
  | ldmWritebackBaseInList
  /-- A user-bank block transfer in USR or SYS (spec/46 R275). Safe. -/
  | userBankInUserMode
  /-- A user-bank block transfer with write-back (spec/46 R275). Safe. -/
  | userBankWriteback
  /-- R15 as an operand of a swap (spec/48 R297). Safe. -/
  | swapPC
  /-- The address register of a swap is Rd or Rm (spec/48 R297). Safe. -/
  | swapOverlap
  /-- A format 5 ADD, CMP or MOV with two low registers (spec/49 R338 to R340). Safe. -/
  | hiRegLoLo
  /-- THUMB BX with H1 = 1 (spec/49 R341). Safe. -/
  | thumbBxH1
  /-- A store into the two prefetched instruction slots (spec/70 R440). Safe. -/
  | selfModifyPrefetched
  /-- A banked register used right after LDM^ user bank (spec/70 R441). Safe. -/
  | bankedAccessAfterLdmUser
  deriving DecidableEq, Repr

/-- The three outcomes of a step (spec/40_cycle_condition_shifter.md R168). -/
abbrev Out := Host.Outcome State Fault Refusal

/-- The machine right after reset (spec/70_reset_and_hazards.md R431): R15 at the reset vector, SVC mode, ARM state,
IRQ and FIQ masked, dispatcher idle, running, no hazard. What R431 leaves UNKNOWN is zero here (DESIGN CHOICE; logs 1,
2, 3), and the platform's parameters and the model's own fields are as logs 4, 6, 7, 8, 10 and 11 say. -/
def State.reset : State where
  regs := { low := .replicate 8 0, high := .replicate 5 0, highFiq := .replicate 5 0,
            sp := .replicate 6 0, lr := .replicate 6 0 }
  pc := 0
  cpsr := 0x000000D3
  spsr := { fiq := 0, irq := 0, svc := 0, abt := 0, und := 0 }
  mem := []
  hazard := false
  dispatcher := .idle
  stop := .running
  draws := 0
  lines := []
  bus := []
  plain := [{ base := 0, size := 0x100000000 }]
  out := { requests := [], report := .completed }

end Sys2Proof.Machine
end

