-- ==== Sys2Proof/Machine/Ops.lean ====
section
/-! DEFINITION. The named operations over registers, status registers, memory and the bus, taking an exception and
returning from one, the two branch primitives, and the frame every meaning runs in (spec/10_state.md,
spec/20_memory.md, spec/40_cycle_condition_shifter.md R150 to R160, spec/60_exceptions.md). -/

namespace Sys2Proof.Machine

/-! ## Modes and banks -/

/-- The encoding of a mode in CPSR[4:0] (spec/10_state.md R42). -/
def modeCode : Mode → Word
  | .usr => 0x10
  | .fiq => 0x11
  | .irq => 0x12
  | .svc => 0x13
  | .abt => 0x17
  | .und => 0x1B
  | .sys => 0x1F

/-- The mode of bits 4:0 of a status word; none for the 25 illegal values (R43). -/
def modeOf (psr : Word) : Option Mode :=
  match (psr.extractLsb' 0 5).toNat with
  | 0x10 => some .usr
  | 0x11 => some .fiq
  | 0x12 => some .irq
  | 0x13 => some .svc
  | 0x17 => some .abt
  | 0x1B => some .und
  | 0x1F => some .sys
  | _ => none

/-- The current mode. A running core holds a legal mode (R43); `step` stops on an illegal one, so the default is
never used in a step (log 12). -/
def State.mode (s : State) : Mode := (modeOf s.cpsr).getD .usr

/-- The bank a mode uses for R13 and R14 (R33). -/
def bankOf : Mode → Bank
  | .usr => .usr
  | .fiq => .fiq
  | .irq => .irq
  | .svc => .svc
  | .abt => .abt
  | .und => .und
  | .sys => .usr

/-- `Bank(mode, n)` (R33). -/
def physReg (m : Mode) (n : Reg) : PhysReg :=
  match n.toNat with
  | 15 => .r15
  | 14 => .lr (bankOf m)
  | 13 => .sp (bankOf m)
  | k =>
    if k < 8 then .low (Fin.ofNat 8 k)
    else if m = .fiq then .highFiq (Fin.ofNat 5 (k - 8))
    else .high (Fin.ofNat 5 (k - 8))

/-- The place of a bank in `RegFile.sp` and `RegFile.lr`. -/
def bankIndex : Bank → Fin 6
  | .usr => 0
  | .fiq => 1
  | .irq => 2
  | .svc => 3
  | .abt => 4
  | .und => 5

/-! ## Updates of the state, one for each field -/

/-- Reads a physical register. -/
def State.getPhys (s : State) : PhysReg → Word
  | .low i => s.regs.low[i]
  | .high i => s.regs.high[i]
  | .highFiq i => s.regs.highFiq[i]
  | .sp b => s.regs.sp[bankIndex b]
  | .lr b => s.regs.lr[bankIndex b]
  | .r15 => s.pc

/-- Writes a physical register. R15 is never written as a plain register (R39), so that case changes nothing. -/
def State.setPhys (s : State) (p : PhysReg) (v : Word) : State :=
  match p with
  | .low i => { s with regs := { s.regs with low := s.regs.low.set i v } }
  | .high i => { s with regs := { s.regs with high := s.regs.high.set i v } }
  | .highFiq i => { s with regs := { s.regs with highFiq := s.regs.highFiq.set i v } }
  | .sp b => { s with regs := { s.regs with sp := s.regs.sp.set (bankIndex b) v } }
  | .lr b => { s with regs := { s.regs with lr := s.regs.lr.set (bankIndex b) v } }
  | .r15 => s

/-- Writes R15. -/
def State.setPc (s : State) (v : Word) : State := { s with pc := v }

/-- Writes CPSR. -/
def State.setCpsr (s : State) (v : Word) : State := { s with cpsr := v }

/-- Writes memory. -/
def State.setMem (s : State) (m : Memory) : State := { s with mem := m }

/-- Writes UserBankHazard (R62). -/
def State.setHazard (s : State) (b : Bool) : State := { s with hazard := b }

/-- Writes the dispatcher's state (R54). -/
def State.setDispatcher (s : State) (d : DispatcherState) : State := { s with dispatcher := d }

/-- Writes the stop status (R56). -/
def State.setStop (s : State) (st : StopStatus) : State := { s with stop := st }

/-- Counts one draw of UNKNOWN values (spec/00_scope.md R21). -/
def State.drawn (s : State) : State := { s with draws := s.draws + 1 }

/-- Sets the platform's coming answers. -/
def State.setBus (s : State) (b : List BusAnswer) : State := { s with bus := b }

/-- Sets the coming levels of the input lines. -/
def State.setLines (s : State) (l : List Lines) : State := { s with lines := l }

/-- Records the outcome of the step (spec/60_exceptions.md R427). -/
def State.setReport (s : State) (r : Report) : State := { s with out := { s.out with report := r } }

/-- Records a bus request (R426). -/
def State.logRequest (s : State) (r : BusRequest) : State :=
  { s with out := { s.out with requests := s.out.requests ++ [r] } }

/-- Forgets the requests of the step before. -/
def State.clearRequests (s : State) : State := { s with out := { s.out with requests := [] } }

/-! ## Status registers -/

/-- One bit of a status word (spec/10_state.md R45). -/
def psrBit (psr : Word) (i : Nat) : Bool := psr.getLsbD i

/-- Writes one bit of a status word and leaves the others (R45). -/
def setPsrBit (psr : Word) (i : Nat) (b : Bool) : Word :=
  if b then psr ||| (1#32 <<< i) else psr &&& ~~~(1#32 <<< i)

/-- CPSR.N (R41). -/
def State.flagN (s : State) : Bool := psrBit s.cpsr 31
/-- CPSR.Z (R41). -/
def State.flagZ (s : State) : Bool := psrBit s.cpsr 30
/-- CPSR.C (R41). -/
def State.flagC (s : State) : Bool := psrBit s.cpsr 29
/-- CPSR.V (R41). -/
def State.flagV (s : State) : Bool := psrBit s.cpsr 28
/-- CPSR.I, which masks IRQ (R48). -/
def State.flagI (s : State) : Bool := psrBit s.cpsr 7
/-- CPSR.F, which masks FIQ (R48). -/
def State.flagF (s : State) : Bool := psrBit s.cpsr 6
/-- CPSR.T: THUMB state (R47). -/
def State.thumb (s : State) : Bool := psrBit s.cpsr 5

/-- `SetOperatingMode`: writes CPSR[4:0] only, with mask 0x1F (R44). -/
def setMode (psr : Word) (m : Mode) : Word := (psr &&& ~~~0x0000001F) ||| modeCode m

/-- The bits of a status word that exist; bits 27:10 read as zero and ignore writes (R50). -/
def psrMask : Word := 0xF00003FF

/-- The SPSR of a mode; USR and SYS have none (R51). -/
def State.getSpsr (s : State) : Mode → Option Word
  | .usr => none
  | .fiq => some s.spsr.fiq
  | .irq => some s.spsr.irq
  | .svc => some s.spsr.svc
  | .abt => some s.spsr.abt
  | .und => some s.spsr.und
  | .sys => none

/-- Writes the SPSR of an exception mode (R52); USR and SYS have none to write. -/
def State.setSpsr (s : State) (m : Mode) (v : Word) : State :=
  match m with
  | .usr => s
  | .fiq => { s with spsr := { s.spsr with fiq := v } }
  | .irq => { s with spsr := { s.spsr with irq := v } }
  | .svc => { s with spsr := { s.spsr with svc := v } }
  | .abt => { s with spsr := { s.spsr with abt := v } }
  | .und => { s with spsr := { s.spsr with und := v } }
  | .sys => s

/-- The current mode has no SPSR: USR or SYS (R51). -/
def State.lacksSpsr (s : State) : Bool := (s.getSpsr s.mode).isNone

/-! ## General registers -/

/-- The length of the instruction being executed, by the state (spec/40 R150; log 13). -/
def State.isz (s : State) : Word := if s.thumb then 2 else 4

/-- What an instruction that names R15 reads: A + 8 in ARM state, A + 4 in THUMB state (spec/40 R154). -/
def State.pcRead (s : State) : Word := if s.thumb then s.pc + 4 else s.pc + 8

/-- Reads operand `n`, with R15 reading as `pcv` (spec/00_scope.md R15). -/
def State.readRegAs (s : State) (pcv : Word) (n : Reg) : Word :=
  if n = 15 then pcv else s.getPhys (physReg s.mode n)

/-- `x[n]` (spec/00_scope.md R15). -/
def State.readReg (s : State) (n : Reg) : Word := s.readRegAs s.pcRead n

/-- `x[n] <- v` for n in 0 to 14 (R15); n = 15 is never written this way (spec/10_state.md R39). -/
def State.writeReg (s : State) (n : Reg) (v : Word) : State := s.setPhys (physReg s.mode n) v

/-- `x_usr[n]`, the User bank whatever the mode (R15); R15 as `readReg`. -/
def State.readUser (s : State) (n : Reg) : Word :=
  if n = 15 then s.pcRead else s.getPhys (physReg .usr n)

/-- `x_usr[n] <- v` (R15). -/
def State.writeUser (s : State) (n : Reg) (v : Word) : State := s.setPhys (physReg .usr n) v

/-- A register field of three bits as a register number (spec/30_encoding.md R122). -/
def lo (r : LoReg) : Reg := r.setWidth 4

/-- The current mode banks register `n`, 8 to 14, differently from USR (spec/70_reset_and_hazards.md R441). -/
def State.banksAway (s : State) (n : Reg) : Bool :=
  8 ≤ n.toNat && n.toNat ≤ 14 && physReg s.mode n != physReg .usr n

/-! ## Memory -/

/-- The byte the core has written at an address, if it has (spec/20_memory.md R75). -/
def Memory.read : Memory → Nat → Option Byte
  | [], _ => none
  | (a, b) :: m, k => if k = a then some b else if k < a then none else Memory.read m k

/-- Writes one byte, keeping the addresses strictly rising. -/
def Memory.write : Memory → Nat → Byte → Memory
  | [], k, v => [(k, v)]
  | (a, b) :: m, k, v =>
    if k < a then (k, v) :: (a, b) :: m
    else if k = a then (k, v) :: m
    else (a, b) :: Memory.write m k v

/-- Writes bytes at consecutive addresses, the first at the lowest. -/
def Memory.writeBytes : Memory → Nat → List Byte → Memory
  | m, _, [] => m
  | m, k, b :: bs => Memory.writeBytes (Memory.write m k b) (k + 1) bs

/-- Writes the bytes a bus answer says the access left changed, in order (R78). -/
def Memory.writeCells : Memory → List (Word × Byte) → Memory
  | m, [] => m
  | m, (a, b) :: cells => Memory.writeCells (Memory.write m a.toNat b) cells

/-- Addresses strictly rising from `low` and below 2^32. -/
def Memory.wfFrom : Nat → Memory → Bool
  | _, [] => true
  | low, (a, _) :: m => decide (low ≤ a) && decide (a < 0x100000000) && Memory.wfFrom (a + 1) m

/-- The canonical form of memory. -/
def Memory.wf (m : Memory) : Bool := Memory.wfFrom 0 m

/-- The number of bytes of an access (R71). -/
def Size.bytes : Size → Nat
  | .byte => 1
  | .half => 2
  | .word => 4

/-- The low bits of a value that an access of the size carries (spec/00_scope.md R17). -/
def Size.low (sz : Size) (v : Word) : Word :=
  match sz with
  | .byte => v &&& 0x000000FF
  | .half => v &&& 0x0000FFFF
  | .word => v

/-- An address of a region. -/
def Region.holds (r : Region) (a : Nat) : Bool := r.base ≤ a && a < r.base + r.size

/-- An address of `PlainMemory` (R75). -/
def State.inPlain (s : State) (a : Nat) : Bool := s.plain.any (·.holds a)

/-- `n` bytes from `a` all lie in `PlainMemory`. -/
def State.allPlain (s : State) : Nat → Nat → Bool
  | _, 0 => true
  | a, n + 1 => s.inPlain a && s.allPlain (a + 1) n

/-- The access is memory's: aligned, all bytes in `PlainMemory` (R75). Every other access is answered by `Bus`. -/
def State.plainAccess (s : State) (addr : Word) (sz : Size) : Bool :=
  addr.toNat % sz.bytes == 0 && s.allPlain addr.toNat sz.bytes

/-- The byte at an address: the last one written there, or an UNKNOWN one (R75; log 6). -/
def State.byteAt (s : State) (a : Nat) : Byte := (s.mem.read a).getD (Config.freeByte s.draws a)

/-- The `n` bytes from an address, lowest address first. -/
def State.bytesAt (s : State) : Nat → Nat → List Byte
  | _, 0 => []
  | a, n + 1 => s.byteAt a :: s.bytesAt (a + 1) n

/-- The platform's next answer, held in State or free (spec/00_scope.md R11; log 8). -/
def State.answer (s : State) : BusAnswer :=
  match s.bus with
  | [] => Config.busAnswer s.draws
  | a :: _ => a

/-- The state after the platform's next answer. -/
def State.answered (s : State) : State :=
  match s.bus with
  | [] => s.drawn
  | _ :: rest => s.setBus rest

/-- `MemRead(addr, n, kind)` (spec/00_scope.md R17, spec/20_memory.md R75): the value, or none for `abort`. -/
def memRead (addr : Word) (sz : Size) (kind : AccessKind) (locked : Bool) (s : State) : Option Word × State :=
  let s1 := s.logRequest { addr := addr, size := sz, write := none, kind := kind, locked := locked }
  if s.plainAccess addr sz then (some (leWord (s.bytesAt addr.toNat sz.bytes)), s1.drawn)
  else (if s.answer.aborts then none else some (sz.low s.answer.value), s1.answered)

/-- The memory effect of `MemWrite`: the value's bytes where the access is memory's, else what `Bus` says. -/
def State.memAfterWrite (s : State) (addr : Word) (sz : Size) (v : Word) : Memory :=
  if s.plainAccess addr sz then s.mem.writeBytes addr.toNat (leBytes sz.bytes v)
  else s.mem.writeCells s.answer.stored

/-- `MemWrite(addr, n, v, kind)` (R17, R75, R78): whether the bus answered `abort`, and the state after. -/
def memWrite (addr : Word) (sz : Size) (v : Word) (kind : AccessKind) (locked : Bool) (s : State) : Bool × State :=
  let s1 := s.logRequest { addr := addr, size := sz, write := some (sz.low v), kind := kind, locked := locked }
  if s.plainAccess addr sz then (false, s1.setMem (s.memAfterWrite addr sz v))
  else (s.answer.aborts, s1.answered.setMem (s.memAfterWrite addr sz v))

/-- Byte `a` lies in the two prefetched instruction slots, A + isz to A + 3 isz - 1 (spec/70 R440). -/
def State.inPrefetchWindow (s : State) (a : Word) : Bool :=
  decide ((a - (s.pc + s.isz)).toNat < 2 * s.isz.toNat)

/-- One of the `n` bytes from `addr` lies in a prefetched slot. -/
def State.selfModifies (s : State) (addr : Word) : Nat → Bool
  | 0 => false
  | n + 1 => s.inPrefetchWindow addr || s.selfModifies (addr + 1) n

/-- The next write, of `sz` bytes at `addr`, would write a byte of a prefetched slot (R440): the bytes are those of the
access where it is memory's, and those the platform's answer names where it is not (spec/20_memory.md R78; log 14). -/
def State.wouldSelfModify (s : State) (addr : Word) (sz : Size) : Bool :=
  if s.plainAccess addr sz then s.selfModifies addr sz.bytes
  else s.answer.stored.any fun cell => s.inPrefetchWindow cell.1

/-- The state whose next answer is the one after a write at `addr`: such a write takes an answer only where it is not
memory's. -/
def State.afterWrite (s : State) (addr : Word) (sz : Size) : State := if s.plainAccess addr sz then s else s.answered

/-! ## Taking an exception -/

/-- The exception descriptor table (spec/60_exceptions.md R391). -/
def descriptor : ExcType → Descriptor
  | .reset => { vector := 0x00, priority := 1, mode := some .svc, maskI := .set, maskF := .set }
  | .undefined => { vector := 0x04, priority := 6, mode := some .und, maskI := .set, maskF := .keep }
  | .softwareInterrupt => { vector := 0x08, priority := 7, mode := some .svc, maskI := .set, maskF := .keep }
  | .prefetchAbort => { vector := 0x0C, priority := 5, mode := some .abt, maskI := .set, maskF := .keep }
  | .dataAbort => { vector := 0x10, priority := 2, mode := some .abt, maskI := .set, maskF := .keep }
  | .address => { vector := 0x14, priority := 0, mode := none, maskI := .keep, maskF := .keep }
  | .irq => { vector := 0x18, priority := 4, mode := some .irq, maskI := .set, maskF := .keep }
  | .fiq => { vector := 0x1C, priority := 3, mode := some .fiq, maskI := .set, maskF := .set }

/-- A mask character applied to a bit (R396). -/
def applyMask : MaskStep → Bool → Bool
  | .set, _ => true
  | .clear, _ => false
  | .keep, b => b

/-- CPSR after entry: steps (3), (4) and (5) of R396. -/
def entryPsr (d : Descriptor) (m : Mode) (old : Word) : Word :=
  let moded := setMode old m
  let armed := setPsrBit moded 5 false
  let maskedI := setPsrBit armed 7 (applyMask d.maskI (psrBit old 7))
  setPsrBit maskedI 6 (applyMask d.maskF (psrBit old 6))

/-- `Dispatch(E, link)`, the six steps in order (R396). An entry without a mode never dispatches (R413). -/
def dispatch (e : ExcType) (link : Word) (info : ExcInfo) (s : State) : State :=
  match (descriptor e).mode with
  | none => s
  | some m =>
    let started := s.setDispatcher .dispatching
    let linked := started.setPhys (.lr (bankOf m)) link
    let saved := linked.setSpsr m s.cpsr
    let entered := saved.setCpsr (entryPsr (descriptor e) m s.cpsr)
    let vectored := entered.setPc (descriptor e).vector
    ((vectored.setHazard false).setDispatcher .idle).setReport (.exception e s.pc info)

/-- `raise E`: the event is pending, then dispatched in the same step (spec/00_scope.md R18, spec/60 R395). -/
def raise (e : ExcType) (link : Word) (info : ExcInfo) (s : State) : State :=
  dispatch e link info (s.setDispatcher .pending)

/-- Data Abort of the instruction at A, with link A + 8 in both states (R397, R407). -/
def dataAbort (addr : Word) (s : State) : State := raise .dataAbort (s.pc + 8) (.addr addr) s

/-- Undefined Instruction, with link A + isz (R397, R408). -/
def undefinedInstruction (w : Word) (s : State) : State := raise .undefined (s.pc + s.isz) (.word w) s

/-- Software Interrupt, with link A + isz (R397, R409). -/
def softwareInterrupt (w : Word) (s : State) : State := raise .softwareInterrupt (s.pc + s.isz) (.word w) s

/-- Prefetch Abort of the fetch at A, with link A + 4 (R397, R406). -/
def prefetchAbort (s : State) : State := raise .prefetchAbort (s.pc + 4) (.addr s.pc) s

/-- IRQ or FIQ at the boundary before the instruction at N, with link N + 4 (R397, R410, R411). -/
def interrupt (e : ExcType) (s : State) : State := raise e (s.pc + 4) .none s

/-- The registers `DispatchReset` leaves: every one UNKNOWN (R412; log 5). -/
def resetRegs (k : Nat) : RegFile where
  low := .ofFn fun i => Config.resetWord k i
  high := .ofFn fun i => Config.resetWord k (8 + i)
  highFiq := .ofFn fun i => Config.resetWord k (13 + i)
  sp := .ofFn fun i => Config.resetWord k (18 + i)
  lr := .ofFn fun i => Config.resetWord k (24 + i)

/-- The SPSRs `DispatchReset` leaves: UNKNOWN in the bits that exist (R412; log 5). -/
def resetSpsr (k : Nat) : SpsrFile where
  fiq := Config.resetWord k 30 &&& psrMask
  irq := Config.resetWord k 31 &&& psrMask
  svc := Config.resetWord k 32 &&& psrMask
  abt := Config.resetWord k 33 &&& psrMask
  und := Config.resetWord k 34 &&& psrMask

/-- The CPSR `DispatchReset` leaves: N, Z, C, V, E and A UNKNOWN, I = F = 1, T = 0, SVC (R412). -/
def resetPsr (k : Nat) : Word := (Config.resetWord k 35 &&& 0xF0000300) ||| 0x000000D3

/-- `DispatchReset` (R412). The stop status, memory and the platform are untouched (spec/70 R433). -/
def dispatchReset (s : State) : State :=
  { s with
    regs := resetRegs s.draws
    spsr := resetSpsr s.draws
    cpsr := resetPsr s.draws
    pc := (descriptor .reset).vector
    hazard := false
    dispatcher := .idle
    draws := s.draws + 1
    out := { s.out with report := .exception .reset s.pc .none } }

/-! ## Writing R15 -/

/-- `pc <- t` (spec/40 R157), in the state in force now. -/
def branchTo (t : Word) (s : State) : Out :=
  if s.thumb then .next (s.setPc (t &&& 0xFFFFFFFE))
  else if t.extractLsb' 0 2 = 0 then .next (s.setPc t)
  else .refused .misalignedArmPC

/-- `pc_bx <- t`, `ChangeCpuState` (R158). -/
def branchExchange (t : Word) (s : State) : Out :=
  if t.getLsbD 0 then .next ((s.setCpsr (setPsrBit s.cpsr 5 true)).setPc (t &&& 0xFFFFFFFE))
  else if t.getLsbD 1 then .refused .misalignedArmPC
  else .next ((s.setCpsr (setPsrBit s.cpsr 5 false)).setPc t)

/-- `R15 <- A + isz` (R159). -/
def State.advance (s : State) : State := s.setPc (s.pc + s.isz)

/-- `fatal(CorruptMode)`: the stop status becomes Fatal and nothing else of the step happens (spec/60 R428). -/
def fatalCorruptMode (s : State) : Out := .fault (.corruptMode (s.setStop .fatal))

/-- `ExceptionReturn(target)` (spec/60 R403): CPSR from the SPSR of the current mode, then the branch in the restored
state. -/
def exceptionReturn (target : Word) (s : State) : Out :=
  match s.getSpsr s.mode with
  | none => .refused .noSpsr
  | some v =>
    if (modeOf v).isNone then fatalCorruptMode s
    else branchTo target (s.setCpsr (v &&& psrMask))

/-! ## The condition and the frame of every meaning -/

/-- `ConditionPassed(cond)` (spec/40 R152). -/
def condPassed (c : Cond) (s : State) : Bool :=
  match c with
  | .eq => s.flagZ
  | .ne => !s.flagZ
  | .cs => s.flagC
  | .cc => !s.flagC
  | .mi => s.flagN
  | .pl => !s.flagN
  | .vs => s.flagV
  | .vc => !s.flagV
  | .hi => s.flagC && !s.flagZ
  | .ls => !s.flagC || s.flagZ
  | .ge => s.flagN == s.flagV
  | .lt => s.flagN != s.flagV
  | .gt => !s.flagZ && s.flagN == s.flagV
  | .le => s.flagZ || s.flagN != s.flagV
  | .al => true
  | .nv => false

/-- The first refusal of a list of checks, in the order the rule states them. -/
def firstRefusal : List (Bool × Refusal) → Option Refusal
  | [] => none
  | (true, r) :: _ => some r
  | (false, _) :: rest => firstRefusal rest

/-- A skipped instruction: R15 advances, and the step is not an LDM^, so the hazard ends (spec/40 R153, spec/70 R441). -/
def State.skip (s : State) : State := (s.advance.setHazard false).setReport .skipped

/-- The state an instruction's own effect starts from: the hazard of the step before is spent (spec/10_state.md R62). -/
def State.started (s : State) : State := (s.setHazard false).setReport .completed

/-- Runs an instruction: the condition (spec/40 R150 step 6, R153); the refusals of its form, in the rule's order;
the refusal of a banked access after LDM^ (spec/70 R441), `touched` being the general registers it reads or writes;
then its effect. -/
def conditionally (c : Cond) (form : List (Bool × Refusal)) (touched : List Reg) (effect : State → Out) (s : State) :
    Out :=
  if condPassed c s then
    match firstRefusal form with
    | some r => .refused r
    | none =>
      if s.hazard && touched.any s.banksAway then .refused .bankedAccessAfterLdmUser
      else effect s.started
  else .next s.skip

/-- Runs a THUMB instruction, which has no condition outside format 16 (spec/40 R153). -/
def unconditionally (form : List (Bool × Refusal)) (touched : List Reg) (effect : State → Out) (s : State) : Out :=
  conditionally .al form touched effect s

/-! ## The instruction boundary and the fetch -/

/-- The lines at this boundary (spec/60 R392; log 10). -/
def State.linesNow (s : State) : Lines :=
  match s.lines with
  | [] => { reset := false, fiq := false, irq := false }
  | l :: _ => l

/-- The state as the step begins: this boundary's lines are consumed, the outputs of the step before forgotten. -/
def State.boundary (s : State) : State := (s.setLines s.lines.tail).clearRequests

/-- The exception the lines give at this boundary, in priority order (spec/60 R393 to R395): the entry, or none. -/
def sampleLines (l : Lines) (s : State) : Option State :=
  if l.reset then some (dispatchReset s)
  else if l.fiq && !s.flagF then some (interrupt .fiq s)
  else if l.irq && !s.flagI then some (interrupt .irq s)
  else none

/-- The size of a fetch (spec/40 R151). -/
def State.fetchSize (s : State) : Size := if s.thumb then .half else .word

/-- The fetch of the instruction at R15 (R151). -/
def fetch (s : State) : Option Word × State := memRead s.pc s.fetchSize .fetch false s

/-! ## Placing an instruction -/

/-- The low bytes of a value, lowest address first: `n` of them, from a value of any size. -/
def natBytes : Nat → Nat → List Byte
  | 0, _ => []
  | n + 1, v => BitVec.ofNat 8 v :: natBytes n (v / 256)

/-- The state with an instruction of `nbits` bits (16 for THUMB, 32 for ARM) stored at the aligned R15, no line
asserted, so that the next step fetches and runs it (log 16). -/
def State.placeInstruction (s : State) (nbits w : Nat) : State :=
  let isThumb := decide (nbits ≤ 16)
  let a := if isThumb then s.pc &&& 0xFFFFFFFE else s.pc &&& 0xFFFFFFFC
  let size := if isThumb then Size.half else Size.word
  let placed := ((s.setLines []).setCpsr (setPsrBit s.cpsr 5 isThumb)).setPc a
  let stored := placed.setMem (placed.mem.writeBytes a.toNat (natBytes size.bytes w))
  if stored.plainAccess a size then stored
  else { stored with plain := { base := a.toNat, size := size.bytes } :: stored.plain }

end Sys2Proof.Machine
end

