-- ==== Sys2Proof/Machine/Flags.lean ====
section
/-! DEFINITION. The adder, the ALU operations and the flag writes (spec/40_cycle_condition_shifter.md R164 to R166). -/

namespace Sys2Proof.Machine

/-- A result with the carry and overflow an S bit would write. -/
structure AluResult where
  value : Word
  carry : Bool
  overflow : Bool
  deriving DecidableEq, Repr

/-- The exact sum of `AddWithCarry`: uint(a) + uint(b) + uint(cin) (R164). -/
def exactSum (a b : Word) (cin : Bool) : Nat := a.toNat + b.toNat + cin.toNat

/-- `AddWithCarry(a, b, cin)` (R164). -/
def addWithCarry (a b : Word) (cin : Bool) : AluResult where
  value := BitVec.ofNat 32 (exactSum a b cin)
  carry := decide (0x100000000 ≤ exactSum a b cin)
  overflow := a.msb == b.msb && (BitVec.ofNat 32 (exactSum a b cin)).msb != a.msb

/-- a - b as `AddWithCarry(a, NOT b, cin)`: SUB and CMP with cin = 1, SBC with cin = C (R164). -/
def subWithCarry (a b : Word) (cin : Bool) : AluResult := addWithCarry a (~~~b) cin

/-- The four flags written, every other bit of the status word left (R45, R165, R166). -/
def withFlags (psr : Word) (n z c v : Bool) : Word :=
  setPsrBit (setPsrBit (setPsrBit (setPsrBit psr 31 n) 30 z) 29 c) 28 v

/-- N from bit 31, Z from zero, C and V from the result (R165). -/
def State.setNZCV (s : State) (r : AluResult) : State :=
  s.setCpsr (withFlags s.cpsr r.value.msb (r.value == 0) r.carry r.overflow)

/-- A logical result: C is the carry given, V is unchanged (R166). -/
def logical (s : State) (value : Word) (carry : Bool) : AluResult :=
  { value := value, carry := carry, overflow := s.flagV }

/-- N and Z of a MUL or MLA with S, C UNKNOWN, V unchanged (spec/41_multiply.md R190). -/
def State.setMulFlags (s : State) (value : Word) : State :=
  (s.setNZCV (logical s value (Config.freeBit s.draws))).drawn

/-- N and Z of a 64-bit result, C and V UNKNOWN (spec/41_multiply.md R192). -/
def State.setMulLongFlags (s : State) (p : BitVec 64) : State :=
  (s.setCpsr (withFlags s.cpsr p.msb (p == 0) (Config.freeBit s.draws) (Config.freeBit (s.draws + 1)))).drawn.drawn

end Sys2Proof.Machine
end

