-- ==== Sys2Proof/Machine/Operands.lean ====
section
/-! DEFINITION. The barrel shifter and every operand form: operand 2 of data processing, the offsets of the single and
halfword transfers, the addresses of the block transfers (spec/40_cycle_condition_shifter.md R154, R155, R161 to R163;
spec/42_halfword_transfer.md R200; spec/45_single_transfer.md R250; spec/46_block_transfer.md R270). -/

namespace Sys2Proof.Machine

/-- Operand 2 and the shifter carry-out. -/
structure Shifted where
  value : Word
  carry : Bool
  deriving DecidableEq, Repr

/-- All copies of a bit. -/
def allCopies (b : Bool) : Word := if b then 0xFFFFFFFF else 0

/-- `Shift_imm(v, type, n, c)`, n from 0 to 31 (R162). -/
def shiftByImm (v : Word) (ty : ShiftType) (n : Nat) (c : Bool) : Shifted :=
  match ty with
  | .lsl => if n = 0 then ⟨v, c⟩ else ⟨v <<< n, v.getLsbD (32 - n)⟩
  | .lsr => if n = 0 then ⟨0, v.getLsbD 31⟩ else ⟨v >>> n, v.getLsbD (n - 1)⟩
  | .asr => if n = 0 then ⟨allCopies (v.getLsbD 31), v.getLsbD 31⟩ else ⟨v.sshiftRight n, v.getLsbD (n - 1)⟩
  | .ror => if n = 0 then ⟨BitVec.ofBool c ++ v.extractLsb' 1 31, v.getLsbD 0⟩
            else ⟨v.rotateRight n, v.getLsbD (n - 1)⟩

/-- `Shift_reg(v, type, s, c)`, s from 0 to 255 (R163). -/
def shiftByReg (v : Word) (ty : ShiftType) (n : Nat) (c : Bool) : Shifted :=
  if n = 0 then ⟨v, c⟩
  else match ty with
  | .lsl => if n < 32 then ⟨v <<< n, v.getLsbD (32 - n)⟩ else if n = 32 then ⟨0, v.getLsbD 0⟩ else ⟨0, false⟩
  | .lsr => if n < 32 then ⟨v >>> n, v.getLsbD (n - 1)⟩ else if n = 32 then ⟨0, v.getLsbD 31⟩ else ⟨0, false⟩
  | .asr => if n < 32 then ⟨v.sshiftRight n, v.getLsbD (n - 1)⟩ else ⟨allCopies (v.getLsbD 31), v.getLsbD 31⟩
  | .ror => if n % 32 = 0 then ⟨v, v.getLsbD 31⟩ else ⟨v.rotateRight (n % 32), v.getLsbD (n % 32 - 1)⟩

/-- `ROR(zext_32(imm8), 2 rotate)` (R161). -/
def rotatedImm (rotate : BitVec 4) (imm8 : BitVec 8) : Word := (imm8.setWidth 32).rotateRight (2 * rotate.toNat)

/-- The carry-out of a rotated immediate (R161). -/
def rotatedImmCarry (rotate : BitVec 4) (imm8 : BitVec 8) (c : Bool) : Bool :=
  if rotate = 0 then c else (rotatedImm rotate imm8).getLsbD 31

/-! ## Operand 2 -/

/-- What R15 reads as in a data-processing instruction: A + 8, A + 12 with a register-specified shift (R154, R155). -/
def operand2Pc (op2 : Operand2) (s : State) : Word :=
  match op2 with
  | .imm _ _ => s.pcRead
  | .shiftImm _ _ _ => s.pcRead
  | .shiftReg _ _ _ => s.pcRead + 4

/-- Operand 2 and its carry-out (spec/44_data_processing.md R220). -/
def operand2 (op2 : Operand2) (s : State) : Shifted :=
  match op2 with
  | .imm rotate imm8 => ⟨rotatedImm rotate imm8, rotatedImmCarry rotate imm8 s.flagC⟩
  | .shiftImm amount ty rm => shiftByImm (s.readRegAs (operand2Pc op2 s) rm) ty amount.toNat s.flagC
  | .shiftReg rs ty rm =>
    shiftByReg (s.readRegAs (operand2Pc op2 s) rm) ty ((s.readReg rs).setWidth 8).toNat s.flagC

/-- The refusals of the register-specified shift, `rd` being the Rd field (R220). -/
def operand2Refusals (op2 : Operand2) (rd : Reg) : List (Bool × Refusal) :=
  match op2 with
  | .imm _ _ => []
  | .shiftImm _ _ _ => []
  | .shiftReg rs _ _ => [(rs == 15, .shiftByPC), (rd == 15, .regShiftToPC)]

/-- The general registers operand 2 reads. -/
def operand2Regs (op2 : Operand2) : List Reg :=
  match op2 with
  | .imm _ _ => []
  | .shiftImm _ _ rm => [rm]
  | .shiftReg rs _ rm => [rs, rm]

/-! ## Offsets -/

/-- Rn plus or minus an offset, by U. -/
def offsetBase (u : Bool) (base off : Word) : Word := if u then base + off else base - off

/-- The offset of a single data transfer (spec/45 R250). -/
def transferOffset (off : TransferOffset) (s : State) : Word :=
  match off with
  | .imm offset => offset.setWidth 32
  | .reg amount ty rm => (shiftByImm (s.readReg rm) ty amount.toNat s.flagC).value

/-- The register the offset of a single transfer reads. -/
def transferOffsetRegs (off : TransferOffset) : List Reg :=
  match off with
  | .imm _ => []
  | .reg _ _ rm => [rm]

/-- Whether the offset is the register `n`. -/
def transferOffsetIs (off : TransferOffset) (n : Reg) : Bool := (transferOffsetRegs off).any (· == n)

/-- The refusals of a single data transfer, in the order of R250. -/
def transferRefusals (wb byte : Bool) (rn rd : Reg) (off : TransferOffset) : List (Bool × Refusal) :=
  [(transferOffsetIs off 15, .offsetRmPC),
   (wb && rn == 15, .writebackPC),
   (wb && rn == rd, .writebackRnEqRd),
   (wb && transferOffsetIs off rn, .writebackRmEqRn),
   (byte && rd == 15, .bytePC)]

/-- The offset of a halfword transfer (spec/42 R200). -/
def halfOffset (off : HalfOffset) (s : State) : Word :=
  match off with
  | .imm offset => offset.setWidth 32
  | .reg _ rm => s.readReg rm

/-- The register the offset of a halfword transfer reads. -/
def halfOffsetRegs (off : HalfOffset) : List Reg :=
  match off with
  | .imm _ => []
  | .reg _ rm => [rm]

/-- The refusals of a halfword offset (R200). -/
def halfOffsetRefusals (off : HalfOffset) : List (Bool × Refusal) :=
  match off with
  | .imm _ => []
  | .reg sbz rm => [(sbz != 0, .sbz), (rm == 15, .halfwordRmPC)]

/-- The refusals of a halfword transfer, in the order of R200. -/
def halfRefusals (p w : Bool) (rn rd : Reg) (off : HalfOffset) : List (Bool × Refusal) :=
  halfOffsetRefusals off ++
    [(!p && w, .halfwordPostW),
     ((!p || w) && rn == 15, .writebackPC),
     (rd == 15, .halfwordRdPC),
     ((!p || w) && rn == rd, .writebackRnEqRd)]

/-! ## Register lists -/

/-- R0 to R15, ascending. -/
def allRegs : List Reg := [0, 1, 2, 3, 4, 5, 6, 7, 8, 9, 10, 11, 12, 13, 14, 15]

/-- The registers of a list, ascending (spec/30_encoding.md R121). -/
def regList (list : BitVec 16) : List Reg := allRegs.filter fun r => list.getLsbD r.toNat

/-- Four times the number of registers of a list. -/
def listBytes (regs : List Reg) : Word := BitVec.ofNat 32 (4 * regs.length)

/-- The first address of a block transfer, by P and U (spec/46 R270). -/
def blockFirst (p u : Bool) (base n4 : Word) : Word :=
  match p, u with
  | false, true => base
  | true, true => base + 4
  | false, false => base - n4 + 4
  | true, false => base - n4

/-- The write-back value of a block transfer (R270). -/
def blockWriteback (u : Bool) (base n4 : Word) : Word := if u then base + n4 else base - n4

end Sys2Proof.Machine
end

