-- ==== Sys2Proof/Machine/Transfers.lean ====
section
/-! DEFINITION. The shared data-transfer operations: one register, a block of registers, with write-back and the "base
updated" data abort (spec/42_halfword_transfer.md R201 to R205, spec/45_single_transfer.md R251 to R260,
spec/46_block_transfer.md R271 to R277, spec/49_thumb.md R373, spec/60_exceptions.md R407). -/

namespace Sys2Proof.Machine

/-- The base write-back of a form that has one. -/
def State.writeBack (s : State) (wb : Option (Reg × Word)) : State :=
  match wb with
  | none => s
  | some (n, v) => s.writeReg n v

/-- A write-back that happens on a condition. -/
def writebackIf (wb : Bool) (rn : Reg) (v : Word) : Option (Reg × Word) := if wb then some (rn, v) else none

/-- The register value a store writes, R15 reading as A + 12 (spec/40 R156). -/
def State.storeValue (s : State) (rd : Reg) : Word := s.readRegAs (s.pc + 12) rd

/-- `zext_32(v[7:0])`. -/
def zeroByte (v : Word) : Word := (v.setWidth 8).setWidth 32

/-- `zext_32(v[15:0])`. -/
def zeroHalf (v : Word) : Word := (v.setWidth 16).setWidth 32

/-- `sext_8(v[7:0])`. -/
def signByte (v : Word) : Word := (v.setWidth 8).signExtend 32

/-- `sext_16(v[15:0])`. -/
def signHalf (v : Word) : Word := (v.setWidth 16).signExtend 32

/-- Loads one register (spec/45 R251): the write-back happens even when the access aborts, and `rd` is then not
written (R260); a load into R15 is a branch. -/
def loadRegister (addr : Word) (sz : Size) (kind : AccessKind) (wb : Option (Reg × Word)) (rd : Reg)
    (extend : Word → Word) (s : State) : Out :=
  match memRead addr sz kind false s with
  | (none, s1) => .next (dataAbort addr (s1.writeBack wb))
  | (some v, s1) =>
    if rd = 15 then branchTo (extend v) (s1.writeBack wb)
    else .next ((s1.writeBack wb).writeReg rd (extend v)).advance

/-- Stores one value (spec/45 R253), refused when it would change a prefetched instruction (spec/70 R440). -/
def storeRegister (addr : Word) (sz : Size) (kind : AccessKind) (wb : Option (Reg × Word)) (v : Word) (s : State) : Out :=
  if s.wouldSelfModify addr sz then .refused .selfModifyPrefetched
  else match memWrite addr sz v kind false s with
  | (true, s1) => .next (dataAbort addr (s1.writeBack wb))
  | (false, s1) => .next (s1.writeBack wb).advance

/-- The word reads of a load multiple, every one issued (spec/46 R277); none where the bus answered `abort`. -/
def loadWords : Word → List Reg → State → List (Reg × Option Word) × State
  | _, [], s => ([], s)
  | addr, r :: rs, s =>
    ((r, (memRead addr .word .data false s).1) ::
        (loadWords (addr + 4) rs (memRead addr .word .data false s).2).1,
      (loadWords (addr + 4) rs (memRead addr .word .data false s).2).2)

/-- The address of the first read that aborted. -/
def firstAbort : Word → List (Reg × Option Word) → Option Word
  | _, [] => none
  | addr, (_, none) :: _ => some addr
  | addr, (_, some _) :: rest => firstAbort (addr + 4) rest

/-- The registers and values read before the first abort. -/
def beforeAbort : List (Reg × Option Word) → List (Reg × Word)
  | [] => []
  | (_, none) :: _ => []
  | (r, some v) :: rest => (r, v) :: beforeAbort rest

/-- Writes loaded values to registers of the current mode; R15 is not written this way. -/
def State.writeRegs (s : State) : List (Reg × Word) → State
  | [] => s
  | (r, v) :: rest => (s.writeReg r v).writeRegs rest

/-- Writes loaded values to registers of the User bank (spec/46 R273). -/
def State.writeUsers (s : State) : List (Reg × Word) → State
  | [] => s
  | (r, v) :: rest => (s.writeUser r v).writeUsers rest

/-- The value loaded for R15, if R15 was in the list. -/
def loadedPc (vals : List (Reg × Word)) : Option Word := (vals.find? fun rv => rv.1 == 15).map Prod.snd

/-- A load multiple into the current mode's registers (spec/46 R271): `onPc` is what loading R15 does. On an abort
the registers before it are written, but neither the base nor R15 (R277). -/
def loadBlock (rn : Reg) (first : Word) (regs : List Reg) (wb : Option (Reg × Word)) (onPc : Word → State → Out)
    (s : State) : Out :=
  let reads := (loadWords first regs s).1
  let based := (loadWords first regs s).2.writeBack wb
  match firstAbort first reads with
  | some a => .next (dataAbort a (based.writeRegs ((beforeAbort reads).filter fun rv => rv.1 != rn)))
  | none =>
    match loadedPc (beforeAbort reads) with
    | some t => onPc t (based.writeRegs (beforeAbort reads))
    | none => .next (based.writeRegs (beforeAbort reads)).advance

/-- The user-bank load multiple (R273): on an abort the base, if it is a register of the User bank, keeps its value
(R277; log 18). The step ends with UserBankHazard set on either path (spec/40 R150). -/
def loadUserBlock (rn : Reg) (first : Word) (regs : List Reg) (s : State) : Out :=
  let reads := (loadWords first regs s).1
  let read := (loadWords first regs s).2
  match firstAbort first reads with
  | some a =>
    .next ((dataAbort a (read.writeUsers ((beforeAbort reads).filter fun rv =>
      physReg .usr rv.1 != physReg s.mode rn))).setHazard true)
  | none => .next ((read.writeUsers (beforeAbort reads)).setHazard true).advance

/-- The word writes of a store multiple, every one issued (R277): the address of the first that aborted, and the
state after. -/
def storeWords : Word → List Word → State → Option Word × State
  | _, [], s => (none, s)
  | addr, v :: vs, s =>
    (if (memWrite addr .word v .data false s).1 then some addr
     else (storeWords (addr + 4) vs (memWrite addr .word v .data false s).2).1,
      (storeWords (addr + 4) vs (memWrite addr .word v .data false s).2).2)

/-- The base is stored by an instruction that writes it back, and is not the lowest register of the list: its stored
value is UNKNOWN (spec/46 R272, spec/92_eei_decisions.md D29). -/
def storesUnknownBase (wb : Bool) (rn : Reg) (regs : List Reg) : Bool :=
  wb && regs.contains rn && regs.head? != some rn

/-- The values a store multiple writes, in list order (R272). -/
def storeBlockValues (wb : Bool) (rn : Reg) (regs : List Reg) (s : State) : List Word :=
  regs.map fun r =>
    if r == rn && storesUnknownBase wb rn regs then Config.freeWord s.draws else s.storeValue r

/-- One of `n` word writes from `addr` on would write a byte of a prefetched slot, each judged by the answer it would
get (spec/70 R440). -/
def State.wordsSelfModify (s : State) (addr : Word) : Nat → Bool
  | 0 => false
  | n + 1 => s.wouldSelfModify addr .word || (s.afterWrite addr .word).wordsSelfModify (addr + 4) n

/-- A store multiple of values (R272): refused when a write would change a prefetched instruction (spec/70 R440); the
write-back happens even when a write aborts (R277). -/
def storeBlock (first : Word) (values : List Word) (wb : Option (Reg × Word)) (s : State) : Out :=
  if s.wordsSelfModify first values.length then .refused .selfModifyPrefetched
  else match storeWords first values s with
  | (some a, s1) => .next (dataAbort a (s1.writeBack wb))
  | (none, s1) => .next (s1.writeBack wb).advance

/-- The state in which a store multiple runs: an UNKNOWN base is one draw. -/
def State.drawnIf (s : State) (b : Bool) : State := if b then s.drawn else s

end Sys2Proof.Machine
end

