-- ==== Sys2Proof/Machine/BlockTransfer.lean ====
section
/-! DEFINITION. The ARM block data transfers (spec/46_block_transfer.md). -/

namespace Sys2Proof.Machine

/-- `first` of R270. -/
def blockAddress (p u : Bool) (rn : Reg) (regs : List Reg) (s : State) : Word :=
  blockFirst p u (s.readReg rn) (listBytes regs)

/-- The write-back of R270, with W. -/
def blockWritebackOf (u w : Bool) (rn : Reg) (regs : List Reg) (s : State) : Option (Reg × Word) :=
  writebackIf w rn (blockWriteback u (s.readReg rn) (listBytes regs))

/-- The refusals of R275 every block transfer shares, `loads` telling a load. -/
def blockRefusals (loads w : Bool) (rn : Reg) (regs : List Reg) : List (Bool × Refusal) :=
  [(rn == 15, .blockBasePC), (regs.isEmpty, .emptyList), (loads && w && regs.contains rn, .ldmWritebackBaseInList)]

/-- The refusals of a user-bank transfer (R275). -/
def userBankRefusals (w : Bool) (s : State) : List (Bool × Refusal) :=
  [(s.lacksSpsr, .userBankInUserMode), (w, .userBankWriteback)]

/-- A store multiple of the current mode's registers (R272). -/
def storeMultiple (p u w : Bool) (rn : Reg) (regs : List Reg) (s : State) : Out :=
  storeBlock (blockAddress p u rn regs s) (storeBlockValues w rn regs s) (blockWritebackOf u w rn regs s)
    (s.drawnIf (storesUnknownBase w rn regs))

/-- STM (R272). -/
def execStm (c : Cond) (p u w : Bool) (rn : Reg) (list : BitVec 16) (st : State) : Out :=
  conditionally c (blockRefusals false w rn (regList list)) (rn :: regList list)
    (storeMultiple p u w rn (regList list)) st

/-- LDM (R271). -/
def execLdm (c : Cond) (p u w : Bool) (rn : Reg) (list : BitVec 16) (st : State) : Out :=
  conditionally c (blockRefusals true w rn (regList list)) (rn :: regList list)
    (fun s => loadBlock rn (blockAddress p u rn (regList list) s) (regList list)
      (blockWritebackOf u w rn (regList list) s) branchTo s) st

/-- The values STM^ writes: registers of the User bank, R15 as A + 12 (R276). -/
def userValues (regs : List Reg) (s : State) : List Word :=
  regs.map fun r => if r = 15 then s.pc + 12 else s.readUser r

/-- STM^, user bank (R276). -/
def execStmUser (c : Cond) (p u w : Bool) (rn : Reg) (list : BitVec 16) (st : State) : Out :=
  conditionally c (blockRefusals false w rn (regList list) ++ userBankRefusals w st) (rn :: regList list)
    (fun s => storeBlock (blockAddress p u rn (regList list) s) (userValues (regList list) s) none s) st

/-- LDM^, user bank (R273): the list has no R15. -/
def execLdmUser (c : Cond) (p u w : Bool) (rn : Reg) (list : BitVec 15) (st : State) : Out :=
  conditionally c (blockRefusals true w rn (regList (0#1 ++ list)) ++ userBankRefusals w st)
    (rn :: regList (0#1 ++ list))
    (fun s => loadUserBlock rn (blockAddress p u rn (regList (0#1 ++ list)) s) (regList (0#1 ++ list)) s) st

/-- LDM^ with R15 in the list, the exception return (R274). -/
def execLdmReturn (c : Cond) (p u w : Bool) (rn : Reg) (list : BitVec 15) (st : State) : Out :=
  conditionally c (blockRefusals true w rn (regList (1#1 ++ list)) ++ [(st.lacksSpsr, .noSpsr)])
    (rn :: regList (1#1 ++ list))
    (fun s => loadBlock rn (blockAddress p u rn (regList (1#1 ++ list)) s) (regList (1#1 ++ list))
      (blockWritebackOf u w rn (regList (1#1 ++ list)) s) exceptionReturn s) st

end Sys2Proof.Machine
end

