-- ==== Sys2Proof/Machine/Branch.lean ====
section
/-! DEFINITION. The ARM branches (spec/47_branch.md). -/

namespace Sys2Proof.Machine

/-- `(A + 8) + sext_26(imm24 : 0b00)` (R285). -/
def branchTarget (offset : BitVec 24) (s : State) : Word := s.pcRead + (offset ++ 0#2).signExtend 32

/-- B (R285). -/
def execB (c : Cond) (offset : BitVec 24) (st : State) : Out :=
  conditionally c [] [] (fun s => branchTo (branchTarget offset s) s) st

/-- BL (R286). -/
def execBl (c : Cond) (offset : BitVec 24) (st : State) : Out :=
  conditionally c [] [14] (fun s => branchTo (branchTarget offset s) (s.writeReg 14 (s.pc + 4))) st

/-- BX (R287). -/
def execBx (c : Cond) (rm : Reg) (st : State) : Out :=
  conditionally c [] [rm] (fun s => branchExchange (s.readReg rm) s) st

end Sys2Proof.Machine
end

