-- ==== Sys2Proof/Machine/DataProcessing.lean ====
section
/-! DEFINITION. The sixteen ARM data-processing instructions (spec/44_data_processing.md). -/

namespace Sys2Proof.Machine

/-- `a`, the first operand: Rn with R15 reading as operand 2's form says (R220). -/
def operand1 (rn : Reg) (op2 : Operand2) (s : State) : Word := s.readRegAs (operand2Pc op2 s) rn

/-- Writes a result to Rd, with S its flags; with Rd = R15 a branch, with S an exception return (R220, R238). -/
def writeAlu (setFlags : Bool) (rd : Reg) (r : AluResult) (s : State) : Out :=
  if rd = 15 then (if setFlags then exceptionReturn r.value s else branchTo r.value s)
  else .next (if setFlags then (s.writeReg rd r.value).setNZCV r else s.writeReg rd r.value).advance

/-- The sequence of R220 for an opcode that reads Rn and writes Rd. -/
def aluTwo (c : Cond) (setFlags : Bool) (rn rd : Reg) (op2 : Operand2) (op : Word → Shifted → State → AluResult) :
    State → Out :=
  conditionally c (operand2Refusals op2 rd) (rn :: rd :: operand2Regs op2) fun s =>
    writeAlu setFlags rd (op (operand1 rn op2 s) (operand2 op2 s) s) s

/-- The sequence of R220 for MOV and MVN, whose Rn field is should-be-zero. -/
def aluOne (c : Cond) (setFlags : Bool) (sbz : BitVec 4) (rd : Reg) (op2 : Operand2)
    (op : Shifted → State → AluResult) : State → Out :=
  conditionally c (operand2Refusals op2 rd ++ [(sbz != 0, .sbz)]) (rd :: operand2Regs op2) fun s =>
    writeAlu setFlags rd (op (operand2 op2 s) s) s

/-- The sequence of R220 for a comparison: flags only; the Rd field is should-be-zero (R237). -/
def aluCompare (c : Cond) (rn : Reg) (sbz : BitVec 4) (op2 : Operand2) (op : Word → Shifted → State → AluResult) :
    State → Out :=
  conditionally c (operand2Refusals op2 sbz ++ [(sbz != 0, .sbz)]) (rn :: operand2Regs op2) fun s =>
    .next (s.setNZCV (op (operand1 rn op2 s) (operand2 op2 s) s)).advance

/-- AND (R221). -/
def execAnd (c : Cond) (s : Bool) (rn rd : Reg) (op2 : Operand2) (st : State) : Out :=
  aluTwo c s rn rd op2 (fun a b t => logical t (a &&& b.value) b.carry) st

/-- EOR (R222). -/
def execEor (c : Cond) (s : Bool) (rn rd : Reg) (op2 : Operand2) (st : State) : Out :=
  aluTwo c s rn rd op2 (fun a b t => logical t (a ^^^ b.value) b.carry) st

/-- SUB (R223). -/
def execSub (c : Cond) (s : Bool) (rn rd : Reg) (op2 : Operand2) (st : State) : Out :=
  aluTwo c s rn rd op2 (fun a b _ => subWithCarry a b.value true) st

/-- RSB (R224). -/
def execRsb (c : Cond) (s : Bool) (rn rd : Reg) (op2 : Operand2) (st : State) : Out :=
  aluTwo c s rn rd op2 (fun a b _ => subWithCarry b.value a true) st

/-- ADD (R225). -/
def execAdd (c : Cond) (s : Bool) (rn rd : Reg) (op2 : Operand2) (st : State) : Out :=
  aluTwo c s rn rd op2 (fun a b _ => addWithCarry a b.value false) st

/-- ADC (R226). -/
def execAdc (c : Cond) (s : Bool) (rn rd : Reg) (op2 : Operand2) (st : State) : Out :=
  aluTwo c s rn rd op2 (fun a b t => addWithCarry a b.value t.flagC) st

/-- SBC (R227). -/
def execSbc (c : Cond) (s : Bool) (rn rd : Reg) (op2 : Operand2) (st : State) : Out :=
  aluTwo c s rn rd op2 (fun a b t => subWithCarry a b.value t.flagC) st

/-- RSC (R228). -/
def execRsc (c : Cond) (s : Bool) (rn rd : Reg) (op2 : Operand2) (st : State) : Out :=
  aluTwo c s rn rd op2 (fun a b t => subWithCarry b.value a t.flagC) st

/-- TST (R229). -/
def execTst (c : Cond) (rn : Reg) (sbz : BitVec 4) (op2 : Operand2) (st : State) : Out :=
  aluCompare c rn sbz op2 (fun a b t => logical t (a &&& b.value) b.carry) st

/-- TEQ (R230). -/
def execTeq (c : Cond) (rn : Reg) (sbz : BitVec 4) (op2 : Operand2) (st : State) : Out :=
  aluCompare c rn sbz op2 (fun a b t => logical t (a ^^^ b.value) b.carry) st

/-- CMP (R231). -/
def execCmp (c : Cond) (rn : Reg) (sbz : BitVec 4) (op2 : Operand2) (st : State) : Out :=
  aluCompare c rn sbz op2 (fun a b _ => subWithCarry a b.value true) st

/-- CMN (R232). -/
def execCmn (c : Cond) (rn : Reg) (sbz : BitVec 4) (op2 : Operand2) (st : State) : Out :=
  aluCompare c rn sbz op2 (fun a b _ => addWithCarry a b.value false) st

/-- ORR (R233). -/
def execOrr (c : Cond) (s : Bool) (rn rd : Reg) (op2 : Operand2) (st : State) : Out :=
  aluTwo c s rn rd op2 (fun a b t => logical t (a ||| b.value) b.carry) st

/-- MOV (R234). -/
def execMov (c : Cond) (s : Bool) (sbz : BitVec 4) (rd : Reg) (op2 : Operand2) (st : State) : Out :=
  aluOne c s sbz rd op2 (fun b t => logical t b.value b.carry) st

/-- BIC (R235). -/
def execBic (c : Cond) (s : Bool) (rn rd : Reg) (op2 : Operand2) (st : State) : Out :=
  aluTwo c s rn rd op2 (fun a b t => logical t (a &&& ~~~b.value) b.carry) st

/-- MVN (R236). -/
def execMvn (c : Cond) (s : Bool) (sbz : BitVec 4) (rd : Reg) (op2 : Operand2) (st : State) : Out :=
  aluOne c s sbz rd op2 (fun b t => logical t (~~~b.value) b.carry) st

end Sys2Proof.Machine
end

