-- ==== Sys2Proof/Machine/Halfword.lean ====
section
/-! DEFINITION. The ARM halfword and signed transfers (spec/42_halfword_transfer.md). -/

namespace Sys2Proof.Machine

/-- `newbase` of R200. -/
def halfNewBase (u : Bool) (rn : Reg) (off : HalfOffset) (s : State) : Word :=
  offsetBase u (s.readReg rn) (halfOffset off s)

/-- `addr` of R200: pre-indexed the new base, post-indexed the base. -/
def halfAddress (p u : Bool) (rn : Reg) (off : HalfOffset) (s : State) : Word :=
  if p then halfNewBase u rn off s else s.readReg rn

/-- The write-back of R200: post-indexed always, pre-indexed with W. -/
def halfWriteback (p u w : Bool) (rn : Reg) (off : HalfOffset) (s : State) : Option (Reg × Word) :=
  writebackIf (!p || w) rn (halfNewBase u rn off s)

/-- A load of this format (R202 to R204). -/
def halfLoad (c : Cond) (p u w : Bool) (rn rd : Reg) (off : HalfOffset) (sz : Size) (extend : Word → Word) :
    State → Out :=
  conditionally c (halfRefusals p w rn rd off) (rn :: rd :: halfOffsetRegs off) fun s =>
    loadRegister (halfAddress p u rn off s) sz .data (halfWriteback p u w rn off s) rd extend s

/-- STRH (R201). -/
def execStrh (c : Cond) (p u w : Bool) (rn rd : Reg) (off : HalfOffset) (st : State) : Out :=
  conditionally c (halfRefusals p w rn rd off) (rn :: rd :: halfOffsetRegs off)
    (fun s => storeRegister (halfAddress p u rn off s) .half .data (halfWriteback p u w rn off s) (s.readReg rd) s) st

/-- LDRH (R202). -/
def execLdrh (c : Cond) (p u w : Bool) (rn rd : Reg) (off : HalfOffset) (st : State) : Out :=
  halfLoad c p u w rn rd off .half zeroHalf st

/-- LDRSB (R203). -/
def execLdrsb (c : Cond) (p u w : Bool) (rn rd : Reg) (off : HalfOffset) (st : State) : Out :=
  halfLoad c p u w rn rd off .byte signByte st

/-- LDRSH (R204). -/
def execLdrsh (c : Cond) (p u w : Bool) (rn rd : Reg) (off : HalfOffset) (st : State) : Out :=
  halfLoad c p u w rn rd off .half signHalf st

end Sys2Proof.Machine
end

