-- ==== Sys2Proof/Machine/Multiply.lean ====
section
/-! DEFINITION. The ARM multiplies (spec/41_multiply.md). -/

namespace Sys2Proof.Machine

/-- A 32-bit multiply: result to `rd`, and with S its N and Z, C UNKNOWN (R190, R191). -/
def multiply (c : Cond) (setFlags : Bool) (rd : Reg) (form : List (Bool × Refusal)) (touched : List Reg)
    (product : State → Word) : State → Out :=
  conditionally c form touched fun s =>
    let written := s.writeReg rd (product s)
    .next (if setFlags then written.setMulFlags (product s) else written).advance

/-- A 64-bit multiply: RdLo and RdHi written, and with S N and Z of the 64 bits, C and V UNKNOWN (R192). -/
def multiplyLong (c : Cond) (setFlags : Bool) (rdHi rdLo rs rm : Reg) (product : State → BitVec 64) : State → Out :=
  conditionally c
    [(rdHi == 15 || rdLo == 15 || rm == 15 || rs == 15, .mulPC),
     (rdHi == rdLo || rdHi == rm || rdLo == rm, .mulLongOverlap)]
    [rdHi, rdLo, rm, rs]
    fun s =>
      let written := (s.writeReg rdLo ((product s).extractLsb' 0 32)).writeReg rdHi ((product s).extractLsb' 32 32)
      .next (if setFlags then written.setMulLongFlags (product s) else written).advance

/-- `uint(a) * uint(b)`, 64 bits (R192). -/
def unsignedProduct (a b : Word) : BitVec 64 := BitVec.ofNat 64 (a.toNat * b.toNat)

/-- `sint(a) * sint(b)`, 64 bits (R194). -/
def signedProduct (a b : Word) : BitVec 64 := BitVec.ofInt 64 (a.toInt * b.toInt)

/-- The accumulator RdHi:RdLo (R193). -/
def accumulator (rdHi rdLo : Reg) (s : State) : BitVec 64 := s.readReg rdHi ++ s.readReg rdLo

/-- MUL (R190). -/
def execMul (c : Cond) (s : Bool) (rd : Reg) (sbz : BitVec 4) (rs rm : Reg) (st : State) : Out :=
  multiply c s rd
    [(rd == 15 || rm == 15 || rs == 15, .mulPC), (rd == rm, .mulRdEqRm), (sbz != 0, .sbz)]
    [rd, rm, rs] (fun t => t.readReg rm * t.readReg rs) st

/-- MLA (R191). -/
def execMla (c : Cond) (s : Bool) (rd rn rs rm : Reg) (st : State) : Out :=
  multiply c s rd
    [(rd == 15 || rm == 15 || rs == 15 || rn == 15, .mulPC), (rd == rm, .mulRdEqRm)]
    [rd, rm, rs, rn] (fun t => t.readReg rm * t.readReg rs + t.readReg rn) st

/-- UMULL (R192). -/
def execUmull (c : Cond) (s : Bool) (rdHi rdLo rs rm : Reg) (st : State) : Out :=
  multiplyLong c s rdHi rdLo rs rm (fun t => unsignedProduct (t.readReg rm) (t.readReg rs)) st

/-- UMLAL (R193). -/
def execUmlal (c : Cond) (s : Bool) (rdHi rdLo rs rm : Reg) (st : State) : Out :=
  multiplyLong c s rdHi rdLo rs rm
    (fun t => unsignedProduct (t.readReg rm) (t.readReg rs) + accumulator rdHi rdLo t) st

/-- SMULL (R194). -/
def execSmull (c : Cond) (s : Bool) (rdHi rdLo rs rm : Reg) (st : State) : Out :=
  multiplyLong c s rdHi rdLo rs rm (fun t => signedProduct (t.readReg rm) (t.readReg rs)) st

/-- SMLAL (R195). -/
def execSmlal (c : Cond) (s : Bool) (rdHi rdLo rs rm : Reg) (st : State) : Out :=
  multiplyLong c s rdHi rdLo rs rm
    (fun t => signedProduct (t.readReg rm) (t.readReg rs) + accumulator rdHi rdLo t) st

end Sys2Proof.Machine
end

