-- ==== Sys2Proof/Machine/Psr.lean ====
section
/-! DEFINITION. The ARM PSR transfers (spec/43_psr_transfer.md). -/

namespace Sys2Proof.Machine

/-- The bits a field mask selects, of those that exist (R213). -/
def fieldMask (mask : BitVec 4) : Word :=
  ((if mask.getLsbD 0 then 0x000000FF else 0) ||| (if mask.getLsbD 1 then 0x0000FF00 else 0) |||
   (if mask.getLsbD 2 then 0x00FF0000 else 0) ||| (if mask.getLsbD 3 then 0xFF000000 else 0)) &&& psrMask

/-- The bits of CPSR an MSR may write: in USR mode the flags only (R213, D32). -/
def cpsrMask (mask : BitVec 4) (m : Mode) : Word :=
  if m = .usr then fieldMask mask &&& 0xF0000000 else fieldMask mask

/-- A status word with the masked bits of a value written. -/
def mergePsr (old mask v : Word) : Word := (old &&& ~~~mask) ||| (v &&& mask)

/-- `PsrWrite(R, field_mask, v)` (R213). In USR and SYS there is no SPSR to write: refused. -/
def psrWrite (r : Bool) (mask : BitVec 4) (v : Word) (s : State) : Out :=
  if r then
    match s.getSpsr s.mode with
    | none => .refused .noSpsr
    | some old => .next (s.setSpsr s.mode (mergePsr old (fieldMask mask) v)).advance
  else
    let new := mergePsr s.cpsr (cpsrMask mask s.mode) v
    if (modeOf new).isNone then fatalCorruptMode s
    else if psrBit new 5 != s.thumb then .refused .msrChangesT
    else .next (s.setCpsr new).advance

/-- MRS (R210). -/
def execMrs (c : Cond) (r : Bool) (sbo : BitVec 4) (rd : Reg) (sbzHi : BitVec 4) (sbzMid : BitVec 2)
    (sbzLo : BitVec 4) (st : State) : Out :=
  conditionally c
    [(sbo != 15 || sbzHi != 0 || sbzMid != 0 || sbzLo != 0, .sbz), (rd == 15, .mrsPC), (r && st.lacksSpsr, .noSpsr)]
    [rd]
    (fun s => .next (s.writeReg rd (if r then (s.getSpsr s.mode).getD s.cpsr else s.cpsr)).advance) st

/-- MSR, register form (R211). -/
def execMsrReg (c : Cond) (r : Bool) (mask sbo sbzHi : BitVec 4) (sbzMid : BitVec 2) (rm : Reg) (st : State) : Out :=
  conditionally c
    [(sbo != 15 || sbzHi != 0 || sbzMid != 0, .sbz), (rm == 15, .msrPC), (r && st.lacksSpsr, .noSpsr)]
    [rm]
    (fun s => psrWrite r mask (s.readReg rm) s) st

/-- MSR, immediate form (R212). -/
def execMsrImm (c : Cond) (r : Bool) (mask sbo rotate : BitVec 4) (imm8 : BitVec 8) (st : State) : Out :=
  conditionally c [(sbo != 15, .sbz), (r && st.lacksSpsr, .noSpsr)] []
    (fun s => psrWrite r mask (rotatedImm rotate imm8) s) st

end Sys2Proof.Machine
end

