-- ==== Sys2Proof/Machine/SingleTransfer.lean ====
section
/-! DEFINITION. The ARM single data transfers (spec/45_single_transfer.md). -/

namespace Sys2Proof.Machine

/-- `newbase` of R250. -/
def transferNewBase (u : Bool) (rn : Reg) (off : TransferOffset) (s : State) : Word :=
  offsetBase u (s.readReg rn) (transferOffset off s)

/-- `addr` of R250: pre-indexed the new base, post-indexed the base. -/
def transferAddress (p u : Bool) (rn : Reg) (off : TransferOffset) (s : State) : Word :=
  if p then transferNewBase u rn off s else s.readReg rn

/-- The write-back of R250, when the form has one. -/
def transferWriteback (wb u : Bool) (rn : Reg) (off : TransferOffset) (s : State) : Option (Reg × Word) :=
  writebackIf wb rn (transferNewBase u rn off s)

/-- A load of this format: `p` pre-indexed, `wb` with write-back (R251, R252). -/
def singleLoad (c : Cond) (p u wb : Bool) (rn rd : Reg) (off : TransferOffset) (sz : Size) (kind : AccessKind)
    (extend : Word → Word) : State → Out :=
  conditionally c (transferRefusals wb (sz == .byte) rn rd off) (rn :: rd :: transferOffsetRegs off) fun s =>
    loadRegister (transferAddress p u rn off s) sz kind (transferWriteback wb u rn off s) rd extend s

/-- A store of this format (R253, R254). -/
def singleStore (c : Cond) (p u wb : Bool) (rn rd : Reg) (off : TransferOffset) (sz : Size) (kind : AccessKind) :
    State → Out :=
  conditionally c (transferRefusals wb (sz == .byte) rn rd off) (rn :: rd :: transferOffsetRegs off) fun s =>
    storeRegister (transferAddress p u rn off s) sz kind (transferWriteback wb u rn off s) (s.storeValue rd) s

/-- STR, pre-indexed (R253). -/
def execStrPre (c : Cond) (u w : Bool) (rn rd : Reg) (off : TransferOffset) (st : State) : Out :=
  singleStore c true u w rn rd off .word .data st

/-- STR, post-indexed (R253). -/
def execStrPost (c : Cond) (u : Bool) (rn rd : Reg) (off : TransferOffset) (st : State) : Out :=
  singleStore c false u true rn rd off .word .data st

/-- LDR, pre-indexed (R251). -/
def execLdrPre (c : Cond) (u w : Bool) (rn rd : Reg) (off : TransferOffset) (st : State) : Out :=
  singleLoad c true u w rn rd off .word .data id st

/-- LDR, post-indexed (R251). -/
def execLdrPost (c : Cond) (u : Bool) (rn rd : Reg) (off : TransferOffset) (st : State) : Out :=
  singleLoad c false u true rn rd off .word .data id st

/-- STRB, pre-indexed (R254). -/
def execStrbPre (c : Cond) (u w : Bool) (rn rd : Reg) (off : TransferOffset) (st : State) : Out :=
  singleStore c true u w rn rd off .byte .data st

/-- STRB, post-indexed (R254). -/
def execStrbPost (c : Cond) (u : Bool) (rn rd : Reg) (off : TransferOffset) (st : State) : Out :=
  singleStore c false u true rn rd off .byte .data st

/-- LDRB, pre-indexed (R252). -/
def execLdrbPre (c : Cond) (u w : Bool) (rn rd : Reg) (off : TransferOffset) (st : State) : Out :=
  singleLoad c true u w rn rd off .byte .data zeroByte st

/-- LDRB, post-indexed (R252). -/
def execLdrbPost (c : Cond) (u : Bool) (rn rd : Reg) (off : TransferOffset) (st : State) : Out :=
  singleLoad c false u true rn rd off .byte .data zeroByte st

/-- STRT (R257): as STR post-indexed, with a user-mode access. -/
def execStrt (c : Cond) (u : Bool) (rn rd : Reg) (off : TransferOffset) (st : State) : Out :=
  singleStore c false u true rn rd off .word .dataUser st

/-- LDRT (R255): as LDR post-indexed, with a user-mode access. -/
def execLdrt (c : Cond) (u : Bool) (rn rd : Reg) (off : TransferOffset) (st : State) : Out :=
  singleLoad c false u true rn rd off .word .dataUser id st

/-- STRBT (R258). -/
def execStrbt (c : Cond) (u : Bool) (rn rd : Reg) (off : TransferOffset) (st : State) : Out :=
  singleStore c false u true rn rd off .byte .dataUser st

/-- LDRBT (R256). -/
def execLdrbt (c : Cond) (u : Bool) (rn rd : Reg) (off : TransferOffset) (st : State) : Out :=
  singleLoad c false u true rn rd off .byte .dataUser zeroByte st

end Sys2Proof.Machine
end

