-- ==== Sys2Proof/Machine/SwiSwapUndefined.lean ====
section
/-! DEFINITION. SWI, the swaps, the Undefined encodings and the coprocessor words (spec/48_swi_swap_undefined.md). -/

namespace Sys2Proof.Machine

/-- SWI (R295). -/
def execSwi (c : Cond) (comment : BitVec 24) (st : State) : Out :=
  conditionally c [] [] (fun s => .next (softwareInterrupt (instrWord (.swi c comment)) s)) st

/-- A swap's locked read and write (R297): an abort of the read ends it with no write; an abort of either leaves Rd. -/
def swapAccess (sz : Size) (rn rd rm : Reg) (extend : Word → Word) (s : State) : Out :=
  let addr := s.readReg rn
  match memRead addr sz .data true s with
  | (none, s1) => .next (dataAbort addr s1)
  | (some v, s1) =>
    if s1.wouldSelfModify addr sz then .refused .selfModifyPrefetched
    else match memWrite addr sz (s1.readReg rm) .data true s1 with
    | (true, s2) => .next (dataAbort addr s2)
    | (false, s2) => .next (s2.writeReg rd (extend v)).advance

/-- A swap with its refusals (R297). -/
def swap (sz : Size) (c : Cond) (rn rd rm : Reg) (extend : Word → Word) : State → Out :=
  conditionally c
    [(rn == 15 || rd == 15 || rm == 15, .swapPC), (rn == rd || rn == rm, .swapOverlap)]
    [rn, rd, rm] (swapAccess sz rn rd rm extend)

/-- SWP (R297). -/
def execSwp (c : Cond) (rn rd rm : Reg) (st : State) : Out := swap .word c rn rd rm id st

/-- SWPB (R298). -/
def execSwpb (c : Cond) (rn rd rm : Reg) (st : State) : Out := swap .byte c rn rd rm zeroByte st

/-- An ARM word tagged Undefined, or a coprocessor word (R299, R300). -/
def undefinedWord (c : Cond) (w : Word) : State → Out :=
  conditionally c [] [] fun s => .next (undefinedInstruction w s)

/-- Undefined, line 4 of the decode list (R299). -/
def execUndMulSwap (c : Cond) (op : BitVec 5) (mid : BitVec 12) (low : BitVec 4) (st : State) : Out :=
  undefinedWord c (instrWord (.undMulSwap c op mid low)) st

/-- Undefined, line 5: the signed stores (R299). -/
def execUndSignedStore (c : Cond) (op : BitVec 4) (mid : BitVec 12) (h : Bool) (low : BitVec 4) (st : State) : Out :=
  undefinedWord c (instrWord (.undSignedStore c op mid h low)) st

/-- Undefined, line 11 (R299). -/
def execUndPsr (c : Cond) (i : Bool) (op : BitVec 2) (low : BitVec 20) (st : State) : Out :=
  undefinedWord c (instrWord (.undPsr c i op low)) st

/-- Undefined, line 13 (R299). -/
def execUndMedia (c : Cond) (mid : BitVec 20) (low : BitVec 4) (st : State) : Out :=
  undefinedWord c (instrWord (.undMedia c mid low)) st

/-- STC (R300): no coprocessor is attached. -/
def execStc (c : Cond) (p u n w : Bool) (rn crd cp : BitVec 4) (offset : BitVec 8) (st : State) : Out :=
  undefinedWord c (instrWord (.stc c p u n w rn crd cp offset)) st

/-- LDC (R300). -/
def execLdc (c : Cond) (p u n w : Bool) (rn crd cp : BitVec 4) (offset : BitVec 8) (st : State) : Out :=
  undefinedWord c (instrWord (.ldc c p u n w rn crd cp offset)) st

/-- CDP (R300). -/
def execCdp (c : Cond) (op1 crn crd cp : BitVec 4) (op2 : BitVec 3) (crm : BitVec 4) (st : State) : Out :=
  undefinedWord c (instrWord (.cdp c op1 crn crd cp op2 crm)) st

/-- MCR (R300). -/
def execMcr (c : Cond) (op1 : BitVec 3) (crn rd cp : BitVec 4) (op2 : BitVec 3) (crm : BitVec 4) (st : State) : Out :=
  undefinedWord c (instrWord (.mcr c op1 crn rd cp op2 crm)) st

/-- MRC (R300). -/
def execMrc (c : Cond) (op1 : BitVec 3) (crn rd cp : BitVec 4) (op2 : BitVec 3) (crm : BitVec 4) (st : State) : Out :=
  undefinedWord c (instrWord (.mrc c op1 crn rd cp op2 crm)) st

end Sys2Proof.Machine
end

