-- ==== Sys2Proof/Machine/ThumbAlu.lean ====
section
/-! DEFINITION. The THUMB ALU instructions: formats 1 to 5, 12 and 13 (spec/49_thumb.md R311 to R341, R359 to R362). -/

namespace Sys2Proof.Machine

/-- A result written to a low register with its flags (R310). -/
def thumbAlu (form : List (Bool × Refusal)) (rd : LoReg) (op : State → AluResult) : State → Out :=
  unconditionally form [] fun s => .next ((s.writeReg (lo rd) (op s).value).setNZCV (op s)).advance

/-- A comparison: flags only (R310). -/
def thumbCompare (op : State → AluResult) : State → Out :=
  unconditionally [] [] fun s => .next (s.setNZCV (op s)).advance

/-- A shift by an immediate (R311 to R313). -/
def thumbShiftImm (ty : ShiftType) (off5 : BitVec 5) (rs : LoReg) (s : State) : AluResult :=
  let r := shiftByImm (s.readReg (lo rs)) ty off5.toNat s.flagC
  logical s r.value r.carry

/-- A shift of Rd by the low byte of Rs (R324 to R326, R329). -/
def thumbShiftReg (ty : ShiftType) (rs rd : LoReg) (s : State) : AluResult :=
  let r := shiftByReg (s.readReg (lo rd)) ty ((s.readReg (lo rs)).setWidth 8).toNat s.flagC
  logical s r.value r.carry

/-- ADD Rd, Rs, Rn (R314). -/
def execTAddReg (rn rs rd : LoReg) (st : State) : Out :=
  thumbAlu [] rd (fun s => addWithCarry (s.readReg (lo rs)) (s.readReg (lo rn)) false) st

/-- SUB Rd, Rs, Rn (R315). -/
def execTSubReg (rn rs rd : LoReg) (st : State) : Out :=
  thumbAlu [] rd (fun s => subWithCarry (s.readReg (lo rs)) (s.readReg (lo rn)) true) st

/-- ADD Rd, Rs, #imm3 (R316). -/
def execTAddImm3 (imm3 : BitVec 3) (rs rd : LoReg) (st : State) : Out :=
  thumbAlu [] rd (fun s => addWithCarry (s.readReg (lo rs)) (imm3.setWidth 32) false) st

/-- SUB Rd, Rs, #imm3 (R317). -/
def execTSubImm3 (imm3 : BitVec 3) (rs rd : LoReg) (st : State) : Out :=
  thumbAlu [] rd (fun s => subWithCarry (s.readReg (lo rs)) (imm3.setWidth 32) true) st

/-- LSL Rd, Rs, #off5 (R311). -/
def execTLslImm (off5 : BitVec 5) (rs rd : LoReg) (st : State) : Out :=
  thumbAlu [] rd (thumbShiftImm .lsl off5 rs) st

/-- LSR Rd, Rs, #off5 (R312). -/
def execTLsrImm (off5 : BitVec 5) (rs rd : LoReg) (st : State) : Out :=
  thumbAlu [] rd (thumbShiftImm .lsr off5 rs) st

/-- ASR Rd, Rs, #off5 (R313). -/
def execTAsrImm (off5 : BitVec 5) (rs rd : LoReg) (st : State) : Out :=
  thumbAlu [] rd (thumbShiftImm .asr off5 rs) st

/-- MOV Rd, #imm8 (R318). -/
def execTMovImm (rd : LoReg) (imm8 : BitVec 8) (st : State) : Out :=
  thumbAlu [] rd (fun s => logical s (imm8.setWidth 32) s.flagC) st

/-- CMP Rd, #imm8 (R319). -/
def execTCmpImm (rd : LoReg) (imm8 : BitVec 8) (st : State) : Out :=
  thumbCompare (fun s => subWithCarry (s.readReg (lo rd)) (imm8.setWidth 32) true) st

/-- ADD Rd, #imm8 (R320). -/
def execTAddImm8 (rd : LoReg) (imm8 : BitVec 8) (st : State) : Out :=
  thumbAlu [] rd (fun s => addWithCarry (s.readReg (lo rd)) (imm8.setWidth 32) false) st

/-- SUB Rd, #imm8 (R321). -/
def execTSubImm8 (rd : LoReg) (imm8 : BitVec 8) (st : State) : Out :=
  thumbAlu [] rd (fun s => subWithCarry (s.readReg (lo rd)) (imm8.setWidth 32) true) st

/-- AND Rd, Rs (R322). -/
def execTAnd (rs rd : LoReg) (st : State) : Out :=
  thumbAlu [] rd (fun s => logical s (s.readReg (lo rd) &&& s.readReg (lo rs)) s.flagC) st

/-- EOR Rd, Rs (R323). -/
def execTEor (rs rd : LoReg) (st : State) : Out :=
  thumbAlu [] rd (fun s => logical s (s.readReg (lo rd) ^^^ s.readReg (lo rs)) s.flagC) st

/-- LSL Rd, Rs (R324). -/
def execTLslReg (rs rd : LoReg) (st : State) : Out :=
  thumbAlu [] rd (thumbShiftReg .lsl rs rd) st

/-- LSR Rd, Rs (R325). -/
def execTLsrReg (rs rd : LoReg) (st : State) : Out :=
  thumbAlu [] rd (thumbShiftReg .lsr rs rd) st

/-- ASR Rd, Rs (R326). -/
def execTAsrReg (rs rd : LoReg) (st : State) : Out :=
  thumbAlu [] rd (thumbShiftReg .asr rs rd) st

/-- ADC Rd, Rs (R327). -/
def execTAdc (rs rd : LoReg) (st : State) : Out :=
  thumbAlu [] rd (fun s => addWithCarry (s.readReg (lo rd)) (s.readReg (lo rs)) s.flagC) st

/-- SBC Rd, Rs (R328). -/
def execTSbc (rs rd : LoReg) (st : State) : Out :=
  thumbAlu [] rd (fun s => subWithCarry (s.readReg (lo rd)) (s.readReg (lo rs)) s.flagC) st

/-- ROR Rd, Rs (R329). -/
def execTRorReg (rs rd : LoReg) (st : State) : Out :=
  thumbAlu [] rd (thumbShiftReg .ror rs rd) st

/-- TST Rd, Rs (R330). -/
def execTTst (rs rd : LoReg) (st : State) : Out :=
  thumbCompare (fun s => logical s (s.readReg (lo rd) &&& s.readReg (lo rs)) s.flagC) st

/-- NEG Rd, Rs (R331). -/
def execTNeg (rs rd : LoReg) (st : State) : Out :=
  thumbAlu [] rd (fun s => subWithCarry 0 (s.readReg (lo rs)) true) st

/-- CMP Rd, Rs (R332). -/
def execTCmpReg (rs rd : LoReg) (st : State) : Out :=
  thumbCompare (fun s => subWithCarry (s.readReg (lo rd)) (s.readReg (lo rs)) true) st

/-- CMN Rd, Rs (R333). -/
def execTCmn (rs rd : LoReg) (st : State) : Out :=
  thumbCompare (fun s => addWithCarry (s.readReg (lo rd)) (s.readReg (lo rs)) false) st

/-- ORR Rd, Rs (R334). -/
def execTOrr (rs rd : LoReg) (st : State) : Out :=
  thumbAlu [] rd (fun s => logical s (s.readReg (lo rd) ||| s.readReg (lo rs)) s.flagC) st

/-- MUL Rd, Rs (R335): C UNKNOWN, V unchanged; Rd = Rs is refused. -/
def execTMul (rs rd : LoReg) (st : State) : Out :=
  unconditionally [(rd == rs, .mulRdEqRm)] []
    (fun s =>
      let product := s.readReg (lo rs) * s.readReg (lo rd)
      .next ((s.writeReg (lo rd) product).setMulFlags product).advance) st

/-- BIC Rd, Rs (R336). -/
def execTBic (rs rd : LoReg) (st : State) : Out :=
  thumbAlu [] rd (fun s => logical s (s.readReg (lo rd) &&& ~~~(s.readReg (lo rs))) s.flagC) st

/-- MVN Rd, Rs (R337). -/
def execTMvn (rs rd : LoReg) (st : State) : Out :=
  thumbAlu [] rd (fun s => logical s (~~~(s.readReg (lo rs))) s.flagC) st

/-- The refusal of two low registers in format 5 (R338 to R340, D39). -/
def hiRegForm (hs hd : Reg) : List (Bool × Refusal) := [(hd.toNat < 8 && hs.toNat < 8, .hiRegLoLo)]

/-- A format 5 result: Hd = R15 is a branch (R338, R340). -/
def writeHi (hd : Reg) (v : Word) (s : State) : Out :=
  if hd = 15 then branchTo v s else .next (s.writeReg hd v).advance

/-- ADD Hd, Hs (R338): no flags. -/
def execTAddHi (hs hd : Reg) (st : State) : Out :=
  unconditionally (hiRegForm hs hd) [hs, hd] (fun s => writeHi hd (s.readReg hd + s.readReg hs) s) st

/-- CMP Hd, Hs (R339). -/
def execTCmpHi (hs hd : Reg) (st : State) : Out :=
  unconditionally (hiRegForm hs hd) [hs, hd]
    (fun s => .next (s.setNZCV (subWithCarry (s.readReg hd) (s.readReg hs) true)).advance) st

/-- MOV Hd, Hs (R340): no flags. -/
def execTMovHi (hs hd : Reg) (st : State) : Out :=
  unconditionally (hiRegForm hs hd) [hs, hd] (fun s => writeHi hd (s.readReg hs) s) st

/-- The PC-relative base of formats 6 and 12, `(A + 4) AND NOT 3` (R310). -/
def thumbPcBase (s : State) : Word := s.pcRead &&& ~~~3

/-- `zext_32(imm8) << 2`. -/
def scaled8 (imm8 : BitVec 8) : Word := imm8.setWidth 32 <<< 2

/-- `zext_32(imm7) << 2`. -/
def scaled7 (imm7 : BitVec 7) : Word := imm7.setWidth 32 <<< 2

/-- ADD Rd, PC, #imm8 x 4 (R359). -/
def execTAddPc (rd : LoReg) (imm8 : BitVec 8) (st : State) : Out :=
  unconditionally [] [] (fun s => .next (s.writeReg (lo rd) (thumbPcBase s + scaled8 imm8)).advance) st

/-- ADD Rd, SP, #imm8 x 4 (R360). -/
def execTAddSp (rd : LoReg) (imm8 : BitVec 8) (st : State) : Out :=
  unconditionally [] [13] (fun s => .next (s.writeReg (lo rd) (s.readReg 13 + scaled8 imm8)).advance) st

/-- ADD SP, #imm7 x 4 (R361). -/
def execTSpAdd (imm7 : BitVec 7) (st : State) : Out :=
  unconditionally [] [13] (fun s => .next (s.writeReg 13 (s.readReg 13 + scaled7 imm7)).advance) st

/-- SUB SP, #imm7 x 4 (R362). -/
def execTSpSub (imm7 : BitVec 7) (st : State) : Out :=
  unconditionally [] [13] (fun s => .next (s.writeReg 13 (s.readReg 13 - scaled7 imm7)).advance) st

end Sys2Proof.Machine
end

