-- ==== Sys2Proof/Machine/ThumbBlock.lean ====
section
/-! DEFINITION. The THUMB block transfers: formats 14 and 15 (spec/49_thumb.md R363 to R366). -/

namespace Sys2Proof.Machine

/-- The registers of a list of R0 to R7, ascending. -/
def lowList (rlist : BitVec 8) : List Reg := regList (rlist.setWidth 16)

/-- The registers PUSH stores: the list, then R14 with R (R363). -/
def pushRegs (r : Bool) (rlist : BitVec 8) : List Reg := lowList rlist ++ (if r then [14] else [])

/-- The registers POP loads: the list, then R15 with R (R364). -/
def popRegs (r : Bool) (rlist : BitVec 8) : List Reg := lowList rlist ++ (if r then [15] else [])

/-- PUSH (R363). -/
def execTPush (r : Bool) (rlist : BitVec 8) (st : State) : Out :=
  unconditionally [((pushRegs r rlist).isEmpty, .emptyList)] (13 :: pushRegs r rlist)
    (fun s =>
      let start := s.readReg 13 - listBytes (pushRegs r rlist)
      storeBlock start (storeBlockValues true 13 (pushRegs r rlist) s) (some (13, start)) s) st

/-- POP (R364). -/
def execTPop (r : Bool) (rlist : BitVec 8) (st : State) : Out :=
  unconditionally [((popRegs r rlist).isEmpty, .emptyList)] (13 :: popRegs r rlist)
    (fun s => loadBlock 13 (s.readReg 13) (popRegs r rlist)
      (some (13, s.readReg 13 + listBytes (popRegs r rlist))) branchTo s) st

/-- STMIA Rb! (R365). -/
def execTStmia (rb : LoReg) (rlist : BitVec 8) (st : State) : Out :=
  unconditionally [((lowList rlist).isEmpty, .emptyList)] []
    (fun s => storeBlock (s.readReg (lo rb)) (storeBlockValues true (lo rb) (lowList rlist) s)
      (some (lo rb, s.readReg (lo rb) + listBytes (lowList rlist)))
      (s.drawnIf (storesUnknownBase true (lo rb) (lowList rlist)))) st

/-- LDMIA Rb! (R366). -/
def execTLdmia (rb : LoReg) (rlist : BitVec 8) (st : State) : Out :=
  unconditionally
    [((lowList rlist).isEmpty, .emptyList), ((lowList rlist).contains (lo rb), .ldmWritebackBaseInList)] []
    (fun s => loadBlock (lo rb) (s.readReg (lo rb)) (lowList rlist)
      (some (lo rb, s.readReg (lo rb) + listBytes (lowList rlist))) branchTo s) st

end Sys2Proof.Machine
end

