-- ==== Sys2Proof/Machine/ThumbBranch.lean ====
section
/-! DEFINITION. The THUMB branches, SWI and Undefined encodings: format 5 BX, formats 16 to 19 (spec/49_thumb.md R341,
R367 to R372). -/

namespace Sys2Proof.Machine

/-- BX Hs (R341). -/
def execTBx (h1 : Bool) (hs : Reg) (sbz : BitVec 3) (st : State) : Out :=
  unconditionally [(h1, .thumbBxH1), (sbz != 0, .sbz)] [hs] (fun s => branchExchange (s.readReg hs) s) st

/-- A THUMB Undefined encoding (R369). -/
def thumbUndefined (w : Word) : State → Out :=
  unconditionally [] [] fun s => .next (undefinedInstruction w s)

/-- Undefined, the rest of 1011 (R369, line 15 of the decode list). -/
def execTUnd1011 (bits : BitVec 12) (st : State) : Out := thumbUndefined (instrWord (.tUnd1011 bits)) st

/-- SWI (R368). -/
def execTSwi (value : BitVec 8) (st : State) : Out :=
  unconditionally [] [] (fun s => .next (softwareInterrupt (instrWord (.tSwi value)) s)) st

/-- Undefined, the condition field 1110 (R369, line 18). -/
def execTUndCond (bits : BitVec 8) (st : State) : Out := thumbUndefined (instrWord (.tUndCond bits)) st

/-- B with a condition (R367). -/
def execTBCond (c : Cond) (offset : BitVec 8) (st : State) : Out :=
  conditionally c [] [] (fun s => branchTo (s.pcRead + (offset ++ 0#1).signExtend 32) s) st

/-- B (R370). -/
def execTB (offset : BitVec 11) (st : State) : Out :=
  unconditionally [] [] (fun s => branchTo (s.pcRead + (offset ++ 0#1).signExtend 32) s) st

/-- Undefined, 11101 (R369, line 21). -/
def execTUnd11101 (bits : BitVec 11) (st : State) : Out := thumbUndefined (instrWord (.tUnd11101 bits)) st

/-- The first halfword of BL: a partial target in R14 (R371). -/
def execTBlPrefix (offset : BitVec 11) (st : State) : Out :=
  unconditionally [] [14] (fun s => .next (s.writeReg 14 (s.pcRead + offset.signExtend 32 <<< 12)).advance) st

/-- The second halfword of BL (R372). -/
def execTBlSuffix (offset : BitVec 11) (st : State) : Out :=
  unconditionally [] [14]
    (fun s => branchTo (s.readReg 14 + offset.setWidth 32 <<< 1) (s.writeReg 14 ((s.pc + 2) ||| 1))) st

end Sys2Proof.Machine
end

