-- ==== Sys2Proof/Machine/ThumbTransfer.lean ====
section
/-! DEFINITION. The THUMB single loads and stores: formats 6 to 11 (spec/49_thumb.md R342 to R358). -/

namespace Sys2Proof.Machine

/-- A load to a low register, with no write-back (R343). -/
def thumbLoad (touched : List Reg) (addr : State → Word) (sz : Size) (extend : Word → Word) (rd : LoReg) :
    State → Out :=
  unconditionally [] touched fun s => loadRegister (addr s) sz .data none (lo rd) extend s

/-- A store of a low register, with no write-back (R343). -/
def thumbStore (touched : List Reg) (addr : State → Word) (sz : Size) (rd : LoReg) : State → Out :=
  unconditionally [] touched fun s => storeRegister (addr s) sz .data none (s.readReg (lo rd)) s

/-- `x[Rb] + x[Ro]` (R343). -/
def regOffsetAddress (ro rb : LoReg) (s : State) : Word := s.readReg (lo rb) + s.readReg (lo ro)

/-- `x[Rb] + (zext_32(off5) << scale)`, scale 2 for words, 1 for halfwords, 0 for bytes (R351, R353, R355). -/
def immOffsetAddress (off5 : BitVec 5) (scale : Nat) (rb : LoReg) (s : State) : Word :=
  s.readReg (lo rb) + off5.setWidth 32 <<< scale

/-- `x[13] + (zext_32(imm8) << 2)` (R357). -/
def spOffsetAddress (imm8 : BitVec 8) (s : State) : Word := s.readReg 13 + scaled8 imm8

/-- `((A + 4) AND NOT 3) + (zext_32(imm8) << 2)` (R342). -/
def pcOffsetAddress (imm8 : BitVec 8) (s : State) : Word := thumbPcBase s + scaled8 imm8

/-- LDR Rd, [PC, #imm8 x 4] (R342). -/
def execTLdrPc (rd : LoReg) (imm8 : BitVec 8) (st : State) : Out :=
  thumbLoad [] (pcOffsetAddress imm8) .word id rd st

/-- STR Rd, [Rb, Ro] (R343). -/
def execTStrReg (ro rb rd : LoReg) (st : State) : Out :=
  thumbStore [] (regOffsetAddress ro rb) .word rd st

/-- STRB Rd, [Rb, Ro] (R344). -/
def execTStrbReg (ro rb rd : LoReg) (st : State) : Out :=
  thumbStore [] (regOffsetAddress ro rb) .byte rd st

/-- LDR Rd, [Rb, Ro] (R345). -/
def execTLdrReg (ro rb rd : LoReg) (st : State) : Out :=
  thumbLoad [] (regOffsetAddress ro rb) .word id rd st

/-- LDRB Rd, [Rb, Ro] (R346). -/
def execTLdrbReg (ro rb rd : LoReg) (st : State) : Out :=
  thumbLoad [] (regOffsetAddress ro rb) .byte zeroByte rd st

/-- STRH Rd, [Rb, Ro] (R347). -/
def execTStrhReg (ro rb rd : LoReg) (st : State) : Out :=
  thumbStore [] (regOffsetAddress ro rb) .half rd st

/-- LDRSB Rd, [Rb, Ro] (R348). -/
def execTLdrsbReg (ro rb rd : LoReg) (st : State) : Out :=
  thumbLoad [] (regOffsetAddress ro rb) .byte signByte rd st

/-- LDRH Rd, [Rb, Ro] (R349). -/
def execTLdrhReg (ro rb rd : LoReg) (st : State) : Out :=
  thumbLoad [] (regOffsetAddress ro rb) .half zeroHalf rd st

/-- LDRSH Rd, [Rb, Ro] (R350). -/
def execTLdrshReg (ro rb rd : LoReg) (st : State) : Out :=
  thumbLoad [] (regOffsetAddress ro rb) .half signHalf rd st

/-- STR Rd, [Rb, #off5 x 4] (R351). -/
def execTStrImm (off5 : BitVec 5) (rb rd : LoReg) (st : State) : Out :=
  thumbStore [] (immOffsetAddress off5 2 rb) .word rd st

/-- LDR Rd, [Rb, #off5 x 4] (R352). -/
def execTLdrImm (off5 : BitVec 5) (rb rd : LoReg) (st : State) : Out :=
  thumbLoad [] (immOffsetAddress off5 2 rb) .word id rd st

/-- STRB Rd, [Rb, #off5] (R353). -/
def execTStrbImm (off5 : BitVec 5) (rb rd : LoReg) (st : State) : Out :=
  thumbStore [] (immOffsetAddress off5 0 rb) .byte rd st

/-- LDRB Rd, [Rb, #off5] (R354). -/
def execTLdrbImm (off5 : BitVec 5) (rb rd : LoReg) (st : State) : Out :=
  thumbLoad [] (immOffsetAddress off5 0 rb) .byte zeroByte rd st

/-- STRH Rd, [Rb, #off5 x 2] (R355). -/
def execTStrhImm (off5 : BitVec 5) (rb rd : LoReg) (st : State) : Out :=
  thumbStore [] (immOffsetAddress off5 1 rb) .half rd st

/-- LDRH Rd, [Rb, #off5 x 2] (R356). -/
def execTLdrhImm (off5 : BitVec 5) (rb rd : LoReg) (st : State) : Out :=
  thumbLoad [] (immOffsetAddress off5 1 rb) .half zeroHalf rd st

/-- STR Rd, [SP, #imm8 x 4] (R357). -/
def execTStrSp (rd : LoReg) (imm8 : BitVec 8) (st : State) : Out :=
  thumbStore [13] (spOffsetAddress imm8) .word rd st

/-- LDR Rd, [SP, #imm8 x 4] (R358). -/
def execTLdrSp (rd : LoReg) (imm8 : BitVec 8) (st : State) : Out :=
  thumbLoad [13] (spOffsetAddress imm8) .word id rd st

end Sys2Proof.Machine
end

