-- ==== Sys2Proof/Machine/Dispatch.lean ====
section
/-! DEFINITION. The meaning of each instruction, one arm per constructor of `Instr`. -/

namespace Sys2Proof.Machine

/-- Executes a decoded instruction at the address in R15 (spec/40_cycle_condition_shifter.md R150 steps 6 to 8). -/
def exec (i : Instr) (s : State) : Host.Outcome State Fault Refusal :=
  match i with
  | .mul c sf rd sbz rs rm => Sys2Proof.Machine.execMul c sf rd sbz rs rm s
  | .mla c sf rd rn rs rm => Sys2Proof.Machine.execMla c sf rd rn rs rm s
  | .umull c sf rdHi rdLo rs rm => Sys2Proof.Machine.execUmull c sf rdHi rdLo rs rm s
  | .umlal c sf rdHi rdLo rs rm => Sys2Proof.Machine.execUmlal c sf rdHi rdLo rs rm s
  | .smull c sf rdHi rdLo rs rm => Sys2Proof.Machine.execSmull c sf rdHi rdLo rs rm s
  | .smlal c sf rdHi rdLo rs rm => Sys2Proof.Machine.execSmlal c sf rdHi rdLo rs rm s
  | .swp c rn rd rm => Sys2Proof.Machine.execSwp c rn rd rm s
  | .swpb c rn rd rm => Sys2Proof.Machine.execSwpb c rn rd rm s
  | .undMulSwap c op mid low => Sys2Proof.Machine.execUndMulSwap c op mid low s
  | .undSignedStore c op mid h low => Sys2Proof.Machine.execUndSignedStore c op mid h low s
  | .strh c p u w rn rd off => Sys2Proof.Machine.execStrh c p u w rn rd off s
  | .ldrh c p u w rn rd off => Sys2Proof.Machine.execLdrh c p u w rn rd off s
  | .ldrsb c p u w rn rd off => Sys2Proof.Machine.execLdrsb c p u w rn rd off s
  | .ldrsh c p u w rn rd off => Sys2Proof.Machine.execLdrsh c p u w rn rd off s
  | .bx c rm => Sys2Proof.Machine.execBx c rm s
  | .mrs c r sbo rd sbzHi sbzMid sbzLo => Sys2Proof.Machine.execMrs c r sbo rd sbzHi sbzMid sbzLo s
  | .msrReg c r mask sbo sbzHi sbzMid rm => Sys2Proof.Machine.execMsrReg c r mask sbo sbzHi sbzMid rm s
  | .msrImm c r mask sbo rotate imm8 => Sys2Proof.Machine.execMsrImm c r mask sbo rotate imm8 s
  | .undPsr c b op low => Sys2Proof.Machine.execUndPsr c b op low s
  | .and c sf rn rd op2 => Sys2Proof.Machine.execAnd c sf rn rd op2 s
  | .eor c sf rn rd op2 => Sys2Proof.Machine.execEor c sf rn rd op2 s
  | .sub c sf rn rd op2 => Sys2Proof.Machine.execSub c sf rn rd op2 s
  | .rsb c sf rn rd op2 => Sys2Proof.Machine.execRsb c sf rn rd op2 s
  | .add c sf rn rd op2 => Sys2Proof.Machine.execAdd c sf rn rd op2 s
  | .adc c sf rn rd op2 => Sys2Proof.Machine.execAdc c sf rn rd op2 s
  | .sbc c sf rn rd op2 => Sys2Proof.Machine.execSbc c sf rn rd op2 s
  | .rsc c sf rn rd op2 => Sys2Proof.Machine.execRsc c sf rn rd op2 s
  | .tst c rn sbz op2 => Sys2Proof.Machine.execTst c rn sbz op2 s
  | .teq c rn sbz op2 => Sys2Proof.Machine.execTeq c rn sbz op2 s
  | .cmp c rn sbz op2 => Sys2Proof.Machine.execCmp c rn sbz op2 s
  | .cmn c rn sbz op2 => Sys2Proof.Machine.execCmn c rn sbz op2 s
  | .orr c sf rn rd op2 => Sys2Proof.Machine.execOrr c sf rn rd op2 s
  | .mov c sf sbz rd op2 => Sys2Proof.Machine.execMov c sf sbz rd op2 s
  | .bic c sf rn rd op2 => Sys2Proof.Machine.execBic c sf rn rd op2 s
  | .mvn c sf sbz rd op2 => Sys2Proof.Machine.execMvn c sf sbz rd op2 s
  | .undMedia c mid low => Sys2Proof.Machine.execUndMedia c mid low s
  | .strPre c u w rn rd off => Sys2Proof.Machine.execStrPre c u w rn rd off s
  | .strPost c u rn rd off => Sys2Proof.Machine.execStrPost c u rn rd off s
  | .ldrPre c u w rn rd off => Sys2Proof.Machine.execLdrPre c u w rn rd off s
  | .ldrPost c u rn rd off => Sys2Proof.Machine.execLdrPost c u rn rd off s
  | .strbPre c u w rn rd off => Sys2Proof.Machine.execStrbPre c u w rn rd off s
  | .strbPost c u rn rd off => Sys2Proof.Machine.execStrbPost c u rn rd off s
  | .ldrbPre c u w rn rd off => Sys2Proof.Machine.execLdrbPre c u w rn rd off s
  | .ldrbPost c u rn rd off => Sys2Proof.Machine.execLdrbPost c u rn rd off s
  | .strt c u rn rd off => Sys2Proof.Machine.execStrt c u rn rd off s
  | .ldrt c u rn rd off => Sys2Proof.Machine.execLdrt c u rn rd off s
  | .strbt c u rn rd off => Sys2Proof.Machine.execStrbt c u rn rd off s
  | .ldrbt c u rn rd off => Sys2Proof.Machine.execLdrbt c u rn rd off s
  | .stm c p u w rn list => Sys2Proof.Machine.execStm c p u w rn list s
  | .ldm c p u w rn list => Sys2Proof.Machine.execLdm c p u w rn list s
  | .stmUser c p u w rn list => Sys2Proof.Machine.execStmUser c p u w rn list s
  | .ldmUser c p u w rn list => Sys2Proof.Machine.execLdmUser c p u w rn list s
  | .ldmReturn c p u w rn list => Sys2Proof.Machine.execLdmReturn c p u w rn list s
  | .b c offset => Sys2Proof.Machine.execB c offset s
  | .bl c offset => Sys2Proof.Machine.execBl c offset s
  | .stc c p u n w rn crd cp offset => Sys2Proof.Machine.execStc c p u n w rn crd cp offset s
  | .ldc c p u n w rn crd cp offset => Sys2Proof.Machine.execLdc c p u n w rn crd cp offset s
  | .cdp c op1 crn crd cp op2 crm => Sys2Proof.Machine.execCdp c op1 crn crd cp op2 crm s
  | .mcr c op1 crn rd cp op2 crm => Sys2Proof.Machine.execMcr c op1 crn rd cp op2 crm s
  | .mrc c op1 crn rd cp op2 crm => Sys2Proof.Machine.execMrc c op1 crn rd cp op2 crm s
  | .swi c comment => Sys2Proof.Machine.execSwi c comment s
  | .tAddReg rn rs rd => Sys2Proof.Machine.execTAddReg rn rs rd s
  | .tSubReg rn rs rd => Sys2Proof.Machine.execTSubReg rn rs rd s
  | .tAddImm3 imm3 rs rd => Sys2Proof.Machine.execTAddImm3 imm3 rs rd s
  | .tSubImm3 imm3 rs rd => Sys2Proof.Machine.execTSubImm3 imm3 rs rd s
  | .tLslImm off5 rs rd => Sys2Proof.Machine.execTLslImm off5 rs rd s
  | .tLsrImm off5 rs rd => Sys2Proof.Machine.execTLsrImm off5 rs rd s
  | .tAsrImm off5 rs rd => Sys2Proof.Machine.execTAsrImm off5 rs rd s
  | .tMovImm rd imm8 => Sys2Proof.Machine.execTMovImm rd imm8 s
  | .tCmpImm rd imm8 => Sys2Proof.Machine.execTCmpImm rd imm8 s
  | .tAddImm8 rd imm8 => Sys2Proof.Machine.execTAddImm8 rd imm8 s
  | .tSubImm8 rd imm8 => Sys2Proof.Machine.execTSubImm8 rd imm8 s
  | .tAnd rs rd => Sys2Proof.Machine.execTAnd rs rd s
  | .tEor rs rd => Sys2Proof.Machine.execTEor rs rd s
  | .tLslReg rs rd => Sys2Proof.Machine.execTLslReg rs rd s
  | .tLsrReg rs rd => Sys2Proof.Machine.execTLsrReg rs rd s
  | .tAsrReg rs rd => Sys2Proof.Machine.execTAsrReg rs rd s
  | .tAdc rs rd => Sys2Proof.Machine.execTAdc rs rd s
  | .tSbc rs rd => Sys2Proof.Machine.execTSbc rs rd s
  | .tRorReg rs rd => Sys2Proof.Machine.execTRorReg rs rd s
  | .tTst rs rd => Sys2Proof.Machine.execTTst rs rd s
  | .tNeg rs rd => Sys2Proof.Machine.execTNeg rs rd s
  | .tCmpReg rs rd => Sys2Proof.Machine.execTCmpReg rs rd s
  | .tCmn rs rd => Sys2Proof.Machine.execTCmn rs rd s
  | .tOrr rs rd => Sys2Proof.Machine.execTOrr rs rd s
  | .tMul rs rd => Sys2Proof.Machine.execTMul rs rd s
  | .tBic rs rd => Sys2Proof.Machine.execTBic rs rd s
  | .tMvn rs rd => Sys2Proof.Machine.execTMvn rs rd s
  | .tAddHi hs hd => Sys2Proof.Machine.execTAddHi hs hd s
  | .tCmpHi hs hd => Sys2Proof.Machine.execTCmpHi hs hd s
  | .tMovHi hs hd => Sys2Proof.Machine.execTMovHi hs hd s
  | .tBx h1 hs sbz => Sys2Proof.Machine.execTBx h1 hs sbz s
  | .tLdrPc rd imm8 => Sys2Proof.Machine.execTLdrPc rd imm8 s
  | .tStrReg ro rb rd => Sys2Proof.Machine.execTStrReg ro rb rd s
  | .tStrbReg ro rb rd => Sys2Proof.Machine.execTStrbReg ro rb rd s
  | .tLdrReg ro rb rd => Sys2Proof.Machine.execTLdrReg ro rb rd s
  | .tLdrbReg ro rb rd => Sys2Proof.Machine.execTLdrbReg ro rb rd s
  | .tStrhReg ro rb rd => Sys2Proof.Machine.execTStrhReg ro rb rd s
  | .tLdrsbReg ro rb rd => Sys2Proof.Machine.execTLdrsbReg ro rb rd s
  | .tLdrhReg ro rb rd => Sys2Proof.Machine.execTLdrhReg ro rb rd s
  | .tLdrshReg ro rb rd => Sys2Proof.Machine.execTLdrshReg ro rb rd s
  | .tStrImm off5 rb rd => Sys2Proof.Machine.execTStrImm off5 rb rd s
  | .tLdrImm off5 rb rd => Sys2Proof.Machine.execTLdrImm off5 rb rd s
  | .tStrbImm off5 rb rd => Sys2Proof.Machine.execTStrbImm off5 rb rd s
  | .tLdrbImm off5 rb rd => Sys2Proof.Machine.execTLdrbImm off5 rb rd s
  | .tStrhImm off5 rb rd => Sys2Proof.Machine.execTStrhImm off5 rb rd s
  | .tLdrhImm off5 rb rd => Sys2Proof.Machine.execTLdrhImm off5 rb rd s
  | .tStrSp rd imm8 => Sys2Proof.Machine.execTStrSp rd imm8 s
  | .tLdrSp rd imm8 => Sys2Proof.Machine.execTLdrSp rd imm8 s
  | .tAddPc rd imm8 => Sys2Proof.Machine.execTAddPc rd imm8 s
  | .tAddSp rd imm8 => Sys2Proof.Machine.execTAddSp rd imm8 s
  | .tSpAdd imm7 => Sys2Proof.Machine.execTSpAdd imm7 s
  | .tSpSub imm7 => Sys2Proof.Machine.execTSpSub imm7 s
  | .tPush r rlist => Sys2Proof.Machine.execTPush r rlist s
  | .tPop r rlist => Sys2Proof.Machine.execTPop r rlist s
  | .tUnd1011 bits => Sys2Proof.Machine.execTUnd1011 bits s
  | .tStmia rb rlist => Sys2Proof.Machine.execTStmia rb rlist s
  | .tLdmia rb rlist => Sys2Proof.Machine.execTLdmia rb rlist s
  | .tSwi value => Sys2Proof.Machine.execTSwi value s
  | .tUndCond bits => Sys2Proof.Machine.execTUndCond bits s
  | .tBCond c offset => Sys2Proof.Machine.execTBCond c offset s
  | .tB offset => Sys2Proof.Machine.execTB offset s
  | .tUnd11101 bits => Sys2Proof.Machine.execTUnd11101 bits s
  | .tBlPrefix offset => Sys2Proof.Machine.execTBlPrefix offset s
  | .tBlSuffix offset => Sys2Proof.Machine.execTBlSuffix offset s

end Sys2Proof.Machine
end

