-- ==== Sys2Proof/Machine/Step.lean ====
section
/-! DEFINITION. One step of the core (spec/40_cycle_condition_shifter.md R150), and placing the instruction the next
step fetches. -/

namespace Sys2Proof.Machine

/-- One step (R150): the fatal check, the lines at the boundary, the fetch, the prefetch abort, decode, execute. A
state that holds an illegal mode is the document's corrupted state (spec/10_state.md R43; log 12). -/
def step (s : State) : Host.Outcome State Fault Refusal :=
  if s.stop = .fatal then .fault .stopped
  else if (modeOf s.cpsr).isNone then fatalCorruptMode s
  else match sampleLines s.linesNow s.boundary with
  | some entered => .next entered
  | none =>
    match fetch s.boundary with
    | (none, fetched) => .next (prefetchAbort fetched)
    | (some w, fetched) => exec (decodeFetched s.thumb w) fetched

/-- The state with an instruction of `nbits` bits stored where the next step fetches it (log 16). -/
def State.withFetchWord (s : State) (nbits w : Nat) : State := s.placeInstruction nbits w

end Sys2Proof.Machine
end

