-- ==== Sys2Proof/Safety.lean ====
section
/-! DEFINITION. The terms claims are stated in: the invariant of a running core, runs, the condition that guards an
instruction, what an instruction leaves unchanged, what a store leaves in memory, and what an exception entry does. -/

namespace Sys2Proof.Machine

/-! ## The invariant of a running core -/

/-- The mode field is one of the seven legal values (spec/10_state.md R43). -/
def State.LegalMode (s : State) : Prop := (modeOf s.cpsr).isSome = true

/-- Bits 27:10 of a status word are zero (R50, R51). -/
def ReservedZero (psr : Word) : Prop := psr &&& ~~~psrMask = 0

/-- R15 is a multiple of 4 in ARM state, of 2 in THUMB state (R38). -/
def State.AlignedPc (s : State) : Prop := s.pc.toNat % (if s.thumb then 2 else 4) = 0

/-- What holds between steps of a running core: a legal mode (R43), reserved bits zero in CPSR and every SPSR (R50,
R51), R15 aligned (R38), memory in its canonical form, the dispatcher idle (R54), the stop status Running (R56), and
the hazard of LDM^ only in a mode that has an SPSR (R62, spec/46_block_transfer.md R275). -/
structure State.Inv (s : State) : Prop where
  legalMode : s.LegalMode
  cpsrReserved : ReservedZero s.cpsr
  fiqReserved : ReservedZero s.spsr.fiq
  irqReserved : ReservedZero s.spsr.irq
  svcReserved : ReservedZero s.spsr.svc
  abtReserved : ReservedZero s.spsr.abt
  undReserved : ReservedZero s.spsr.und
  aligned : s.AlignedPc
  memory : s.mem.wf = true
  idle : s.dispatcher = .idle
  running : s.stop = .running
  hazardBanked : s.hazard = true → s.lacksSpsr = false

/-- A run of the core: zero or more steps that each answer a next state. -/
inductive Runs : State → State → Prop where
  | refl (s : State) : Runs s s
  | step {s t u : State} : Runs s t → Machine.step t = .next u → Runs s u

/-! ## Instructions -/

/-- The condition that gates an instruction (spec/40_cycle_condition_shifter.md R150, R153): the condition field of an
ARM instruction and of THUMB format 16; every other THUMB instruction executes as AL. -/
def guardOf : Instr → Cond
  | .mul c _ _ _ _ _ => c
  | .mla c _ _ _ _ _ => c
  | .umull c _ _ _ _ _ => c
  | .umlal c _ _ _ _ _ => c
  | .smull c _ _ _ _ _ => c
  | .smlal c _ _ _ _ _ => c
  | .swp c _ _ _ => c
  | .swpb c _ _ _ => c
  | .undMulSwap c _ _ _ => c
  | .undSignedStore c _ _ _ _ => c
  | .strh c _ _ _ _ _ _ => c
  | .ldrh c _ _ _ _ _ _ => c
  | .ldrsb c _ _ _ _ _ _ => c
  | .ldrsh c _ _ _ _ _ _ => c
  | .bx c _ => c
  | .mrs c _ _ _ _ _ _ => c
  | .msrReg c _ _ _ _ _ _ => c
  | .msrImm c _ _ _ _ _ => c
  | .undPsr c _ _ _ => c
  | .and c _ _ _ _ => c
  | .eor c _ _ _ _ => c
  | .sub c _ _ _ _ => c
  | .rsb c _ _ _ _ => c
  | .add c _ _ _ _ => c
  | .adc c _ _ _ _ => c
  | .sbc c _ _ _ _ => c
  | .rsc c _ _ _ _ => c
  | .tst c _ _ _ => c
  | .teq c _ _ _ => c
  | .cmp c _ _ _ => c
  | .cmn c _ _ _ => c
  | .orr c _ _ _ _ => c
  | .mov c _ _ _ _ => c
  | .bic c _ _ _ _ => c
  | .mvn c _ _ _ _ => c
  | .undMedia c _ _ => c
  | .strPre c _ _ _ _ _ => c
  | .strPost c _ _ _ _ => c
  | .ldrPre c _ _ _ _ _ => c
  | .ldrPost c _ _ _ _ => c
  | .strbPre c _ _ _ _ _ => c
  | .strbPost c _ _ _ _ => c
  | .ldrbPre c _ _ _ _ _ => c
  | .ldrbPost c _ _ _ _ => c
  | .strt c _ _ _ _ => c
  | .ldrt c _ _ _ _ => c
  | .strbt c _ _ _ _ => c
  | .ldrbt c _ _ _ _ => c
  | .stm c _ _ _ _ _ => c
  | .ldm c _ _ _ _ _ => c
  | .stmUser c _ _ _ _ _ => c
  | .ldmUser c _ _ _ _ _ => c
  | .ldmReturn c _ _ _ _ _ => c
  | .b c _ => c
  | .bl c _ => c
  | .stc c _ _ _ _ _ _ _ _ => c
  | .ldc c _ _ _ _ _ _ _ _ => c
  | .cdp c _ _ _ _ _ _ => c
  | .mcr c _ _ _ _ _ _ => c
  | .mrc c _ _ _ _ _ _ => c
  | .swi c _ => c
  | .tAddReg _ _ _ => .al
  | .tSubReg _ _ _ => .al
  | .tAddImm3 _ _ _ => .al
  | .tSubImm3 _ _ _ => .al
  | .tLslImm _ _ _ => .al
  | .tLsrImm _ _ _ => .al
  | .tAsrImm _ _ _ => .al
  | .tMovImm _ _ => .al
  | .tCmpImm _ _ => .al
  | .tAddImm8 _ _ => .al
  | .tSubImm8 _ _ => .al
  | .tAnd _ _ => .al
  | .tEor _ _ => .al
  | .tLslReg _ _ => .al
  | .tLsrReg _ _ => .al
  | .tAsrReg _ _ => .al
  | .tAdc _ _ => .al
  | .tSbc _ _ => .al
  | .tRorReg _ _ => .al
  | .tTst _ _ => .al
  | .tNeg _ _ => .al
  | .tCmpReg _ _ => .al
  | .tCmn _ _ => .al
  | .tOrr _ _ => .al
  | .tMul _ _ => .al
  | .tBic _ _ => .al
  | .tMvn _ _ => .al
  | .tAddHi _ _ => .al
  | .tCmpHi _ _ => .al
  | .tMovHi _ _ => .al
  | .tBx _ _ _ => .al
  | .tLdrPc _ _ => .al
  | .tStrReg _ _ _ => .al
  | .tStrbReg _ _ _ => .al
  | .tLdrReg _ _ _ => .al
  | .tLdrbReg _ _ _ => .al
  | .tStrhReg _ _ _ => .al
  | .tLdrsbReg _ _ _ => .al
  | .tLdrhReg _ _ _ => .al
  | .tLdrshReg _ _ _ => .al
  | .tStrImm _ _ _ => .al
  | .tLdrImm _ _ _ => .al
  | .tStrbImm _ _ _ => .al
  | .tLdrbImm _ _ _ => .al
  | .tStrhImm _ _ _ => .al
  | .tLdrhImm _ _ _ => .al
  | .tStrSp _ _ => .al
  | .tLdrSp _ _ => .al
  | .tAddPc _ _ => .al
  | .tAddSp _ _ => .al
  | .tSpAdd _ => .al
  | .tSpSub _ => .al
  | .tPush _ _ => .al
  | .tPop _ _ => .al
  | .tUnd1011 _ => .al
  | .tStmia _ _ => .al
  | .tLdmia _ _ => .al
  | .tSwi _ => .al
  | .tUndCond _ => .al
  | .tBCond c _ => c
  | .tB _ => .al
  | .tUnd11101 _ => .al
  | .tBlPrefix _ => .al
  | .tBlSuffix _ => .al

/-- The instruction is a THUMB one. -/
def isThumb (i : Instr) : Bool :=
  match encode i with
  | .arm _ => false
  | .thumb _ => true

/-- The general registers an instruction names and reads or writes, R15 and implicit R13 and R14 included; an exception
entry's R14 is the dispatcher's, not the instruction's (spec/70_reset_and_hazards.md R441; log 15). -/
def namedRegs : Instr → List Reg
  | .mul _ _ rd _ rs rm => [rd, rm, rs]
  | .mla _ _ rd rn rs rm => [rd, rm, rs, rn]
  | .umull _ _ rdHi rdLo rs rm => [rdHi, rdLo, rm, rs]
  | .umlal _ _ rdHi rdLo rs rm => [rdHi, rdLo, rm, rs]
  | .smull _ _ rdHi rdLo rs rm => [rdHi, rdLo, rm, rs]
  | .smlal _ _ rdHi rdLo rs rm => [rdHi, rdLo, rm, rs]
  | .swp _ rn rd rm => [rn, rd, rm]
  | .swpb _ rn rd rm => [rn, rd, rm]
  | .undMulSwap _ _ _ _ => []
  | .undSignedStore _ _ _ _ _ => []
  | .strh _ _ _ _ rn rd off => rn :: rd :: halfOffsetRegs off
  | .ldrh _ _ _ _ rn rd off => rn :: rd :: halfOffsetRegs off
  | .ldrsb _ _ _ _ rn rd off => rn :: rd :: halfOffsetRegs off
  | .ldrsh _ _ _ _ rn rd off => rn :: rd :: halfOffsetRegs off
  | .bx _ rm => [rm]
  | .mrs _ _ _ rd _ _ _ => [rd]
  | .msrReg _ _ _ _ _ _ rm => [rm]
  | .msrImm _ _ _ _ _ _ => []
  | .undPsr _ _ _ _ => []
  | .and _ _ rn rd op2 => rn :: rd :: operand2Regs op2
  | .eor _ _ rn rd op2 => rn :: rd :: operand2Regs op2
  | .sub _ _ rn rd op2 => rn :: rd :: operand2Regs op2
  | .rsb _ _ rn rd op2 => rn :: rd :: operand2Regs op2
  | .add _ _ rn rd op2 => rn :: rd :: operand2Regs op2
  | .adc _ _ rn rd op2 => rn :: rd :: operand2Regs op2
  | .sbc _ _ rn rd op2 => rn :: rd :: operand2Regs op2
  | .rsc _ _ rn rd op2 => rn :: rd :: operand2Regs op2
  | .tst _ rn _ op2 => rn :: operand2Regs op2
  | .teq _ rn _ op2 => rn :: operand2Regs op2
  | .cmp _ rn _ op2 => rn :: operand2Regs op2
  | .cmn _ rn _ op2 => rn :: operand2Regs op2
  | .orr _ _ rn rd op2 => rn :: rd :: operand2Regs op2
  | .mov _ _ _ rd op2 => rd :: operand2Regs op2
  | .bic _ _ rn rd op2 => rn :: rd :: operand2Regs op2
  | .mvn _ _ _ rd op2 => rd :: operand2Regs op2
  | .undMedia _ _ _ => []
  | .strPre _ _ _ rn rd off => rn :: rd :: transferOffsetRegs off
  | .strPost _ _ rn rd off => rn :: rd :: transferOffsetRegs off
  | .ldrPre _ _ _ rn rd off => rn :: rd :: transferOffsetRegs off
  | .ldrPost _ _ rn rd off => rn :: rd :: transferOffsetRegs off
  | .strbPre _ _ _ rn rd off => rn :: rd :: transferOffsetRegs off
  | .strbPost _ _ rn rd off => rn :: rd :: transferOffsetRegs off
  | .ldrbPre _ _ _ rn rd off => rn :: rd :: transferOffsetRegs off
  | .ldrbPost _ _ rn rd off => rn :: rd :: transferOffsetRegs off
  | .strt _ _ rn rd off => rn :: rd :: transferOffsetRegs off
  | .ldrt _ _ rn rd off => rn :: rd :: transferOffsetRegs off
  | .strbt _ _ rn rd off => rn :: rd :: transferOffsetRegs off
  | .ldrbt _ _ rn rd off => rn :: rd :: transferOffsetRegs off
  | .stm _ _ _ _ rn list => rn :: regList list
  | .ldm _ _ _ _ rn list => rn :: regList list
  | .stmUser _ _ _ _ rn list => rn :: regList list
  | .ldmUser _ _ _ _ rn list => rn :: regList (0#1 ++ list)
  | .ldmReturn _ _ _ _ rn list => rn :: regList (1#1 ++ list)
  | .b _ _ => []
  | .bl _ _ => [14]
  | .stc _ _ _ _ _ _ _ _ _ => []
  | .ldc _ _ _ _ _ _ _ _ _ => []
  | .cdp _ _ _ _ _ _ _ => []
  | .mcr _ _ _ _ _ _ _ => []
  | .mrc _ _ _ _ _ _ _ => []
  | .swi _ _ => []
  | .tAddReg rn rs rd => [lo rn, lo rs, lo rd]
  | .tSubReg rn rs rd => [lo rn, lo rs, lo rd]
  | .tAddImm3 _ rs rd => [lo rs, lo rd]
  | .tSubImm3 _ rs rd => [lo rs, lo rd]
  | .tLslImm _ rs rd => [lo rs, lo rd]
  | .tLsrImm _ rs rd => [lo rs, lo rd]
  | .tAsrImm _ rs rd => [lo rs, lo rd]
  | .tMovImm rd _ => [lo rd]
  | .tCmpImm rd _ => [lo rd]
  | .tAddImm8 rd _ => [lo rd]
  | .tSubImm8 rd _ => [lo rd]
  | .tAnd rs rd => [lo rs, lo rd]
  | .tEor rs rd => [lo rs, lo rd]
  | .tLslReg rs rd => [lo rs, lo rd]
  | .tLsrReg rs rd => [lo rs, lo rd]
  | .tAsrReg rs rd => [lo rs, lo rd]
  | .tAdc rs rd => [lo rs, lo rd]
  | .tSbc rs rd => [lo rs, lo rd]
  | .tRorReg rs rd => [lo rs, lo rd]
  | .tTst rs rd => [lo rs, lo rd]
  | .tNeg rs rd => [lo rs, lo rd]
  | .tCmpReg rs rd => [lo rs, lo rd]
  | .tCmn rs rd => [lo rs, lo rd]
  | .tOrr rs rd => [lo rs, lo rd]
  | .tMul rs rd => [lo rs, lo rd]
  | .tBic rs rd => [lo rs, lo rd]
  | .tMvn rs rd => [lo rs, lo rd]
  | .tAddHi hs hd => [hs, hd]
  | .tCmpHi hs hd => [hs, hd]
  | .tMovHi hs hd => [hs, hd]
  | .tBx _ hs _ => [hs]
  | .tLdrPc rd _ => [lo rd]
  | .tStrReg ro rb rd => [lo ro, lo rb, lo rd]
  | .tStrbReg ro rb rd => [lo ro, lo rb, lo rd]
  | .tLdrReg ro rb rd => [lo ro, lo rb, lo rd]
  | .tLdrbReg ro rb rd => [lo ro, lo rb, lo rd]
  | .tStrhReg ro rb rd => [lo ro, lo rb, lo rd]
  | .tLdrsbReg ro rb rd => [lo ro, lo rb, lo rd]
  | .tLdrhReg ro rb rd => [lo ro, lo rb, lo rd]
  | .tLdrshReg ro rb rd => [lo ro, lo rb, lo rd]
  | .tStrImm _ rb rd => [lo rb, lo rd]
  | .tLdrImm _ rb rd => [lo rb, lo rd]
  | .tStrbImm _ rb rd => [lo rb, lo rd]
  | .tLdrbImm _ rb rd => [lo rb, lo rd]
  | .tStrhImm _ rb rd => [lo rb, lo rd]
  | .tLdrhImm _ rb rd => [lo rb, lo rd]
  | .tStrSp rd _ => [13, lo rd]
  | .tLdrSp rd _ => [13, lo rd]
  | .tAddPc rd _ => [lo rd]
  | .tAddSp rd _ => [13, lo rd]
  | .tSpAdd _ => [13]
  | .tSpSub _ => [13]
  | .tPush r rlist => 13 :: pushRegs r rlist
  | .tPop r rlist => 13 :: popRegs r rlist
  | .tUnd1011 _ => []
  | .tStmia rb rlist => lo rb :: lowList rlist
  | .tLdmia rb rlist => lo rb :: lowList rlist
  | .tSwi _ => []
  | .tUndCond _ => []
  | .tBCond _ _ => []
  | .tB _ => []
  | .tUnd11101 _ => []
  | .tBlPrefix _ => [14]
  | .tBlSuffix _ => [14]

/-- No register of the list is banked away from USR while the hazard of LDM^ holds (spec/70_reset_and_hazards.md
R441). -/
def State.NotBlocked (s : State) (regs : List Reg) : Prop := s.hazard = true → ∀ r ∈ regs, s.banksAway r = false

/-! ## What is left unchanged -/

/-- Every general register outside the list holds its value; R15 is not spoken of. -/
def SameRegsExcept (changed : List PhysReg) (s t : State) : Prop :=
  ∀ p : PhysReg, p ≠ .r15 → p ∉ changed → t.getPhys p = s.getPhys p

/-- Every bit of CPSR but N, Z, C and V. -/
def SameControl (s t : State) : Prop := t.cpsr &&& 0x0FFFFFFF = s.cpsr &&& 0x0FFFFFFF

/-- The exception registers and the hidden state: the five SPSRs, the dispatcher, the stop status. -/
def SameSpecial (s t : State) : Prop := t.spsr = s.spsr ∧ t.dispatcher = s.dispatcher ∧ t.stop = s.stop

/-- Every byte of memory reads as before. -/
def SameMemory (s t : State) : Prop := ∀ a : Nat, t.mem.read a = s.mem.read a

/-- The platform's parameters of the coming steps: lines and `PlainMemory`. -/
def SamePlatform (s t : State) : Prop := t.lines = s.lines ∧ t.plain = s.plain

/-- What every instruction that completes in its own mode leaves: its registers outside the list, the exception
registers and hidden state, the platform; the hazard is spent and the report is completed. -/
def KeepsAllBut (changed : List PhysReg) (s t : State) : Prop :=
  SameRegsExcept changed s t ∧ SameSpecial s t ∧ SamePlatform s t ∧ t.hazard = false ∧ t.out.report = .completed

/-- The next instruction follows: R15 is A + isz (spec/40_cycle_condition_shifter.md R159). -/
def GoesOn (s t : State) : Prop := t.pc = s.pc + s.isz

/-- The four flags of a state. -/
def HasFlags (t : State) (n z c v : Bool) : Prop := t.flagN = n ∧ t.flagZ = z ∧ t.flagC = c ∧ t.flagV = v

/-! ## Memory accesses -/

/-- The answer of a read of `sz` bytes at `addr`: the bytes of memory, lowest address first, or the platform's answer
(spec/20_memory.md R73, R75). -/
def State.readAnswer (s : State) (addr : Word) (sz : Size) : Option Word :=
  if s.plainAccess addr sz then some (leWord (s.bytesAt addr.toNat sz.bytes))
  else if s.answer.aborts then none
  else some (sz.low s.answer.value)

/-- A write of `sz` bytes at `addr` is answered ok (R73): it is memory's, or the platform says so. -/
def State.writeAnswersOk (s : State) (addr : Word) (sz : Size) : Bool := s.plainAccess addr sz || !s.answer.aborts

/-- The state whose next answer is the one after a read at `addr`: a read of memory is a draw (log 6), another takes
an answer of the platform. -/
def State.afterRead (s : State) (addr : Word) (sz : Size) : State := if s.plainAccess addr sz then s.drawn else s.answered

/-- The state in which the word read after `k` reads from `addr` on is answered. -/
def State.afterReads (s : State) (addr : Word) : Nat → State
  | 0 => s
  | k + 1 => (s.afterRead addr .word).afterReads (addr + 4) k

/-- The state in which the word write after `k` writes from `addr` on is answered. -/
def State.afterWrites (s : State) (addr : Word) : Nat → State
  | 0 => s
  | k + 1 => (s.afterWrite addr .word).afterWrites (addr + 4) k

/-- The address of the first of `n` word writes from `addr` on that the bus aborts, if one is. -/
def State.firstWriteAbort (s : State) (addr : Word) : Nat → Option Word
  | 0 => none
  | n + 1 =>
    if s.writeAnswersOk addr .word then (s.afterWrite addr .word).firstWriteAbort (addr + 4) n else some addr

/-- The memory effect of one write of `sz` bytes of `v` at `addr` (R75, R76, R78): in memory, byte `addr + i` becomes
bits 8i+7 to 8i of `v` and every other byte is as before; at the platform, the bytes its answer names. -/
def Stores (s t : State) (addr : Word) (sz : Size) (v : Word) : Prop :=
  if s.plainAccess addr sz then
    (∀ i : Nat, i < sz.bytes → t.mem.read (addr.toNat + i) = some ((v >>> (8 * i)).setWidth 8)) ∧
    (∀ a : Nat, a < addr.toNat ∨ addr.toNat + sz.bytes ≤ a → t.mem.read a = s.mem.read a)
  else
    t.mem = s.mem.writeCells s.answer.stored ∧
    (∀ a : Nat, (∀ c ∈ s.answer.stored, c.1.toNat ≠ a) → t.mem.read a = s.mem.read a)

/-- The memory effect of consecutive word writes from `first`, all of them memory's. -/
def StoresWords (s t : State) (first : Word) (values : List Word) : Prop :=
  (∀ (k i : Nat) (v : Word), values[k]? = some v → i < 4 →
    t.mem.read ((first + BitVec.ofNat 32 (4 * k)).toNat + i) = some ((v >>> (8 * i)).setWidth 8)) ∧
  (∀ a : Nat, (∀ k : Nat, k < values.length →
      a < (first + BitVec.ofNat 32 (4 * k)).toNat ∨ (first + BitVec.ofNat 32 (4 * k)).toNat + 4 ≤ a) →
    t.mem.read a = s.mem.read a)

/-- The memory effect of word writes from `addr` on, every one issued, each leaving what its own answer says. -/
def WritesInTurn (addr : Word) (values : List Word) (s t : State) : Prop :=
  match values with
  | [] => SameMemory s t
  | v :: vs => ∃ mem : Memory, Stores s (s.setMem mem) addr .word v ∧
      WritesInTurn (addr + 4) vs ((s.afterWrite addr .word).setMem mem) t

/-- The requests of word reads from `addr` on (spec/20_memory.md R80). -/
def readRequests (addr : Word) : Nat → List BusRequest
  | 0 => []
  | n + 1 => { addr := addr, size := .word, write := none, kind := .data, locked := false } :: readRequests (addr + 4) n

/-- The requests of word writes from `addr` on (R80). -/
def writeRequests (addr : Word) : List Word → List BusRequest
  | [] => []
  | v :: vs =>
    { addr := addr, size := .word, write := some v, kind := .data, locked := false } :: writeRequests (addr + 4) vs

/-- `n` consecutive word accesses from `first` are all memory's (R75). -/
def State.PlainWords (s : State) (first : Word) (n : Nat) : Prop :=
  ∀ k : Nat, k < n → s.plainAccess (first + BitVec.ofNat 32 (4 * k)) .word = true

/-! ## Results, as the rules give them

Each table pairs the instructions of one shape with the value, carry and overflow the spec gives: subtraction with
C = NOT borrow, overflow from the signs (spec/40_cycle_condition_shifter.md R164 to R166). -/

/-- a + b + cin, with carry and signed overflow (R164). -/
def sumResult (a b : Word) (cin : Bool) : AluResult :=
  let value := a + b + (BitVec.ofBool cin).setWidth 32
  { value := value, carry := decide (2 ^ 32 ≤ a.toNat + b.toNat + cin.toNat),
    overflow := a.msb == b.msb && value.msb != a.msb }

/-- a - b - NOT cin, with C = NOT borrow and signed overflow (R164). -/
def differenceResult (a b : Word) (cin : Bool) : AluResult :=
  let value := a - b - (BitVec.ofBool (!cin)).setWidth 32
  { value := value, carry := decide (b.toNat + (!cin).toNat ≤ a.toNat),
    overflow := a.msb != b.msb && value.msb != a.msb }

/-- A logical result: C from the shifter, V kept (R166). -/
def logicResult (s : State) (value : Word) (carry : Bool) : AluResult :=
  { value := value, carry := carry, overflow := s.flagV }

/-- The data-processing instructions that read Rn and write Rd: the result from Rn, operand 2 and the flags
(spec/44_data_processing.md R221 to R236). -/
def twoOperandOps : List ((Cond → Bool → Reg → Reg → Operand2 → Instr) × (Word → Shifted → State → AluResult)) :=
  [(.and, fun a b s => logicResult s (a &&& b.value) b.carry),
   (.eor, fun a b s => logicResult s (a ^^^ b.value) b.carry),
   (.sub, fun a b _ => differenceResult a b.value true),
   (.rsb, fun a b _ => differenceResult b.value a true),
   (.add, fun a b _ => sumResult a b.value false),
   (.adc, fun a b s => sumResult a b.value s.flagC),
   (.sbc, fun a b s => differenceResult a b.value s.flagC),
   (.rsc, fun a b s => differenceResult b.value a s.flagC),
   (.orr, fun a b s => logicResult s (a ||| b.value) b.carry),
   (.bic, fun a b s => logicResult s (a &&& ~~~b.value) b.carry)]

/-- MOV and MVN: the result from operand 2 (R234, R236). -/
def oneOperandOps : List ((Cond → Bool → BitVec 4 → Reg → Operand2 → Instr) × (Shifted → State → AluResult)) :=
  [(.mov, fun b s => logicResult s b.value b.carry),
   (.mvn, fun b s => logicResult s (~~~b.value) b.carry)]

/-- The comparisons: the result whose flags are written (R229 to R232). -/
def compareOps : List ((Cond → Reg → BitVec 4 → Operand2 → Instr) × (Word → Shifted → State → AluResult)) :=
  [(.tst, fun a b s => logicResult s (a &&& b.value) b.carry),
   (.teq, fun a b s => logicResult s (a ^^^ b.value) b.carry),
   (.cmp, fun a b _ => differenceResult a b.value true),
   (.cmn, fun a b _ => sumResult a b.value false)]

/-- THUMB formats 1 to 3, the instructions that write Rd: the destination and the result
(spec/49_thumb.md R311 to R318, R320, R321). -/
def thumbImmediateOps : List ((BitVec 3 → BitVec 5 → BitVec 8 → LoReg → LoReg → Instr) ×
    (BitVec 3 → BitVec 5 → BitVec 8 → LoReg → LoReg → State → AluResult)) :=
  [(fun i3 _ _ rs rd => .tAddImm3 i3 rs rd,
      fun i3 _ _ rs _ s => sumResult (s.readReg (lo rs)) (i3.setWidth 32) false),
   (fun i3 _ _ rs rd => .tSubImm3 i3 rs rd,
      fun i3 _ _ rs _ s => differenceResult (s.readReg (lo rs)) (i3.setWidth 32) true),
   (fun _ i5 _ rs rd => .tLslImm i5 rs rd,
      fun _ i5 _ rs _ s =>
        let r := shiftByImm (s.readReg (lo rs)) .lsl i5.toNat s.flagC
        logicResult s r.value r.carry),
   (fun _ i5 _ rs rd => .tLsrImm i5 rs rd,
      fun _ i5 _ rs _ s =>
        let r := shiftByImm (s.readReg (lo rs)) .lsr i5.toNat s.flagC
        logicResult s r.value r.carry),
   (fun _ i5 _ rs rd => .tAsrImm i5 rs rd,
      fun _ i5 _ rs _ s =>
        let r := shiftByImm (s.readReg (lo rs)) .asr i5.toNat s.flagC
        logicResult s r.value r.carry),
   (fun _ _ i8 _ rd => .tMovImm rd i8, fun _ _ i8 _ _ s => logicResult s (i8.setWidth 32) s.flagC),
   (fun _ _ i8 _ rd => .tAddImm8 rd i8,
      fun _ _ i8 _ rd s => sumResult (s.readReg (lo rd)) (i8.setWidth 32) false),
   (fun _ _ i8 _ rd => .tSubImm8 rd i8,
      fun _ _ i8 _ rd s => differenceResult (s.readReg (lo rd)) (i8.setWidth 32) true)]

/-- THUMB format 4, the instructions that write Rd, MUL apart: the result from Rd, Rs and the flags (R322 to R329,
R331, R334, R336, R337). -/
def thumbRegisterOps : List ((LoReg → LoReg → Instr) × (Word → Word → State → AluResult)) :=
  [(.tAnd, fun d x s => logicResult s (d &&& x) s.flagC),
   (.tEor, fun d x s => logicResult s (d ^^^ x) s.flagC),
   (.tLslReg, fun d x s =>
      let r := shiftByReg d .lsl (x.toNat % 256) s.flagC
      logicResult s r.value r.carry),
   (.tLsrReg, fun d x s =>
      let r := shiftByReg d .lsr (x.toNat % 256) s.flagC
      logicResult s r.value r.carry),
   (.tAsrReg, fun d x s =>
      let r := shiftByReg d .asr (x.toNat % 256) s.flagC
      logicResult s r.value r.carry),
   (.tAdc, fun d x s => sumResult d x s.flagC),
   (.tSbc, fun d x s => differenceResult d x s.flagC),
   (.tRorReg, fun d x s =>
      let r := shiftByReg d .ror (x.toNat % 256) s.flagC
      logicResult s r.value r.carry),
   (.tNeg, fun _ x _ => differenceResult 0 x true),
   (.tOrr, fun d x s => logicResult s (d ||| x) s.flagC),
   (.tBic, fun d x s => logicResult s (d &&& ~~~x) s.flagC),
   (.tMvn, fun _ x s => logicResult s (~~~x) s.flagC)]

/-- THUMB format 4 comparisons: the result whose flags are written (R330, R332, R333). -/
def thumbCompareOps : List ((LoReg → LoReg → Instr) × (Word → Word → State → AluResult)) :=
  [(.tTst, fun d x s => logicResult s (d &&& x) s.flagC),
   (.tCmpReg, fun d x _ => differenceResult d x true),
   (.tCmn, fun d x _ => sumResult d x false)]

/-- The single data transfers that load (spec/45_single_transfer.md R251, R252, R255, R256): the instruction by U, W,
Rn, Rd and offset; pre-indexed or not; whether W decides the write-back; size, kind, and what is done to the value. -/
def singleLoads : List ((Cond → Bool → Bool → Reg → Reg → TransferOffset → Instr) × Bool × Size × AccessKind ×
    (Word → Word)) :=
  [(fun c u w rn rd off => .ldrPre c u w rn rd off, true, .word, .data, id),
   (fun c u _ rn rd off => .ldrPost c u rn rd off, false, .word, .data, id),
   (fun c u w rn rd off => .ldrbPre c u w rn rd off, true, .byte, .data, fun v => (v.extractLsb' 0 8).setWidth 32),
   (fun c u _ rn rd off => .ldrbPost c u rn rd off, false, .byte, .data, fun v => (v.extractLsb' 0 8).setWidth 32),
   (fun c u _ rn rd off => .ldrt c u rn rd off, false, .word, .dataUser, id),
   (fun c u _ rn rd off => .ldrbt c u rn rd off, false, .byte, .dataUser, fun v => (v.extractLsb' 0 8).setWidth 32)]

/-- The single data transfers that store (R253, R254, R257, R258), as `singleLoads`. -/
def singleStores : List ((Cond → Bool → Bool → Reg → Reg → TransferOffset → Instr) × Bool × Size × AccessKind) :=
  [(fun c u w rn rd off => .strPre c u w rn rd off, true, .word, .data),
   (fun c u _ rn rd off => .strPost c u rn rd off, false, .word, .data),
   (fun c u w rn rd off => .strbPre c u w rn rd off, true, .byte, .data),
   (fun c u _ rn rd off => .strbPost c u rn rd off, false, .byte, .data),
   (fun c u _ rn rd off => .strt c u rn rd off, false, .word, .dataUser),
   (fun c u _ rn rd off => .strbt c u rn rd off, false, .byte, .dataUser)]

/-- The halfword-format loads (spec/42_halfword_transfer.md R202 to R204): size, and what is done to the value. -/
def halfLoads : List ((Cond → Bool → Bool → Bool → Reg → Reg → HalfOffset → Instr) × Size × (Word → Word)) :=
  [(.ldrh, .half, fun v => (v.extractLsb' 0 16).setWidth 32),
   (.ldrsb, .byte, fun v => (v.extractLsb' 0 8).signExtend 32),
   (.ldrsh, .half, fun v => (v.extractLsb' 0 16).signExtend 32)]

/-- The THUMB loads (spec/49_thumb.md R342, R345, R346, R348 to R350, R352, R354, R356, R358) by Ro, Rb, Rd and the
immediates: the address, the size, what is done to the value, and the high registers read. -/
def thumbLoads : List ((LoReg → LoReg → LoReg → BitVec 5 → BitVec 8 → Instr) ×
    (LoReg → LoReg → BitVec 5 → BitVec 8 → State → Word) × Size × (Word → Word) × List Reg) :=
  [(fun _ _ rd _ i8 => .tLdrPc rd i8, fun _ _ _ i8 s => (s.pcRead &&& 0xFFFFFFFC) + (i8.setWidth 32 <<< 2), .word, id, []),
   (fun ro rb rd _ _ => .tLdrReg ro rb rd, fun ro rb _ _ s => s.readReg (lo rb) + s.readReg (lo ro), .word, id, []),
   (fun ro rb rd _ _ => .tLdrbReg ro rb rd, fun ro rb _ _ s => s.readReg (lo rb) + s.readReg (lo ro), .byte,
      fun v => (v.extractLsb' 0 8).setWidth 32, []),
   (fun ro rb rd _ _ => .tLdrsbReg ro rb rd, fun ro rb _ _ s => s.readReg (lo rb) + s.readReg (lo ro), .byte,
      fun v => (v.extractLsb' 0 8).signExtend 32, []),
   (fun ro rb rd _ _ => .tLdrhReg ro rb rd, fun ro rb _ _ s => s.readReg (lo rb) + s.readReg (lo ro), .half,
      fun v => (v.extractLsb' 0 16).setWidth 32, []),
   (fun ro rb rd _ _ => .tLdrshReg ro rb rd, fun ro rb _ _ s => s.readReg (lo rb) + s.readReg (lo ro), .half,
      fun v => (v.extractLsb' 0 16).signExtend 32, []),
   (fun _ rb rd i5 _ => .tLdrImm i5 rb rd, fun _ rb i5 _ s => s.readReg (lo rb) + (i5.setWidth 32 <<< 2), .word, id, []),
   (fun _ rb rd i5 _ => .tLdrbImm i5 rb rd, fun _ rb i5 _ s => s.readReg (lo rb) + i5.setWidth 32, .byte,
      fun v => (v.extractLsb' 0 8).setWidth 32, []),
   (fun _ rb rd i5 _ => .tLdrhImm i5 rb rd, fun _ rb i5 _ s => s.readReg (lo rb) + (i5.setWidth 32 <<< 1), .half,
      fun v => (v.extractLsb' 0 16).setWidth 32, []),
   (fun _ _ rd _ i8 => .tLdrSp rd i8, fun _ _ _ i8 s => s.readReg 13 + (i8.setWidth 32 <<< 2), .word, id, [13])]

/-- The THUMB stores (R343, R344, R347, R351, R353, R355, R357), as `thumbLoads`. -/
def thumbStores : List ((LoReg → LoReg → LoReg → BitVec 5 → BitVec 8 → Instr) ×
    (LoReg → LoReg → BitVec 5 → BitVec 8 → State → Word) × Size × List Reg) :=
  [(fun ro rb rd _ _ => .tStrReg ro rb rd, fun ro rb _ _ s => s.readReg (lo rb) + s.readReg (lo ro), .word, []),
   (fun ro rb rd _ _ => .tStrbReg ro rb rd, fun ro rb _ _ s => s.readReg (lo rb) + s.readReg (lo ro), .byte, []),
   (fun ro rb rd _ _ => .tStrhReg ro rb rd, fun ro rb _ _ s => s.readReg (lo rb) + s.readReg (lo ro), .half, []),
   (fun _ rb rd i5 _ => .tStrImm i5 rb rd, fun _ rb i5 _ s => s.readReg (lo rb) + (i5.setWidth 32 <<< 2), .word, []),
   (fun _ rb rd i5 _ => .tStrbImm i5 rb rd, fun _ rb i5 _ s => s.readReg (lo rb) + i5.setWidth 32, .byte, []),
   (fun _ rb rd i5 _ => .tStrhImm i5 rb rd, fun _ rb i5 _ s => s.readReg (lo rb) + (i5.setWidth 32 <<< 1), .half, []),
   (fun _ _ rd _ i8 => .tStrSp rd i8, fun _ _ _ i8 s => s.readReg 13 + (i8.setWidth 32 <<< 2), .word, [13])]

/-- The forms of a single data transfer that are not refused (spec/45_single_transfer.md R250). -/
def TransferFormOk (wb byte : Bool) (rn rd : Reg) (off : TransferOffset) : Prop :=
  15 ∉ transferOffsetRegs off ∧ (wb = true → rn ≠ 15 ∧ rn ≠ rd ∧ rn ∉ transferOffsetRegs off) ∧
  (byte = true → rd ≠ 15)

/-- The forms of a halfword transfer that are not refused (spec/42_halfword_transfer.md R200). -/
def HalfFormOk (p w : Bool) (rn rd : Reg) (off : HalfOffset) : Prop :=
  (∀ sbz rm, off = .reg sbz rm → sbz = 0 ∧ rm ≠ 15) ∧ (p = true ∨ w = false) ∧ rd ≠ 15 ∧
  (p = false ∨ w = true → rn ≠ 15 ∧ rn ≠ rd)

/-- A load's completion: `rd` gets the value, the base its write-back, R15 advances, one read is issued, and nothing
else changes. -/
def LoadsInto (rd : Reg) (v : Word) (wb : Option (Reg × Word)) (request : BusRequest) (s t : State) : Prop :=
  t.getPhys (physReg s.mode rd) = v ∧ (∀ n x, wb = some (n, x) → t.getPhys (physReg s.mode n) = x) ∧
  t.cpsr = s.cpsr ∧
  KeepsAllBut (physReg s.mode rd :: (wb.map fun b => physReg s.mode b.1).toList) s t ∧ SameMemory s t ∧ GoesOn s t ∧
  t.out.requests = s.out.requests ++ [request]

/-- A store's completion: the bytes of the value at the address, the base its write-back, R15 advances, one write is
issued, and nothing else changes. -/
def StoresFrom (addr : Word) (sz : Size) (v : Word) (wb : Option (Reg × Word)) (request : BusRequest) (s t : State) :
    Prop :=
  Stores s t addr sz v ∧ (∀ n x, wb = some (n, x) → t.getPhys (physReg s.mode n) = x) ∧ t.cpsr = s.cpsr ∧
  KeepsAllBut (wb.map fun b => physReg s.mode b.1).toList s t ∧ GoesOn s t ∧
  t.out.requests = s.out.requests ++ [request]

/-- A result written to `rd`: its value, its flags if the instruction sets them, and nothing else but R15's advance. -/
def WritesResult (setFlags : Bool) (rd : Reg) (r : AluResult) (s t : State) : Prop :=
  t.getPhys (physReg s.mode rd) = r.value ∧
  (if setFlags then HasFlags t r.value.msb (decide (r.value = 0)) r.carry r.overflow
   else HasFlags t s.flagN s.flagZ s.flagC s.flagV) ∧
  SameControl s t ∧ KeepsAllBut [physReg s.mode rd] s t ∧ SameMemory s t ∧ GoesOn s t

/-- A comparison: the flags of the result, and nothing else but R15's advance. -/
def WritesFlags (r : AluResult) (s t : State) : Prop :=
  HasFlags t r.value.msb (decide (r.value = 0)) r.carry r.overflow ∧
  SameControl s t ∧ KeepsAllBut [] s t ∧ SameMemory s t ∧ GoesOn s t

/-- A register written with no flag changed: CPSR whole, memory and everything else as before. -/
def WritesOnly (rd : Reg) (v : Word) (s t : State) : Prop :=
  t.getPhys (physReg s.mode rd) = v ∧ t.cpsr = s.cpsr ∧ KeepsAllBut [physReg s.mode rd] s t ∧ SameMemory s t ∧
  GoesOn s t

/-- A write of R15 in the current state (spec/40_cycle_condition_shifter.md R157), `changed` being the registers the
instruction also wrote: THUMB clears bit 0; ARM takes an aligned target and refuses another. -/
def BranchesTo (target : Word) (changed : List PhysReg) (s : State) (o : Out) : Prop :=
  if s.thumb = false ∧ target.extractLsb' 0 2 ≠ 0 then o = .refused .misalignedArmPC
  else ∃ t, o = .next t ∧ t.pc = (if s.thumb then target &&& 0xFFFFFFFE else target) ∧ t.cpsr = s.cpsr ∧
    KeepsAllBut changed s t ∧ SameMemory s t

/-- BX (R158): state from bit 0, R15 the target with bit 0 cleared, nothing else changed; an ARM target with bit 1 set
is refused. -/
def ExchangesTo (target : Word) (s : State) (o : Out) : Prop :=
  if target.getLsbD 0 = false ∧ target.getLsbD 1 = true then o = .refused .misalignedArmPC
  else ∃ t, o = .next t ∧ t.pc = target &&& 0xFFFFFFFE ∧ t.thumb = target.getLsbD 0 ∧
    (∀ i : Nat, i ≠ 5 → psrBit t.cpsr i = psrBit s.cpsr i) ∧ KeepsAllBut [] s t ∧ SameMemory s t

/-- What the fatal channel leaves (spec/60_exceptions.md R428): the stop status Fatal; CPSR, SPSRs, R15, memory and
every register outside `changed`, which the instruction wrote before, as they were. -/
def LeftFatal (changed : List PhysReg) (s left : State) : Prop :=
  left.stop = .fatal ∧ left.cpsr = s.cpsr ∧ left.spsr = s.spsr ∧ left.pc = s.pc ∧ SameRegsExcept changed s left ∧
  SameMemory s left

/-- An exception return to `target` (spec/60_exceptions.md R403), `changed` being the registers the instruction also
wrote: refused without an SPSR; fatal on an illegal saved mode; else CPSR is the SPSR's
existing bits and R15 is written in the restored state. -/
def ReturnsTo (target : Word) (changed : List PhysReg) (s : State) (o : Out) : Prop :=
  match s.getSpsr s.mode with
  | none => o = .refused .noSpsr
  | some v =>
    if modeOf v = none then ∃ left, o = .fault (.corruptMode left) ∧ LeftFatal changed s left
    else if psrBit v 5 = false ∧ target.extractLsb' 0 2 ≠ 0 then o = .refused .misalignedArmPC
    else ∃ t, o = .next t ∧ t.cpsr = v &&& 0xF00003FF ∧
      t.pc = (if psrBit v 5 then target &&& 0xFFFFFFFE else target) ∧ KeepsAllBut changed s t ∧ SameMemory s t

/-! ## Exception entry -/

/-- The exception registers other than those of `m` are unchanged. -/
def OtherSpsrs (m : Mode) (s t : State) : Prop := ∀ m' : Mode, m' ≠ m → t.getSpsr m' = s.getSpsr m'

/-- What taking an exception into mode `m` does (spec/60_exceptions.md R396 to R402): R14 of the mode is the link, its
SPSR the old CPSR; mode, ARM state, I set, F set or kept; every other bit of CPSR kept; R15 at the vector; the hazard
spent, the dispatcher idle. -/
def Enters (m : Mode) (vector link : Word) (setsF : Bool) (s t : State) : Prop :=
  t.getPhys (.lr (bankOf m)) = link ∧ t.getSpsr m = some s.cpsr ∧ OtherSpsrs m s t ∧
  modeOf t.cpsr = some m ∧ t.thumb = false ∧ t.flagI = true ∧ t.flagF = (s.flagF || setsF) ∧
  t.cpsr &&& 0xFFFFFF00 = s.cpsr &&& 0xFFFFFF00 ∧
  t.pc = vector ∧ t.hazard = false ∧ t.dispatcher = .idle ∧ t.stop = s.stop

/-- The entry of an exception with nothing else changed: registers, memory and the platform as before. -/
def EntersOnly (m : Mode) (vector link : Word) (setsF : Bool) (s t : State) : Prop :=
  Enters m vector link setsF s t ∧ SameRegsExcept [.lr (bankOf m)] s t ∧ SameMemory s t ∧ SamePlatform s t

/-- A Data Abort with the base updated (R407, spec/45_single_transfer.md R260): the entry of R396 with link A + 8, the
base's write-back, and no other register changed. -/
def AbortsWithBase (wb : Option (Reg × Word)) (s t : State) : Prop :=
  Enters .abt 0x10 (s.pc + 8) false s t ∧
  (∀ n x, wb = some (n, x) → physReg s.mode n ≠ .lr .abt → t.getPhys (physReg s.mode n) = x) ∧
  SameRegsExcept (.lr .abt :: (wb.map fun b => physReg s.mode b.1).toList) s t ∧ SamePlatform s t

/-- A store multiple of values from `first` on (spec/46_block_transfer.md R272, R277, spec/70_reset_and_hazards.md R440),
in all its outcomes, `s0` being the state its first write is answered in: refused when a write would meet a prefetched
slot. Otherwise every write is issued, the base has its write-back, and the step completes with nothing else changed
when no write aborts, or is the Data Abort of the first that does. In memory the values are words in a row. -/
def StoresBlock (first : Word) (values : List Word) (wb : Option (Reg × Word)) (s0 s : State) (o : Out) : Prop :=
  (s0.wordsSelfModify first values.length = true → o = .refused .selfModifyPrefetched) ∧
  (s0.wordsSelfModify first values.length = false → ∃ t, o = .next t ∧
    WritesInTurn first values s0 t ∧ (s.PlainWords first values.length → StoresWords s t first values) ∧
    t.out.requests = s.out.requests ++ writeRequests first values ∧
    match s0.firstWriteAbort first values.length with
    | none => (∀ n x, wb = some (n, x) → t.getPhys (physReg s.mode n) = x) ∧ t.cpsr = s.cpsr ∧
        KeepsAllBut (wb.map fun b => physReg s.mode b.1).toList s t ∧ GoesOn s t
    | some a => AbortsWithBase wb s t ∧ t.out.report = .exception .dataAbort s.pc (.addr a))

/-- The reads of a load multiple of which read `k` is the first to abort. -/
def AbortsAt (k : Nat) (reads : List (Reg × Option Word)) : Prop :=
  (∃ r, reads[k]? = some (r, none)) ∧ ∀ e ∈ reads.take k, e.2 ≠ none

/-- A load multiple of which read `k` is the first to abort (spec/46_block_transfer.md R277): every read is issued; the
registers read before it are loaded, but not the base, whose value is `base`; R15 and every other register are not, and
CPSR is not restored: the Data Abort entry saves it. `dest` is the bank the list's registers are of. -/
def AbortsLoading (dest : Reg → PhysReg) (rn : Reg) (base first : Word) (k : Nat) (reads : List (Reg × Option Word))
    (s t : State) : Prop :=
  Enters .abt 0x10 (s.pc + 8) false s t ∧
  t.out.report = .exception .dataAbort s.pc (.addr (first + BitVec.ofNat 32 (4 * k))) ∧
  (∀ r v, (r, some v) ∈ reads.take k → r ≠ 15 → dest r ≠ physReg s.mode rn → dest r ≠ .lr .abt →
    t.getPhys (dest r) = v) ∧
  (physReg s.mode rn ≠ .lr .abt → t.getPhys (physReg s.mode rn) = base) ∧
  SameRegsExcept (.lr .abt :: physReg s.mode rn :: (reads.take k).map fun e => dest e.1) s t ∧
  SameMemory s t ∧ SamePlatform s t ∧ t.out.requests = s.out.requests ++ readRequests first reads.length

end Sys2Proof.Machine
end

