-- ==== Sys2Proof/Certificates/Slice0/Obligations.lean ====
section
/-! DEFINITION. The statements about the machine, for the provers (OBLIGATIONS.json lists them). -/

open Sys2Proof Sys2Proof.Machine

/-! ## Encoding -/

/-- Every instruction is read back from its encoding (spec/30_encoding.md R102 to R124). -/
def Obligations.DecodeReadsEveryEncoding : Prop :=
  ∀ i : Instr, wellFormed i = true → decode (encode i) = i

/-- Every ARM word and every THUMB halfword decodes to one well-formed instruction, which encodes to it: no bit is
dropped and the two lists are total (R102, R124). -/
def Obligations.EveryWordIsOneInstruction : Prop :=
  ∀ e : Encoding, wellFormed (decode e) = true ∧ encode (decode e) = e

/-- Words written out from the field tables decode to the instructions they stand for (R105 to R115, R122, R123). -/
def Obligations.DecodesWordsOfTheTables : Prop :=
  decode (.arm 0xE0000291) = .mul .al false 0 0 2 1 ∧
  decode (.arm 0xE1E100B2) = .strh .al true true true 1 0 (.imm 2) ∧
  decode (.arm 0xE129F000) = .msrReg .al false 9 15 0 0 0 ∧
  decode (.arm 0xE0910002) = .add .al true 1 0 (.shiftImm 0 .lsl 2) ∧
  decode (.arm 0xE7910102) = .ldrPre .al true false 1 0 (.reg 2 .lsl 2) ∧
  decode (.arm 0xE92D4007) = .stm .al true false true 13 0x4007 ∧
  decode (.arm 0xEB0003FE) = .bl .al 0x3FE ∧
  decode (.arm 0xE1020091) = .swp .al 2 0 1 ∧
  decode (.thumb 0x1888) = .tAddReg 2 1 0 ∧
  decode (.thumb 0x6848) = .tLdrImm 1 1 0 ∧
  decode (.thumb 0xB503) = .tPush true 3 ∧
  decode (.thumb 0xD006) = .tBCond .eq 6

/-! ## Registers and status words -/

/-- The table of `Bank(mode, n)`, and that a register number of R0 to R14 reads and writes the register of its bank
(spec/10_state.md R33). -/
def Obligations.BankTable : Prop :=
  (∀ (m : Mode) (n : Reg),
    (n.toNat < 8 → physReg m n = .low (Fin.ofNat 8 n.toNat)) ∧
    (8 ≤ n.toNat ∧ n.toNat ≤ 12 ∧ m = .fiq → physReg m n = .highFiq (Fin.ofNat 5 (n.toNat - 8))) ∧
    (8 ≤ n.toNat ∧ n.toNat ≤ 12 ∧ m ≠ .fiq → physReg m n = .high (Fin.ofNat 5 (n.toNat - 8))) ∧
    (n = 13 → physReg m n = .sp (match m with
      | .usr => .usr | .sys => .usr | .fiq => .fiq | .irq => .irq | .svc => .svc | .abt => .abt | .und => .und)) ∧
    (n = 14 → physReg m n = .lr (match m with
      | .usr => .usr | .sys => .usr | .fiq => .fiq | .irq => .irq | .svc => .svc | .abt => .abt | .und => .und)) ∧
    (n = 15 → physReg m n = .r15)) ∧
  (∀ (s : State) (n : Reg) (v : Word), n ≠ 15 → s.readReg n = s.getPhys (physReg s.mode n) ∧
    (s.writeReg n v).getPhys (physReg s.mode n) = v ∧
    ∀ q, q ≠ physReg s.mode n → (s.writeReg n v).getPhys q = s.getPhys q)

/-- A register written in one mode is not seen through another mode's bank, and is seen again on return to the first
mode; the mode change itself copies nothing (R34). -/
def Obligations.BankedRegistersPersist : Prop :=
  ∀ (s : State) (m : Mode) (n k : Reg) (v : Word), s.LegalMode → n ≠ 15 → k ≠ 15 →
    let written := s.writeReg n v
    let switched := written.setCpsr (setMode written.cpsr m)
    let returned := switched.setCpsr (setMode switched.cpsr s.mode)
    (physReg m k ≠ physReg s.mode n → switched.readReg k = s.getPhys (physReg m k)) ∧
    (physReg m k = physReg s.mode n → switched.readReg k = v) ∧
    returned.readReg n = v ∧ switched.regs = written.regs

/-- `SetOperatingMode` writes CPSR[4:0] only (R44): the mode read back is the one set, every other bit is kept. -/
def Obligations.SetOperatingModeKeepsOtherBits : Prop :=
  ∀ (psr : Word) (m : Mode), modeOf (setMode psr m) = some m ∧
    setMode psr m = (psr &&& ~~~0x0000001F#32) ||| modeCode m ∧ ∀ i : Nat, 5 ≤ i → psrBit (setMode psr m) i = psrBit psr i

/-- The condition table, from the flags alone (spec/40_cycle_condition_shifter.md R152). -/
def Obligations.ConditionTable : Prop :=
  ∀ (s : State) (n z c v : Bool), HasFlags s n z c v →
    condPassed .eq s = z ∧ condPassed .ne s = !z ∧ condPassed .cs s = c ∧ condPassed .cc s = !c ∧
    condPassed .mi s = n ∧ condPassed .pl s = !n ∧ condPassed .vs s = v ∧ condPassed .vc s = !v ∧
    condPassed .hi s = (c && !z) ∧ condPassed .ls s = (!c || z) ∧ condPassed .ge s = (n == v) ∧
    condPassed .lt s = (n != v) ∧ condPassed .gt s = (!z && n == v) ∧ condPassed .le s = (z || n != v) ∧
    condPassed .al s = true ∧ condPassed .nv s = false

/-- The registers reset leaves at values the spec gives (spec/70_reset_and_hazards.md R431), and that the state after
reset meets the invariant of a running core. The values log 1, 2 and 3 choose are not spoken of. -/
def Obligations.ResetMeetsInvariant : Prop :=
  State.reset.Inv ∧ State.reset.pc = 0 ∧ State.reset.mode = .svc ∧ State.reset.thumb = false ∧
  State.reset.flagI = true ∧ State.reset.flagF = true ∧ State.reset.dispatcher = .idle ∧
  State.reset.stop = .running ∧ State.reset.hazard = false

/-! ## Shifter and adder -/

/-- The barrel shifter, bit by bit and carry: by an immediate (R162) and by a register's low byte (R163). -/
def Obligations.BarrelShifterBits : Prop :=
  (∀ (v : Word) (n : Nat) (c : Bool), n < 32 →
    (shiftByImm v .lsl n c).value.toNat = v.toNat * 2 ^ n % 2 ^ 32 ∧
    (shiftByImm v .lsl n c).carry = (if n = 0 then c else v.getLsbD (32 - n)) ∧
    (shiftByImm v .lsr n c).value.toNat = (if n = 0 then 0 else v.toNat / 2 ^ n) ∧
    (shiftByImm v .lsr n c).carry = (if n = 0 then v.getLsbD 31 else v.getLsbD (n - 1)) ∧
    (∀ i : Nat, i < 32 → (shiftByImm v .asr n c).value.getLsbD i =
      if n ≠ 0 ∧ i + n < 32 then v.getLsbD (i + n) else v.getLsbD 31) ∧
    (shiftByImm v .asr n c).carry = (if n = 0 then v.getLsbD 31 else v.getLsbD (n - 1)) ∧
    (∀ i : Nat, i < 32 → (shiftByImm v .ror n c).value.getLsbD i =
      if n = 0 then (if i = 31 then c else v.getLsbD (i + 1)) else v.getLsbD ((i + n) % 32)) ∧
    (shiftByImm v .ror n c).carry = (if n = 0 then v.getLsbD 0 else v.getLsbD (n - 1))) ∧
  (∀ (v : Word) (ty : ShiftType) (n : Nat) (c : Bool), n < 256 →
    shiftByReg v ty 0 c = ⟨v, c⟩ ∧
    (n ≠ 0 →
      (shiftByReg v .lsl n c).value.toNat = v.toNat * 2 ^ n % 2 ^ 32 ∧
      (shiftByReg v .lsl n c).carry = (decide (n ≤ 32) && v.getLsbD (32 - n)) ∧
      (shiftByReg v .lsr n c).value.toNat = v.toNat / 2 ^ n ∧
      (shiftByReg v .lsr n c).carry = (decide (n ≤ 32) && v.getLsbD (n - 1)) ∧
      (∀ i : Nat, i < 32 → (shiftByReg v .asr n c).value.getLsbD i =
        if i + n < 32 then v.getLsbD (i + n) else v.getLsbD 31) ∧
      (shiftByReg v .asr n c).carry = (if n < 32 then v.getLsbD (n - 1) else v.getLsbD 31) ∧
      (∀ i : Nat, i < 32 → (shiftByReg v .ror n c).value.getLsbD i = v.getLsbD ((i + n) % 32)) ∧
      (shiftByReg v .ror n c).carry = v.getLsbD ((n + 31) % 32)))

/-- Operand 2 in its three forms (R154, R155, R161, spec/44_data_processing.md R220): a rotated immediate with C kept
for rotate 0 and bit 31 otherwise; Rm shifted, R15 reading A + 8, A + 12 under a register-specified shift. -/
def Obligations.OperandTwoForms : Prop :=
  ∀ (s : State), s.thumb = false →
    (∀ (rotate : BitVec 4) (imm8 : BitVec 8),
      (∀ i : Nat, i < 32 → (operand2 (.imm rotate imm8) s).value.getLsbD i =
        (imm8.setWidth 32).getLsbD ((i + 2 * rotate.toNat) % 32)) ∧
      (operand2 (.imm rotate imm8) s).carry =
        (if rotate = 0 then s.flagC else (operand2 (.imm rotate imm8) s).value.getLsbD 31)) ∧
    (∀ (amount : BitVec 5) (ty : ShiftType) (rm : Reg), operand2 (.shiftImm amount ty rm) s =
      shiftByImm (if rm = 15 then s.pc + 8 else s.getPhys (physReg s.mode rm)) ty amount.toNat s.flagC) ∧
    (∀ (rs : Reg) (ty : ShiftType) (rm : Reg), rs ≠ 15 → operand2 (.shiftReg rs ty rm) s =
      shiftByReg (if rm = 15 then s.pc + 12 else s.getPhys (physReg s.mode rm)) ty
        ((s.getPhys (physReg s.mode rs)).toNat % 256) s.flagC) ∧
    (∀ (op2 : Operand2), s.readRegAs (operand2Pc op2 s) 15 =
      s.pc + (match op2 with | .shiftReg _ _ _ => 12 | .shiftImm _ _ _ => 8 | .imm _ _ => 8))

/-- `AddWithCarry` (R164): the sum mod 2^32, the carry out of bit 31, and overflow exactly when the signed sum does not
fit; and as subtraction, C = 1 exactly when there is no borrow. -/
def Obligations.AddWithCarryIsExact : Prop :=
  ∀ (a b : Word) (cin : Bool),
    (addWithCarry a b cin).value.toNat = (a.toNat + b.toNat + cin.toNat) % 2 ^ 32 ∧
    ((addWithCarry a b cin).carry = true ↔ 2 ^ 32 ≤ a.toNat + b.toNat + cin.toNat) ∧
    ((addWithCarry a b cin).overflow = true ↔
      ¬ (-(2 ^ 31 : Int) ≤ a.toInt + b.toInt + cin.toNat ∧ a.toInt + b.toInt + cin.toNat < 2 ^ 31)) ∧
    (subWithCarry a b true).value = a - b ∧ ((subWithCarry a b true).carry = true ↔ b.toNat ≤ a.toNat) ∧
    ((subWithCarry a b cin).carry = true ↔ b.toNat + (!cin).toNat ≤ a.toNat)

/-! ## The step -/

/-- A step with no interrupt taken and a fetch that is answered runs the decoded instruction (R150, R151): when the
bytes at R15 encode a well-formed instruction of the state's length, the step is `exec` of it, in the state whose
lines, requests and draws the boundary and the fetch have advanced. -/
def Obligations.StepRunsDecodedInstruction : Prop :=
  ∀ (s : State) (i : Instr), s.stop = .running → s.LegalMode → wellFormed i = true → isThumb i = s.thumb →
    s.linesNow.reset = false → (s.linesNow.fiq = true → s.flagF = true) → (s.linesNow.irq = true → s.flagI = true) →
    s.readAnswer s.pc s.fetchSize = some (instrWord i) →
    ∃ fetched : State, Machine.step s = exec i fetched ∧
      fetched.regs = s.regs ∧ fetched.pc = s.pc ∧ fetched.cpsr = s.cpsr ∧ fetched.spsr = s.spsr ∧
      fetched.mem = s.mem ∧ fetched.hazard = s.hazard ∧ fetched.dispatcher = s.dispatcher ∧ fetched.stop = s.stop ∧
      fetched.plain = s.plain ∧ fetched.lines = s.lines.tail ∧
      (s.plainAccess s.pc s.fetchSize = true → fetched.bus = s.bus ∧ fetched.draws = s.draws + 1) ∧
      fetched.out.requests =
        [{ addr := s.pc, size := s.fetchSize, write := none, kind := .fetch, locked := false }]

/-- A failed condition makes an instruction do nothing but advance R15 (R153), for every ARM instruction, Undefined,
SWI and coprocessor words included, and THUMB format 16. -/
def Obligations.FailedConditionOnlyAdvances : Prop :=
  ∀ (i : Instr) (s : State), condPassed (guardOf i) s = false →
    ∃ t, exec i s = .next t ∧ GoesOn s t ∧ t.regs = s.regs ∧ t.cpsr = s.cpsr ∧ SameSpecial s t ∧ SameMemory s t ∧
      SamePlatform s t ∧ t.bus = s.bus ∧ t.draws = s.draws ∧ t.hazard = false ∧ t.out.report = .skipped ∧
      t.out.requests = s.out.requests

/-- The lines at the boundary (spec/60_exceptions.md R392 to R395, R410 to R412): Reset first, then FIQ with F = 0,
then IRQ with I = 0; the entry ends the step with no fetch. A fetch the bus aborts is a Prefetch Abort, whatever the
instruction would be (R406). -/
def Obligations.LinesThenFetchInPriorityOrder : Prop :=
  (∀ s : State, s.stop = .running → s.LegalMode →
    (s.linesNow.reset = true → ∃ t, Machine.step s = .next t ∧ t.pc = 0 ∧ t.mode = .svc ∧ t.thumb = false ∧
      t.flagI = true ∧ t.flagF = true ∧ ReservedZero t.cpsr ∧ t.hazard = false ∧ t.dispatcher = .idle ∧
      t.stop = .running ∧ SameMemory s t ∧ t.out.requests = []) ∧
    (s.linesNow.reset = false → s.linesNow.fiq = true → s.flagF = false → ∃ t, Machine.step s = .next t ∧
      Enters .fiq 0x1C (s.pc + 4) true s t ∧ SameRegsExcept [.lr .fiq] s t ∧ SameMemory s t ∧ t.out.requests = []) ∧
    (s.linesNow.reset = false → (s.linesNow.fiq = true → s.flagF = true) → s.linesNow.irq = true →
      s.flagI = false → ∃ t, Machine.step s = .next t ∧ Enters .irq 0x18 (s.pc + 4) false s t ∧
      SameRegsExcept [.lr .irq] s t ∧ SameMemory s t ∧ t.out.requests = [])) ∧
  (∀ s : State, s.stop = .running → s.LegalMode → s.linesNow.reset = false →
    (s.linesNow.fiq = true → s.flagF = true) → (s.linesNow.irq = true → s.flagI = true) →
    s.readAnswer s.pc s.fetchSize = none →
    ∃ t, Machine.step s = .next t ∧ Enters .abt 0x0C (s.pc + 4) false s t ∧ SameRegsExcept [.lr .abt] s t ∧
      SameMemory s t ∧ t.out.report = .exception .prefetchAbort s.pc (.addr s.pc))

/-- The entry sequence for every exception that dispatches through it (R391, R396 to R402), Reset apart: vector, mode
and masks of its row. -/
def Obligations.DispatchFollowsTheTable : Prop :=
  ∀ (s : State) (link : Word) (info : ExcInfo),
    EntersOnly .und 0x04 link false s (dispatch .undefined link info s) ∧
    EntersOnly .svc 0x08 link false s (dispatch .softwareInterrupt link info s) ∧
    EntersOnly .abt 0x0C link false s (dispatch .prefetchAbort link info s) ∧
    EntersOnly .abt 0x10 link false s (dispatch .dataAbort link info s) ∧
    EntersOnly .irq 0x18 link false s (dispatch .irq link info s) ∧
    EntersOnly .fiq 0x1C link true s (dispatch .fiq link info s) ∧
    dispatch .address link info s = s

/-! ## Multiply -/

/-- MUL and MLA (spec/41_multiply.md R190, R191): the low 32 bits to Rd; with S, N and Z, V kept and C free; nothing
else changes. -/
def Obligations.MultiplyResults : Prop :=
  ∀ (c : Cond) (sf : Bool) (rd rn rs rm : Reg) (s : State), condPassed c s = true →
    rd ≠ 15 → rm ≠ 15 → rs ≠ 15 → rd ≠ rm →
    (s.NotBlocked [rd, rm, rs] → ∃ t carry, exec (.mul c sf rd 0 rs rm) s = .next t ∧
      WritesResult sf rd ⟨BitVec.ofNat 32 ((s.readReg rm).toNat * (s.readReg rs).toNat), carry, s.flagV⟩ s t) ∧
    (rn ≠ 15 → s.NotBlocked [rd, rm, rs, rn] → ∃ t carry, exec (.mla c sf rd rn rs rm) s = .next t ∧
      WritesResult sf rd
        ⟨BitVec.ofNat 32 ((s.readReg rm).toNat * (s.readReg rs).toNat + (s.readReg rn).toNat), carry, s.flagV⟩ s t)

/-- The long multiplies (R192 to R195): the 64-bit product, plus RdHi:RdLo for the accumulating forms, to RdHi:RdLo;
with S, N and Z of the 64 bits, C and V free; nothing else changes. -/
def Obligations.MultiplyLongResults : Prop :=
  ∀ (c : Cond) (sf : Bool) (rdHi rdLo rs rm : Reg) (s : State), condPassed c s = true →
    rdHi ≠ 15 → rdLo ≠ 15 → rm ≠ 15 → rs ≠ 15 → rdHi ≠ rdLo → rdHi ≠ rm → rdLo ≠ rm →
    s.NotBlocked [rdHi, rdLo, rm, rs] →
    ∀ e ∈ ([(.umull, fun a b _ => a.toNat * b.toNat), (.umlal, fun a b acc => a.toNat * b.toNat + acc),
        (.smull, fun a b _ => a.toInt * b.toInt), (.smlal, fun a b acc => a.toInt * b.toInt + acc)] :
        List ((Cond → Bool → Reg → Reg → Reg → Reg → Instr) × (Word → Word → Nat → Int))),
      let acc := (s.readReg rdHi).toNat * 2 ^ 32 + (s.readReg rdLo).toNat
      let p := BitVec.ofInt 64 (e.2 (s.readReg rm) (s.readReg rs) acc)
      ∃ t, exec (e.1 c sf rdHi rdLo rs rm) s = .next t ∧
        t.getPhys (physReg s.mode rdLo) = p.extractLsb' 0 32 ∧
        t.getPhys (physReg s.mode rdHi) = p.extractLsb' 32 32 ∧
        (if sf then t.flagN = p.msb ∧ t.flagZ = decide (p = 0) else t.cpsr = s.cpsr) ∧
        SameControl s t ∧ KeepsAllBut [physReg s.mode rdLo, physReg s.mode rdHi] s t ∧ SameMemory s t ∧ GoesOn s t

/-- The multiply forms the spec refuses, in its order (R190 to R193), THUMB MUL too (spec/49_thumb.md R335). That a
form refusal wins over the hazard's BankedAccessAfterLdmUser, where both apply, is the model's choice (log 15). -/
def Obligations.MultiplyFormsRefused : Prop :=
  ∀ (c : Cond) (sf : Bool) (a b rs rm : Reg) (s : State), condPassed c s = true →
    (∀ sbz : BitVec 4, (a = 15 ∨ rm = 15 ∨ rs = 15 → exec (.mul c sf a sbz rs rm) s = .refused .mulPC) ∧
      (a ≠ 15 → rm ≠ 15 → rs ≠ 15 →
        (a = rm → exec (.mul c sf a sbz rs rm) s = .refused .mulRdEqRm) ∧
        (a ≠ rm → sbz ≠ 0 → exec (.mul c sf a sbz rs rm) s = .refused .sbz))) ∧
    (a = 15 ∨ rm = 15 ∨ rs = 15 ∨ b = 15 → exec (.mla c sf a b rs rm) s = .refused .mulPC) ∧
    (a ≠ 15 → b ≠ 15 → rm ≠ 15 → rs ≠ 15 → a = rm → exec (.mla c sf a b rs rm) s = .refused .mulRdEqRm) ∧
    (∀ long ∈ ([.umull, .umlal, .smull, .smlal] : List (Cond → Bool → Reg → Reg → Reg → Reg → Instr)),
      (a = 15 ∨ b = 15 ∨ rm = 15 ∨ rs = 15 → exec (long c sf a b rs rm) s = .refused .mulPC) ∧
      (a ≠ 15 → b ≠ 15 → rm ≠ 15 → rs ≠ 15 → a = b ∨ a = rm ∨ b = rm →
        exec (long c sf a b rs rm) s = .refused .mulLongOverlap)) ∧
    (∀ r : LoReg, exec (.tMul r r) s = .refused .mulRdEqRm)

/-! ## Data processing -/

/-- The data-processing instructions with Rd other than R15 (spec/44_data_processing.md R220 to R236): the result to
Rd, with S its flags, nothing else; and TST, TEQ, CMP and CMN: the flags of the result, nothing else. -/
def Obligations.DataProcessingResults : Prop :=
  (∀ (c : Cond) (sf : Bool) (rn rd : Reg) (op2 : Operand2) (s : State), condPassed c s = true → rd ≠ 15 →
    (∀ rs ty rm, op2 = .shiftReg rs ty rm → rs ≠ 15) →
    (s.NotBlocked (rn :: rd :: operand2Regs op2) → ∀ e ∈ twoOperandOps,
      ∃ t, exec (e.1 c sf rn rd op2) s = .next t ∧
        WritesResult sf rd (e.2 (s.readRegAs (operand2Pc op2 s) rn) (operand2 op2 s) s) s t) ∧
    (s.NotBlocked (rd :: operand2Regs op2) → ∀ e ∈ oneOperandOps,
      ∃ t, exec (e.1 c sf 0 rd op2) s = .next t ∧ WritesResult sf rd (e.2 (operand2 op2 s) s) s t)) ∧
  (∀ (c : Cond) (rn : Reg) (op2 : Operand2) (s : State), condPassed c s = true →
    (∀ rs ty rm, op2 = .shiftReg rs ty rm → rs ≠ 15) → s.NotBlocked (rn :: operand2Regs op2) →
    ∀ e ∈ compareOps, ∃ t, exec (e.1 c rn 0 op2) s = .next t ∧
      WritesFlags (e.2 (s.readRegAs (operand2Pc op2 s) rn) (operand2 op2 s) s) s t)

/-- A result to R15 (R220, R238): without S a branch, with S the exception return, which on an illegal saved mode is
fatal and leaves registers, status words, R15 and memory as they were (R403, R428). -/
def Obligations.DataProcessingIntoPc : Prop :=
  ∀ (c : Cond) (rn : Reg) (op2 : Operand2) (s : State), condPassed c s = true →
    (∀ rs ty rm, op2 ≠ .shiftReg rs ty rm) →
    (s.NotBlocked (rn :: operand2Regs op2) → ∀ e ∈ twoOperandOps,
      let r := (e.2 (s.readRegAs (operand2Pc op2 s) rn) (operand2 op2 s) s).value
      BranchesTo r [] s (exec (e.1 c false rn 15 op2) s) ∧ ReturnsTo r [] s (exec (e.1 c true rn 15 op2) s)) ∧
    (s.NotBlocked (operand2Regs op2) → ∀ e ∈ oneOperandOps,
      let r := (e.2 (operand2 op2 s) s).value
      BranchesTo r [] s (exec (e.1 c false 0 15 op2) s) ∧ ReturnsTo r [] s (exec (e.1 c true 0 15 op2) s))

/-- The data-processing forms the spec refuses, in its order (R220, R237). That a form refusal wins over the hazard's
BankedAccessAfterLdmUser, where both apply, is the model's choice (log 15). -/
def Obligations.DataProcessingFormsRefused : Prop :=
  ∀ (c : Cond) (sf : Bool) (rn rd rs rm : Reg) (ty : ShiftType) (sbz : BitVec 4) (op2 : Operand2) (s : State),
    condPassed c s = true →
    (∀ e ∈ twoOperandOps,
      (rs = 15 → exec (e.1 c sf rn rd (.shiftReg rs ty rm)) s = .refused .shiftByPC) ∧
      (rs ≠ 15 → rd = 15 → exec (e.1 c sf rn rd (.shiftReg rs ty rm)) s = .refused .regShiftToPC)) ∧
    (∀ e ∈ oneOperandOps,
      (rs = 15 → exec (e.1 c sf sbz rd (.shiftReg rs ty rm)) s = .refused .shiftByPC) ∧
      (rs ≠ 15 → rd = 15 → exec (e.1 c sf sbz rd (.shiftReg rs ty rm)) s = .refused .regShiftToPC) ∧
      (sbz ≠ 0 → (∀ rs' ty' rm', op2 = .shiftReg rs' ty' rm' → rs' ≠ 15 ∧ rd ≠ 15) →
        exec (e.1 c sf sbz rd op2) s = .refused .sbz)) ∧
    (∀ e ∈ compareOps,
      (rs = 15 → exec (e.1 c rn sbz (.shiftReg rs ty rm)) s = .refused .shiftByPC) ∧
      (rs ≠ 15 → sbz = 15 → exec (e.1 c rn sbz (.shiftReg rs ty rm)) s = .refused .regShiftToPC) ∧
      (sbz ≠ 0 → (∀ rs' ty' rm', op2 = .shiftReg rs' ty' rm' → rs' ≠ 15 ∧ sbz ≠ 15) →
        exec (e.1 c rn sbz op2) s = .refused .sbz))

/-! ## PSR transfers -/

/-- MRS (spec/43_psr_transfer.md R210): CPSR, or the SPSR of a mode that has one, to Rd; nothing else. -/
def Obligations.MrsReadsStatus : Prop :=
  ∀ (c : Cond) (rd : Reg) (s : State), condPassed c s = true → rd ≠ 15 → s.NotBlocked [rd] →
    (∃ t, exec (.mrs c false 15 rd 0 0 0) s = .next t ∧ WritesOnly rd s.cpsr s t) ∧
    (∀ v, s.getSpsr s.mode = some v → ∃ t, exec (.mrs c true 15 rd 0 0 0) s = .next t ∧ WritesOnly rd v s t)

/-- MSR of CPSR, both forms (R211 to R214): the selected bytes of the existing bits, in USR mode the flags only, all at
once; fatal when the mode would be illegal, refused when T would change; nothing else changes. -/
def Obligations.MsrWritesCpsr : Prop :=
  ∀ (c : Cond) (mask : BitVec 4) (s : State), condPassed c s = true → s.LegalMode →
    ∀ (o : Out) (v : Word),
      ((∃ rm : Reg, rm ≠ 15 ∧ s.NotBlocked [rm] ∧ o = exec (.msrReg c false mask 15 0 0 rm) s ∧ v = s.readReg rm) ∨
        (∃ (rotate : BitVec 4) (imm8 : BitVec 8), o = exec (.msrImm c false mask 15 rotate imm8) s ∧
          v = (operand2 (.imm rotate imm8) s).value)) →
      let selected : Nat → Bool := fun i =>
        mask.getLsbD (i / 8) && (decide (28 ≤ i) || decide (i ≤ 9)) && (decide (28 ≤ i) || decide (s.mode ≠ .usr))
      ∃ new : Word, (∀ i : Nat, i < 32 → new.getLsbD i = if selected i then v.getLsbD i else s.cpsr.getLsbD i) ∧
        (modeOf new = none → ∃ left, o = .fault (.corruptMode left) ∧ LeftFatal [] s left) ∧
        (modeOf new ≠ none → psrBit new 5 ≠ s.thumb → o = .refused .msrChangesT) ∧
        (modeOf new ≠ none → psrBit new 5 = s.thumb →
          ∃ t, o = .next t ∧ t.cpsr = new ∧ KeepsAllBut [] s t ∧ SameMemory s t ∧ GoesOn s t)

/-- MSR of the SPSR (R213): the selected bytes of the existing bits of the current mode's SPSR; any mode value may be
stored; CPSR, the other SPSRs, registers and memory are kept. -/
def Obligations.MsrWritesSpsr : Prop :=
  ∀ (c : Cond) (mask : BitVec 4) (s : State) (old : Word), condPassed c s = true → s.getSpsr s.mode = some old →
    ∀ (o : Out) (v : Word),
      ((∃ rm : Reg, rm ≠ 15 ∧ s.NotBlocked [rm] ∧ o = exec (.msrReg c true mask 15 0 0 rm) s ∧ v = s.readReg rm) ∨
        (∃ (rotate : BitVec 4) (imm8 : BitVec 8), o = exec (.msrImm c true mask 15 rotate imm8) s ∧
          v = (operand2 (.imm rotate imm8) s).value)) →
      ∃ t new, o = .next t ∧ t.getSpsr s.mode = some new ∧
        (∀ i : Nat, i < 32 → new.getLsbD i =
          if mask.getLsbD (i / 8) && (decide (28 ≤ i) || decide (i ≤ 9)) then v.getLsbD i else old.getLsbD i) ∧
        OtherSpsrs s.mode s t ∧ t.cpsr = s.cpsr ∧ SameRegsExcept [] s t ∧ SameMemory s t ∧ SamePlatform s t ∧
        t.dispatcher = s.dispatcher ∧ t.stop = s.stop ∧ GoesOn s t

/-- The PSR-transfer forms the spec refuses, in its order (R210 to R213): a field that should be zero or one, R15, an
SPSR in a mode that has none. That a form refusal wins over the hazard's BankedAccessAfterLdmUser, where both apply, is
the model's choice (log 15). -/
def Obligations.PsrTransferFormsRefused : Prop :=
  ∀ (c : Cond) (r : Bool) (mask sbo hi x : BitVec 4) (mid : BitVec 2) (n : Reg) (imm8 : BitVec 8) (s : State),
    condPassed c s = true →
    (sbo ≠ 15 ∨ hi ≠ 0 ∨ mid ≠ 0 ∨ x ≠ 0 → exec (.mrs c r sbo n hi mid x) s = .refused .sbz) ∧
    exec (.mrs c r 15 15 0 0 0) s = .refused .mrsPC ∧
    (n ≠ 15 → s.getSpsr s.mode = none → exec (.mrs c true 15 n 0 0 0) s = .refused .noSpsr) ∧
    (sbo ≠ 15 ∨ hi ≠ 0 ∨ mid ≠ 0 → exec (.msrReg c r mask sbo hi mid n) s = .refused .sbz) ∧
    exec (.msrReg c r mask 15 0 0 15) s = .refused .msrPC ∧
    (n ≠ 15 → s.getSpsr s.mode = none → exec (.msrReg c true mask 15 0 0 n) s = .refused .noSpsr) ∧
    (sbo ≠ 15 → exec (.msrImm c r mask sbo x imm8) s = .refused .sbz) ∧
    (s.getSpsr s.mode = none → exec (.msrImm c true mask 15 x imm8) s = .refused .noSpsr)

/-! ## Single and halfword transfers -/

/-- The single data transfers that load (spec/45_single_transfer.md R250 to R256), Rd other than R15. -/
def Obligations.SingleLoadResults : Prop :=
  ∀ (c : Cond) (u w : Bool) (rn rd : Reg) (off : TransferOffset) (s : State), condPassed c s = true → rd ≠ 15 →
    s.NotBlocked (rn :: rd :: transferOffsetRegs off) → ∀ e ∈ singleLoads,
    let wb := !e.2.1 || w
    TransferFormOk wb (e.2.2.1 == .byte) rn rd off →
    let addr := transferAddress e.2.1 u rn off s
    ∀ v, s.readAnswer addr e.2.2.1 = some v → ∃ t, exec (e.1 c u w rn rd off) s = .next t ∧
      LoadsInto rd (e.2.2.2.2 v) (writebackIf wb rn (transferNewBase u rn off s))
        { addr := addr, size := e.2.2.1, write := none, kind := e.2.2.2.1, locked := false } s t

/-- A word load into R15 is a branch, after the write-back (R251, R255). -/
def Obligations.LoadIntoPcBranches : Prop :=
  ∀ (c : Cond) (u w : Bool) (rn : Reg) (off : TransferOffset) (s : State), condPassed c s = true →
    s.NotBlocked (rn :: transferOffsetRegs off) → ∀ e ∈ singleLoads, e.2.2.1 = .word →
    let wb := !e.2.1 || w
    TransferFormOk wb false rn 15 off →
    ∀ v, s.readAnswer (transferAddress e.2.1 u rn off s) .word = some v →
      BranchesTo v (if wb then [physReg s.mode rn] else []) s (exec (e.1 c u w rn 15 off) s) ∧
      (∀ t, exec (e.1 c u w rn 15 off) s = .next t → wb = true →
        t.getPhys (physReg s.mode rn) = transferNewBase u rn off s)

/-- The single data transfers that store (R253, R254, R257, R258): R15 is stored as A + 12; a store that would write a
byte of the two prefetched slots is refused (spec/70_reset_and_hazards.md R440). A store the platform answers, an
unaligned or a device one (spec/20_memory.md R78), writes and is judged by the bytes that answer names: the model's
choice (logs 9 and 14). -/
def Obligations.SingleStoreResults : Prop :=
  ∀ (c : Cond) (u w : Bool) (rn rd : Reg) (off : TransferOffset) (s : State), condPassed c s = true →
    s.NotBlocked (rn :: rd :: transferOffsetRegs off) → ∀ e ∈ singleStores,
    let wb := !e.2.1 || w
    TransferFormOk wb (e.2.2.1 == .byte) rn rd off →
    let addr := transferAddress e.2.1 u rn off s
    let v := if rd = 15 then s.pc + 12 else s.getPhys (physReg s.mode rd)
    (s.wouldSelfModify addr e.2.2.1 = true →
      exec (e.1 c u w rn rd off) s = .refused .selfModifyPrefetched) ∧
    (s.wouldSelfModify addr e.2.2.1 = false → s.writeAnswersOk addr e.2.2.1 = true →
      ∃ t, exec (e.1 c u w rn rd off) s = .next t ∧
        StoresFrom addr e.2.2.1 v (writebackIf wb rn (transferNewBase u rn off s))
          { addr := addr, size := e.2.2.1, write := some (e.2.2.1.low v), kind := e.2.2.2, locked := false } s t)

/-- The single- and halfword-transfer forms the spec refuses, in its order (R250, R259, spec/42_halfword_transfer.md
R200). That a form refusal wins over the hazard's BankedAccessAfterLdmUser, where both apply, is the model's choice
(log 15). -/
def Obligations.TransferFormsRefused : Prop :=
  (∀ (c : Cond) (u w : Bool) (rn rd : Reg) (off : TransferOffset) (s : State), condPassed c s = true →
    ∀ e ∈ (singleLoads.map fun e => (e.1, e.2.1, e.2.2.1)) ++ (singleStores.map fun e => (e.1, e.2.1, e.2.2.1)),
    let wb := !e.2.1 || w
    let regs := transferOffsetRegs off
    let o := exec (e.1 c u w rn rd off) s
    (15 ∈ regs → o = .refused .offsetRmPC) ∧
    (15 ∉ regs → wb = true →
      (rn = 15 → o = .refused .writebackPC) ∧
      (rn ≠ 15 → rn = rd → o = .refused .writebackRnEqRd) ∧
      (rn ≠ 15 → rn ≠ rd → rn ∈ regs → o = .refused .writebackRmEqRn)) ∧
    (15 ∉ regs → (wb = true → rn ≠ 15 ∧ rn ≠ rd ∧ rn ∉ regs) → e.2.2 = .byte → rd = 15 → o = .refused .bytePC)) ∧
  (∀ (c : Cond) (p u w : Bool) (rn rd : Reg) (off : HalfOffset) (s : State), condPassed c s = true →
    ∀ mk ∈ ([.strh, .ldrh, .ldrsb, .ldrsh] : List (Cond → Bool → Bool → Bool → Reg → Reg → HalfOffset → Instr)),
    let o := exec (mk c p u w rn rd off) s
    (∀ sbz rm, off = .reg sbz rm → (sbz ≠ 0 → o = .refused .sbz) ∧ (sbz = 0 → rm = 15 → o = .refused .halfwordRmPC)) ∧
    ((∀ sbz rm, off = .reg sbz rm → sbz = 0 ∧ rm ≠ 15) →
      (p = false → w = true → o = .refused .halfwordPostW) ∧
      (p = true ∨ w = false → (p = false ∨ w = true) → rn = 15 → o = .refused .writebackPC) ∧
      (p = true ∨ w = false → (p = false ∨ w = true → rn ≠ 15) → rd = 15 → o = .refused .halfwordRdPC) ∧
      (p = true ∨ w = false → (p = false ∨ w = true) → rn ≠ 15 → rd ≠ 15 → rn = rd → o = .refused .writebackRnEqRd)))

/-- LDRH, LDRSB and LDRSH (spec/42_halfword_transfer.md R200, R202 to R204): zero- or sign-extended. STRH (R201): the
low halfword of Rd; a store that would write a byte of the two prefetched slots is refused. A store the platform
answers, at an odd address or a device's, writes and is judged by the bytes that answer names: the model's choice (logs
9 and 14). -/
def Obligations.HalfwordTransferResults : Prop :=
  (∀ (c : Cond) (p u w : Bool) (rn rd : Reg) (off : HalfOffset) (s : State), condPassed c s = true →
    HalfFormOk p w rn rd off → s.NotBlocked (rn :: rd :: halfOffsetRegs off) → ∀ e ∈ halfLoads,
    let addr := halfAddress p u rn off s
    ∀ v, s.readAnswer addr e.2.1 = some v → ∃ t, exec (e.1 c p u w rn rd off) s = .next t ∧
      LoadsInto rd (e.2.2 v) (writebackIf (!p || w) rn (halfNewBase u rn off s))
        { addr := addr, size := e.2.1, write := none, kind := .data, locked := false } s t) ∧
  (∀ (c : Cond) (p u w : Bool) (rn rd : Reg) (off : HalfOffset) (s : State), condPassed c s = true →
    HalfFormOk p w rn rd off → s.NotBlocked (rn :: rd :: halfOffsetRegs off) →
    let addr := halfAddress p u rn off s
    let v := s.getPhys (physReg s.mode rd)
    (s.wouldSelfModify addr .half = true → exec (.strh c p u w rn rd off) s = .refused .selfModifyPrefetched) ∧
    (s.wouldSelfModify addr .half = false → s.writeAnswersOk addr .half = true →
      ∃ t, exec (.strh c p u w rn rd off) s = .next t ∧
        StoresFrom addr .half v (writebackIf (!p || w) rn (halfNewBase u rn off s))
          { addr := addr, size := .half, write := some (v &&& 0xFFFF), kind := .data, locked := false } s t))

/-- A data access of a single or halfword transfer that the bus aborts (R260, R205, spec/60_exceptions.md R407): the
base is written back, a load's Rd is not, and Data Abort is taken in the same step. What an aborted store leaves in
memory, and whether it meets the prefetched slots, is by the bytes the platform's answer names: the model's choice (logs
9 and 14). -/
def Obligations.TransferAbortUpdatesBase : Prop :=
  ∀ (c : Cond) (p u w : Bool) (rn rd : Reg) (off : TransferOffset) (hoff : HalfOffset) (s : State),
    condPassed c s = true →
    (s.NotBlocked (rn :: rd :: transferOffsetRegs off) →
      (∀ e ∈ singleLoads, TransferFormOk (!e.2.1 || w) (e.2.2.1 == .byte) rn rd off →
        s.readAnswer (transferAddress e.2.1 u rn off s) e.2.2.1 = none →
        ∃ t, exec (e.1 c u w rn rd off) s = .next t ∧ SameMemory s t ∧
          AbortsWithBase (writebackIf (!e.2.1 || w) rn (transferNewBase u rn off s)) s t) ∧
      (∀ e ∈ singleStores, TransferFormOk (!e.2.1 || w) (e.2.2.1 == .byte) rn rd off →
        s.wouldSelfModify (transferAddress e.2.1 u rn off s) e.2.2.1 = false →
        s.writeAnswersOk (transferAddress e.2.1 u rn off s) e.2.2.1 = false →
        ∃ t, exec (e.1 c u w rn rd off) s = .next t ∧
          Stores s t (transferAddress e.2.1 u rn off s) e.2.2.1 (s.storeValue rd) ∧
          AbortsWithBase (writebackIf (!e.2.1 || w) rn (transferNewBase u rn off s)) s t)) ∧
    (s.NotBlocked (rn :: rd :: halfOffsetRegs hoff) → HalfFormOk p w rn rd hoff →
      (∀ e ∈ halfLoads, s.readAnswer (halfAddress p u rn hoff s) e.2.1 = none →
        ∃ t, exec (e.1 c p u w rn rd hoff) s = .next t ∧ SameMemory s t ∧
          AbortsWithBase (writebackIf (!p || w) rn (halfNewBase u rn hoff s)) s t) ∧
      (s.wouldSelfModify (halfAddress p u rn hoff s) .half = false →
        s.writeAnswersOk (halfAddress p u rn hoff s) .half = false →
        ∃ t, exec (.strh c p u w rn rd hoff) s = .next t ∧
          Stores s t (halfAddress p u rn hoff s) .half (s.readReg rd) ∧
          AbortsWithBase (writebackIf (!p || w) rn (halfNewBase u rn hoff s)) s t))

/-! ## Block transfers -/

/-- STM, in all its outcomes (spec/46_block_transfer.md R270, R272, R277, spec/70_reset_and_hazards.md R440): the
registers of the list, ascending, at ascending words; R15 as A + 12; a written-back base that is not the lowest register
as a free word, which is one draw (log 4); the base written back, whether or not a write aborts. What a write that the
platform answers leaves in memory, and whether it meets the prefetched slots, is the model's choice (logs 9 and 14). -/
def Obligations.StoreMultipleResults : Prop :=
  ∀ (c : Cond) (p u w : Bool) (rn : Reg) (list : BitVec 16) (s : State), condPassed c s = true →
    rn ≠ 15 → list ≠ 0 → s.NotBlocked (rn :: regList list) →
    let n4 := BitVec.ofNat 32 (4 * (regList list).length)
    let base := s.readReg rn
    let first := match p, u with
      | false, true => base | true, true => base + 4 | false, false => base - n4 + 4 | true, false => base - n4
    let wbv := if u then base + n4 else base - n4
    let unknown := w && decide (rn ∈ regList list) && decide ((regList list).head? ≠ some rn)
    ∃ free : Word, StoresBlock first
      ((regList list).map fun r =>
        if r = 15 then s.pc + 12 else if r = rn ∧ unknown = true then free else s.getPhys (physReg s.mode r))
      (if w then some (rn, wbv) else none) (s.drawnIf unknown) s (exec (.stm c p u w rn list) s)

/-- STM^ user bank, in all its outcomes (R270, R276, R277, spec/70_reset_and_hazards.md R440): the User bank's
registers at ascending words, R15 as A + 12, no write-back. What a write that the platform answers leaves in memory, and
whether it meets the prefetched slots, is the model's choice (logs 9 and 14). -/
def Obligations.StoreUserBankResults : Prop :=
  ∀ (c : Cond) (p u : Bool) (rn : Reg) (list : BitVec 16) (s : State), condPassed c s = true →
    rn ≠ 15 → list ≠ 0 → s.getSpsr s.mode ≠ none → s.NotBlocked (rn :: regList list) →
    StoresBlock (blockAddress p u rn (regList list) s)
      ((regList list).map fun r => if r = 15 then s.pc + 12 else s.getPhys (physReg .usr r)) none s s
      (exec (.stmUser c p u false rn list) s)

/-- The reads of a load multiple (R270, spec/20_memory.md R75, R76, R85): read k is of the list's register k, at
first + 4k, answered in the state the reads before it leave; in memory the core has written it is the little-endian word
there. -/
def Obligations.BlockReadsAscendingWords : Prop :=
  (∀ (s : State) (first : Word) (regs : List Reg), (loadWords first regs s).1.length = regs.length ∧
    ∀ (k : Nat) (r : Reg), regs[k]? = some r → (loadWords first regs s).1[k]? =
      some (r, (s.afterReads first k).readAnswer (first + BitVec.ofNat 32 (4 * k)) .word)) ∧
  (∀ (s : State) (first : Word) (regs : List Reg) (bytes : Nat → Byte),
    s.PlainWords first regs.length →
    (∀ k i : Nat, k < regs.length → i < 4 →
      s.mem.read ((first + BitVec.ofNat 32 (4 * k)).toNat + i) = some (bytes (4 * k + i))) →
    (loadWords first regs s).1 = (List.range regs.length).zipWith
      (fun k r => (r, some (bytes (4 * k + 3) ++ bytes (4 * k + 2) ++ bytes (4 * k + 1) ++ bytes (4 * k)))) regs)

/-- LDM of a list without R15, no access aborting (R271): every register of the list gets its word, the base its
write-back, and nothing else changes. -/
def Obligations.LoadMultipleResults : Prop :=
  ∀ (c : Cond) (p u w : Bool) (rn : Reg) (list : BitVec 16) (s : State), condPassed c s = true →
    rn ≠ 15 → list ≠ 0 → (w = true → rn ∉ regList list) → 15 ∉ regList list → s.NotBlocked (rn :: regList list) →
    let reads := (loadWords (blockAddress p u rn (regList list) s) (regList list) s).1
    (∀ e ∈ reads, e.2 ≠ none) →
    ∃ t : State, exec (.ldm c p u w rn list) s = .next t ∧
      (∀ r v, (r, some v) ∈ reads → t.getPhys (physReg s.mode r) = v) ∧
      (w = true → t.getPhys (physReg s.mode rn) =
        if u then s.readReg rn + BitVec.ofNat 32 (4 * (regList list).length)
        else s.readReg rn - BitVec.ofNat 32 (4 * (regList list).length)) ∧
      t.cpsr = s.cpsr ∧
      KeepsAllBut ((if w then [physReg s.mode rn] else []) ++ (regList list).map (physReg s.mode)) s t ∧
      SameMemory s t ∧ GoesOn s t

/-- LDM of a list with R15, no access aborting: a branch to the loaded word (R271), and with S the exception return
(R274), after the other registers and the base are written. -/
def Obligations.LoadMultipleIntoPc : Prop :=
  ∀ (c : Cond) (p u w : Bool) (rn : Reg) (list : BitVec 15) (s : State), condPassed c s = true →
    rn ≠ 15 → (w = true → rn ∉ regList (1#1 ++ list)) → s.NotBlocked (rn :: regList (1#1 ++ list)) →
    let regs := regList (1#1 ++ list)
    let reads := (loadWords (blockAddress p u rn regs s) regs s).1
    (∀ e ∈ reads, e.2 ≠ none) →
    let changed := (if w then [physReg s.mode rn] else []) ++ regs.map (physReg s.mode)
    ∃ target : Word, (15, some target) ∈ reads ∧
      BranchesTo target changed s (exec (.ldm c p u w rn (1#1 ++ list)) s) ∧
      ReturnsTo target changed s (exec (.ldmReturn c p u w rn list) s) ∧
      (∀ t, exec (.ldm c p u w rn (1#1 ++ list)) s = .next t ∨ exec (.ldmReturn c p u w rn list) s = .next t →
        (∀ r v, (r, some v) ∈ reads → r ≠ 15 → t.getPhys (physReg s.mode r) = v) ∧
        (w = true → t.getPhys (physReg s.mode rn) =
          if u then s.readReg rn + BitVec.ofNat 32 (4 * regs.length)
          else s.readReg rn - BitVec.ofNat 32 (4 * regs.length)))

/-- LDM^ user bank, no access aborting (R273): the User bank's registers get the words, the current mode's own do not
change, and UserBankHazard is set. -/
def Obligations.LoadUserBankResults : Prop :=
  ∀ (c : Cond) (p u : Bool) (rn : Reg) (list : BitVec 15) (s : State), condPassed c s = true →
    rn ≠ 15 → list ≠ 0 → s.getSpsr s.mode ≠ none → s.NotBlocked (rn :: regList (0#1 ++ list)) →
    let regs := regList (0#1 ++ list)
    let reads := (loadWords (blockAddress p u rn regs s) regs s).1
    (∀ e ∈ reads, e.2 ≠ none) →
    ∃ t : State, exec (.ldmUser c p u false rn list) s = .next t ∧
      (∀ r v, (r, some v) ∈ reads → t.getPhys (physReg .usr r) = v) ∧
      SameRegsExcept (regs.map (physReg .usr)) s t ∧ t.hazard = true ∧ t.cpsr = s.cpsr ∧ SameSpecial s t ∧
      SameMemory s t ∧ SamePlatform s t ∧ GoesOn s t

/-- A load multiple of which read k is the first to abort (R277, spec/60_exceptions.md R407): LDM, LDM^ with R15 (CPSR
is not restored) and LDM^ user bank, whose step still ends with UserBankHazard set (spec/40 R150). Every read is
issued; the registers before the abort are loaded, but not the base, which holds its write-back or its own value, R15 or
any later register; Data Abort is taken. That a User-bank base keeps its value too is the model's choice (log 18). -/
def Obligations.LoadMultipleAborts : Prop :=
  ∀ (c : Cond) (p u w : Bool) (rn : Reg) (s : State) (k : Nat), condPassed c s = true → rn ≠ 15 →
    let base (w : Bool) (regs : List Reg) : Word :=
      if w = false then s.readReg rn
      else if u then s.readReg rn + BitVec.ofNat 32 (4 * regs.length)
      else s.readReg rn - BitVec.ofNat 32 (4 * regs.length)
    (∀ list : BitVec 16, list ≠ 0 → (w = true → rn ∉ regList list) → s.NotBlocked (rn :: regList list) →
      let first := blockAddress p u rn (regList list) s
      let reads := (loadWords first (regList list) s).1
      AbortsAt k reads → ∃ t : State, exec (.ldm c p u w rn list) s = .next t ∧
        AbortsLoading (physReg s.mode) rn (base w (regList list)) first k reads s t) ∧
    (∀ list : BitVec 15, (w = true → rn ∉ regList (1#1 ++ list)) → s.getSpsr s.mode ≠ none →
      s.NotBlocked (rn :: regList (1#1 ++ list)) →
      let first := blockAddress p u rn (regList (1#1 ++ list)) s
      let reads := (loadWords first (regList (1#1 ++ list)) s).1
      AbortsAt k reads → ∃ t : State, exec (.ldmReturn c p u w rn list) s = .next t ∧
        AbortsLoading (physReg s.mode) rn (base w (regList (1#1 ++ list))) first k reads s t) ∧
    (∀ list : BitVec 15, list ≠ 0 → s.getSpsr s.mode ≠ none → s.NotBlocked (rn :: regList (0#1 ++ list)) →
      let first := blockAddress p u rn (regList (0#1 ++ list)) s
      let reads := (loadWords first (regList (0#1 ++ list)) s).1
      AbortsAt k reads → ∃ t : State, exec (.ldmUser c p u false rn list) s = .next (t.setHazard true) ∧
        AbortsLoading (physReg .usr) rn (base false (regList (0#1 ++ list))) first k reads s t)

/-- The block-transfer forms the spec refuses (R275), and the THUMB block and BX forms (spec/49_thumb.md R341, R363 to
R366). The order among the refusals of R275, which the rule lists without a pseudocode, and that a form refusal wins
over the hazard's BankedAccessAfterLdmUser, where both apply, are the model's choice (log 15). -/
def Obligations.BlockAndThumbFormsRefused : Prop :=
  (∀ (c : Cond) (p u w : Bool) (rn : Reg) (list : BitVec 16) (low : BitVec 15) (s : State), condPassed c s = true →
    (rn = 15 → exec (.stm c p u w rn list) s = .refused .blockBasePC ∧
      exec (.ldm c p u w rn list) s = .refused .blockBasePC ∧
      exec (.stmUser c p u w rn list) s = .refused .blockBasePC ∧
      exec (.ldmUser c p u w rn low) s = .refused .blockBasePC ∧
      exec (.ldmReturn c p u w rn low) s = .refused .blockBasePC) ∧
    (rn ≠ 15 → exec (.stm c p u w rn 0) s = .refused .emptyList ∧ exec (.ldm c p u w rn 0) s = .refused .emptyList ∧
      exec (.stmUser c p u w rn 0) s = .refused .emptyList ∧ exec (.ldmUser c p u w rn 0) s = .refused .emptyList) ∧
    (rn ≠ 15 → w = true → (rn ∈ regList list → exec (.ldm c p u w rn list) s = .refused .ldmWritebackBaseInList) ∧
      (rn ∈ regList (1#1 ++ low) → exec (.ldmReturn c p u w rn low) s = .refused .ldmWritebackBaseInList) ∧
      (rn ∈ regList (0#1 ++ low) → exec (.ldmUser c p u w rn low) s = .refused .ldmWritebackBaseInList)) ∧
    (rn ≠ 15 → (w = true → rn ∉ regList (1#1 ++ low)) → s.getSpsr s.mode = none →
      exec (.ldmReturn c p u w rn low) s = .refused .noSpsr) ∧
    (rn ≠ 15 → list ≠ 0 →
      (s.getSpsr s.mode = none → exec (.stmUser c p u w rn list) s = .refused .userBankInUserMode) ∧
      (s.getSpsr s.mode ≠ none → w = true → exec (.stmUser c p u w rn list) s = .refused .userBankWriteback)) ∧
    (rn ≠ 15 → low ≠ 0 → (w = true → rn ∉ regList (0#1 ++ low)) →
      (s.getSpsr s.mode = none → exec (.ldmUser c p u w rn low) s = .refused .userBankInUserMode) ∧
      (s.getSpsr s.mode ≠ none → w = true → exec (.ldmUser c p u w rn low) s = .refused .userBankWriteback))) ∧
  (∀ (s : State) (rb : LoReg) (rlist : BitVec 8) (hs : Reg) (sbz : BitVec 3),
    exec (.tPush false 0) s = .refused .emptyList ∧ exec (.tPop false 0) s = .refused .emptyList ∧
    exec (.tStmia rb 0) s = .refused .emptyList ∧ exec (.tLdmia rb 0) s = .refused .emptyList ∧
    (rlist.getLsbD rb.toNat = true → exec (.tLdmia rb rlist) s = .refused .ldmWritebackBaseInList) ∧
    exec (.tBx true hs sbz) s = .refused .thumbBxH1 ∧
    (sbz ≠ 0 → exec (.tBx false hs sbz) s = .refused .sbz))

/-! ## Branches -/

/-- B and BL in ARM state (spec/47_branch.md R285, R286): (A + 8) + sext(imm24 : 00), which always takes; BL links
A + 4 in R14 of the current mode. -/
def Obligations.BranchResults : Prop :=
  ∀ (c : Cond) (offset : BitVec 24) (s : State), condPassed c s = true → s.thumb = false → s.AlignedPc →
    (∃ t, exec (.b c offset) s = .next t ∧ t.pc = s.pc + 8 + (offset ++ 0#2).signExtend 32 ∧ t.cpsr = s.cpsr ∧
      KeepsAllBut [] s t ∧ SameMemory s t) ∧
    (s.NotBlocked [14] → ∃ t, exec (.bl c offset) s = .next t ∧ t.pc = s.pc + 8 + (offset ++ 0#2).signExtend 32 ∧
      t.getPhys (physReg s.mode 14) = s.pc + 4 ∧ t.cpsr = s.cpsr ∧ KeepsAllBut [physReg s.mode 14] s t ∧ SameMemory s t)

/-- BX in ARM and in THUMB state (spec/40_cycle_condition_shifter.md R158, spec/47_branch.md R287, spec/49_thumb.md
R341). -/
def Obligations.BranchExchangeResults : Prop :=
  ∀ (c : Cond) (rm : Reg) (s : State), s.NotBlocked [rm] →
    (condPassed c s = true → ExchangesTo (s.readReg rm) s (exec (.bx c rm) s)) ∧
    ExchangesTo (s.readReg rm) s (exec (.tBx false rm 0) s)

/-- The THUMB branches (spec/49_thumb.md R367, R370 to R372): the targets from A + 4; the BL prefix puts the partial
target in R14; the suffix branches from R14 and links (A + 2) OR 1. -/
def Obligations.ThumbBranchResults : Prop :=
  ∀ (s : State), s.thumb = true →
    (∀ (c : Cond) (offset : BitVec 8), condPassed c s = true → ∃ t, exec (.tBCond c offset) s = .next t ∧
      t.pc = (s.pc + 4 + (offset ++ 0#1).signExtend 32) &&& 0xFFFFFFFE ∧ t.cpsr = s.cpsr ∧ KeepsAllBut [] s t ∧
      SameMemory s t) ∧
    (∀ (offset : BitVec 11), ∃ t, exec (.tB offset) s = .next t ∧
      t.pc = (s.pc + 4 + (offset ++ 0#1).signExtend 32) &&& 0xFFFFFFFE ∧ t.cpsr = s.cpsr ∧ KeepsAllBut [] s t ∧
      SameMemory s t) ∧
    (s.NotBlocked [14] → ∀ (offset : BitVec 11),
      (∃ t, exec (.tBlPrefix offset) s = .next t ∧ WritesOnly 14 (s.pc + 4 + (offset.signExtend 32 <<< 12)) s t) ∧
      (∃ t, exec (.tBlSuffix offset) s = .next t ∧
        t.pc = (s.readReg 14 + (offset.setWidth 32 <<< 1)) &&& 0xFFFFFFFE ∧
        t.getPhys (physReg s.mode 14) = (s.pc + 2) ||| 1 ∧ t.cpsr = s.cpsr ∧
        KeepsAllBut [physReg s.mode 14] s t ∧ SameMemory s t))

/-! ## Software interrupt, Undefined, swap -/

/-- SWI in both states (spec/48_swi_swap_undefined.md R295, spec/49_thumb.md R368): the entry with link A + isz, vector
0x08, SVC mode, and nothing else. -/
def Obligations.SwiEntersSvc : Prop :=
  ∀ (s : State), (∀ (c : Cond) (comment : BitVec 24), condPassed c s = true →
      ∃ t, exec (.swi c comment) s = .next t ∧ EntersOnly .svc 0x08 (s.pc + s.isz) false s t ∧
        t.out.report = .exception .softwareInterrupt s.pc (.word (instrWord (.swi c comment)))) ∧
    (∀ value : BitVec 8, ∃ t, exec (.tSwi value) s = .next t ∧ EntersOnly .svc 0x08 (s.pc + s.isz) false s t ∧
      t.out.report = .exception .softwareInterrupt s.pc (.word (instrWord (.tSwi value))))

/-- Every Undefined encoding of both states, and every coprocessor word (R299, R300, R369): the entry with link A + isz,
vector 0x04, UND mode, and nothing else. -/
def Obligations.UndefinedEntersUnd : Prop :=
  ∀ (i : Instr) (s : State), condPassed (guardOf i) s = true →
    ((∃ c op mid low, i = .undMulSwap c op mid low) ∨ (∃ c op mid h low, i = .undSignedStore c op mid h low) ∨
      (∃ c b op low, i = .undPsr c b op low) ∨ (∃ c mid low, i = .undMedia c mid low) ∨
      (∃ c p u n w rn crd cp off, i = .stc c p u n w rn crd cp off) ∨
      (∃ c p u n w rn crd cp off, i = .ldc c p u n w rn crd cp off) ∨
      (∃ c op1 crn crd cp op2 crm, i = .cdp c op1 crn crd cp op2 crm) ∨
      (∃ c op1 crn rd cp op2 crm, i = .mcr c op1 crn rd cp op2 crm) ∨
      (∃ c op1 crn rd cp op2 crm, i = .mrc c op1 crn rd cp op2 crm) ∨
      (∃ bits, i = .tUnd1011 bits) ∨ (∃ bits, i = .tUndCond bits) ∨ (∃ bits, i = .tUnd11101 bits)) →
    ∃ t, exec i s = .next t ∧ EntersOnly .und 0x04 (s.pc + s.isz) false s t ∧
      t.out.report = .exception .undefined s.pc (.word (instrWord i))

/-- SWP and SWPB (R297, R298): the read, and if it is answered the write, both locked and of the same address; Rd gets
the old word or byte, memory the low bytes of Rm; nothing else changes. A swap whose write would meet the prefetched
slots is refused (spec/70_reset_and_hazards.md R440); an abort of the read issues no write, an abort of either writes no
register but the entry's. What a write that the platform answers leaves in memory is log 9, its bytes against the slots
log 14. The swap forms the spec refuses; that they win over the hazard's BankedAccessAfterLdmUser, where both apply, is
the model's choice (log 15). -/
def Obligations.SwapResults : Prop :=
  (∀ (c : Cond) (rn rd rm : Reg) (s : State), condPassed c s = true → rn ≠ 15 → rd ≠ 15 → rm ≠ 15 →
    rn ≠ rd → rn ≠ rm → s.NotBlocked [rn, rd, rm] →
    ∀ e ∈ ([(.swp, .word, id), (.swpb, .byte, fun v => (v.extractLsb' 0 8).setWidth 32)] :
        List ((Cond → Reg → Reg → Reg → Instr) × Size × (Word → Word))),
      let addr := s.readReg rn
      let sz := e.2.1
      let read : BusRequest := { addr := addr, size := sz, write := none, kind := .data, locked := true }
      let write : BusRequest :=
        { addr := addr, size := sz, write := some (sz.low (s.readReg rm)), kind := .data, locked := true }
      (∀ v, s.readAnswer addr sz = some v →
        let after := s.afterRead addr sz
        (after.wouldSelfModify addr sz = true → exec (e.1 c rn rd rm) s = .refused .selfModifyPrefetched) ∧
        (after.wouldSelfModify addr sz = false → ∃ t, exec (e.1 c rn rd rm) s = .next t ∧
          Stores after t addr sz (s.readReg rm) ∧ t.out.requests = s.out.requests ++ [read, write] ∧
          (after.writeAnswersOk addr sz = true → t.getPhys (physReg s.mode rd) = e.2.2 v ∧ t.cpsr = s.cpsr ∧
            KeepsAllBut [physReg s.mode rd] s t ∧ GoesOn s t) ∧
          (after.writeAnswersOk addr sz = false → AbortsWithBase none s t ∧
            t.out.report = .exception .dataAbort s.pc (.addr addr)))) ∧
      (s.readAnswer addr sz = none → ∃ t, exec (e.1 c rn rd rm) s = .next t ∧
        EntersOnly .abt 0x10 (s.pc + 8) false s t ∧ t.out.requests = s.out.requests ++ [read])) ∧
  (∀ (c : Cond) (rn rd rm : Reg) (s : State), condPassed c s = true →
    ∀ swap ∈ ([.swp, .swpb] : List (Cond → Reg → Reg → Reg → Instr)),
      (rn = 15 ∨ rd = 15 ∨ rm = 15 → exec (swap c rn rd rm) s = .refused .swapPC) ∧
      (rn ≠ 15 → rd ≠ 15 → rm ≠ 15 → rn = rd ∨ rn = rm → exec (swap c rn rd rm) s = .refused .swapOverlap))

/-! ## THUMB -/

/-- THUMB formats 1 to 3 that write Rd (spec/49_thumb.md R311 to R318, R320, R321), format 2 with registers, and
CMP Rd, #imm8 (R319). -/
def Obligations.ThumbImmediateResults : Prop :=
  ∀ (s : State) (i3 : BitVec 3) (i5 : BitVec 5) (i8 : BitVec 8) (rn rs rd : LoReg),
    (∀ e ∈ thumbImmediateOps, ∃ t, exec (e.1 i3 i5 i8 rs rd) s = .next t ∧
      WritesResult true (lo rd) (e.2 i3 i5 i8 rs rd s) s t) ∧
    (∃ t, exec (.tAddReg rn rs rd) s = .next t ∧
      WritesResult true (lo rd) (sumResult (s.readReg (lo rs)) (s.readReg (lo rn)) false) s t) ∧
    (∃ t, exec (.tSubReg rn rs rd) s = .next t ∧
      WritesResult true (lo rd) (differenceResult (s.readReg (lo rs)) (s.readReg (lo rn)) true) s t) ∧
    (∃ t, exec (.tCmpImm rd i8) s = .next t ∧
      WritesFlags (differenceResult (s.readReg (lo rd)) (i8.setWidth 32) true) s t)

/-- THUMB format 4 (R322 to R337): results and flags; MUL's C is free. -/
def Obligations.ThumbRegisterResults : Prop :=
  ∀ (s : State) (rs rd : LoReg),
    (∀ e ∈ thumbRegisterOps, ∃ t, exec (e.1 rs rd) s = .next t ∧
      WritesResult true (lo rd) (e.2 (s.readReg (lo rd)) (s.readReg (lo rs)) s) s t) ∧
    (∀ e ∈ thumbCompareOps, ∃ t, exec (e.1 rs rd) s = .next t ∧
      WritesFlags (e.2 (s.readReg (lo rd)) (s.readReg (lo rs)) s) s t) ∧
    (rs ≠ rd → ∃ t carry, exec (.tMul rs rd) s = .next t ∧ WritesResult true (lo rd)
      ⟨BitVec.ofNat 32 ((s.readReg (lo rs)).toNat * (s.readReg (lo rd)).toNat), carry, s.flagV⟩ s t)

/-- THUMB format 5 ADD, CMP and MOV (R338 to R340): with a high register among the two; R15 as a destination branches;
two low registers are refused. Formats 12 and 13 (R359 to R362): addresses from the aligned PC and from SP, and SP
adjusted; no flag. -/
def Obligations.ThumbHighRegisterAndAddressResults : Prop :=
  (∀ (s : State) (hs hd : Reg),
    (8 ≤ hs.toNat ∨ 8 ≤ hd.toNat → s.NotBlocked [hs, hd] →
      (hd ≠ 15 → (∃ t, exec (.tAddHi hs hd) s = .next t ∧ WritesOnly hd (s.readReg hd + s.readReg hs) s t) ∧
        (∃ t, exec (.tMovHi hs hd) s = .next t ∧ WritesOnly hd (s.readReg hs) s t)) ∧
      (hd = 15 → BranchesTo (s.readReg hd + s.readReg hs) [] s (exec (.tAddHi hs hd) s) ∧
        BranchesTo (s.readReg hs) [] s (exec (.tMovHi hs hd) s)) ∧
      (∃ t, exec (.tCmpHi hs hd) s = .next t ∧
        WritesFlags (differenceResult (s.readReg hd) (s.readReg hs) true) s t)) ∧
    (hs.toNat < 8 → hd.toNat < 8 → exec (.tAddHi hs hd) s = .refused .hiRegLoLo ∧
      exec (.tCmpHi hs hd) s = .refused .hiRegLoLo ∧ exec (.tMovHi hs hd) s = .refused .hiRegLoLo)) ∧
  (∀ (s : State) (rd : LoReg) (i8 : BitVec 8) (i7 : BitVec 7), s.thumb = true →
    (∃ t, exec (.tAddPc rd i8) s = .next t ∧
      WritesOnly (lo rd) (((s.pc + 4) &&& 0xFFFFFFFC) + BitVec.ofNat 32 (4 * i8.toNat)) s t) ∧
    (s.NotBlocked [13] →
      (∃ t, exec (.tAddSp rd i8) s = .next t ∧
        WritesOnly (lo rd) (s.readReg 13 + BitVec.ofNat 32 (4 * i8.toNat)) s t) ∧
      (∃ t, exec (.tSpAdd i7) s = .next t ∧ WritesOnly 13 (s.readReg 13 + BitVec.ofNat 32 (4 * i7.toNat)) s t) ∧
      (∃ t, exec (.tSpSub i7) s = .next t ∧ WritesOnly 13 (s.readReg 13 - BitVec.ofNat 32 (4 * i7.toNat)) s t)))

/-- The THUMB loads (R342, R345, R346, R348 to R350, R352, R354, R356, R358), and their Data Abort (R373). -/
def Obligations.ThumbLoadResults : Prop :=
  ∀ (s : State) (ro rb rd : LoReg) (i5 : BitVec 5) (i8 : BitVec 8), ∀ e ∈ thumbLoads, s.NotBlocked e.2.2.2.2 →
    let addr := e.2.1 ro rb i5 i8 s
    (∀ v, s.readAnswer addr e.2.2.1 = some v → ∃ t, exec (e.1 ro rb rd i5 i8) s = .next t ∧
      LoadsInto (lo rd) (e.2.2.2.1 v) none
        { addr := addr, size := e.2.2.1, write := none, kind := .data, locked := false } s t) ∧
    (s.readAnswer addr e.2.2.1 = none → ∃ t, exec (e.1 ro rb rd i5 i8) s = .next t ∧ AbortsWithBase none s t ∧
      SameMemory s t)

/-- The THUMB stores (R343, R344, R347, R351, R353, R355, R357): the low bytes of Rd at the address; a store that would
write a byte of the two prefetched slots is refused; an aborted one takes Data Abort (R373). A store the platform
answers, an unaligned or a device one, writes and is judged by the bytes that answer names: the model's choice (logs 9
and 14). -/
def Obligations.ThumbStoreResults : Prop :=
  ∀ (s : State) (ro rb rd : LoReg) (i5 : BitVec 5) (i8 : BitVec 8), ∀ e ∈ thumbStores, s.NotBlocked e.2.2.2 →
    let addr := e.2.1 ro rb i5 i8 s
    let v := s.readReg (lo rd)
    (s.wouldSelfModify addr e.2.2.1 = true → exec (e.1 ro rb rd i5 i8) s = .refused .selfModifyPrefetched) ∧
    (s.wouldSelfModify addr e.2.2.1 = false →
      (s.writeAnswersOk addr e.2.2.1 = true → ∃ t, exec (e.1 ro rb rd i5 i8) s = .next t ∧
        StoresFrom addr e.2.2.1 v none
          { addr := addr, size := e.2.2.1, write := some (e.2.2.1.low v), kind := .data, locked := false } s t) ∧
      (s.writeAnswersOk addr e.2.2.1 = false → ∃ t, exec (e.1 ro rb rd i5 i8) s = .next t ∧
        Stores s t addr e.2.2.1 v ∧ AbortsWithBase none s t))

/-- PUSH and STMIA, in all their outcomes (R363, R365, R373, spec/70_reset_and_hazards.md R440): ascending registers at
ascending words, PUSH's R14 last, SP or Rb written back, whether or not a write aborts; a written-back Rb that is not
the lowest register is stored as a free word, which is one draw (log 4). What a write that the platform answers leaves
in memory, and whether it meets the prefetched slots, is the model's choice (logs 9 and 14). -/
def Obligations.ThumbStoreMultipleResults : Prop :=
  ∀ (s : State) (r : Bool) (rb : LoReg) (rlist : BitVec 8),
    let pushed := pushRegs r rlist
    let stored := lowList rlist
    let start := s.readReg 13 - BitVec.ofNat 32 (4 * pushed.length)
    let base := s.readReg (lo rb)
    let unknown := decide (lo rb ∈ stored) && decide (stored.head? ≠ some (lo rb))
    (pushed ≠ [] → s.NotBlocked (13 :: pushed) →
      StoresBlock start (pushed.map fun k => s.readReg k) (some (13, start)) s s (exec (.tPush r rlist) s)) ∧
    (stored ≠ [] → ∃ free : Word,
      StoresBlock base (stored.map fun k => if k = lo rb ∧ unknown = true then free else s.readReg k)
        (some (lo rb, base + BitVec.ofNat 32 (4 * stored.length))) (s.drawnIf unknown) s
        (exec (.tStmia rb rlist) s))

/-- POP and LDMIA (R364, R366): when no access aborts the registers get their words, SP or Rb its write-back; POP of R15
branches with bit 0 cleared and stays in THUMB state. When read k is the first to abort (R373), every read is issued,
the registers before it are loaded, SP or Rb is written back, R15 is not loaded and Data Abort is taken. -/
def Obligations.ThumbLoadMultipleResults : Prop :=
  ∀ (s : State) (r : Bool) (rb : LoReg) (rlist : BitVec 8), s.thumb = true →
    let popped := popRegs r rlist
    let loaded := lowList rlist
    let sp := s.readReg 13
    let base := s.readReg (lo rb)
    (popped ≠ [] → s.NotBlocked (13 :: popped) →
      let reads := (loadWords sp popped s).1
      ((∀ e ∈ reads, e.2 ≠ none) → ∃ t, exec (.tPop r rlist) s = .next t ∧
        (∀ k v, (k, some v) ∈ reads → k ≠ 15 → t.getPhys (physReg s.mode k) = v) ∧
        t.getPhys (physReg s.mode 13) = sp + BitVec.ofNat 32 (4 * popped.length) ∧ t.cpsr = s.cpsr ∧
        KeepsAllBut (physReg s.mode 13 :: popped.map (physReg s.mode)) s t ∧ SameMemory s t ∧
        (r = false → GoesOn s t) ∧
        (r = true → ∃ v, (15, some v) ∈ reads ∧ t.pc = v &&& 0xFFFFFFFE)) ∧
      (∀ k : Nat, AbortsAt k reads → ∃ t, exec (.tPop r rlist) s = .next t ∧
        AbortsLoading (physReg s.mode) 13 (sp + BitVec.ofNat 32 (4 * popped.length)) sp k reads s t)) ∧
    (loaded ≠ [] → lo rb ∉ loaded →
      let reads := (loadWords base loaded s).1
      ((∀ e ∈ reads, e.2 ≠ none) → ∃ t, exec (.tLdmia rb rlist) s = .next t ∧
        (∀ k v, (k, some v) ∈ reads → t.getPhys (physReg s.mode k) = v) ∧
        t.getPhys (physReg s.mode (lo rb)) = base + BitVec.ofNat 32 (4 * loaded.length) ∧ t.cpsr = s.cpsr ∧
        KeepsAllBut (physReg s.mode (lo rb) :: loaded.map (physReg s.mode)) s t ∧ SameMemory s t ∧ GoesOn s t) ∧
      (∀ k : Nat, AbortsAt k reads → ∃ t, exec (.tLdmia rb rlist) s = .next t ∧
        AbortsLoading (physReg s.mode) (lo rb) (base + BitVec.ofNat 32 (4 * loaded.length)) base k reads s t))

/-! ## Hazards and whole-machine rules -/

/-- The check of a store against the prefetched slots (spec/70_reset_and_hazards.md R440): a write in memory meets them
exactly when one of its bytes lies in the 2 isz bytes after the instruction. That a write the platform answers is judged
by the bytes its answer names, a store multiple write by write, and that the slots wrap at the top of the address space,
is the model's choice (logs 9 and 14). -/
def Obligations.PrefetchWindowIsTwoSlots : Prop :=
  ∀ (s : State) (addr : Word),
    (∀ sz : Size, s.plainAccess addr sz = true → (s.wouldSelfModify addr sz = true ↔
      ∃ i j : Nat, i < sz.bytes ∧ j < 2 * s.isz.toNat ∧
        addr + BitVec.ofNat 32 i = s.pc + s.isz + BitVec.ofNat 32 j)) ∧
    (∀ sz : Size, s.plainAccess addr sz = false → (s.wouldSelfModify addr sz = true ↔
      ∃ cell ∈ s.answer.stored, ∃ j : Nat, j < 2 * s.isz.toNat ∧ cell.1 = s.pc + s.isz + BitVec.ofNat 32 j)) ∧
    (∀ n : Nat, s.wordsSelfModify addr n = true ↔
      ∃ k : Nat, k < n ∧ (s.afterWrites addr k).wouldSelfModify (addr + BitVec.ofNat 32 (4 * k)) .word = true)

/-- While UserBankHazard holds (R441, spec/10_state.md R62), every instruction whose condition passes and that names a
register the mode banks away is refused: BankedAccessAfterLdmUser unless it would be refused without the hazard too, in
which case for which of the two reasons is log 15. Every other instruction is what it is without the hazard. A step that
ends with the hazard ran the user-bank LDM (spec/40 R150). A register is banked away exactly when it is R8 to R14 and
its storage differs from USR's. Which registers an instruction names is log 15. -/
def Obligations.HazardRefusesBankedRegisters : Prop :=
  (∀ (i : Instr) (s : State), condPassed (guardOf i) s = true → s.hazard = true →
    (∃ r ∈ namedRegs i, s.banksAway r = true) →
    (∃ why, exec i s = .refused why) ∧
    ((∀ why, exec i (s.setHazard false) ≠ .refused why) → exec i s = .refused .bankedAccessAfterLdmUser)) ∧
  (∀ (i : Instr) (s : State), (condPassed (guardOf i) s = false ∨ ∀ r ∈ namedRegs i, s.banksAway r = false) →
    exec i s = exec i (s.setHazard false)) ∧
  (∀ (i : Instr) (s t : State), exec i s = .next t → t.hazard = true →
    ∃ c p u rn list, i = .ldmUser c p u false rn list ∧ condPassed c s = true) ∧
  (∀ (s : State) (n : Reg), s.banksAway n = true ↔
    (s.mode = .fiq ∧ 8 ≤ n.toNat ∧ n.toNat ≤ 14) ∨
    ((s.mode = .irq ∨ s.mode = .svc ∨ s.mode = .abt ∨ s.mode = .und) ∧ (n = 13 ∨ n = 14)))

/-- USR mode is left only through an exception (spec/60_exceptions.md R417): if an instruction run in USR mode answers
a next state in another mode, that state is an exception's entry. -/
def Obligations.UserModeLeavesOnlyByException : Prop :=
  ∀ (i : Instr) (s t : State), s.LegalMode → s.mode = .usr → exec i s = .next t → t.mode ≠ .usr →
    ∃ e at_ info, t.out.report = .exception e at_ info ∧ t.thumb = false ∧ t.flagI = true ∧
      t.getSpsr t.mode = some s.cpsr

/-- The state bit changes only by BX, exception entry and exception return (spec/10_state.md R47): an instruction that
answers a next state whose report is no exception and whose T differs is BX, or one of the two return forms (data
processing with S and Rd = R15, LDM^ with R15), with CPSR restored from the SPSR of its mode. -/
def Obligations.StateBitChangesOnlyByBxOrReturn : Prop :=
  ∀ (i : Instr) (s t : State), exec i s = .next t → (∀ e at_ info, t.out.report ≠ .exception e at_ info) →
    t.thumb ≠ s.thumb →
    (∃ c rm, i = .bx c rm) ∨ (∃ h1 hs sbz, i = .tBx h1 hs sbz) ∨
    (((∃ c p u w rn list, i = .ldmReturn c p u w rn list) ∨
        (∃ e ∈ twoOperandOps, ∃ c rn op2, i = e.1 c true rn 15 op2) ∨
        (∃ e ∈ oneOperandOps, ∃ c sbz op2, i = e.1 c true sbz 15 op2)) ∧
      ∃ v, s.getSpsr s.mode = some v ∧ t.cpsr = v &&& 0xF00003FF)

/-- A software interrupt is undone by MOVS pc, lr (spec/60_exceptions.md R404): from any running state, taking SWI and
then executing MOVS pc, lr (0xE1B0F00E) resumes at the next instruction with CPSR as it was. -/
def Obligations.SwiReturnResumes : Prop :=
  ∀ (s t : State) (i : Instr), s.Inv → ((∃ comment, i = .swi .al comment) ∨ (∃ value, i = .tSwi value)) →
    (isThumb i = s.thumb) → exec i s = .next t →
    ∃ u, exec (.mov .al true 0 15 (.shiftImm 0 .lsl 14)) t = .next u ∧ u.cpsr = s.cpsr ∧ u.pc = s.pc + s.isz ∧
      SameMemory s u

/-- Every step keeps the invariant of a running core (spec/10_state.md R38, R43, R50, R51, R54, R56, R62). -/
def Obligations.StepKeepsInvariant : Prop :=
  ∀ s t : State, s.Inv → Machine.step s = .next t → t.Inv

/-- An instruction faults only by the fatal channel, and then its stop status is Fatal (R428): an MSR of CPSR or an
exception return. A core in Fatal takes no step, whatever the lines (spec/10_state.md R56). -/
def Obligations.FaultsOnlyByTheFatalChannel : Prop :=
  (∀ s : State, s.stop = .fatal → Machine.step s = .fault .stopped) ∧
  ∀ (i : Instr) (s : State) (f : Fault), exec i s = .fault f →
    (∃ left, f = .corruptMode left ∧ left.stop = .fatal ∧ left.cpsr = s.cpsr) ∧
    ((∃ c mask sbo hi mid rm, i = .msrReg c false mask sbo hi mid rm) ∨
      (∃ c mask sbo rotate imm8, i = .msrImm c false mask sbo rotate imm8) ∨
      (∃ c p u w rn list, i = .ldmReturn c p u w rn list) ∨
      (∃ e ∈ twoOperandOps, ∃ c rn op2, i = e.1 c true rn 15 op2) ∨
      (∃ e ∈ oneOperandOps, ∃ c sbz op2, i = e.1 c true sbz 15 op2))

/-! ## Addresses and register lists -/

/-- The addresses and offsets of the single and halfword transfers (spec/45_single_transfer.md R250,
spec/42_halfword_transfer.md R200, spec/30_encoding.md R118, R119), the four first addresses of a block transfer
(spec/46_block_transfer.md R270), and the register lists (R121, spec/49_thumb.md R363, R364): bit r of the list selects
register r, in ascending order, PUSH's R14 and POP's R15 last. -/
def Obligations.TransferAddressesAndRegisterLists : Prop :=
  (∀ (s : State) (p u : Bool) (rn : Reg), s.thumb = false →
    let base := if rn = 15 then s.pc + 8 else s.getPhys (physReg s.mode rn)
    let moved (offset : Word) : Word := if u then base + offset else base - offset
    (∀ imm12 : BitVec 12, transferNewBase u rn (.imm imm12) s = moved (imm12.setWidth 32)) ∧
    (∀ (amount : BitVec 5) (ty : ShiftType) (rm : Reg), rm ≠ 15 → transferNewBase u rn (.reg amount ty rm) s =
      moved (shiftByImm (s.getPhys (physReg s.mode rm)) ty amount.toNat s.flagC).value) ∧
    (∀ off : TransferOffset, transferAddress p u rn off s = if p then transferNewBase u rn off s else base) ∧
    (∀ imm8 : BitVec 8, halfNewBase u rn (.imm imm8) s = moved (imm8.setWidth 32)) ∧
    (∀ rm : Reg, rm ≠ 15 → halfNewBase u rn (.reg 0 rm) s = moved (s.getPhys (physReg s.mode rm))) ∧
    (∀ off : HalfOffset, halfAddress p u rn off s = if p then halfNewBase u rn off s else base) ∧
    (∀ regs : List Reg, blockAddress p u rn regs s =
      let n4 := BitVec.ofNat 32 (4 * regs.length)
      match p, u with
      | false, true => base | true, true => base + 4 | false, false => base - n4 + 4 | true, false => base - n4)) ∧
  (∀ (list : BitVec 16) (k : Reg), (k ∈ regList list ↔ list.getLsbD k.toNat = true) ∧
    (regList list).Pairwise fun a b => a.toNat < b.toNat) ∧
  (∀ (rlist : BitVec 8) (r : Bool) (k : Reg), (k ∈ lowList rlist ↔ rlist.getLsbD k.toNat = true) ∧
    (lowList rlist).Pairwise (fun a b => a.toNat < b.toNat) ∧
    (k ∈ pushRegs r rlist ↔ rlist.getLsbD k.toNat = true ∨ (r = true ∧ k = 14)) ∧
    (pushRegs r rlist).Pairwise (fun a b => a.toNat < b.toNat) ∧
    (k ∈ popRegs r rlist ↔ rlist.getLsbD k.toNat = true ∨ (r = true ∧ k = 15)) ∧
    (popRegs r rlist).Pairwise fun a b => a.toNat < b.toNat)
end

