-- ==== Sys2Proof/Laws/State.lean ====
section
/-! SUPPORT. One lemma per field per update of the state, and what the accessors read after each update. -/

namespace Sys2Proof.Machine

variable (s : State)

/-! ### setPc -/

@[simp] theorem State.setPc_regs (v : Word) : (s.setPc v).regs = s.regs := rfl
@[simp] theorem State.setPc_pc (v : Word) : (s.setPc v).pc = v := rfl
@[simp] theorem State.setPc_cpsr (v : Word) : (s.setPc v).cpsr = s.cpsr := rfl
@[simp] theorem State.setPc_spsr (v : Word) : (s.setPc v).spsr = s.spsr := rfl
@[simp] theorem State.setPc_mem (v : Word) : (s.setPc v).mem = s.mem := rfl
@[simp] theorem State.setPc_hazard (v : Word) : (s.setPc v).hazard = s.hazard := rfl
@[simp] theorem State.setPc_dispatcher (v : Word) : (s.setPc v).dispatcher = s.dispatcher := rfl
@[simp] theorem State.setPc_stop (v : Word) : (s.setPc v).stop = s.stop := rfl
@[simp] theorem State.setPc_draws (v : Word) : (s.setPc v).draws = s.draws := rfl
@[simp] theorem State.setPc_lines (v : Word) : (s.setPc v).lines = s.lines := rfl
@[simp] theorem State.setPc_bus (v : Word) : (s.setPc v).bus = s.bus := rfl
@[simp] theorem State.setPc_plain (v : Word) : (s.setPc v).plain = s.plain := rfl
@[simp] theorem State.setPc_out (v : Word) : (s.setPc v).out = s.out := rfl

/-! ### setCpsr -/

@[simp] theorem State.setCpsr_regs (v : Word) : (s.setCpsr v).regs = s.regs := rfl
@[simp] theorem State.setCpsr_pc (v : Word) : (s.setCpsr v).pc = s.pc := rfl
@[simp] theorem State.setCpsr_cpsr (v : Word) : (s.setCpsr v).cpsr = v := rfl
@[simp] theorem State.setCpsr_spsr (v : Word) : (s.setCpsr v).spsr = s.spsr := rfl
@[simp] theorem State.setCpsr_mem (v : Word) : (s.setCpsr v).mem = s.mem := rfl
@[simp] theorem State.setCpsr_hazard (v : Word) : (s.setCpsr v).hazard = s.hazard := rfl
@[simp] theorem State.setCpsr_dispatcher (v : Word) : (s.setCpsr v).dispatcher = s.dispatcher := rfl
@[simp] theorem State.setCpsr_stop (v : Word) : (s.setCpsr v).stop = s.stop := rfl
@[simp] theorem State.setCpsr_draws (v : Word) : (s.setCpsr v).draws = s.draws := rfl
@[simp] theorem State.setCpsr_lines (v : Word) : (s.setCpsr v).lines = s.lines := rfl
@[simp] theorem State.setCpsr_bus (v : Word) : (s.setCpsr v).bus = s.bus := rfl
@[simp] theorem State.setCpsr_plain (v : Word) : (s.setCpsr v).plain = s.plain := rfl
@[simp] theorem State.setCpsr_out (v : Word) : (s.setCpsr v).out = s.out := rfl

/-! ### setMem -/

@[simp] theorem State.setMem_regs (m : Memory) : (s.setMem m).regs = s.regs := rfl
@[simp] theorem State.setMem_pc (m : Memory) : (s.setMem m).pc = s.pc := rfl
@[simp] theorem State.setMem_cpsr (m : Memory) : (s.setMem m).cpsr = s.cpsr := rfl
@[simp] theorem State.setMem_spsr (m : Memory) : (s.setMem m).spsr = s.spsr := rfl
@[simp] theorem State.setMem_mem (m : Memory) : (s.setMem m).mem = m := rfl
@[simp] theorem State.setMem_hazard (m : Memory) : (s.setMem m).hazard = s.hazard := rfl
@[simp] theorem State.setMem_dispatcher (m : Memory) : (s.setMem m).dispatcher = s.dispatcher := rfl
@[simp] theorem State.setMem_stop (m : Memory) : (s.setMem m).stop = s.stop := rfl
@[simp] theorem State.setMem_draws (m : Memory) : (s.setMem m).draws = s.draws := rfl
@[simp] theorem State.setMem_lines (m : Memory) : (s.setMem m).lines = s.lines := rfl
@[simp] theorem State.setMem_bus (m : Memory) : (s.setMem m).bus = s.bus := rfl
@[simp] theorem State.setMem_plain (m : Memory) : (s.setMem m).plain = s.plain := rfl
@[simp] theorem State.setMem_out (m : Memory) : (s.setMem m).out = s.out := rfl

/-! ### setHazard -/

@[simp] theorem State.setHazard_regs (b : Bool) : (s.setHazard b).regs = s.regs := rfl
@[simp] theorem State.setHazard_pc (b : Bool) : (s.setHazard b).pc = s.pc := rfl
@[simp] theorem State.setHazard_cpsr (b : Bool) : (s.setHazard b).cpsr = s.cpsr := rfl
@[simp] theorem State.setHazard_spsr (b : Bool) : (s.setHazard b).spsr = s.spsr := rfl
@[simp] theorem State.setHazard_mem (b : Bool) : (s.setHazard b).mem = s.mem := rfl
@[simp] theorem State.setHazard_hazard (b : Bool) : (s.setHazard b).hazard = b := rfl
@[simp] theorem State.setHazard_dispatcher (b : Bool) : (s.setHazard b).dispatcher = s.dispatcher := rfl
@[simp] theorem State.setHazard_stop (b : Bool) : (s.setHazard b).stop = s.stop := rfl
@[simp] theorem State.setHazard_draws (b : Bool) : (s.setHazard b).draws = s.draws := rfl
@[simp] theorem State.setHazard_lines (b : Bool) : (s.setHazard b).lines = s.lines := rfl
@[simp] theorem State.setHazard_bus (b : Bool) : (s.setHazard b).bus = s.bus := rfl
@[simp] theorem State.setHazard_plain (b : Bool) : (s.setHazard b).plain = s.plain := rfl
@[simp] theorem State.setHazard_out (b : Bool) : (s.setHazard b).out = s.out := rfl

/-! ### setDispatcher -/

@[simp] theorem State.setDispatcher_regs (d : DispatcherState) : (s.setDispatcher d).regs = s.regs := rfl
@[simp] theorem State.setDispatcher_pc (d : DispatcherState) : (s.setDispatcher d).pc = s.pc := rfl
@[simp] theorem State.setDispatcher_cpsr (d : DispatcherState) : (s.setDispatcher d).cpsr = s.cpsr := rfl
@[simp] theorem State.setDispatcher_spsr (d : DispatcherState) : (s.setDispatcher d).spsr = s.spsr := rfl
@[simp] theorem State.setDispatcher_mem (d : DispatcherState) : (s.setDispatcher d).mem = s.mem := rfl
@[simp] theorem State.setDispatcher_hazard (d : DispatcherState) : (s.setDispatcher d).hazard = s.hazard := rfl
@[simp] theorem State.setDispatcher_dispatcher (d : DispatcherState) : (s.setDispatcher d).dispatcher = d := rfl
@[simp] theorem State.setDispatcher_stop (d : DispatcherState) : (s.setDispatcher d).stop = s.stop := rfl
@[simp] theorem State.setDispatcher_draws (d : DispatcherState) : (s.setDispatcher d).draws = s.draws := rfl
@[simp] theorem State.setDispatcher_lines (d : DispatcherState) : (s.setDispatcher d).lines = s.lines := rfl
@[simp] theorem State.setDispatcher_bus (d : DispatcherState) : (s.setDispatcher d).bus = s.bus := rfl
@[simp] theorem State.setDispatcher_plain (d : DispatcherState) : (s.setDispatcher d).plain = s.plain := rfl
@[simp] theorem State.setDispatcher_out (d : DispatcherState) : (s.setDispatcher d).out = s.out := rfl

/-! ### setStop -/

@[simp] theorem State.setStop_regs (x : StopStatus) : (s.setStop x).regs = s.regs := rfl
@[simp] theorem State.setStop_pc (x : StopStatus) : (s.setStop x).pc = s.pc := rfl
@[simp] theorem State.setStop_cpsr (x : StopStatus) : (s.setStop x).cpsr = s.cpsr := rfl
@[simp] theorem State.setStop_spsr (x : StopStatus) : (s.setStop x).spsr = s.spsr := rfl
@[simp] theorem State.setStop_mem (x : StopStatus) : (s.setStop x).mem = s.mem := rfl
@[simp] theorem State.setStop_hazard (x : StopStatus) : (s.setStop x).hazard = s.hazard := rfl
@[simp] theorem State.setStop_dispatcher (x : StopStatus) : (s.setStop x).dispatcher = s.dispatcher := rfl
@[simp] theorem State.setStop_stop (x : StopStatus) : (s.setStop x).stop = x := rfl
@[simp] theorem State.setStop_draws (x : StopStatus) : (s.setStop x).draws = s.draws := rfl
@[simp] theorem State.setStop_lines (x : StopStatus) : (s.setStop x).lines = s.lines := rfl
@[simp] theorem State.setStop_bus (x : StopStatus) : (s.setStop x).bus = s.bus := rfl
@[simp] theorem State.setStop_plain (x : StopStatus) : (s.setStop x).plain = s.plain := rfl
@[simp] theorem State.setStop_out (x : StopStatus) : (s.setStop x).out = s.out := rfl

/-! ### drawn -/

@[simp] theorem State.drawn_regs : (s.drawn).regs = s.regs := rfl
@[simp] theorem State.drawn_pc : (s.drawn).pc = s.pc := rfl
@[simp] theorem State.drawn_cpsr : (s.drawn).cpsr = s.cpsr := rfl
@[simp] theorem State.drawn_spsr : (s.drawn).spsr = s.spsr := rfl
@[simp] theorem State.drawn_mem : (s.drawn).mem = s.mem := rfl
@[simp] theorem State.drawn_hazard : (s.drawn).hazard = s.hazard := rfl
@[simp] theorem State.drawn_dispatcher : (s.drawn).dispatcher = s.dispatcher := rfl
@[simp] theorem State.drawn_stop : (s.drawn).stop = s.stop := rfl
@[simp] theorem State.drawn_draws : (s.drawn).draws = s.draws + 1 := rfl
@[simp] theorem State.drawn_lines : (s.drawn).lines = s.lines := rfl
@[simp] theorem State.drawn_bus : (s.drawn).bus = s.bus := rfl
@[simp] theorem State.drawn_plain : (s.drawn).plain = s.plain := rfl
@[simp] theorem State.drawn_out : (s.drawn).out = s.out := rfl

/-! ### setBus -/

@[simp] theorem State.setBus_regs (b : List BusAnswer) : (s.setBus b).regs = s.regs := rfl
@[simp] theorem State.setBus_pc (b : List BusAnswer) : (s.setBus b).pc = s.pc := rfl
@[simp] theorem State.setBus_cpsr (b : List BusAnswer) : (s.setBus b).cpsr = s.cpsr := rfl
@[simp] theorem State.setBus_spsr (b : List BusAnswer) : (s.setBus b).spsr = s.spsr := rfl
@[simp] theorem State.setBus_mem (b : List BusAnswer) : (s.setBus b).mem = s.mem := rfl
@[simp] theorem State.setBus_hazard (b : List BusAnswer) : (s.setBus b).hazard = s.hazard := rfl
@[simp] theorem State.setBus_dispatcher (b : List BusAnswer) : (s.setBus b).dispatcher = s.dispatcher := rfl
@[simp] theorem State.setBus_stop (b : List BusAnswer) : (s.setBus b).stop = s.stop := rfl
@[simp] theorem State.setBus_draws (b : List BusAnswer) : (s.setBus b).draws = s.draws := rfl
@[simp] theorem State.setBus_lines (b : List BusAnswer) : (s.setBus b).lines = s.lines := rfl
@[simp] theorem State.setBus_bus (b : List BusAnswer) : (s.setBus b).bus = b := rfl
@[simp] theorem State.setBus_plain (b : List BusAnswer) : (s.setBus b).plain = s.plain := rfl
@[simp] theorem State.setBus_out (b : List BusAnswer) : (s.setBus b).out = s.out := rfl

/-! ### setLines -/

@[simp] theorem State.setLines_regs (l : List Lines) : (s.setLines l).regs = s.regs := rfl
@[simp] theorem State.setLines_pc (l : List Lines) : (s.setLines l).pc = s.pc := rfl
@[simp] theorem State.setLines_cpsr (l : List Lines) : (s.setLines l).cpsr = s.cpsr := rfl
@[simp] theorem State.setLines_spsr (l : List Lines) : (s.setLines l).spsr = s.spsr := rfl
@[simp] theorem State.setLines_mem (l : List Lines) : (s.setLines l).mem = s.mem := rfl
@[simp] theorem State.setLines_hazard (l : List Lines) : (s.setLines l).hazard = s.hazard := rfl
@[simp] theorem State.setLines_dispatcher (l : List Lines) : (s.setLines l).dispatcher = s.dispatcher := rfl
@[simp] theorem State.setLines_stop (l : List Lines) : (s.setLines l).stop = s.stop := rfl
@[simp] theorem State.setLines_draws (l : List Lines) : (s.setLines l).draws = s.draws := rfl
@[simp] theorem State.setLines_lines (l : List Lines) : (s.setLines l).lines = l := rfl
@[simp] theorem State.setLines_bus (l : List Lines) : (s.setLines l).bus = s.bus := rfl
@[simp] theorem State.setLines_plain (l : List Lines) : (s.setLines l).plain = s.plain := rfl
@[simp] theorem State.setLines_out (l : List Lines) : (s.setLines l).out = s.out := rfl

/-! ### setReport -/

@[simp] theorem State.setReport_regs (r : Report) : (s.setReport r).regs = s.regs := rfl
@[simp] theorem State.setReport_pc (r : Report) : (s.setReport r).pc = s.pc := rfl
@[simp] theorem State.setReport_cpsr (r : Report) : (s.setReport r).cpsr = s.cpsr := rfl
@[simp] theorem State.setReport_spsr (r : Report) : (s.setReport r).spsr = s.spsr := rfl
@[simp] theorem State.setReport_mem (r : Report) : (s.setReport r).mem = s.mem := rfl
@[simp] theorem State.setReport_hazard (r : Report) : (s.setReport r).hazard = s.hazard := rfl
@[simp] theorem State.setReport_dispatcher (r : Report) : (s.setReport r).dispatcher = s.dispatcher := rfl
@[simp] theorem State.setReport_stop (r : Report) : (s.setReport r).stop = s.stop := rfl
@[simp] theorem State.setReport_draws (r : Report) : (s.setReport r).draws = s.draws := rfl
@[simp] theorem State.setReport_lines (r : Report) : (s.setReport r).lines = s.lines := rfl
@[simp] theorem State.setReport_bus (r : Report) : (s.setReport r).bus = s.bus := rfl
@[simp] theorem State.setReport_plain (r : Report) : (s.setReport r).plain = s.plain := rfl
@[simp] theorem State.setReport_out (r : Report) : (s.setReport r).out = { s.out with report := r } := rfl

/-! ### logRequest -/

@[simp] theorem State.logRequest_regs (r : BusRequest) : (s.logRequest r).regs = s.regs := rfl
@[simp] theorem State.logRequest_pc (r : BusRequest) : (s.logRequest r).pc = s.pc := rfl
@[simp] theorem State.logRequest_cpsr (r : BusRequest) : (s.logRequest r).cpsr = s.cpsr := rfl
@[simp] theorem State.logRequest_spsr (r : BusRequest) : (s.logRequest r).spsr = s.spsr := rfl
@[simp] theorem State.logRequest_mem (r : BusRequest) : (s.logRequest r).mem = s.mem := rfl
@[simp] theorem State.logRequest_hazard (r : BusRequest) : (s.logRequest r).hazard = s.hazard := rfl
@[simp] theorem State.logRequest_dispatcher (r : BusRequest) : (s.logRequest r).dispatcher = s.dispatcher := rfl
@[simp] theorem State.logRequest_stop (r : BusRequest) : (s.logRequest r).stop = s.stop := rfl
@[simp] theorem State.logRequest_draws (r : BusRequest) : (s.logRequest r).draws = s.draws := rfl
@[simp] theorem State.logRequest_lines (r : BusRequest) : (s.logRequest r).lines = s.lines := rfl
@[simp] theorem State.logRequest_bus (r : BusRequest) : (s.logRequest r).bus = s.bus := rfl
@[simp] theorem State.logRequest_plain (r : BusRequest) : (s.logRequest r).plain = s.plain := rfl
@[simp] theorem State.logRequest_out (r : BusRequest) : (s.logRequest r).out = { s.out with requests := s.out.requests ++ [r] } := rfl

/-! ### clearRequests -/

@[simp] theorem State.clearRequests_regs : (s.clearRequests).regs = s.regs := rfl
@[simp] theorem State.clearRequests_pc : (s.clearRequests).pc = s.pc := rfl
@[simp] theorem State.clearRequests_cpsr : (s.clearRequests).cpsr = s.cpsr := rfl
@[simp] theorem State.clearRequests_spsr : (s.clearRequests).spsr = s.spsr := rfl
@[simp] theorem State.clearRequests_mem : (s.clearRequests).mem = s.mem := rfl
@[simp] theorem State.clearRequests_hazard : (s.clearRequests).hazard = s.hazard := rfl
@[simp] theorem State.clearRequests_dispatcher : (s.clearRequests).dispatcher = s.dispatcher := rfl
@[simp] theorem State.clearRequests_stop : (s.clearRequests).stop = s.stop := rfl
@[simp] theorem State.clearRequests_draws : (s.clearRequests).draws = s.draws := rfl
@[simp] theorem State.clearRequests_lines : (s.clearRequests).lines = s.lines := rfl
@[simp] theorem State.clearRequests_bus : (s.clearRequests).bus = s.bus := rfl
@[simp] theorem State.clearRequests_plain : (s.clearRequests).plain = s.plain := rfl
@[simp] theorem State.clearRequests_out : (s.clearRequests).out = { s.out with requests := [] } := rfl

/-! ### advance -/

@[simp] theorem State.advance_regs : (s.advance).regs = s.regs := rfl
@[simp] theorem State.advance_pc : (s.advance).pc = s.pc + s.isz := rfl
@[simp] theorem State.advance_cpsr : (s.advance).cpsr = s.cpsr := rfl
@[simp] theorem State.advance_spsr : (s.advance).spsr = s.spsr := rfl
@[simp] theorem State.advance_mem : (s.advance).mem = s.mem := rfl
@[simp] theorem State.advance_hazard : (s.advance).hazard = s.hazard := rfl
@[simp] theorem State.advance_dispatcher : (s.advance).dispatcher = s.dispatcher := rfl
@[simp] theorem State.advance_stop : (s.advance).stop = s.stop := rfl
@[simp] theorem State.advance_draws : (s.advance).draws = s.draws := rfl
@[simp] theorem State.advance_lines : (s.advance).lines = s.lines := rfl
@[simp] theorem State.advance_bus : (s.advance).bus = s.bus := rfl
@[simp] theorem State.advance_plain : (s.advance).plain = s.plain := rfl
@[simp] theorem State.advance_out : (s.advance).out = s.out := rfl

/-! ### started -/

@[simp] theorem State.started_regs : (s.started).regs = s.regs := rfl
@[simp] theorem State.started_pc : (s.started).pc = s.pc := rfl
@[simp] theorem State.started_cpsr : (s.started).cpsr = s.cpsr := rfl
@[simp] theorem State.started_spsr : (s.started).spsr = s.spsr := rfl
@[simp] theorem State.started_mem : (s.started).mem = s.mem := rfl
@[simp] theorem State.started_hazard : (s.started).hazard = false := rfl
@[simp] theorem State.started_dispatcher : (s.started).dispatcher = s.dispatcher := rfl
@[simp] theorem State.started_stop : (s.started).stop = s.stop := rfl
@[simp] theorem State.started_draws : (s.started).draws = s.draws := rfl
@[simp] theorem State.started_lines : (s.started).lines = s.lines := rfl
@[simp] theorem State.started_bus : (s.started).bus = s.bus := rfl
@[simp] theorem State.started_plain : (s.started).plain = s.plain := rfl
@[simp] theorem State.started_out : (s.started).out = { s.out with report := .completed } := rfl

/-! ### skip -/

@[simp] theorem State.skip_regs : (s.skip).regs = s.regs := rfl
@[simp] theorem State.skip_pc : (s.skip).pc = s.pc + s.isz := rfl
@[simp] theorem State.skip_cpsr : (s.skip).cpsr = s.cpsr := rfl
@[simp] theorem State.skip_spsr : (s.skip).spsr = s.spsr := rfl
@[simp] theorem State.skip_mem : (s.skip).mem = s.mem := rfl
@[simp] theorem State.skip_hazard : (s.skip).hazard = false := rfl
@[simp] theorem State.skip_dispatcher : (s.skip).dispatcher = s.dispatcher := rfl
@[simp] theorem State.skip_stop : (s.skip).stop = s.stop := rfl
@[simp] theorem State.skip_draws : (s.skip).draws = s.draws := rfl
@[simp] theorem State.skip_lines : (s.skip).lines = s.lines := rfl
@[simp] theorem State.skip_bus : (s.skip).bus = s.bus := rfl
@[simp] theorem State.skip_plain : (s.skip).plain = s.plain := rfl
@[simp] theorem State.skip_out : (s.skip).out = { s.out with report := .skipped } := rfl

/-! ### boundary -/

@[simp] theorem State.boundary_regs : (s.boundary).regs = s.regs := rfl
@[simp] theorem State.boundary_pc : (s.boundary).pc = s.pc := rfl
@[simp] theorem State.boundary_cpsr : (s.boundary).cpsr = s.cpsr := rfl
@[simp] theorem State.boundary_spsr : (s.boundary).spsr = s.spsr := rfl
@[simp] theorem State.boundary_mem : (s.boundary).mem = s.mem := rfl
@[simp] theorem State.boundary_hazard : (s.boundary).hazard = s.hazard := rfl
@[simp] theorem State.boundary_dispatcher : (s.boundary).dispatcher = s.dispatcher := rfl
@[simp] theorem State.boundary_stop : (s.boundary).stop = s.stop := rfl
@[simp] theorem State.boundary_draws : (s.boundary).draws = s.draws := rfl
@[simp] theorem State.boundary_lines : (s.boundary).lines = s.lines.tail := rfl
@[simp] theorem State.boundary_bus : (s.boundary).bus = s.bus := rfl
@[simp] theorem State.boundary_plain : (s.boundary).plain = s.plain := rfl
@[simp] theorem State.boundary_out : (s.boundary).out = { s.out with requests := [] } := rfl

/-! ### setPhys -/

@[simp] theorem State.setPhys_pc (p : PhysReg) (v : Word) : (s.setPhys p v).pc = s.pc := by cases p <;> rfl
@[simp] theorem State.setPhys_cpsr (p : PhysReg) (v : Word) : (s.setPhys p v).cpsr = s.cpsr := by cases p <;> rfl
@[simp] theorem State.setPhys_spsr (p : PhysReg) (v : Word) : (s.setPhys p v).spsr = s.spsr := by cases p <;> rfl
@[simp] theorem State.setPhys_mem (p : PhysReg) (v : Word) : (s.setPhys p v).mem = s.mem := by cases p <;> rfl
@[simp] theorem State.setPhys_hazard (p : PhysReg) (v : Word) : (s.setPhys p v).hazard = s.hazard := by cases p <;> rfl
@[simp] theorem State.setPhys_dispatcher (p : PhysReg) (v : Word) : (s.setPhys p v).dispatcher = s.dispatcher := by cases p <;> rfl
@[simp] theorem State.setPhys_stop (p : PhysReg) (v : Word) : (s.setPhys p v).stop = s.stop := by cases p <;> rfl
@[simp] theorem State.setPhys_draws (p : PhysReg) (v : Word) : (s.setPhys p v).draws = s.draws := by cases p <;> rfl
@[simp] theorem State.setPhys_lines (p : PhysReg) (v : Word) : (s.setPhys p v).lines = s.lines := by cases p <;> rfl
@[simp] theorem State.setPhys_bus (p : PhysReg) (v : Word) : (s.setPhys p v).bus = s.bus := by cases p <;> rfl
@[simp] theorem State.setPhys_plain (p : PhysReg) (v : Word) : (s.setPhys p v).plain = s.plain := by cases p <;> rfl
@[simp] theorem State.setPhys_out (p : PhysReg) (v : Word) : (s.setPhys p v).out = s.out := by cases p <;> rfl

/-! ### setSpsr -/

@[simp] theorem State.setSpsr_regs (m : Mode) (v : Word) : (s.setSpsr m v).regs = s.regs := by cases m <;> rfl
@[simp] theorem State.setSpsr_pc (m : Mode) (v : Word) : (s.setSpsr m v).pc = s.pc := by cases m <;> rfl
@[simp] theorem State.setSpsr_cpsr (m : Mode) (v : Word) : (s.setSpsr m v).cpsr = s.cpsr := by cases m <;> rfl
@[simp] theorem State.setSpsr_mem (m : Mode) (v : Word) : (s.setSpsr m v).mem = s.mem := by cases m <;> rfl
@[simp] theorem State.setSpsr_hazard (m : Mode) (v : Word) : (s.setSpsr m v).hazard = s.hazard := by cases m <;> rfl
@[simp] theorem State.setSpsr_dispatcher (m : Mode) (v : Word) : (s.setSpsr m v).dispatcher = s.dispatcher := by cases m <;> rfl
@[simp] theorem State.setSpsr_stop (m : Mode) (v : Word) : (s.setSpsr m v).stop = s.stop := by cases m <;> rfl
@[simp] theorem State.setSpsr_draws (m : Mode) (v : Word) : (s.setSpsr m v).draws = s.draws := by cases m <;> rfl
@[simp] theorem State.setSpsr_lines (m : Mode) (v : Word) : (s.setSpsr m v).lines = s.lines := by cases m <;> rfl
@[simp] theorem State.setSpsr_bus (m : Mode) (v : Word) : (s.setSpsr m v).bus = s.bus := by cases m <;> rfl
@[simp] theorem State.setSpsr_plain (m : Mode) (v : Word) : (s.setSpsr m v).plain = s.plain := by cases m <;> rfl
@[simp] theorem State.setSpsr_out (m : Mode) (v : Word) : (s.setSpsr m v).out = s.out := by cases m <;> rfl

/-! ### writeReg and writeUser -/

@[simp] theorem State.writeReg_pc (n : Reg) (v : Word) : (s.writeReg n v).pc = s.pc := by simp [State.writeReg]
@[simp] theorem State.writeReg_cpsr (n : Reg) (v : Word) : (s.writeReg n v).cpsr = s.cpsr := by simp [State.writeReg]
@[simp] theorem State.writeReg_spsr (n : Reg) (v : Word) : (s.writeReg n v).spsr = s.spsr := by simp [State.writeReg]
@[simp] theorem State.writeReg_mem (n : Reg) (v : Word) : (s.writeReg n v).mem = s.mem := by simp [State.writeReg]
@[simp] theorem State.writeReg_hazard (n : Reg) (v : Word) : (s.writeReg n v).hazard = s.hazard := by simp [State.writeReg]
@[simp] theorem State.writeReg_dispatcher (n : Reg) (v : Word) : (s.writeReg n v).dispatcher = s.dispatcher := by simp [State.writeReg]
@[simp] theorem State.writeReg_stop (n : Reg) (v : Word) : (s.writeReg n v).stop = s.stop := by simp [State.writeReg]
@[simp] theorem State.writeReg_draws (n : Reg) (v : Word) : (s.writeReg n v).draws = s.draws := by simp [State.writeReg]
@[simp] theorem State.writeReg_lines (n : Reg) (v : Word) : (s.writeReg n v).lines = s.lines := by simp [State.writeReg]
@[simp] theorem State.writeReg_bus (n : Reg) (v : Word) : (s.writeReg n v).bus = s.bus := by simp [State.writeReg]
@[simp] theorem State.writeReg_plain (n : Reg) (v : Word) : (s.writeReg n v).plain = s.plain := by simp [State.writeReg]
@[simp] theorem State.writeReg_out (n : Reg) (v : Word) : (s.writeReg n v).out = s.out := by simp [State.writeReg]

@[simp] theorem State.writeUser_pc (n : Reg) (v : Word) : (s.writeUser n v).pc = s.pc := by simp [State.writeUser]
@[simp] theorem State.writeUser_cpsr (n : Reg) (v : Word) : (s.writeUser n v).cpsr = s.cpsr := by simp [State.writeUser]
@[simp] theorem State.writeUser_spsr (n : Reg) (v : Word) : (s.writeUser n v).spsr = s.spsr := by simp [State.writeUser]
@[simp] theorem State.writeUser_mem (n : Reg) (v : Word) : (s.writeUser n v).mem = s.mem := by simp [State.writeUser]
@[simp] theorem State.writeUser_hazard (n : Reg) (v : Word) : (s.writeUser n v).hazard = s.hazard := by simp [State.writeUser]
@[simp] theorem State.writeUser_dispatcher (n : Reg) (v : Word) : (s.writeUser n v).dispatcher = s.dispatcher := by simp [State.writeUser]
@[simp] theorem State.writeUser_stop (n : Reg) (v : Word) : (s.writeUser n v).stop = s.stop := by simp [State.writeUser]
@[simp] theorem State.writeUser_draws (n : Reg) (v : Word) : (s.writeUser n v).draws = s.draws := by simp [State.writeUser]
@[simp] theorem State.writeUser_lines (n : Reg) (v : Word) : (s.writeUser n v).lines = s.lines := by simp [State.writeUser]
@[simp] theorem State.writeUser_bus (n : Reg) (v : Word) : (s.writeUser n v).bus = s.bus := by simp [State.writeUser]
@[simp] theorem State.writeUser_plain (n : Reg) (v : Word) : (s.writeUser n v).plain = s.plain := by simp [State.writeUser]
@[simp] theorem State.writeUser_out (n : Reg) (v : Word) : (s.writeUser n v).out = s.out := by simp [State.writeUser]

/-! ### writeBack -/

@[simp] theorem State.writeBack_pc (wb : Option (Reg × Word)) : (s.writeBack wb).pc = s.pc := by
  cases wb <;> simp [State.writeBack]
@[simp] theorem State.writeBack_cpsr (wb : Option (Reg × Word)) : (s.writeBack wb).cpsr = s.cpsr := by
  cases wb <;> simp [State.writeBack]
@[simp] theorem State.writeBack_spsr (wb : Option (Reg × Word)) : (s.writeBack wb).spsr = s.spsr := by
  cases wb <;> simp [State.writeBack]
@[simp] theorem State.writeBack_mem (wb : Option (Reg × Word)) : (s.writeBack wb).mem = s.mem := by
  cases wb <;> simp [State.writeBack]
@[simp] theorem State.writeBack_hazard (wb : Option (Reg × Word)) : (s.writeBack wb).hazard = s.hazard := by
  cases wb <;> simp [State.writeBack]
@[simp] theorem State.writeBack_dispatcher (wb : Option (Reg × Word)) : (s.writeBack wb).dispatcher = s.dispatcher := by
  cases wb <;> simp [State.writeBack]
@[simp] theorem State.writeBack_stop (wb : Option (Reg × Word)) : (s.writeBack wb).stop = s.stop := by
  cases wb <;> simp [State.writeBack]
@[simp] theorem State.writeBack_draws (wb : Option (Reg × Word)) : (s.writeBack wb).draws = s.draws := by
  cases wb <;> simp [State.writeBack]
@[simp] theorem State.writeBack_lines (wb : Option (Reg × Word)) : (s.writeBack wb).lines = s.lines := by
  cases wb <;> simp [State.writeBack]
@[simp] theorem State.writeBack_bus (wb : Option (Reg × Word)) : (s.writeBack wb).bus = s.bus := by
  cases wb <;> simp [State.writeBack]
@[simp] theorem State.writeBack_plain (wb : Option (Reg × Word)) : (s.writeBack wb).plain = s.plain := by
  cases wb <;> simp [State.writeBack]
@[simp] theorem State.writeBack_out (wb : Option (Reg × Word)) : (s.writeBack wb).out = s.out := by
  cases wb <;> simp [State.writeBack]

/-! ### writeRegs and writeUsers -/

@[simp] theorem State.writeRegs_pc (l : List (Reg × Word)) : (s.writeRegs l).pc = s.pc := by
  induction l generalizing s <;> simp [State.writeRegs, *]
@[simp] theorem State.writeRegs_cpsr (l : List (Reg × Word)) : (s.writeRegs l).cpsr = s.cpsr := by
  induction l generalizing s <;> simp [State.writeRegs, *]
@[simp] theorem State.writeRegs_spsr (l : List (Reg × Word)) : (s.writeRegs l).spsr = s.spsr := by
  induction l generalizing s <;> simp [State.writeRegs, *]
@[simp] theorem State.writeRegs_mem (l : List (Reg × Word)) : (s.writeRegs l).mem = s.mem := by
  induction l generalizing s <;> simp [State.writeRegs, *]
@[simp] theorem State.writeRegs_hazard (l : List (Reg × Word)) : (s.writeRegs l).hazard = s.hazard := by
  induction l generalizing s <;> simp [State.writeRegs, *]
@[simp] theorem State.writeRegs_dispatcher (l : List (Reg × Word)) : (s.writeRegs l).dispatcher = s.dispatcher := by
  induction l generalizing s <;> simp [State.writeRegs, *]
@[simp] theorem State.writeRegs_stop (l : List (Reg × Word)) : (s.writeRegs l).stop = s.stop := by
  induction l generalizing s <;> simp [State.writeRegs, *]
@[simp] theorem State.writeRegs_draws (l : List (Reg × Word)) : (s.writeRegs l).draws = s.draws := by
  induction l generalizing s <;> simp [State.writeRegs, *]
@[simp] theorem State.writeRegs_lines (l : List (Reg × Word)) : (s.writeRegs l).lines = s.lines := by
  induction l generalizing s <;> simp [State.writeRegs, *]
@[simp] theorem State.writeRegs_bus (l : List (Reg × Word)) : (s.writeRegs l).bus = s.bus := by
  induction l generalizing s <;> simp [State.writeRegs, *]
@[simp] theorem State.writeRegs_plain (l : List (Reg × Word)) : (s.writeRegs l).plain = s.plain := by
  induction l generalizing s <;> simp [State.writeRegs, *]
@[simp] theorem State.writeRegs_out (l : List (Reg × Word)) : (s.writeRegs l).out = s.out := by
  induction l generalizing s <;> simp [State.writeRegs, *]

@[simp] theorem State.writeUsers_pc (l : List (Reg × Word)) : (s.writeUsers l).pc = s.pc := by
  induction l generalizing s <;> simp [State.writeUsers, *]
@[simp] theorem State.writeUsers_cpsr (l : List (Reg × Word)) : (s.writeUsers l).cpsr = s.cpsr := by
  induction l generalizing s <;> simp [State.writeUsers, *]
@[simp] theorem State.writeUsers_spsr (l : List (Reg × Word)) : (s.writeUsers l).spsr = s.spsr := by
  induction l generalizing s <;> simp [State.writeUsers, *]
@[simp] theorem State.writeUsers_mem (l : List (Reg × Word)) : (s.writeUsers l).mem = s.mem := by
  induction l generalizing s <;> simp [State.writeUsers, *]
@[simp] theorem State.writeUsers_hazard (l : List (Reg × Word)) : (s.writeUsers l).hazard = s.hazard := by
  induction l generalizing s <;> simp [State.writeUsers, *]
@[simp] theorem State.writeUsers_dispatcher (l : List (Reg × Word)) : (s.writeUsers l).dispatcher = s.dispatcher := by
  induction l generalizing s <;> simp [State.writeUsers, *]
@[simp] theorem State.writeUsers_stop (l : List (Reg × Word)) : (s.writeUsers l).stop = s.stop := by
  induction l generalizing s <;> simp [State.writeUsers, *]
@[simp] theorem State.writeUsers_draws (l : List (Reg × Word)) : (s.writeUsers l).draws = s.draws := by
  induction l generalizing s <;> simp [State.writeUsers, *]
@[simp] theorem State.writeUsers_lines (l : List (Reg × Word)) : (s.writeUsers l).lines = s.lines := by
  induction l generalizing s <;> simp [State.writeUsers, *]
@[simp] theorem State.writeUsers_bus (l : List (Reg × Word)) : (s.writeUsers l).bus = s.bus := by
  induction l generalizing s <;> simp [State.writeUsers, *]
@[simp] theorem State.writeUsers_plain (l : List (Reg × Word)) : (s.writeUsers l).plain = s.plain := by
  induction l generalizing s <;> simp [State.writeUsers, *]
@[simp] theorem State.writeUsers_out (l : List (Reg × Word)) : (s.writeUsers l).out = s.out := by
  induction l generalizing s <;> simp [State.writeUsers, *]

/-! ### answered and drawnIf -/

@[simp] theorem State.answered_regs : s.answered.regs = s.regs := by unfold State.answered; split <;> rfl
@[simp] theorem State.answered_pc : s.answered.pc = s.pc := by unfold State.answered; split <;> rfl
@[simp] theorem State.answered_cpsr : s.answered.cpsr = s.cpsr := by unfold State.answered; split <;> rfl
@[simp] theorem State.answered_spsr : s.answered.spsr = s.spsr := by unfold State.answered; split <;> rfl
@[simp] theorem State.answered_mem : s.answered.mem = s.mem := by unfold State.answered; split <;> rfl
@[simp] theorem State.answered_hazard : s.answered.hazard = s.hazard := by unfold State.answered; split <;> rfl
@[simp] theorem State.answered_dispatcher : s.answered.dispatcher = s.dispatcher := by unfold State.answered; split <;> rfl
@[simp] theorem State.answered_stop : s.answered.stop = s.stop := by unfold State.answered; split <;> rfl
@[simp] theorem State.answered_lines : s.answered.lines = s.lines := by unfold State.answered; split <;> rfl
@[simp] theorem State.answered_plain : s.answered.plain = s.plain := by unfold State.answered; split <;> rfl
@[simp] theorem State.answered_out : s.answered.out = s.out := by unfold State.answered; split <;> rfl
@[simp] theorem State.drawnIf_regs (b : Bool) : (s.drawnIf b).regs = s.regs := by cases b <;> rfl
@[simp] theorem State.drawnIf_pc (b : Bool) : (s.drawnIf b).pc = s.pc := by cases b <;> rfl
@[simp] theorem State.drawnIf_cpsr (b : Bool) : (s.drawnIf b).cpsr = s.cpsr := by cases b <;> rfl
@[simp] theorem State.drawnIf_spsr (b : Bool) : (s.drawnIf b).spsr = s.spsr := by cases b <;> rfl
@[simp] theorem State.drawnIf_mem (b : Bool) : (s.drawnIf b).mem = s.mem := by cases b <;> rfl
@[simp] theorem State.drawnIf_hazard (b : Bool) : (s.drawnIf b).hazard = s.hazard := by cases b <;> rfl
@[simp] theorem State.drawnIf_dispatcher (b : Bool) : (s.drawnIf b).dispatcher = s.dispatcher := by cases b <;> rfl
@[simp] theorem State.drawnIf_stop (b : Bool) : (s.drawnIf b).stop = s.stop := by cases b <;> rfl
@[simp] theorem State.drawnIf_lines (b : Bool) : (s.drawnIf b).lines = s.lines := by cases b <;> rfl
@[simp] theorem State.drawnIf_bus (b : Bool) : (s.drawnIf b).bus = s.bus := by cases b <;> rfl
@[simp] theorem State.drawnIf_plain (b : Bool) : (s.drawnIf b).plain = s.plain := by cases b <;> rfl
@[simp] theorem State.drawnIf_out (b : Bool) : (s.drawnIf b).out = s.out := by cases b <;> rfl

/-! ### What the accessors read

Each accessor is a function of one or two fields, so an update of another field leaves it. -/

theorem State.mode_eq {s t : State} (h : t.cpsr = s.cpsr) : t.mode = s.mode := by simp [State.mode, h]

theorem State.thumb_eq {s t : State} (h : t.cpsr = s.cpsr) : t.thumb = s.thumb := by simp [State.thumb, h]

theorem State.isz_eq {s t : State} (h : t.cpsr = s.cpsr) : t.isz = s.isz := by
  unfold State.isz; rw [State.thumb_eq h]

theorem State.condPassed_eq {s t : State} (c : Cond) (h : t.cpsr = s.cpsr) : condPassed c t = condPassed c s := by
  cases c <;> simp [condPassed, State.flagN, State.flagZ, State.flagC, State.flagV, h]

theorem State.getPhys_eq {s t : State} (p : PhysReg) (hr : t.regs = s.regs) (hp : t.pc = s.pc) :
    t.getPhys p = s.getPhys p := by
  cases p <;> simp [State.getPhys, hr, hp]

/-- A register other than R15 is a function of the register file. -/
theorem State.getPhys_eq_of_regs {s t : State} {p : PhysReg} (hne : p ≠ .r15) (hr : t.regs = s.regs) :
    t.getPhys p = s.getPhys p := by
  cases p <;> simp_all [State.getPhys]

theorem State.pcRead_eq {s t : State} (hc : t.cpsr = s.cpsr) (hp : t.pc = s.pc) : t.pcRead = s.pcRead := by
  unfold State.pcRead; rw [State.thumb_eq hc, hp]

theorem State.readRegAs_eq {s t : State} (pcv : Word) (n : Reg) (hc : t.cpsr = s.cpsr) (hr : t.regs = s.regs)
    (hp : t.pc = s.pc) : t.readRegAs pcv n = s.readRegAs pcv n := by
  simp [State.readRegAs, State.mode_eq hc, State.getPhys_eq _ hr hp]

theorem State.readReg_eq {s t : State} (n : Reg) (hc : t.cpsr = s.cpsr) (hr : t.regs = s.regs) (hp : t.pc = s.pc) :
    t.readReg n = s.readReg n := by
  simp [State.readReg, State.pcRead_eq hc hp, State.readRegAs_eq _ _ hc hr hp]

@[simp] theorem State.setPc_mode (v : Word) : (s.setPc v).mode = s.mode := by simp [State.mode]
@[simp] theorem State.setPc_thumb (v : Word) : (s.setPc v).thumb = s.thumb := by simp [State.thumb]
@[simp] theorem State.setPc_isz (v : Word) : (s.setPc v).isz = s.isz := State.isz_eq (by simp)
@[simp] theorem State.setPc_flagN (v : Word) : (s.setPc v).flagN = s.flagN := by simp [State.flagN]
@[simp] theorem State.setPc_flagZ (v : Word) : (s.setPc v).flagZ = s.flagZ := by simp [State.flagZ]
@[simp] theorem State.setPc_flagC (v : Word) : (s.setPc v).flagC = s.flagC := by simp [State.flagC]
@[simp] theorem State.setPc_flagV (v : Word) : (s.setPc v).flagV = s.flagV := by simp [State.flagV]
@[simp] theorem State.setPc_flagI (v : Word) : (s.setPc v).flagI = s.flagI := by simp [State.flagI]
@[simp] theorem State.setPc_flagF (v : Word) : (s.setPc v).flagF = s.flagF := by simp [State.flagF]
@[simp] theorem State.setPc_getPhys (v : Word) {q : PhysReg} (h : q ≠ .r15) : (s.setPc v).getPhys q = s.getPhys q :=
  State.getPhys_eq_of_regs h (by simp)

@[simp] theorem State.setMem_mode (m : Memory) : (s.setMem m).mode = s.mode := by simp [State.mode]
@[simp] theorem State.setMem_thumb (m : Memory) : (s.setMem m).thumb = s.thumb := by simp [State.thumb]
@[simp] theorem State.setMem_isz (m : Memory) : (s.setMem m).isz = s.isz := State.isz_eq (by simp)
@[simp] theorem State.setMem_flagN (m : Memory) : (s.setMem m).flagN = s.flagN := by simp [State.flagN]
@[simp] theorem State.setMem_flagZ (m : Memory) : (s.setMem m).flagZ = s.flagZ := by simp [State.flagZ]
@[simp] theorem State.setMem_flagC (m : Memory) : (s.setMem m).flagC = s.flagC := by simp [State.flagC]
@[simp] theorem State.setMem_flagV (m : Memory) : (s.setMem m).flagV = s.flagV := by simp [State.flagV]
@[simp] theorem State.setMem_flagI (m : Memory) : (s.setMem m).flagI = s.flagI := by simp [State.flagI]
@[simp] theorem State.setMem_flagF (m : Memory) : (s.setMem m).flagF = s.flagF := by simp [State.flagF]
@[simp] theorem State.setMem_getPhys (m : Memory) (q : PhysReg) : (s.setMem m).getPhys q = s.getPhys q :=
  State.getPhys_eq q (by simp) (by simp)
@[simp] theorem State.setMem_readReg (m : Memory) (k : Reg) : (s.setMem m).readReg k = s.readReg k :=
  State.readReg_eq k (by simp) (by simp) (by simp)

@[simp] theorem State.setHazard_mode (b : Bool) : (s.setHazard b).mode = s.mode := by simp [State.mode]
@[simp] theorem State.setHazard_thumb (b : Bool) : (s.setHazard b).thumb = s.thumb := by simp [State.thumb]
@[simp] theorem State.setHazard_isz (b : Bool) : (s.setHazard b).isz = s.isz := State.isz_eq (by simp)
@[simp] theorem State.setHazard_flagN (b : Bool) : (s.setHazard b).flagN = s.flagN := by simp [State.flagN]
@[simp] theorem State.setHazard_flagZ (b : Bool) : (s.setHazard b).flagZ = s.flagZ := by simp [State.flagZ]
@[simp] theorem State.setHazard_flagC (b : Bool) : (s.setHazard b).flagC = s.flagC := by simp [State.flagC]
@[simp] theorem State.setHazard_flagV (b : Bool) : (s.setHazard b).flagV = s.flagV := by simp [State.flagV]
@[simp] theorem State.setHazard_flagI (b : Bool) : (s.setHazard b).flagI = s.flagI := by simp [State.flagI]
@[simp] theorem State.setHazard_flagF (b : Bool) : (s.setHazard b).flagF = s.flagF := by simp [State.flagF]
@[simp] theorem State.setHazard_getPhys (b : Bool) (q : PhysReg) : (s.setHazard b).getPhys q = s.getPhys q :=
  State.getPhys_eq q (by simp) (by simp)
@[simp] theorem State.setHazard_readReg (b : Bool) (k : Reg) : (s.setHazard b).readReg k = s.readReg k :=
  State.readReg_eq k (by simp) (by simp) (by simp)

@[simp] theorem State.setDispatcher_mode (d : DispatcherState) : (s.setDispatcher d).mode = s.mode := by simp [State.mode]
@[simp] theorem State.setDispatcher_thumb (d : DispatcherState) : (s.setDispatcher d).thumb = s.thumb := by simp [State.thumb]
@[simp] theorem State.setDispatcher_isz (d : DispatcherState) : (s.setDispatcher d).isz = s.isz := State.isz_eq (by simp)
@[simp] theorem State.setDispatcher_flagN (d : DispatcherState) : (s.setDispatcher d).flagN = s.flagN := by simp [State.flagN]
@[simp] theorem State.setDispatcher_flagZ (d : DispatcherState) : (s.setDispatcher d).flagZ = s.flagZ := by simp [State.flagZ]
@[simp] theorem State.setDispatcher_flagC (d : DispatcherState) : (s.setDispatcher d).flagC = s.flagC := by simp [State.flagC]
@[simp] theorem State.setDispatcher_flagV (d : DispatcherState) : (s.setDispatcher d).flagV = s.flagV := by simp [State.flagV]
@[simp] theorem State.setDispatcher_flagI (d : DispatcherState) : (s.setDispatcher d).flagI = s.flagI := by simp [State.flagI]
@[simp] theorem State.setDispatcher_flagF (d : DispatcherState) : (s.setDispatcher d).flagF = s.flagF := by simp [State.flagF]
@[simp] theorem State.setDispatcher_getPhys (d : DispatcherState) (q : PhysReg) : (s.setDispatcher d).getPhys q = s.getPhys q :=
  State.getPhys_eq q (by simp) (by simp)
@[simp] theorem State.setDispatcher_readReg (d : DispatcherState) (k : Reg) : (s.setDispatcher d).readReg k = s.readReg k :=
  State.readReg_eq k (by simp) (by simp) (by simp)

@[simp] theorem State.setStop_mode (x : StopStatus) : (s.setStop x).mode = s.mode := by simp [State.mode]
@[simp] theorem State.setStop_thumb (x : StopStatus) : (s.setStop x).thumb = s.thumb := by simp [State.thumb]
@[simp] theorem State.setStop_isz (x : StopStatus) : (s.setStop x).isz = s.isz := State.isz_eq (by simp)
@[simp] theorem State.setStop_flagN (x : StopStatus) : (s.setStop x).flagN = s.flagN := by simp [State.flagN]
@[simp] theorem State.setStop_flagZ (x : StopStatus) : (s.setStop x).flagZ = s.flagZ := by simp [State.flagZ]
@[simp] theorem State.setStop_flagC (x : StopStatus) : (s.setStop x).flagC = s.flagC := by simp [State.flagC]
@[simp] theorem State.setStop_flagV (x : StopStatus) : (s.setStop x).flagV = s.flagV := by simp [State.flagV]
@[simp] theorem State.setStop_flagI (x : StopStatus) : (s.setStop x).flagI = s.flagI := by simp [State.flagI]
@[simp] theorem State.setStop_flagF (x : StopStatus) : (s.setStop x).flagF = s.flagF := by simp [State.flagF]
@[simp] theorem State.setStop_getPhys (x : StopStatus) (q : PhysReg) : (s.setStop x).getPhys q = s.getPhys q :=
  State.getPhys_eq q (by simp) (by simp)
@[simp] theorem State.setStop_readReg (x : StopStatus) (k : Reg) : (s.setStop x).readReg k = s.readReg k :=
  State.readReg_eq k (by simp) (by simp) (by simp)

@[simp] theorem State.drawn_mode : (s.drawn).mode = s.mode := by simp [State.mode]
@[simp] theorem State.drawn_thumb : (s.drawn).thumb = s.thumb := by simp [State.thumb]
@[simp] theorem State.drawn_isz : (s.drawn).isz = s.isz := State.isz_eq (by simp)
@[simp] theorem State.drawn_flagN : (s.drawn).flagN = s.flagN := by simp [State.flagN]
@[simp] theorem State.drawn_flagZ : (s.drawn).flagZ = s.flagZ := by simp [State.flagZ]
@[simp] theorem State.drawn_flagC : (s.drawn).flagC = s.flagC := by simp [State.flagC]
@[simp] theorem State.drawn_flagV : (s.drawn).flagV = s.flagV := by simp [State.flagV]
@[simp] theorem State.drawn_flagI : (s.drawn).flagI = s.flagI := by simp [State.flagI]
@[simp] theorem State.drawn_flagF : (s.drawn).flagF = s.flagF := by simp [State.flagF]
@[simp] theorem State.drawn_getPhys (q : PhysReg) : (s.drawn).getPhys q = s.getPhys q :=
  State.getPhys_eq q (by simp) (by simp)
@[simp] theorem State.drawn_readReg (k : Reg) : (s.drawn).readReg k = s.readReg k :=
  State.readReg_eq k (by simp) (by simp) (by simp)

@[simp] theorem State.setBus_mode (b : List BusAnswer) : (s.setBus b).mode = s.mode := by simp [State.mode]
@[simp] theorem State.setBus_thumb (b : List BusAnswer) : (s.setBus b).thumb = s.thumb := by simp [State.thumb]
@[simp] theorem State.setBus_isz (b : List BusAnswer) : (s.setBus b).isz = s.isz := State.isz_eq (by simp)
@[simp] theorem State.setBus_flagN (b : List BusAnswer) : (s.setBus b).flagN = s.flagN := by simp [State.flagN]
@[simp] theorem State.setBus_flagZ (b : List BusAnswer) : (s.setBus b).flagZ = s.flagZ := by simp [State.flagZ]
@[simp] theorem State.setBus_flagC (b : List BusAnswer) : (s.setBus b).flagC = s.flagC := by simp [State.flagC]
@[simp] theorem State.setBus_flagV (b : List BusAnswer) : (s.setBus b).flagV = s.flagV := by simp [State.flagV]
@[simp] theorem State.setBus_flagI (b : List BusAnswer) : (s.setBus b).flagI = s.flagI := by simp [State.flagI]
@[simp] theorem State.setBus_flagF (b : List BusAnswer) : (s.setBus b).flagF = s.flagF := by simp [State.flagF]
@[simp] theorem State.setBus_getPhys (b : List BusAnswer) (q : PhysReg) : (s.setBus b).getPhys q = s.getPhys q :=
  State.getPhys_eq q (by simp) (by simp)
@[simp] theorem State.setBus_readReg (b : List BusAnswer) (k : Reg) : (s.setBus b).readReg k = s.readReg k :=
  State.readReg_eq k (by simp) (by simp) (by simp)

@[simp] theorem State.setLines_mode (l : List Lines) : (s.setLines l).mode = s.mode := by simp [State.mode]
@[simp] theorem State.setLines_thumb (l : List Lines) : (s.setLines l).thumb = s.thumb := by simp [State.thumb]
@[simp] theorem State.setLines_isz (l : List Lines) : (s.setLines l).isz = s.isz := State.isz_eq (by simp)
@[simp] theorem State.setLines_flagN (l : List Lines) : (s.setLines l).flagN = s.flagN := by simp [State.flagN]
@[simp] theorem State.setLines_flagZ (l : List Lines) : (s.setLines l).flagZ = s.flagZ := by simp [State.flagZ]
@[simp] theorem State.setLines_flagC (l : List Lines) : (s.setLines l).flagC = s.flagC := by simp [State.flagC]
@[simp] theorem State.setLines_flagV (l : List Lines) : (s.setLines l).flagV = s.flagV := by simp [State.flagV]
@[simp] theorem State.setLines_flagI (l : List Lines) : (s.setLines l).flagI = s.flagI := by simp [State.flagI]
@[simp] theorem State.setLines_flagF (l : List Lines) : (s.setLines l).flagF = s.flagF := by simp [State.flagF]
@[simp] theorem State.setLines_getPhys (l : List Lines) (q : PhysReg) : (s.setLines l).getPhys q = s.getPhys q :=
  State.getPhys_eq q (by simp) (by simp)
@[simp] theorem State.setLines_readReg (l : List Lines) (k : Reg) : (s.setLines l).readReg k = s.readReg k :=
  State.readReg_eq k (by simp) (by simp) (by simp)

@[simp] theorem State.setReport_mode (r : Report) : (s.setReport r).mode = s.mode := by simp [State.mode]
@[simp] theorem State.setReport_thumb (r : Report) : (s.setReport r).thumb = s.thumb := by simp [State.thumb]
@[simp] theorem State.setReport_isz (r : Report) : (s.setReport r).isz = s.isz := State.isz_eq (by simp)
@[simp] theorem State.setReport_flagN (r : Report) : (s.setReport r).flagN = s.flagN := by simp [State.flagN]
@[simp] theorem State.setReport_flagZ (r : Report) : (s.setReport r).flagZ = s.flagZ := by simp [State.flagZ]
@[simp] theorem State.setReport_flagC (r : Report) : (s.setReport r).flagC = s.flagC := by simp [State.flagC]
@[simp] theorem State.setReport_flagV (r : Report) : (s.setReport r).flagV = s.flagV := by simp [State.flagV]
@[simp] theorem State.setReport_flagI (r : Report) : (s.setReport r).flagI = s.flagI := by simp [State.flagI]
@[simp] theorem State.setReport_flagF (r : Report) : (s.setReport r).flagF = s.flagF := by simp [State.flagF]
@[simp] theorem State.setReport_getPhys (r : Report) (q : PhysReg) : (s.setReport r).getPhys q = s.getPhys q :=
  State.getPhys_eq q (by simp) (by simp)
@[simp] theorem State.setReport_readReg (r : Report) (k : Reg) : (s.setReport r).readReg k = s.readReg k :=
  State.readReg_eq k (by simp) (by simp) (by simp)

@[simp] theorem State.logRequest_mode (r : BusRequest) : (s.logRequest r).mode = s.mode := by simp [State.mode]
@[simp] theorem State.logRequest_thumb (r : BusRequest) : (s.logRequest r).thumb = s.thumb := by simp [State.thumb]
@[simp] theorem State.logRequest_isz (r : BusRequest) : (s.logRequest r).isz = s.isz := State.isz_eq (by simp)
@[simp] theorem State.logRequest_flagN (r : BusRequest) : (s.logRequest r).flagN = s.flagN := by simp [State.flagN]
@[simp] theorem State.logRequest_flagZ (r : BusRequest) : (s.logRequest r).flagZ = s.flagZ := by simp [State.flagZ]
@[simp] theorem State.logRequest_flagC (r : BusRequest) : (s.logRequest r).flagC = s.flagC := by simp [State.flagC]
@[simp] theorem State.logRequest_flagV (r : BusRequest) : (s.logRequest r).flagV = s.flagV := by simp [State.flagV]
@[simp] theorem State.logRequest_flagI (r : BusRequest) : (s.logRequest r).flagI = s.flagI := by simp [State.flagI]
@[simp] theorem State.logRequest_flagF (r : BusRequest) : (s.logRequest r).flagF = s.flagF := by simp [State.flagF]
@[simp] theorem State.logRequest_getPhys (r : BusRequest) (q : PhysReg) : (s.logRequest r).getPhys q = s.getPhys q :=
  State.getPhys_eq q (by simp) (by simp)
@[simp] theorem State.logRequest_readReg (r : BusRequest) (k : Reg) : (s.logRequest r).readReg k = s.readReg k :=
  State.readReg_eq k (by simp) (by simp) (by simp)

@[simp] theorem State.clearRequests_mode : (s.clearRequests).mode = s.mode := by simp [State.mode]
@[simp] theorem State.clearRequests_thumb : (s.clearRequests).thumb = s.thumb := by simp [State.thumb]
@[simp] theorem State.clearRequests_isz : (s.clearRequests).isz = s.isz := State.isz_eq (by simp)
@[simp] theorem State.clearRequests_flagN : (s.clearRequests).flagN = s.flagN := by simp [State.flagN]
@[simp] theorem State.clearRequests_flagZ : (s.clearRequests).flagZ = s.flagZ := by simp [State.flagZ]
@[simp] theorem State.clearRequests_flagC : (s.clearRequests).flagC = s.flagC := by simp [State.flagC]
@[simp] theorem State.clearRequests_flagV : (s.clearRequests).flagV = s.flagV := by simp [State.flagV]
@[simp] theorem State.clearRequests_flagI : (s.clearRequests).flagI = s.flagI := by simp [State.flagI]
@[simp] theorem State.clearRequests_flagF : (s.clearRequests).flagF = s.flagF := by simp [State.flagF]
@[simp] theorem State.clearRequests_getPhys (q : PhysReg) : (s.clearRequests).getPhys q = s.getPhys q :=
  State.getPhys_eq q (by simp) (by simp)
@[simp] theorem State.clearRequests_readReg (k : Reg) : (s.clearRequests).readReg k = s.readReg k :=
  State.readReg_eq k (by simp) (by simp) (by simp)

@[simp] theorem State.advance_mode : (s.advance).mode = s.mode := by simp [State.mode]
@[simp] theorem State.advance_thumb : (s.advance).thumb = s.thumb := by simp [State.thumb]
@[simp] theorem State.advance_isz : (s.advance).isz = s.isz := State.isz_eq (by simp)
@[simp] theorem State.advance_flagN : (s.advance).flagN = s.flagN := by simp [State.flagN]
@[simp] theorem State.advance_flagZ : (s.advance).flagZ = s.flagZ := by simp [State.flagZ]
@[simp] theorem State.advance_flagC : (s.advance).flagC = s.flagC := by simp [State.flagC]
@[simp] theorem State.advance_flagV : (s.advance).flagV = s.flagV := by simp [State.flagV]
@[simp] theorem State.advance_flagI : (s.advance).flagI = s.flagI := by simp [State.flagI]
@[simp] theorem State.advance_flagF : (s.advance).flagF = s.flagF := by simp [State.flagF]
@[simp] theorem State.advance_getPhys {q : PhysReg} (h : q ≠ .r15) : (s.advance).getPhys q = s.getPhys q :=
  State.getPhys_eq_of_regs h (by simp)

@[simp] theorem State.started_mode : (s.started).mode = s.mode := by simp [State.mode]
@[simp] theorem State.started_thumb : (s.started).thumb = s.thumb := by simp [State.thumb]
@[simp] theorem State.started_isz : (s.started).isz = s.isz := State.isz_eq (by simp)
@[simp] theorem State.started_flagN : (s.started).flagN = s.flagN := by simp [State.flagN]
@[simp] theorem State.started_flagZ : (s.started).flagZ = s.flagZ := by simp [State.flagZ]
@[simp] theorem State.started_flagC : (s.started).flagC = s.flagC := by simp [State.flagC]
@[simp] theorem State.started_flagV : (s.started).flagV = s.flagV := by simp [State.flagV]
@[simp] theorem State.started_flagI : (s.started).flagI = s.flagI := by simp [State.flagI]
@[simp] theorem State.started_flagF : (s.started).flagF = s.flagF := by simp [State.flagF]
@[simp] theorem State.started_getPhys (q : PhysReg) : (s.started).getPhys q = s.getPhys q :=
  State.getPhys_eq q (by simp) (by simp)
@[simp] theorem State.started_readReg (k : Reg) : (s.started).readReg k = s.readReg k :=
  State.readReg_eq k (by simp) (by simp) (by simp)

@[simp] theorem State.skip_mode : (s.skip).mode = s.mode := by simp [State.mode]
@[simp] theorem State.skip_thumb : (s.skip).thumb = s.thumb := by simp [State.thumb]
@[simp] theorem State.skip_isz : (s.skip).isz = s.isz := State.isz_eq (by simp)
@[simp] theorem State.skip_flagN : (s.skip).flagN = s.flagN := by simp [State.flagN]
@[simp] theorem State.skip_flagZ : (s.skip).flagZ = s.flagZ := by simp [State.flagZ]
@[simp] theorem State.skip_flagC : (s.skip).flagC = s.flagC := by simp [State.flagC]
@[simp] theorem State.skip_flagV : (s.skip).flagV = s.flagV := by simp [State.flagV]
@[simp] theorem State.skip_flagI : (s.skip).flagI = s.flagI := by simp [State.flagI]
@[simp] theorem State.skip_flagF : (s.skip).flagF = s.flagF := by simp [State.flagF]
@[simp] theorem State.skip_getPhys {q : PhysReg} (h : q ≠ .r15) : (s.skip).getPhys q = s.getPhys q :=
  State.getPhys_eq_of_regs h (by simp)

@[simp] theorem State.boundary_mode : (s.boundary).mode = s.mode := by simp [State.mode]
@[simp] theorem State.boundary_thumb : (s.boundary).thumb = s.thumb := by simp [State.thumb]
@[simp] theorem State.boundary_isz : (s.boundary).isz = s.isz := State.isz_eq (by simp)
@[simp] theorem State.boundary_flagN : (s.boundary).flagN = s.flagN := by simp [State.flagN]
@[simp] theorem State.boundary_flagZ : (s.boundary).flagZ = s.flagZ := by simp [State.flagZ]
@[simp] theorem State.boundary_flagC : (s.boundary).flagC = s.flagC := by simp [State.flagC]
@[simp] theorem State.boundary_flagV : (s.boundary).flagV = s.flagV := by simp [State.flagV]
@[simp] theorem State.boundary_flagI : (s.boundary).flagI = s.flagI := by simp [State.flagI]
@[simp] theorem State.boundary_flagF : (s.boundary).flagF = s.flagF := by simp [State.flagF]
@[simp] theorem State.boundary_getPhys (q : PhysReg) : (s.boundary).getPhys q = s.getPhys q :=
  State.getPhys_eq q (by simp) (by simp)
@[simp] theorem State.boundary_readReg (k : Reg) : (s.boundary).readReg k = s.readReg k :=
  State.readReg_eq k (by simp) (by simp) (by simp)

@[simp] theorem State.setPhys_mode (p : PhysReg) (v : Word) : (s.setPhys p v).mode = s.mode := by simp [State.mode]
@[simp] theorem State.setPhys_thumb (p : PhysReg) (v : Word) : (s.setPhys p v).thumb = s.thumb := by simp [State.thumb]
@[simp] theorem State.setPhys_isz (p : PhysReg) (v : Word) : (s.setPhys p v).isz = s.isz := State.isz_eq (by simp)
@[simp] theorem State.setPhys_flagN (p : PhysReg) (v : Word) : (s.setPhys p v).flagN = s.flagN := by simp [State.flagN]
@[simp] theorem State.setPhys_flagZ (p : PhysReg) (v : Word) : (s.setPhys p v).flagZ = s.flagZ := by simp [State.flagZ]
@[simp] theorem State.setPhys_flagC (p : PhysReg) (v : Word) : (s.setPhys p v).flagC = s.flagC := by simp [State.flagC]
@[simp] theorem State.setPhys_flagV (p : PhysReg) (v : Word) : (s.setPhys p v).flagV = s.flagV := by simp [State.flagV]
@[simp] theorem State.setPhys_flagI (p : PhysReg) (v : Word) : (s.setPhys p v).flagI = s.flagI := by simp [State.flagI]
@[simp] theorem State.setPhys_flagF (p : PhysReg) (v : Word) : (s.setPhys p v).flagF = s.flagF := by simp [State.flagF]

@[simp] theorem State.setSpsr_mode (m : Mode) (v : Word) : (s.setSpsr m v).mode = s.mode := by simp [State.mode]
@[simp] theorem State.setSpsr_thumb (m : Mode) (v : Word) : (s.setSpsr m v).thumb = s.thumb := by simp [State.thumb]
@[simp] theorem State.setSpsr_isz (m : Mode) (v : Word) : (s.setSpsr m v).isz = s.isz := State.isz_eq (by simp)
@[simp] theorem State.setSpsr_flagN (m : Mode) (v : Word) : (s.setSpsr m v).flagN = s.flagN := by simp [State.flagN]
@[simp] theorem State.setSpsr_flagZ (m : Mode) (v : Word) : (s.setSpsr m v).flagZ = s.flagZ := by simp [State.flagZ]
@[simp] theorem State.setSpsr_flagC (m : Mode) (v : Word) : (s.setSpsr m v).flagC = s.flagC := by simp [State.flagC]
@[simp] theorem State.setSpsr_flagV (m : Mode) (v : Word) : (s.setSpsr m v).flagV = s.flagV := by simp [State.flagV]
@[simp] theorem State.setSpsr_flagI (m : Mode) (v : Word) : (s.setSpsr m v).flagI = s.flagI := by simp [State.flagI]
@[simp] theorem State.setSpsr_flagF (m : Mode) (v : Word) : (s.setSpsr m v).flagF = s.flagF := by simp [State.flagF]
@[simp] theorem State.setSpsr_getPhys (m : Mode) (v : Word) (q : PhysReg) : (s.setSpsr m v).getPhys q = s.getPhys q :=
  State.getPhys_eq q (by simp) (by simp)
@[simp] theorem State.setSpsr_readReg (m : Mode) (v : Word) (k : Reg) : (s.setSpsr m v).readReg k = s.readReg k :=
  State.readReg_eq k (by simp) (by simp) (by simp)

@[simp] theorem State.writeReg_mode (n : Reg) (v : Word) : (s.writeReg n v).mode = s.mode := by simp [State.mode]
@[simp] theorem State.writeReg_thumb (n : Reg) (v : Word) : (s.writeReg n v).thumb = s.thumb := by simp [State.thumb]
@[simp] theorem State.writeReg_isz (n : Reg) (v : Word) : (s.writeReg n v).isz = s.isz := State.isz_eq (by simp)
@[simp] theorem State.writeReg_flagN (n : Reg) (v : Word) : (s.writeReg n v).flagN = s.flagN := by simp [State.flagN]
@[simp] theorem State.writeReg_flagZ (n : Reg) (v : Word) : (s.writeReg n v).flagZ = s.flagZ := by simp [State.flagZ]
@[simp] theorem State.writeReg_flagC (n : Reg) (v : Word) : (s.writeReg n v).flagC = s.flagC := by simp [State.flagC]
@[simp] theorem State.writeReg_flagV (n : Reg) (v : Word) : (s.writeReg n v).flagV = s.flagV := by simp [State.flagV]
@[simp] theorem State.writeReg_flagI (n : Reg) (v : Word) : (s.writeReg n v).flagI = s.flagI := by simp [State.flagI]
@[simp] theorem State.writeReg_flagF (n : Reg) (v : Word) : (s.writeReg n v).flagF = s.flagF := by simp [State.flagF]

@[simp] theorem State.writeUser_mode (n : Reg) (v : Word) : (s.writeUser n v).mode = s.mode := by simp [State.mode]
@[simp] theorem State.writeUser_thumb (n : Reg) (v : Word) : (s.writeUser n v).thumb = s.thumb := by simp [State.thumb]
@[simp] theorem State.writeUser_isz (n : Reg) (v : Word) : (s.writeUser n v).isz = s.isz := State.isz_eq (by simp)
@[simp] theorem State.writeUser_flagN (n : Reg) (v : Word) : (s.writeUser n v).flagN = s.flagN := by simp [State.flagN]
@[simp] theorem State.writeUser_flagZ (n : Reg) (v : Word) : (s.writeUser n v).flagZ = s.flagZ := by simp [State.flagZ]
@[simp] theorem State.writeUser_flagC (n : Reg) (v : Word) : (s.writeUser n v).flagC = s.flagC := by simp [State.flagC]
@[simp] theorem State.writeUser_flagV (n : Reg) (v : Word) : (s.writeUser n v).flagV = s.flagV := by simp [State.flagV]
@[simp] theorem State.writeUser_flagI (n : Reg) (v : Word) : (s.writeUser n v).flagI = s.flagI := by simp [State.flagI]
@[simp] theorem State.writeUser_flagF (n : Reg) (v : Word) : (s.writeUser n v).flagF = s.flagF := by simp [State.flagF]

@[simp] theorem State.writeBack_mode (wb : Option (Reg × Word)) : (s.writeBack wb).mode = s.mode := by simp [State.mode]
@[simp] theorem State.writeBack_thumb (wb : Option (Reg × Word)) : (s.writeBack wb).thumb = s.thumb := by simp [State.thumb]
@[simp] theorem State.writeBack_isz (wb : Option (Reg × Word)) : (s.writeBack wb).isz = s.isz := State.isz_eq (by simp)
@[simp] theorem State.writeBack_flagN (wb : Option (Reg × Word)) : (s.writeBack wb).flagN = s.flagN := by simp [State.flagN]
@[simp] theorem State.writeBack_flagZ (wb : Option (Reg × Word)) : (s.writeBack wb).flagZ = s.flagZ := by simp [State.flagZ]
@[simp] theorem State.writeBack_flagC (wb : Option (Reg × Word)) : (s.writeBack wb).flagC = s.flagC := by simp [State.flagC]
@[simp] theorem State.writeBack_flagV (wb : Option (Reg × Word)) : (s.writeBack wb).flagV = s.flagV := by simp [State.flagV]
@[simp] theorem State.writeBack_flagI (wb : Option (Reg × Word)) : (s.writeBack wb).flagI = s.flagI := by simp [State.flagI]
@[simp] theorem State.writeBack_flagF (wb : Option (Reg × Word)) : (s.writeBack wb).flagF = s.flagF := by simp [State.flagF]

@[simp] theorem State.writeRegs_mode (l : List (Reg × Word)) : (s.writeRegs l).mode = s.mode := by simp [State.mode]
@[simp] theorem State.writeRegs_thumb (l : List (Reg × Word)) : (s.writeRegs l).thumb = s.thumb := by simp [State.thumb]
@[simp] theorem State.writeRegs_isz (l : List (Reg × Word)) : (s.writeRegs l).isz = s.isz := State.isz_eq (by simp)
@[simp] theorem State.writeRegs_flagN (l : List (Reg × Word)) : (s.writeRegs l).flagN = s.flagN := by simp [State.flagN]
@[simp] theorem State.writeRegs_flagZ (l : List (Reg × Word)) : (s.writeRegs l).flagZ = s.flagZ := by simp [State.flagZ]
@[simp] theorem State.writeRegs_flagC (l : List (Reg × Word)) : (s.writeRegs l).flagC = s.flagC := by simp [State.flagC]
@[simp] theorem State.writeRegs_flagV (l : List (Reg × Word)) : (s.writeRegs l).flagV = s.flagV := by simp [State.flagV]
@[simp] theorem State.writeRegs_flagI (l : List (Reg × Word)) : (s.writeRegs l).flagI = s.flagI := by simp [State.flagI]
@[simp] theorem State.writeRegs_flagF (l : List (Reg × Word)) : (s.writeRegs l).flagF = s.flagF := by simp [State.flagF]

@[simp] theorem State.writeUsers_mode (l : List (Reg × Word)) : (s.writeUsers l).mode = s.mode := by simp [State.mode]
@[simp] theorem State.writeUsers_thumb (l : List (Reg × Word)) : (s.writeUsers l).thumb = s.thumb := by simp [State.thumb]
@[simp] theorem State.writeUsers_isz (l : List (Reg × Word)) : (s.writeUsers l).isz = s.isz := State.isz_eq (by simp)
@[simp] theorem State.writeUsers_flagN (l : List (Reg × Word)) : (s.writeUsers l).flagN = s.flagN := by simp [State.flagN]
@[simp] theorem State.writeUsers_flagZ (l : List (Reg × Word)) : (s.writeUsers l).flagZ = s.flagZ := by simp [State.flagZ]
@[simp] theorem State.writeUsers_flagC (l : List (Reg × Word)) : (s.writeUsers l).flagC = s.flagC := by simp [State.flagC]
@[simp] theorem State.writeUsers_flagV (l : List (Reg × Word)) : (s.writeUsers l).flagV = s.flagV := by simp [State.flagV]
@[simp] theorem State.writeUsers_flagI (l : List (Reg × Word)) : (s.writeUsers l).flagI = s.flagI := by simp [State.flagI]
@[simp] theorem State.writeUsers_flagF (l : List (Reg × Word)) : (s.writeUsers l).flagF = s.flagF := by simp [State.flagF]

@[simp] theorem State.answered_mode : (s.answered).mode = s.mode := by simp [State.mode]
@[simp] theorem State.answered_thumb : (s.answered).thumb = s.thumb := by simp [State.thumb]
@[simp] theorem State.answered_isz : (s.answered).isz = s.isz := State.isz_eq (by simp)
@[simp] theorem State.answered_flagN : (s.answered).flagN = s.flagN := by simp [State.flagN]
@[simp] theorem State.answered_flagZ : (s.answered).flagZ = s.flagZ := by simp [State.flagZ]
@[simp] theorem State.answered_flagC : (s.answered).flagC = s.flagC := by simp [State.flagC]
@[simp] theorem State.answered_flagV : (s.answered).flagV = s.flagV := by simp [State.flagV]
@[simp] theorem State.answered_flagI : (s.answered).flagI = s.flagI := by simp [State.flagI]
@[simp] theorem State.answered_flagF : (s.answered).flagF = s.flagF := by simp [State.flagF]
@[simp] theorem State.answered_getPhys (q : PhysReg) : (s.answered).getPhys q = s.getPhys q :=
  State.getPhys_eq q (by simp) (by simp)
@[simp] theorem State.answered_readReg (k : Reg) : (s.answered).readReg k = s.readReg k :=
  State.readReg_eq k (by simp) (by simp) (by simp)

@[simp] theorem State.drawnIf_mode (b : Bool) : (s.drawnIf b).mode = s.mode := by simp [State.mode]
@[simp] theorem State.drawnIf_thumb (b : Bool) : (s.drawnIf b).thumb = s.thumb := by simp [State.thumb]
@[simp] theorem State.drawnIf_isz (b : Bool) : (s.drawnIf b).isz = s.isz := State.isz_eq (by simp)
@[simp] theorem State.drawnIf_flagN (b : Bool) : (s.drawnIf b).flagN = s.flagN := by simp [State.flagN]
@[simp] theorem State.drawnIf_flagZ (b : Bool) : (s.drawnIf b).flagZ = s.flagZ := by simp [State.flagZ]
@[simp] theorem State.drawnIf_flagC (b : Bool) : (s.drawnIf b).flagC = s.flagC := by simp [State.flagC]
@[simp] theorem State.drawnIf_flagV (b : Bool) : (s.drawnIf b).flagV = s.flagV := by simp [State.flagV]
@[simp] theorem State.drawnIf_flagI (b : Bool) : (s.drawnIf b).flagI = s.flagI := by simp [State.flagI]
@[simp] theorem State.drawnIf_flagF (b : Bool) : (s.drawnIf b).flagF = s.flagF := by simp [State.flagF]
@[simp] theorem State.drawnIf_getPhys (b : Bool) (q : PhysReg) : (s.drawnIf b).getPhys q = s.getPhys q :=
  State.getPhys_eq q (by simp) (by simp)
@[simp] theorem State.drawnIf_readReg (b : Bool) (k : Reg) : (s.drawnIf b).readReg k = s.readReg k :=
  State.readReg_eq k (by simp) (by simp) (by simp)

/-! ### setCpsr and the registers -/

@[simp] theorem State.setCpsr_getPhys (v : Word) (q : PhysReg) : (s.setCpsr v).getPhys q = s.getPhys q :=
  State.getPhys_eq q rfl rfl
@[simp] theorem State.setCpsr_thumb (v : Word) : (s.setCpsr v).thumb = psrBit v 5 := rfl

end Sys2Proof.Machine
end

