-- ==== Sys2Proof/Laws/Registers.lean ====
section
/-! SUPPORT. The laws of the register banks (spec/10_state.md R31 to R34) and of the status words (R41 to R45). -/

namespace Sys2Proof.Machine

/-! ### Banks -/

theorem bankIndex_injective : Function.Injective bankIndex := by
  intro a b h; cases a <;> cases b <;> first | rfl | exact absurd h (by decide)

/-- Register numbers name R15 exactly when they are 15 (R33). -/
@[simp] theorem physReg_eq_r15_iff (m : Mode) (n : Reg) : physReg m n = .r15 ↔ n = 15#4 := by
  cases m <;> revert n <;> decide

@[simp] theorem physReg_fifteen (m : Mode) : physReg m 15#4 = .r15 := by cases m <;> rfl

theorem physReg_ne_r15 {n : Reg} (m : Mode) (h : n ≠ 15) : physReg m n ≠ .r15 :=
  fun hp => h ((physReg_eq_r15_iff m n).1 hp)

/-- Within one mode two register numbers never share storage (R33). -/
theorem physReg_injective (m : Mode) : Function.Injective (physReg m) := by
  intro a b; cases m <;> revert a b <;> decide

/-- R0 to R7 are the same in every mode (R33). -/
theorem physReg_low (m m' : Mode) (n : Reg) (h : n.toNat < 8) : physReg m n = physReg m' n := by
  cases m <;> cases m' <;> revert n <;> decide

/-- A THUMB low register is never R15. -/
@[simp] theorem lo_ne_fifteen (r : LoReg) : lo r ≠ 15#4 := by revert r; decide

theorem lo_injective : Function.Injective lo := by intro a b; revert a b; decide

theorem lo_toNat_lt (r : LoReg) : (lo r).toNat < 8 := by revert r; decide

/-! ### Reading after writing a register (R34) -/

theorem State.getPhys_setPhys (s : State) (p q : PhysReg) (v : Word) :
    (s.setPhys p v).getPhys q = if p = q ∧ q ≠ .r15 then v else s.getPhys q := by
  cases p <;> cases q <;>
    simp [State.setPhys, State.getPhys, Vector.getElem_set, Fin.ext_iff]
  all_goals
    rename_i a b
    cases a <;> cases b <;> simp [bankIndex]

theorem State.getPhys_setPhys_same (s : State) {p : PhysReg} (v : Word) (h : p ≠ .r15) :
    (s.setPhys p v).getPhys p = v := by simp [State.getPhys_setPhys, h]

theorem State.getPhys_setPhys_other (s : State) {p q : PhysReg} (v : Word) (h : q ≠ p) :
    (s.setPhys p v).getPhys q = s.getPhys q := by
  simp [State.getPhys_setPhys, Ne.symm h]

theorem State.getPhys_writeReg (s : State) (n : Reg) (v : Word) (q : PhysReg) :
    (s.writeReg n v).getPhys q = if physReg s.mode n = q ∧ q ≠ .r15 then v else s.getPhys q :=
  State.getPhys_setPhys ..

theorem State.getPhys_writeUser (s : State) (n : Reg) (v : Word) (q : PhysReg) :
    (s.writeUser n v).getPhys q = if physReg .usr n = q ∧ q ≠ .r15 then v else s.getPhys q :=
  State.getPhys_setPhys ..

/-- Writing R15 as a plain register does nothing (R39). -/
@[simp] theorem State.writeReg_fifteen (s : State) (v : Word) : s.writeReg 15#4 v = s := by
  simp [State.writeReg, State.setPhys]

@[simp] theorem State.writeUser_fifteen (s : State) (v : Word) : s.writeUser 15#4 v = s := by
  simp [State.writeUser, State.setPhys]

@[simp] theorem State.writeReg_pcRead (s : State) (n : Reg) (v : Word) : (s.writeReg n v).pcRead = s.pcRead :=
  State.pcRead_eq (by simp) (by simp)

/-- What is read after a register write: the value through the same number, the old value through another. -/
theorem State.readReg_writeReg (s : State) (n k : Reg) (v : Word) :
    (s.writeReg n v).readReg k = if k = n ∧ k ≠ 15 then v else s.readReg k := by
  unfold State.readReg State.readRegAs
  simp only [State.writeReg_pcRead, State.writeReg_mode, State.getPhys_writeReg]
  by_cases h15 : k = 15
  · simp [h15]
  · simp only [h15, if_false, ne_eq, not_false_eq_true, and_true, physReg_ne_r15 s.mode h15]
    by_cases hk : k = n
    · simp [hk]
    · have : ¬ physReg s.mode n = physReg s.mode k := fun h => hk (physReg_injective _ h).symm
      simp [hk, this]

/-! ### Status words -/

theorem psrBit_setPsrBit (psr : Word) (i j : Nat) (b : Bool) (hi : i < 32) :
    psrBit (setPsrBit psr i b) j = if i = j then b else psrBit psr j := by
  unfold psrBit setPsrBit
  cases b
  · simp only [Bool.false_eq_true, if_false, BitVec.getLsbD_and, BitVec.getLsbD_not, BitVec.getLsbD_shiftLeft,
      BitVec.getLsbD_one]
    by_cases hj : i = j
    · subst hj; simp [hi]
    · rcases Nat.lt_or_gt_of_ne hj with h | h
      · have : ¬ (j - i = 0) := by omega
        by_cases h32 : j < 32
        · simp [hj, this, h32]
        · have := BitVec.getLsbD_of_ge psr j (by omega)
          simp [hj, this]
      · by_cases h32 : j < 32
        · simp [hj, h, h32]
        · omega
  · simp only [if_true, BitVec.getLsbD_or, BitVec.getLsbD_shiftLeft, BitVec.getLsbD_one]
    by_cases hj : i = j
    · subst hj; simp [hi]
    · rcases Nat.lt_or_gt_of_ne hj with h | h
      · have : ¬ (j - i = 0) := by omega
        simp [hj, this]
      · simp [hj, h]

/-- The mode field of a word is read from its five low bits alone (R42). -/
theorem modeOf_eq_of_low {a b : Word} (h : a.extractLsb' 0 5 = b.extractLsb' 0 5) : modeOf a = modeOf b := by
  simp [modeOf, h]

/-- `SetOperatingMode` sets the mode it is given (R44). -/
@[simp] theorem modeOf_setMode (psr : Word) (m : Mode) : modeOf (setMode psr m) = some m := by
  have h : (setMode psr m).extractLsb' 0 5 = (modeCode m).extractLsb' 0 5 := by
    apply BitVec.eq_of_getLsbD_eq
    intro i hi
    have : i = 0 ∨ i = 1 ∨ i = 2 ∨ i = 3 ∨ i = 4 := by omega
    rcases this with rfl | rfl | rfl | rfl | rfl <;> cases m <;>
      simp [setMode, modeCode]
  rw [modeOf_eq_of_low h]; cases m <;> rfl

/-- A bit above the mode field survives `SetOperatingMode` (R44). -/
theorem psrBit_setMode (psr : Word) (m : Mode) (i : Nat) (h : 5 ≤ i) : psrBit (setMode psr m) i = psrBit psr i := by
  unfold psrBit
  by_cases h32 : i < 32
  · interval_cases i <;> cases m <;> simp [setMode, modeCode]
  · rw [BitVec.getLsbD_of_ge _ _ (by omega), BitVec.getLsbD_of_ge _ _ (by omega)]

/-- Writing a bit above the mode field keeps the mode (R45). -/
theorem modeOf_setPsrBit (psr : Word) (i : Nat) (b : Bool) (h5 : 5 ≤ i) (h32 : i < 32) :
    modeOf (setPsrBit psr i b) = modeOf psr := by
  apply modeOf_eq_of_low
  apply BitVec.eq_of_getLsbD_eq
  intro j hj
  have := psrBit_setPsrBit psr i j b h32
  have hne : i ≠ j := by omega
  simp only [psrBit, hne, if_false] at this
  simp [BitVec.getLsbD_extractLsb', this]

end Sys2Proof.Machine
end

