-- ==== Sys2Proof/Laws/Memory.lean ====
section
/-! SUPPORT. The laws of memory (spec/20_memory.md R75 to R78): a read after a write, what a write leaves, and that
every memory operation keeps the canonical form. -/

namespace Sys2Proof.Machine

/-! ### One byte -/

/-- A byte read back is the byte written there; every other address reads as before. -/
theorem Memory.read_write (m : Memory) (k j : Nat) (v : Byte) :
    (m.write k v).read j = if j = k then some v else m.read j := by
  induction m with
  | nil => simp [Memory.write, Memory.read]
  | cons e m ih =>
    obtain ⟨a, b⟩ := e
    simp only [Memory.write]
    split
    · rename_i hlt
      by_cases hj : j = k
      · simp [Memory.read, hj]
      · by_cases hjk : j < k
        · have : j ≠ a := by omega
          have : j < a := by omega
          simp [Memory.read, *]
        · simp [Memory.read, hj, hjk]
    · split
      · rename_i _ heq
        subst heq
        by_cases hj : j = k <;> simp [Memory.read, hj]
      · rename_i hlt hne
        by_cases hj : j = k
        · subst hj; simp [Memory.read, hlt, hne, ih]
        · simp only [Memory.read, ih, hj, if_false]

/-! ### Several bytes -/

/-- `writeBytes` changes the bytes of its range and no other. -/
theorem Memory.read_writeBytes (bs : List Byte) (m : Memory) (k j : Nat) :
    (m.writeBytes k bs).read j = if k ≤ j ∧ j < k + bs.length then bs[j - k]? else m.read j := by
  induction bs generalizing m k with
  | nil =>
    have : ¬ (k ≤ j ∧ j < k + ([] : List Byte).length) := by simp
    simp only [this, if_false, Memory.writeBytes]
  | cons b bs ih =>
    simp only [Memory.writeBytes, ih, Memory.read_write, List.length_cons]
    by_cases h0 : j = k
    · subst h0
      have : ¬ (j + 1 ≤ j ∧ j < j + 1 + bs.length) := by omega
      simp
    · by_cases h1 : k + 1 ≤ j ∧ j < k + 1 + bs.length
      · have h2 : k ≤ j ∧ j < k + (bs.length + 1) := by omega
        have h3 : j - k = (j - (k + 1)) + 1 := by omega
        simp only [h1, h2, and_self, if_true, h3, List.getElem?_cons_succ]
      · have h2 : ¬ (k ≤ j ∧ j < k + (bs.length + 1)) := by omega
        simp only [h1, h2, if_false, h0]

/-- A byte outside the range is as before. -/
theorem Memory.read_writeBytes_outside {bs : List Byte} {m : Memory} {k j : Nat} (h : j < k ∨ k + bs.length ≤ j) :
    (m.writeBytes k bs).read j = m.read j := by
  rw [Memory.read_writeBytes, if_neg (by omega)]

/-- The bytes a bus answer leaves alone are as before. -/
theorem Memory.read_writeCells_outside {cells : List (Word × Byte)} {m : Memory} {j : Nat}
    (h : ∀ c ∈ cells, c.1.toNat ≠ j) : (m.writeCells cells).read j = m.read j := by
  induction cells generalizing m with
  | nil => rfl
  | cons c cells ih =>
    obtain ⟨a, b⟩ := c
    have ha : j ≠ a.toNat := fun e => h (a, b) (by simp) e.symm
    simp only [Memory.writeCells]
    rw [ih (fun c hc => h c (by simp [hc])), Memory.read_write, if_neg ha]

/-! ### The canonical form -/

theorem Memory.wfFrom_mono {m : Memory} {l l' : Nat} (hl : l' ≤ l) (h : Memory.wfFrom l m = true) :
    Memory.wfFrom l' m = true := by
  cases m with
  | nil => rfl
  | cons e m =>
    simp only [Memory.wfFrom, Bool.and_eq_true, decide_eq_true_eq] at h ⊢
    exact ⟨⟨by omega, h.1.2⟩, h.2⟩

theorem Memory.wfFrom_write {m : Memory} {l k : Nat} {v : Byte} (hk : l ≤ k) (hk32 : k < 0x100000000)
    (h : Memory.wfFrom l m = true) : Memory.wfFrom l (m.write k v) = true := by
  induction m generalizing l with
  | nil => simp [Memory.write, Memory.wfFrom, hk, hk32]
  | cons e m ih =>
    obtain ⟨a, b⟩ := e
    simp only [Memory.wfFrom, Bool.and_eq_true, decide_eq_true_eq] at h
    obtain ⟨⟨h1, h2⟩, h3⟩ := h
    simp only [Memory.write]
    split
    · simp only [Memory.wfFrom, Bool.and_eq_true, decide_eq_true_eq]
      exact ⟨⟨hk, hk32⟩, ⟨by omega, h2⟩, h3⟩
    · split
      · rename_i heq
        subst heq
        simp only [Memory.wfFrom, Bool.and_eq_true, decide_eq_true_eq]
        exact ⟨⟨hk, hk32⟩, h3⟩
      · simp only [Memory.wfFrom, Bool.and_eq_true, decide_eq_true_eq]
        exact ⟨⟨h1, h2⟩, ih (by omega) h3⟩

/-- Writing a byte of the address space keeps the canonical form. -/
theorem Memory.wf_write {m : Memory} {k : Nat} (v : Byte) (hk : k < 0x100000000) (h : m.wf = true) :
    (m.write k v).wf = true := Memory.wfFrom_write (Nat.zero_le _) hk h

theorem Memory.wf_writeBytes {bs : List Byte} {m : Memory} {k : Nat} (hk : k + bs.length ≤ 0x100000000)
    (h : m.wf = true) : (m.writeBytes k bs).wf = true := by
  induction bs generalizing m k with
  | nil => exact h
  | cons b bs ih =>
    simp only [List.length_cons] at hk
    exact ih (by omega) (Memory.wf_write b (by omega) h)

theorem Memory.wf_writeCells {cells : List (Word × Byte)} {m : Memory} (h : m.wf = true) :
    (m.writeCells cells).wf = true := by
  induction cells generalizing m with
  | nil => exact h
  | cons c cells ih => exact ih (Memory.wf_write c.2 c.1.isLt h)

/-- Memory at reset is in the canonical form. -/
theorem Memory.wf_reset : State.reset.mem.wf = true := rfl

/-! ### Accesses -/

@[simp] theorem leBytes_length (n : Nat) (v : Word) : (leBytes n v).length = n := by
  induction n generalizing v <;> simp [leBytes, *]

/-- Byte `i` of a value stored little-endian (R76). -/
theorem leBytes_getElem? (n : Nat) (v : Word) (i : Nat) (h : i < n) :
    (leBytes n v)[i]? = some ((v >>> (8 * i)).setWidth 8) := by
  induction n generalizing v i with
  | zero => omega
  | succ n ih =>
    cases i with
    | zero => simp [leBytes]
    | succ i =>
      simp only [leBytes, List.getElem?_cons_succ]
      rw [ih _ _ (by omega), ← BitVec.shiftRight_add, show 8 + 8 * i = 8 * (i + 1) by omega]

@[simp] theorem natBytes_length (n v : Nat) : (natBytes n v).length = n := by
  induction n generalizing v <;> simp [natBytes, *]

theorem Size.bytes_pos (sz : Size) : 0 < sz.bytes := by cases sz <;> decide

/-- An aligned access never wraps around the top of the address space. -/
theorem State.plainAccess_fits {s : State} {addr : Word} {sz : Size} (h : s.plainAccess addr sz = true) :
    addr.toNat + sz.bytes ≤ 0x100000000 := by
  simp only [State.plainAccess, Bool.and_eq_true, beq_iff_eq] at h
  have := addr.isLt
  cases sz <;> simp only [Size.bytes] at h ⊢ <;> omega

/-- Every write leaves memory in the canonical form (R75, R78). -/
theorem State.wf_memAfterWrite {s : State} (addr : Word) (sz : Size) (v : Word) (h : s.mem.wf = true) :
    (s.memAfterWrite addr sz v).wf = true := by
  unfold State.memAfterWrite
  split
  · rename_i hp
    exact Memory.wf_writeBytes (by simpa using State.plainAccess_fits hp) h
  · exact Memory.wf_writeCells h

/-- What a plain write leaves at each address (R75, R76). -/
theorem State.read_memAfterWrite {s : State} {addr : Word} {sz : Size} (v : Word) (j : Nat)
    (h : s.plainAccess addr sz = true) :
    (s.memAfterWrite addr sz v).read j =
      if addr.toNat ≤ j ∧ j < addr.toNat + sz.bytes then some ((v >>> (8 * (j - addr.toNat))).setWidth 8)
      else s.mem.read j := by
  simp only [State.memAfterWrite, h, if_true, Memory.read_writeBytes, leBytes_length]
  split
  · exact leBytes_getElem? _ _ _ (by omega)
  · rfl

/-- Placing an instruction keeps the canonical form. -/
theorem State.wf_placeInstruction {s : State} (nbits w : Nat) (h : s.mem.wf = true) :
    (s.placeInstruction nbits w).mem.wf = true := by
  have key : ∀ (a : Word) (sz : Size), a.toNat % sz.bytes = 0 →
      (s.mem.writeBytes a.toNat (natBytes sz.bytes w)).wf = true := by
    intro a sz ha
    refine Memory.wf_writeBytes ?_ h
    have := a.isLt
    cases sz <;> simp only [Size.bytes, natBytes_length] at ha ⊢ <;> omega
  have even : ∀ a : Word, (a &&& 0xFFFFFFFE).toNat % 2 = 0 := fun a => by
    have h0 : (a &&& 0xFFFFFFFE).toNat.testBit 0 = false := by
      change (a &&& 0xFFFFFFFE).getLsbD 0 = false
      simp
    generalize (a &&& 0xFFFFFFFE).toNat = x at h0
    simpa using h0
  have four : ∀ a : Word, (a &&& 0xFFFFFFFC).toNat % 4 = 0 := fun a => by
    have h0 : (a &&& 0xFFFFFFFC).toNat.testBit 0 = false := by
      change (a &&& 0xFFFFFFFC).getLsbD 0 = false
      simp
    have h1 : (a &&& 0xFFFFFFFC).toNat.testBit 1 = false := by
      change (a &&& 0xFFFFFFFC).getLsbD 1 = false
      simp
    generalize (a &&& 0xFFFFFFFC).toNat = x at h0 h1
    rw [Nat.testBit_eq_decide_div_mod_eq] at h0 h1
    simp at h0 h1
    omega
  unfold State.placeInstruction
  by_cases hb : nbits ≤ 16
  · have := key (s.pc &&& 0xFFFFFFFE) .half (even _)
    simp only [hb, decide_true, if_true]
    split <;> simpa using this
  · have := key (s.pc &&& 0xFFFFFFFC) .word (four _)
    simp only [hb, decide_false, Bool.false_eq_true, if_false]
    split <;> simpa using this

/-! ### The bus operations -/

/-- What a read answers (R73, R75): memory's bytes, or the platform's answer. -/
theorem memRead_fst (addr : Word) (sz : Size) (kind : AccessKind) (locked : Bool) (s : State) :
    (memRead addr sz kind locked s).1 =
      if s.plainAccess addr sz then some (leWord (s.bytesAt addr.toNat sz.bytes))
      else if s.answer.aborts then none else some (sz.low s.answer.value) := by
  unfold memRead; split <;> rfl

/-- A read leaves registers, status, memory and the hidden state alone. -/
theorem memRead_frame (addr : Word) (sz : Size) (kind : AccessKind) (locked : Bool) (s : State) :
    (memRead addr sz kind locked s).2.regs = s.regs ∧ (memRead addr sz kind locked s).2.pc = s.pc ∧
    (memRead addr sz kind locked s).2.cpsr = s.cpsr ∧ (memRead addr sz kind locked s).2.spsr = s.spsr ∧
    (memRead addr sz kind locked s).2.mem = s.mem ∧ (memRead addr sz kind locked s).2.hazard = s.hazard ∧
    (memRead addr sz kind locked s).2.dispatcher = s.dispatcher ∧ (memRead addr sz kind locked s).2.stop = s.stop ∧
    (memRead addr sz kind locked s).2.lines = s.lines ∧ (memRead addr sz kind locked s).2.plain = s.plain ∧
    (memRead addr sz kind locked s).2.out.report = s.out.report := by
  unfold memRead; split <;> simp

/-- Whether a write aborts (R73): never in memory, else as the platform answers. -/
theorem memWrite_fst (addr : Word) (sz : Size) (v : Word) (kind : AccessKind) (locked : Bool) (s : State) :
    (memWrite addr sz v kind locked s).1 = (!s.plainAccess addr sz && s.answer.aborts) := by
  unfold memWrite; split <;> simp [*]

/-- A write changes memory as `memAfterWrite` says, and leaves registers, status and the hidden state alone. -/
theorem memWrite_frame (addr : Word) (sz : Size) (v : Word) (kind : AccessKind) (locked : Bool) (s : State) :
    (memWrite addr sz v kind locked s).2.regs = s.regs ∧ (memWrite addr sz v kind locked s).2.pc = s.pc ∧
    (memWrite addr sz v kind locked s).2.cpsr = s.cpsr ∧ (memWrite addr sz v kind locked s).2.spsr = s.spsr ∧
    (memWrite addr sz v kind locked s).2.mem = s.memAfterWrite addr sz v ∧
    (memWrite addr sz v kind locked s).2.hazard = s.hazard ∧
    (memWrite addr sz v kind locked s).2.dispatcher = s.dispatcher ∧
    (memWrite addr sz v kind locked s).2.stop = s.stop ∧
    (memWrite addr sz v kind locked s).2.lines = s.lines ∧ (memWrite addr sz v kind locked s).2.plain = s.plain ∧
    (memWrite addr sz v kind locked s).2.out.report = s.out.report := by
  unfold memWrite; split <;> simp

end Sys2Proof.Machine
end

