-- ==== Sys2Proof/Laws/Ops.lean ====
section
/-! SUPPORT. What each shared operation can do, said once: the frame of every meaning, the branch primitives, exception
entry and return, the bus operations and the data transfers built on them. -/

namespace Sys2Proof.Machine

/-! ### The frame of every meaning (spec/40 R150, R153) -/

theorem conditionally_skips {c : Cond} {form : List (Bool × Refusal)} {touched : List Reg} {effect : State → Out}
    {s : State} (h : condPassed c s = false) : conditionally c form touched effect s = .next s.skip := by
  simp [conditionally, h]

theorem conditionally_refuses {c : Cond} {form : List (Bool × Refusal)} {touched : List Reg} {effect : State → Out}
    {s : State} {r : Refusal} (h : condPassed c s = true) (hf : firstRefusal form = some r) :
    conditionally c form touched effect s = .refused r := by
  simp [conditionally, h, hf]

theorem conditionally_blocks {c : Cond} {form : List (Bool × Refusal)} {touched : List Reg} {effect : State → Out}
    {s : State} (h : condPassed c s = true) (hf : firstRefusal form = none) (hz : s.hazard = true)
    (ht : ∃ r ∈ touched, s.banksAway r = true) :
    conditionally c form touched effect s = .refused .bankedAccessAfterLdmUser := by
  have : touched.any s.banksAway = true := List.any_eq_true.2 ht
  simp [conditionally, h, hf, hz, this]

theorem State.NotBlocked.any {s : State} {regs : List Reg} (h : s.NotBlocked regs) :
    (s.hazard && regs.any s.banksAway) = false := by
  cases hz : s.hazard
  · rfl
  · have := h hz
    simp only [Bool.true_and, List.any_eq_false]
    intro r hr; simp [this r hr]

/-- With its condition passed, its form accepted and no register blocked, an instruction is its effect. -/
theorem conditionally_runs {c : Cond} {form : List (Bool × Refusal)} {touched : List Reg} {effect : State → Out}
    {s : State} (h : condPassed c s = true) (hf : firstRefusal form = none) (ht : s.NotBlocked touched) :
    conditionally c form touched effect s = effect s.started := by
  simp [conditionally, h, hf, ht.any]

theorem unconditionally_runs {form : List (Bool × Refusal)} {touched : List Reg} {effect : State → Out} {s : State}
    (hf : firstRefusal form = none) (ht : s.NotBlocked touched) :
    unconditionally form touched effect s = effect s.started := conditionally_runs rfl hf ht

/-- Everything an instruction can do beside its effect: be skipped, or be refused. -/
theorem conditionally_cases (c : Cond) (form : List (Bool × Refusal)) (touched : List Reg) (effect : State → Out)
    (s : State) :
    (condPassed c s = false ∧ conditionally c form touched effect s = .next s.skip) ∨
    (∃ r, conditionally c form touched effect s = .refused r) ∨
    (condPassed c s = true ∧ firstRefusal form = none ∧ s.NotBlocked touched ∧
      conditionally c form touched effect s = effect s.started) := by
  cases hc : condPassed c s
  · exact .inl ⟨rfl, conditionally_skips hc⟩
  · cases hf : firstRefusal form with
    | some r => exact .inr (.inl ⟨r, conditionally_refuses hc hf⟩)
    | none =>
      by_cases ht : s.NotBlocked touched
      · exact .inr (.inr ⟨rfl, rfl, ht, conditionally_runs hc hf ht⟩)
      · simp only [State.NotBlocked, not_forall] at ht
        obtain ⟨hz, r, hr, hb⟩ := ht
        exact .inr (.inl ⟨_, conditionally_blocks hc hf hz ⟨r, hr, by simpa using hb⟩⟩)

/-- A list of checks passes exactly when none of them holds. -/
theorem firstRefusal_eq_none_iff (form : List (Bool × Refusal)) :
    firstRefusal form = none ↔ ∀ e ∈ form, e.1 = false := by
  induction form with
  | nil => simp [firstRefusal]
  | cons e form ih => obtain ⟨b, r⟩ := e; cases b <;> simp [firstRefusal, ih]

@[simp] theorem State.NotBlocked_nil (s : State) : s.NotBlocked [] := by simp [State.NotBlocked]

theorem State.NotBlocked.sub {s : State} {small big : List Reg} (h : s.NotBlocked big)
    (hs : ∀ r ∈ small, r ∈ big ∨ r = 15) : s.NotBlocked small := by
  intro hz r hr
  rcases hs r hr with hb | rfl
  · exact h hz r hb
  · simp [State.banksAway]

/-- R0 to R7 are never banked away (spec/70 R441). -/
theorem State.banksAway_low (s : State) (n : Reg) (h : n.toNat < 8) : s.banksAway n = false := by
  have : ¬ 8 ≤ n.toNat := by omega
  simp [State.banksAway, this]

/-- With no hazard no register is blocked (spec/10_state.md R62). -/
theorem State.NotBlocked_of_no_hazard {s : State} (regs : List Reg) (h : s.hazard = false) : s.NotBlocked regs := by
  intro hz; simp [h] at hz

/-! ### Branches (spec/40 R157, R158) -/

/-- A branch in THUMB state clears bit 0. -/
theorem branchTo_thumb {s : State} (t : Word) (h : s.thumb = true) :
    branchTo t s = .next (s.setPc (t &&& 0xFFFFFFFE)) := by simp [branchTo, h]

/-- A branch in ARM state takes an aligned target. -/
theorem branchTo_arm {s : State} {t : Word} (h : s.thumb = false) (ht : t.extractLsb' 0 2 = 0) :
    branchTo t s = .next (s.setPc t) := by simp [branchTo, h, ht]

/-- Everything a branch can do: set R15 to a target the state allows, or refuse. -/
theorem branchTo_cases (t : Word) (s : State) :
    (branchTo t s = .refused .misalignedArmPC ∧ s.thumb = false ∧ t.extractLsb' 0 2 ≠ 0) ∨
    (branchTo t s = .next (s.setPc (if s.thumb then t &&& 0xFFFFFFFE else t)) ∧
      (s.thumb = false → t.extractLsb' 0 2 = 0)) := by
  unfold branchTo
  cases s.thumb
  · by_cases h : t.extractLsb' 0 2 = 0
    · simp [h]
    · exact .inl ⟨(if_neg (by decide)).trans (if_neg h), rfl, h⟩
  · simp

/-- Everything a state-changing branch can do. -/
theorem branchExchange_cases (t : Word) (s : State) :
    (branchExchange t s = .refused .misalignedArmPC ∧ t.getLsbD 0 = false ∧ t.getLsbD 1 = true) ∨
    (branchExchange t s = .next ((s.setCpsr (setPsrBit s.cpsr 5 (t.getLsbD 0))).setPc (t &&& 0xFFFFFFFE)) ∧
      (t.getLsbD 0 = false → t.getLsbD 1 = false)) := by
  unfold branchExchange
  cases h0 : t.getLsbD 0
  · cases h1 : t.getLsbD 1
    · have ht : t &&& 0xFFFFFFFE#32 = t := by
        apply BitVec.eq_of_getLsbD_eq
        intro i hi
        rw [BitVec.getLsbD_and]
        by_cases hi0 : i = 0
        · subst hi0; rw [h0, Bool.false_and]
        · have : (0xFFFFFFFE#32).getLsbD i = true := by interval_cases i <;> first | rfl | omega
          rw [this, Bool.and_true]
      refine .inr ⟨?_, fun _ => rfl⟩
      change _ = Host.Outcome.next ((s.setCpsr _).setPc (t &&& 0xFFFFFFFE#32))
      rw [ht]; rfl
    · simp
  · simp

/-- Everything an exception return can do (spec/60 R403): refuse without an SPSR, go fatal on an illegal saved mode, or
branch with CPSR restored. -/
theorem exceptionReturn_cases (target : Word) (s : State) :
    (s.getSpsr s.mode = none ∧ exceptionReturn target s = .refused .noSpsr) ∨
    (∃ v, s.getSpsr s.mode = some v ∧ modeOf v = none ∧ exceptionReturn target s = fatalCorruptMode s) ∨
    (∃ v m, s.getSpsr s.mode = some v ∧ modeOf v = some m ∧
      exceptionReturn target s = branchTo target (s.setCpsr (v &&& psrMask))) := by
  unfold exceptionReturn
  cases hs : s.getSpsr s.mode with
  | none => exact .inl ⟨rfl, rfl⟩
  | some v =>
    cases hm : modeOf v with
    | none => exact .inr (.inl ⟨v, rfl, hm, by simp [hm]⟩)
    | some m => exact .inr (.inr ⟨v, m, rfl, hm, by simp [hm]⟩)

/-- The existing bits of a status word keep its mode (R50). -/
@[simp] theorem modeOf_and_psrMask (v : Word) : modeOf (v &&& psrMask) = modeOf v := by
  apply modeOf_eq_of_low
  apply BitVec.eq_of_getLsbD_eq
  intro i hi
  have : i = 0 ∨ i = 1 ∨ i = 2 ∨ i = 3 ∨ i = 4 := by omega
  rcases this with rfl | rfl | rfl | rfl | rfl <;> simp [psrMask]

@[simp] theorem psrBit_and_psrMask_thumb (v : Word) : psrBit (v &&& psrMask) 5 = psrBit v 5 := by
  simp [psrBit, psrMask]

/-! ### Exception entry (spec/60 R396) -/

/-- CPSR after an entry, bit by bit: the mode, T, I and F of the row, every other bit kept. -/
theorem psrBit_entryPsr (d : Descriptor) (m : Mode) (old : Word) (i : Nat) (h : 5 ≤ i) :
    psrBit (entryPsr d m old) i =
      if i = 5 then false else if i = 7 then applyMask d.maskI (psrBit old 7)
      else if i = 6 then applyMask d.maskF (psrBit old 6) else psrBit old i := by
  unfold entryPsr
  simp only [psrBit_setPsrBit _ _ _ _ (show 6 < 32 by decide), psrBit_setPsrBit _ _ _ _ (show 7 < 32 by decide),
    psrBit_setPsrBit _ _ _ _ (show 5 < 32 by decide)]
  by_cases h5 : i = 5
  · subst h5; simp
  · by_cases h6 : i = 6
    · subst h6; simp
    · by_cases h7 : i = 7
      · subst h7; simp
      · simp [h5, h6, h7, Ne.symm h5, Ne.symm h6, Ne.symm h7, psrBit_setMode _ _ _ h]

@[simp] theorem modeOf_entryPsr (d : Descriptor) (m : Mode) (old : Word) : modeOf (entryPsr d m old) = some m := by
  simp [entryPsr, modeOf_setPsrBit]

/-- The bits above the control byte survive an entry. -/
theorem entryPsr_high (d : Descriptor) (m : Mode) (old : Word) :
    entryPsr d m old &&& 0xFFFFFF00 = old &&& 0xFFFFFF00 := by
  apply BitVec.eq_of_getLsbD_eq
  intro i hi
  simp only [BitVec.getLsbD_and]
  by_cases h8 : 8 ≤ i
  · have := psrBit_entryPsr d m old i (by omega)
    simp only [psrBit, show i ≠ 5 by omega, show i ≠ 7 by omega, show i ≠ 6 by omega, if_false] at this
    rw [this]
  · have : (0xFFFFFF00#32).getLsbD i = false := by interval_cases i <;> rfl
    simp [this]

/-- Reading an SPSR after writing one (R51). -/
theorem State.getSpsr_setSpsr (s : State) (m m' : Mode) (v : Word) :
    (s.setSpsr m v).getSpsr m' = if m = m' then (s.getSpsr m').map fun _ => v else s.getSpsr m' := by
  cases m <;> cases m' <;> simp [State.setSpsr, State.getSpsr]

theorem State.getSpsr_eq {s t : State} (h : t.spsr = s.spsr) (m : Mode) : t.getSpsr m = s.getSpsr m := by
  cases m <;> simp [State.getSpsr, h]

/-- Every field of the state an entry leaves, for a row that has a mode. -/
theorem dispatch_fields {e : ExcType} {m : Mode} (hm : (descriptor e).mode = some m) (link : Word) (info : ExcInfo)
    (s : State) :
    (dispatch e link info s).regs = (s.setPhys (.lr (bankOf m)) link).regs ∧
    (dispatch e link info s).pc = (descriptor e).vector ∧
    (dispatch e link info s).cpsr = entryPsr (descriptor e) m s.cpsr ∧
    (dispatch e link info s).spsr = (s.setSpsr m s.cpsr).spsr ∧
    (dispatch e link info s).mem = s.mem ∧ (dispatch e link info s).hazard = false ∧
    (dispatch e link info s).dispatcher = .idle ∧ (dispatch e link info s).stop = s.stop ∧
    (dispatch e link info s).draws = s.draws ∧ (dispatch e link info s).lines = s.lines ∧
    (dispatch e link info s).bus = s.bus ∧ (dispatch e link info s).plain = s.plain ∧
    (dispatch e link info s).out = { s.out with report := .exception e s.pc info } := by
  unfold dispatch
  rw [hm]
  refine ⟨?_, rfl, rfl, ?_, ?_, rfl, rfl, ?_, ?_, ?_, ?_, ?_, ?_⟩ <;> simp [State.setPhys]
  all_goals cases m <;> rfl

/-! ### The bus operations on a state that agrees -/

/-- What a read answers depends on memory, the platform's regions and answers, and the draws. -/
theorem readAnswer_eq (s : State) (addr : Word) (sz : Size) (kind : AccessKind) (locked : Bool) :
    (memRead addr sz kind locked s).1 = s.readAnswer addr sz := by
  rw [memRead_fst]; rfl

theorem writeAnswersOk_eq (s : State) (addr : Word) (sz : Size) (v : Word) (kind : AccessKind) (locked : Bool) :
    (memWrite addr sz v kind locked s).1 = !s.writeAnswersOk addr sz := by
  rw [memWrite_fst]; simp [State.writeAnswersOk]

/-- A read issues one request and changes nothing else that a later read or an instruction sees, but the platform's
answers and the draws. -/
theorem memRead_requests (addr : Word) (sz : Size) (kind : AccessKind) (locked : Bool) (s : State) :
    (memRead addr sz kind locked s).2.out.requests =
      s.out.requests ++ [{ addr := addr, size := sz, write := none, kind := kind, locked := locked }] := by
  unfold memRead; split <;> simp

theorem memWrite_requests (addr : Word) (sz : Size) (v : Word) (kind : AccessKind) (locked : Bool) (s : State) :
    (memWrite addr sz v kind locked s).2.out.requests =
      s.out.requests ++ [{ addr := addr, size := sz, write := some (sz.low v), kind := kind, locked := locked }] := by
  unfold memWrite; split <;> simp

/-- The memory effect of a write, as statements say it. -/
theorem stores_memAfterWrite {s t : State} {addr : Word} {sz : Size} {v : Word}
    (h : t.mem = s.memAfterWrite addr sz v) : Stores s t addr sz v := by
  unfold Stores
  split
  · rename_i hp
    refine ⟨fun i hi => ?_, fun a ha => ?_⟩ <;> rw [h, State.read_memAfterWrite _ _ hp]
    · rw [if_pos (by omega), Nat.add_sub_cancel_left]
    · rw [if_neg (by omega)]
  · rename_i hp
    have hm : t.mem = s.mem.writeCells s.answer.stored := by rw [h]; simp [State.memAfterWrite, hp]
    exact ⟨hm, fun a ha => by rw [hm, Memory.read_writeCells_outside ha]⟩

/-! ### Block transfers -/

/-- The reads of a load multiple leave everything but outputs, draws and the platform's answers alone. -/
theorem loadWords_frame (addr : Word) (regs : List Reg) (s : State) :
    (loadWords addr regs s).2.regs = s.regs ∧ (loadWords addr regs s).2.pc = s.pc ∧
    (loadWords addr regs s).2.cpsr = s.cpsr ∧ (loadWords addr regs s).2.spsr = s.spsr ∧
    (loadWords addr regs s).2.mem = s.mem ∧ (loadWords addr regs s).2.hazard = s.hazard ∧
    (loadWords addr regs s).2.dispatcher = s.dispatcher ∧ (loadWords addr regs s).2.stop = s.stop ∧
    (loadWords addr regs s).2.lines = s.lines ∧ (loadWords addr regs s).2.plain = s.plain ∧
    (loadWords addr regs s).2.out.report = s.out.report := by
  induction regs generalizing addr s with
  | nil => simp [loadWords]
  | cons r rs ih =>
    simp only [loadWords]
    have h := ih (addr + 4) (memRead addr .word .data false s).2
    have hr := memRead_frame addr .word .data false s
    simp only [h, hr, and_self]

/-- Two states that agree on memory, regions, answers and draws read the same. -/
theorem loadWords_congr {s t : State} (addr : Word) (regs : List Reg) (hm : t.mem = s.mem) (hp : t.plain = s.plain)
    (hb : t.bus = s.bus) (hd : t.draws = s.draws) : (loadWords addr regs t).1 = (loadWords addr regs s).1 := by
  have bytes : ∀ {s t : State} (a n : Nat), t.mem = s.mem → t.draws = s.draws → t.bytesAt a n = s.bytesAt a n := by
    intro s t a n hm hd
    induction n generalizing a with
    | zero => rfl
    | succ n ih => simp [State.bytesAt, State.byteAt, hm, hd, ih]
  have allp : ∀ {s t : State} (a n : Nat), t.plain = s.plain → t.allPlain a n = s.allPlain a n := by
    intro s t a n hp
    induction n generalizing a with
    | zero => rfl
    | succ n ih => simp [State.allPlain, State.inPlain, hp, ih]
  induction regs generalizing addr s t with
  | nil => rfl
  | cons r rs ih =>
    have ha : t.answer = s.answer := by simp [State.answer, hb, hd]
    have hpl : t.plainAccess addr .word = s.plainAccess addr .word := by
      simp [State.plainAccess, allp _ _ hp]
    have h1 : (memRead addr .word .data false t).1 = (memRead addr .word .data false s).1 := by
      simp only [memRead_fst, hpl, ha, bytes _ _ hm hd]
    simp only [loadWords, h1]
    congr 1
    have ft := memRead_frame addr .word .data false t
    have fs := memRead_frame addr .word .data false s
    refine ih _ ?_ ?_ ?_ ?_
    · simp only [ft, fs, hm]
    · simp only [ft, fs, hp]
    · unfold memRead; rw [hpl]; split
      · simp [hb]
      · cases hs : s.bus <;> simp [State.answered, hb, hs]
    · unfold memRead; rw [hpl]; split
      · simp [hd]
      · cases hs : s.bus <;> simp [State.answered, hb, hs, hd]

/-- The reads are of the list's registers, in order. -/
theorem loadWords_regs (addr : Word) (regs : List Reg) (s : State) :
    (loadWords addr regs s).1.map Prod.fst = regs := by
  induction regs generalizing addr s with
  | nil => rfl
  | cons r rs ih => simp [loadWords, ih]

/-- With no abort, the values read are those of all the reads. -/
theorem beforeAbort_of_none_aborts {reads : List (Reg × Option Word)} (h : ∀ e ∈ reads, e.2 ≠ none) :
    (beforeAbort reads).map (fun e => (e.1, some e.2)) = reads := by
  induction reads with
  | nil => rfl
  | cons e reads ih =>
    obtain ⟨r, v⟩ := e
    cases v with
    | none => exact absurd rfl (h (r, none) (by simp))
    | some v => simp [beforeAbort, ih fun e he => h e (by simp [he])]

theorem firstAbort_of_none_aborts {reads : List (Reg × Option Word)} (addr : Word) (h : ∀ e ∈ reads, e.2 ≠ none) :
    firstAbort addr reads = none := by
  induction reads generalizing addr with
  | nil => rfl
  | cons e reads ih =>
    obtain ⟨r, v⟩ := e
    cases v with
    | none => exact absurd rfl (h (r, none) (by simp))
    | some v => exact ih _ fun e he => h e (by simp [he])

/-- A register outside the loaded list is unchanged. -/
theorem State.getPhys_writeRegs_other (s : State) (vals : List (Reg × Word)) (q : PhysReg)
    (h : ∀ e ∈ vals, physReg s.mode e.1 ≠ q) : (s.writeRegs vals).getPhys q = s.getPhys q := by
  induction vals generalizing s with
  | nil => rfl
  | cons e vals ih =>
    obtain ⟨r, v⟩ := e
    simp only [State.writeRegs]
    rw [ih _ (fun e he => by simpa using h e (by simp [he])), State.getPhys_writeReg, if_neg]
    exact fun hq => h (r, v) (by simp) hq.1

/-- A loaded register holds the value loaded for it. -/
theorem State.getPhys_writeRegs_mem (s : State) (vals : List (Reg × Word)) (hn : (vals.map Prod.fst).Nodup) (r : Reg)
    (v : Word) (h : (r, v) ∈ vals) (h15 : r ≠ 15) : (s.writeRegs vals).getPhys (physReg s.mode r) = v := by
  induction vals generalizing s with
  | nil => simp at h
  | cons e vals ih =>
    obtain ⟨r', v'⟩ := e
    simp only [List.map_cons, List.nodup_cons] at hn
    simp only [State.writeRegs]
    rcases List.mem_cons.1 h with heq | hmem
    · obtain ⟨rfl, rfl⟩ := Prod.mk.inj heq
      rw [State.getPhys_writeRegs_other _ _ _ (fun e he hq => ?_), State.getPhys_writeReg,
        if_pos ⟨rfl, physReg_ne_r15 _ h15⟩]
      refine hn.1 (List.mem_map.2 ⟨e, he, physReg_injective s.mode ?_⟩)
      simpa using hq
    · have := ih (s.writeReg r' v') hn.2 hmem
      simpa using this

/-- The same for the User bank (spec/46 R273). -/
theorem State.getPhys_writeUsers_other (s : State) (vals : List (Reg × Word)) (q : PhysReg)
    (h : ∀ e ∈ vals, physReg .usr e.1 ≠ q) : (s.writeUsers vals).getPhys q = s.getPhys q := by
  induction vals generalizing s with
  | nil => rfl
  | cons e vals ih =>
    obtain ⟨r, v⟩ := e
    simp only [State.writeUsers]
    rw [ih _ (fun e he => h e (by simp [he])), State.getPhys_writeUser, if_neg]
    exact fun hq => h (r, v) (by simp) hq.1

theorem State.getPhys_writeUsers_mem (s : State) (vals : List (Reg × Word)) (hn : (vals.map Prod.fst).Nodup) (r : Reg)
    (v : Word) (h : (r, v) ∈ vals) (h15 : r ≠ 15) : (s.writeUsers vals).getPhys (physReg .usr r) = v := by
  induction vals generalizing s with
  | nil => simp at h
  | cons e vals ih =>
    obtain ⟨r', v'⟩ := e
    simp only [List.map_cons, List.nodup_cons] at hn
    simp only [State.writeUsers]
    rcases List.mem_cons.1 h with heq | hmem
    · obtain ⟨rfl, rfl⟩ := Prod.mk.inj heq
      rw [State.getPhys_writeUsers_other _ _ _ (fun e he hq => ?_), State.getPhys_writeUser,
        if_pos ⟨rfl, physReg_ne_r15 _ h15⟩]
      exact hn.1 (List.mem_map.2 ⟨e, he, physReg_injective .usr hq⟩)
    · exact ih (s.writeUser r' v') hn.2 hmem

/-- The registers of a list are distinct and ascending (spec/30_encoding.md R121). -/
theorem regList_nodup (list : BitVec 16) : (regList list).Nodup := List.Nodup.filter _ (by decide)

theorem mem_regList (list : BitVec 16) (r : Reg) : r ∈ regList list ↔ list.getLsbD r.toNat = true := by
  have : r ∈ allRegs := by revert r; decide
  simp [regList, this]

/-- The writes of a store multiple leave everything but memory, outputs, draws and the platform's answers alone. -/
theorem storeWords_frame (addr : Word) (values : List Word) (s : State) :
    (storeWords addr values s).2.regs = s.regs ∧ (storeWords addr values s).2.pc = s.pc ∧
    (storeWords addr values s).2.cpsr = s.cpsr ∧ (storeWords addr values s).2.spsr = s.spsr ∧
    (storeWords addr values s).2.hazard = s.hazard ∧ (storeWords addr values s).2.dispatcher = s.dispatcher ∧
    (storeWords addr values s).2.stop = s.stop ∧ (storeWords addr values s).2.lines = s.lines ∧
    (storeWords addr values s).2.plain = s.plain ∧ (storeWords addr values s).2.out.report = s.out.report := by
  induction values generalizing addr s with
  | nil => simp [storeWords]
  | cons v vs ih =>
    simp only [storeWords]
    have h := ih (addr + 4) (memWrite addr .word v .data false s).2
    have hw := memWrite_frame addr .word v .data false s
    simp only [h, hw, and_self]

/-- The writes of a store multiple keep memory's canonical form. -/
theorem storeWords_wf (addr : Word) (values : List Word) (s : State) (h : s.mem.wf = true) :
    (storeWords addr values s).2.mem.wf = true := by
  induction values generalizing addr s with
  | nil => exact h
  | cons v vs ih =>
    refine ih _ _ ?_
    rw [(memWrite_frame addr .word v .data false s).2.2.2.2.1]
    exact State.wf_memAfterWrite _ _ _ h

/-! ### The results (spec/40 R164) -/

/-- The adder as the statements' sum. -/
theorem addWithCarry_eq_sumResult (a b : Word) (cin : Bool) : addWithCarry a b cin = sumResult a b cin := by
  have hv : BitVec.ofNat 32 (exactSum a b cin) = a + b + (BitVec.ofBool cin).setWidth 32 := by
    apply BitVec.eq_of_toNat_eq
    cases cin <;> simp [exactSum, Nat.add_mod]
  simp only [addWithCarry, sumResult, hv]
  rfl

/-- A subtraction through the adder as the statements' difference: C is NOT borrow. -/
theorem subWithCarry_eq_differenceResult (a b : Word) (cin : Bool) :
    subWithCarry a b cin = differenceResult a b cin := by
  have hb := b.isLt
  have ha := a.isLt
  have hn : (~~~b).toNat = 2 ^ 32 - 1 - b.toNat := BitVec.toNat_not
  have hv : BitVec.ofNat 32 (exactSum a (~~~b) cin) = a - b - (BitVec.ofBool (!cin)).setWidth 32 := by
    apply BitVec.eq_of_toNat_eq
    cases cin <;> simp only [exactSum, hn, BitVec.toNat_ofNat, BitVec.toNat_sub, BitVec.toNat_setWidth,
      BitVec.toNat_ofBool, Bool.toNat_false, Bool.toNat_true, Bool.not_false, Bool.not_true] <;> omega
  have hc : decide (0x100000000 ≤ exactSum a (~~~b) cin) = decide (b.toNat + (!cin).toNat ≤ a.toNat) := by
    apply decide_eq_decide.2
    cases cin <;> simp only [exactSum, hn, Bool.toNat_false, Bool.toNat_true, Bool.not_false, Bool.not_true] <;> omega
  have hm : (~~~b).msb = !b.msb := by simp
  simp only [subWithCarry, addWithCarry, differenceResult, hv, hc, hm]
  cases a.msb <;> cases b.msb <;> rfl

/-- The flags of a status word after a flag write (R45). -/
theorem psrBit_withFlags (psr : Word) (n z c v : Bool) (i : Nat) :
    psrBit (withFlags psr n z c v) i =
      if i = 31 then n else if i = 30 then z else if i = 29 then c else if i = 28 then v else psrBit psr i := by
  simp only [withFlags, psrBit_setPsrBit _ _ _ _ (show 31 < 32 by decide),
    psrBit_setPsrBit _ _ _ _ (show 30 < 32 by decide), psrBit_setPsrBit _ _ _ _ (show 29 < 32 by decide),
    psrBit_setPsrBit _ _ _ _ (show 28 < 32 by decide)]
  by_cases h31 : i = 31
  · subst h31; simp
  · by_cases h30 : i = 30
    · subst h30; simp
    · by_cases h29 : i = 29
      · subst h29; simp
      · by_cases h28 : i = 28
        · subst h28; simp
        · simp [h31, h30, h29, h28, Ne.symm h31, Ne.symm h30, Ne.symm h29, Ne.symm h28]

/-- A flag write keeps every bit but N, Z, C and V. -/
theorem withFlags_control (psr : Word) (n z c v : Bool) :
    withFlags psr n z c v &&& 0x0FFFFFFF = psr &&& 0x0FFFFFFF := by
  apply BitVec.eq_of_getLsbD_eq
  intro i hi
  have := psrBit_withFlags psr n z c v i
  simp only [psrBit] at this
  simp only [BitVec.getLsbD_and, this]
  by_cases h : i < 28
  · simp [show i ≠ 31 by omega, show i ≠ 30 by omega, show i ≠ 29 by omega, show i ≠ 28 by omega]
  · have : (0x0FFFFFFF#32).getLsbD i = false := by interval_cases i <;> rfl
    simp [this]

/-- The mode survives a flag write. -/
@[simp] theorem modeOf_withFlags (psr : Word) (n z c v : Bool) : modeOf (withFlags psr n z c v) = modeOf psr := by
  simp [withFlags, modeOf_setPsrBit]

theorem State.setNZCV_mode (s : State) (r : AluResult) : (s.setNZCV r).mode = s.mode := by
  simp [State.setNZCV, State.mode]

theorem State.setCpsr_isz_of_thumb (s : State) (v : Word) (h : psrBit v 5 = s.thumb) : (s.setCpsr v).isz = s.isz := by
  simp [State.isz, h]

@[simp] theorem State.setCpsr_withFlags_isz (s t : State) (n z c v : Bool) (h : t.cpsr = s.cpsr) :
    (t.setCpsr (withFlags s.cpsr n z c v)).isz = s.isz := by
  rw [State.setCpsr_isz_of_thumb _ _ (by simp [psrBit_withFlags, State.thumb, h]), State.isz_eq h]

/-- What a flag write leaves in the flags. -/
theorem hasFlags_withFlags {t : State} {psr : Word} {n z c v : Bool} (h : t.cpsr = withFlags psr n z c v) :
    HasFlags t n z c v := by
  simp [HasFlags, State.flagN, State.flagZ, State.flagC, State.flagV, h, psrBit_withFlags]

/-- A step of the meaning that leaves registers outside a list, hidden state and platform alone keeps all but the list. -/
theorem keepsAllBut_intro {changed : List PhysReg} {s t : State} (hr : SameRegsExcept changed s t)
    (hs : t.spsr = s.spsr) (hd : t.dispatcher = s.dispatcher) (hst : t.stop = s.stop) (hl : t.lines = s.lines)
    (hp : t.plain = s.plain) (hz : t.hazard = false) (ho : t.out.report = .completed) : KeepsAllBut changed s t :=
  ⟨hr, ⟨hs, hd, hst⟩, ⟨hl, hp⟩, hz, ho⟩

end Sys2Proof.Machine
end

