-- ==== Sys2Proof/Laws/Effects.lean ====
section
/-! SUPPORT. What each shared operation does when it answers a next state: results, loads, stores, blocks, exception
entry. -/


namespace Sys2Proof.Machine

/-- A result written to a register other than R15 (spec/44_data_processing.md R220). -/
theorem writeAlu_next {sf : Bool} {rd : Reg} {r : AluResult} {s : State} (h : rd ≠ 15) :
   ∃ t, writeAlu sf rd r s.started = .next t ∧ WritesResult sf rd r s t := by
  have h' : rd ≠ 15#4 := h
  refine ⟨_, by simp only [writeAlu, h, if_false]; rfl, ?_, ?_, ?_, keepsAllBut_intro ?_ ?_ ?_ ?_ ?_ ?_ ?_ ?_, ?_, ?_⟩
  · cases sf <;> simp [State.setNZCV, State.getPhys_writeReg, h']
  · cases sf
    · exact ⟨by simp, by simp, by simp, by simp⟩
    · exact hasFlags_withFlags rfl
  · cases sf
    · simp [SameControl]
    · simp only [SameControl, if_true, State.setNZCV, State.advance_cpsr, State.setCpsr_cpsr, State.writeReg_cpsr, State.started_cpsr]; exact withFlags_control ..
  · intro p hp hn
    simp only [List.mem_singleton] at hn
    cases sf <;> simp [State.setNZCV, State.getPhys_writeReg, Ne.symm hn, hp]
  all_goals cases sf <;> simp [SameMemory, GoesOn, State.setNZCV]

/-- A comparison writes the flags of its result and nothing else. -/
theorem setNZCV_next (r : AluResult) (s : State) : WritesFlags r s ((s.started.setNZCV r).advance) := by
  refine ⟨hasFlags_withFlags rfl, withFlags_control .., keepsAllBut_intro ?_ ?_ ?_ ?_ ?_ ?_ ?_ ?_, ?_, ?_⟩
  · intro p hp hn; simp [State.setNZCV, hp]
  all_goals simp [SameMemory, GoesOn, State.setNZCV]
  rw [State.setCpsr_withFlags_isz]; rfl

@[simp] theorem readRegAs_started (s : State) (v n) : s.started.readRegAs v n = s.readRegAs v n := rfl
@[simp] theorem op2_started (s : State) (o) : operand2 o s.started = operand2 o s := rfl
@[simp] theorem op2pc_started (s : State) (o) : operand2Pc o s.started = operand2Pc o s := rfl

/-- Operand 2 with no R15 in the places R155 names is refused nothing. -/
theorem operand2Refusals_none (op2 : Operand2) (rd : Reg) (h : rd ≠ 15) (hh : ∀ rs ty rm, op2 = .shiftReg rs ty rm → rs ≠ 15) : firstRefusal (operand2Refusals op2 rd) = none := by
  cases op2 with
  | imm => rfl
  | shiftImm => rfl
  | shiftReg rs ty rm => have := hh _ _ _ rfl; rw [firstRefusal_eq_none_iff]; simp only [operand2Refusals, List.mem_cons, List.not_mem_nil, or_false]; rintro e (rfl|rfl) <;> simp <;> assumption

/-- A write of R15 is a branch in the current state (spec/40_cycle_condition_shifter.md R157). -/
theorem branchTo_branchesTo (t : Word) (s s1 : State) (ch : List PhysReg) (hc : s1.cpsr = s.cpsr) (hm : s1.mem = s.mem) (hk : KeepsAllBut ch s s1) : BranchesTo t ch s (branchTo t s1) := by
  have hth : s1.thumb = s.thumb := by simp [State.thumb, hc]
  unfold BranchesTo
  rcases branchTo_cases t s1 with ⟨h, h1, h2⟩ | ⟨h, h1⟩
  · rw [if_pos ⟨hth ▸ h1, h2⟩]; exact h
  · rw [if_neg (fun hh => hh.2 (h1 (hth.trans hh.1))), h, hth]
    refine ⟨_, rfl, rfl, by simpa using hc, ?_, by simp [SameMemory, hm]⟩
    obtain ⟨a, b, c, d, e⟩ := hk
    refine ⟨fun p hp hn => ?_, by simpa [SameSpecial] using b, by simpa [SamePlatform] using c, by simpa using d, by simpa using e⟩
    have := a p hp hn
    cases p <;> first | exact this | exact absurd rfl hp

/-- An exception return, in all its outcomes (spec/60_exceptions.md R403). -/
theorem exceptionReturn_returnsTo (t : Word) (s s1 : State) (ch : List PhysReg) (hc : s1.cpsr = s.cpsr) (hpc : s1.pc = s.pc) (hm : s1.mem = s.mem) (hk : KeepsAllBut ch s s1) : ReturnsTo t ch s (exceptionReturn t s1) := by
  have hmd : s1.mode = s.mode := by simp [State.mode, hc]
  have hsp : ∀ m, s1.getSpsr m = s.getSpsr m := State.getSpsr_eq hk.2.1.1
  unfold ReturnsTo
  rcases exceptionReturn_cases t s1 with ⟨h, h1⟩ | ⟨v, h, h1, h2⟩ | ⟨v, m, h, h1, h2⟩
  · rw [hmd, hsp] at h; rw [h]; exact h1
  · rw [hmd, hsp] at h; simp only [h]; rw [if_pos h1, h2]
    refine ⟨_, rfl, rfl, hc, hk.2.1.1, hpc, fun p hp hn => ?_, by simp [SameMemory, hm]⟩
    have := hk.1 p hp hn
    cases p <;> exact this
  · rw [hmd, hsp] at h; simp only [h]; rw [if_neg (by simp [h1]), h2]
    rcases branchTo_cases t (s1.setCpsr (v &&& psrMask)) with ⟨h3, h4, h5⟩ | ⟨h3, h4⟩
    · rw [if_pos ⟨by simpa [State.thumb] using h4, h5⟩]; exact h3
    · rw [if_neg (fun hh => hh.2 (h4 (by simpa [State.thumb] using hh.1))), h3]
      refine ⟨_, rfl, rfl, by simp [State.thumb], ?_, by simp [SameMemory, hm]⟩
      obtain ⟨a, b, c, d, e⟩ := hk
      refine ⟨fun p hp hn => ?_, by simpa [SameSpecial] using b, by simpa [SamePlatform] using c, by simpa using d, by simpa using e⟩
      have := a p hp hn
      cases p <;> first | exact this | exact absurd rfl hp

/-- The state an effect starts from keeps everything but the hazard and the report. -/
theorem keepsAllBut_started (s : State) : KeepsAllBut [] s s.started := by
  refine ⟨fun p hp _ => ?_, by simp [SameSpecial], by simp [SamePlatform], by simp, by simp⟩
  simp

/-- An operand 2 that is no register-specified shift may accompany Rd = R15. -/
theorem operand2Refusals_pc (op2 : Operand2) (rd : Reg) (h : ∀ rs ty rm, op2 ≠ .shiftReg rs ty rm) : operand2Refusals op2 rd = [] := by
  cases op2 <;> first | rfl | exact absurd rfl (h _ _ _)

/-- A product of words as the low 32 bits of the exact product. -/
theorem mul_eq_ofNat (a b : Word) : a * b = BitVec.ofNat 32 (a.toNat * b.toNat) := by
  apply BitVec.eq_of_toNat_eq; simp [BitVec.toNat_mul]

/-- MUL and MLA with their flags (spec/41_multiply.md R190, R191). -/
theorem setMulFlags_next (sf : Bool) (rd : Reg) (v : Word) (s : State) (h : rd ≠ 15) :
   ∃ carry, WritesResult sf rd ⟨v, carry, s.flagV⟩ s (if sf then (s.started.writeReg rd v).setMulFlags v else s.started.writeReg rd v).advance := by
  have h' : rd ≠ 15#4 := h
  refine ⟨Config.freeBit s.draws, ?_, ?_, ?_, keepsAllBut_intro ?_ ?_ ?_ ?_ ?_ ?_ ?_ ?_, ?_, ?_⟩
  · cases sf <;> simp [State.setMulFlags, State.setNZCV, State.getPhys_writeReg, h']
  · cases sf
    · exact ⟨by simp, by simp, by simp, by simp⟩
    · refine hasFlags_withFlags (psr := s.cpsr) ?_
      simp [State.setMulFlags, State.setNZCV, logical]; rfl
  · cases sf
    · simp [SameControl]
    · simp only [SameControl, if_true, State.setMulFlags, State.setNZCV, State.advance_cpsr, State.setCpsr_cpsr, State.writeReg_cpsr, State.started_cpsr, State.drawn_cpsr]; exact withFlags_control ..
  · intro p hp hn
    simp only [List.mem_singleton] at hn
    cases sf <;> simp [State.setMulFlags, State.setNZCV, State.getPhys_writeReg, Ne.symm hn, hp]
  all_goals cases sf <;> simp [SameMemory, GoesOn, State.setMulFlags, State.setNZCV]

/-- A long multiply (spec/41_multiply.md R192). -/
theorem multiplyLong_next (c : Cond) (sf : Bool) (rdHi rdLo rs rm : Reg) (s : State) (product : State → BitVec 64) (p : BitVec 64) (hp : product s.started = p)
   (hc : condPassed c s = true) (h1 : rdHi ≠ 15) (h2 : rdLo ≠ 15) (h3 : rm ≠ 15) (h4 : rs ≠ 15) (h5 : rdHi ≠ rdLo) (h6 : rdHi ≠ rm) (h7 : rdLo ≠ rm) (hb : s.NotBlocked [rdHi, rdLo, rm, rs]) :
      ∃ t, multiplyLong c sf rdHi rdLo rs rm product s = .next t ∧
        t.getPhys (physReg s.mode rdLo) = p.extractLsb' 0 32 ∧
        t.getPhys (physReg s.mode rdHi) = p.extractLsb' 32 32 ∧
        (if sf then t.flagN = p.msb ∧ t.flagZ = decide (p = 0) else t.cpsr = s.cpsr) ∧
        SameControl s t ∧ KeepsAllBut [physReg s.mode rdLo, physReg s.mode rdHi] s t ∧ SameMemory s t ∧ GoesOn s t := by
  have h1' : rdHi ≠ 15#4 := h1
  have h2' : rdLo ≠ 15#4 := h2
  have hne : ¬ physReg s.mode rdHi = physReg s.mode rdLo := fun h => h5 (physReg_injective _ h)
  simp only [multiplyLong]
  rw [conditionally_runs hc (by rw [firstRefusal_eq_none_iff]; simp; exact ⟨⟨⟨⟨h1,h2⟩,h3⟩,h4⟩,⟨h5,h6⟩,h7⟩) hb]
  simp only [hp]
  refine ⟨_, rfl, ?_, ?_, ?_, ?_, keepsAllBut_intro ?_ ?_ ?_ ?_ ?_ ?_ ?_ ?_, ?_, ?_⟩
  · cases sf <;> simp [State.setMulLongFlags, State.getPhys_writeReg, h1', h2', hne]
  · cases sf <;> simp [State.setMulLongFlags, State.getPhys_writeReg, h1', h2']
  · cases sf
    · simp
    · simp [State.setMulLongFlags, State.flagN, State.flagZ, psrBit_withFlags]; rfl
  · cases sf
    · simp [SameControl]
    · simp only [SameControl, if_true, State.setMulLongFlags, State.advance_cpsr, State.setCpsr_cpsr, State.writeReg_cpsr, State.started_cpsr, State.drawn_cpsr]; exact withFlags_control ..
  · intro p hp hn
    simp at hn
    cases sf <;> simp [State.setMulLongFlags, State.getPhys_writeReg, Ne.symm hn.1, Ne.symm hn.2, hp]
  all_goals cases sf <;> simp [SameMemory, GoesOn, State.setMulLongFlags]

/-- A register written with no flag changed. -/
theorem writesOnly_next (rd : Reg) (v : Word) (s : State) (h : rd ≠ 15) : WritesOnly rd v s (s.started.writeReg rd v).advance := by
  have h' : rd ≠ 15#4 := h
  refine ⟨?_, ?_, keepsAllBut_intro ?_ ?_ ?_ ?_ ?_ ?_ ?_ ?_, ?_, ?_⟩
  · simp [State.getPhys_writeReg, h']
  · simp
  · intro p hp hn
    simp only [List.mem_singleton] at hn
    simp [State.getPhys_writeReg, Ne.symm hn, hp]
  all_goals simp [SameMemory, GoesOn]

/-- The bits of a field mask (spec/43_psr_transfer.md R213). -/
theorem fieldMask_bit (mask : BitVec 4) (i : Nat) (h : i < 32) : (fieldMask mask).getLsbD i = (mask.getLsbD (i / 8) && (decide (28 ≤ i) || decide (i ≤ 9))) := by
  revert mask; interval_cases i <;> decide

/-- The bits of CPSR an MSR may write (R213). -/
theorem cpsrMask_bit (mask : BitVec 4) (m : Mode) (i : Nat) (h : i < 32) : (cpsrMask mask m).getLsbD i = (mask.getLsbD (i / 8) && (decide (28 ≤ i) || decide (i ≤ 9)) && (decide (28 ≤ i) || decide (m ≠ .usr))) := by
  unfold cpsrMask
  split
  · rename_i hm; subst hm
    rw [BitVec.getLsbD_and, fieldMask_bit _ _ h]
    congr 1
    revert h; revert i; decide
  · rename_i hm
    rw [fieldMask_bit _ _ h]; simp [hm]

/-- A status word with the masked bits written. -/
theorem mergePsr_bit (old mask v : Word) (i : Nat) (h : i < 32) : (mergePsr old mask v).getLsbD i = if mask.getLsbD i then v.getLsbD i else old.getLsbD i := by
  unfold mergePsr
  simp only [BitVec.getLsbD_or, BitVec.getLsbD_and, BitVec.getLsbD_not, h]
  cases mask.getLsbD i <;> simp

/-- `PsrWrite` of CPSR, in all its outcomes (R213). -/
theorem psrWrite_cpsr (mask : BitVec 4) (v : Word) (s : State) (o : Out) (ho : o = psrWrite false mask v s.started) :
      let selected : Nat → Bool := fun i =>
        mask.getLsbD (i / 8) && (decide (28 ≤ i) || decide (i ≤ 9)) && (decide (28 ≤ i) || decide (s.mode ≠ .usr))
      ∃ new : Word, (∀ i : Nat, i < 32 → new.getLsbD i = if selected i then v.getLsbD i else s.cpsr.getLsbD i) ∧
        (modeOf new = none → ∃ left, o = .fault (.corruptMode left) ∧ LeftFatal [] s left) ∧
        (modeOf new ≠ none → psrBit new 5 ≠ s.thumb → o = .refused .msrChangesT) ∧
        (modeOf new ≠ none → psrBit new 5 = s.thumb →
          ∃ t, o = .next t ∧ t.cpsr = new ∧ KeepsAllBut [] s t ∧ SameMemory s t ∧ GoesOn s t) := by
  intro sel
  refine ⟨mergePsr s.cpsr (cpsrMask mask s.mode) v, ?_, ?_, ?_, ?_⟩
  · intro i hi; rw [mergePsr_bit _ _ _ _ hi, cpsrMask_bit _ _ _ hi]
  · intro h; subst ho; refine ⟨s.started.setStop .fatal, ?_, rfl, rfl, rfl, rfl, fun p _ _ => ?_, fun _ => rfl⟩
    · simp [psrWrite, h, fatalCorruptMode]
    · cases p <;> rfl
  · intro h h2; subst ho
    have : (modeOf (mergePsr s.cpsr (cpsrMask mask s.mode) v)).isNone = false := by
      cases h : modeOf (mergePsr s.cpsr (cpsrMask mask s.mode) v) <;> simp_all
    simp [psrWrite, this, h2]
  · intro h h2; subst ho
    have : (modeOf (mergePsr s.cpsr (cpsrMask mask s.mode) v)).isNone = false := by
      cases h : modeOf (mergePsr s.cpsr (cpsrMask mask s.mode) v) <;> simp_all
    simp only [psrWrite, Bool.false_eq_true, if_false, State.started_cpsr, State.started_mode, this, h2, State.started_thumb, bne_self_eq_false]
    refine ⟨_, rfl, rfl, keepsAllBut_intro ?_ ?_ ?_ ?_ ?_ ?_ ?_ ?_, ?_, ?_⟩
    · intro p hp hn; simp [hp]
    all_goals simp [SameMemory, GoesOn]
    rw [State.setCpsr_isz_of_thumb]; rfl; exact h2

/-- A Data Abort after a write-back (spec/60_exceptions.md R407). -/
theorem dataAbort_enters (a : Word) (wb : Option (Reg × Word)) (s s1 : State) (hc : s1.cpsr = s.cpsr) (hr : s1.regs = s.regs) (hpc : s1.pc = s.pc)
   (hs : s1.spsr = s.spsr) (hl : s1.lines = s.lines) (hp : s1.plain = s.plain) (hst : s1.stop = s.stop) (halfWriteback_names : ∀ n x, wb = some (n, x) → n ≠ 15):
   AbortsWithBase wb s (dataAbort a (s1.writeBack wb)) := by
  have hd := dispatch_fields (e := .dataAbort) (m := .abt) rfl ((s1.writeBack wb).pc + 8) (.addr a) ((s1.writeBack wb).setDispatcher .pending)
  change let t := dataAbort a (s1.writeBack wb); _ at hd
  unfold dataAbort raise
  generalize dispatch _ _ _ _ = t at hd ⊢
  simp only [State.setDispatcher_cpsr, State.setDispatcher_spsr, State.setDispatcher_mem, State.setDispatcher_stop, State.setDispatcher_lines, State.setDispatcher_plain, State.writeBack_pc, State.writeBack_cpsr, State.writeBack_spsr, State.writeBack_stop, State.writeBack_lines, State.writeBack_plain, hc, hpc, hs, hl, hp, hst] at hd
  obtain ⟨d1, d2, d3, d4, d5, d6, d7, d8, d9, d10, d11, d12, d13⟩ := hd
  have hph : ∀ q, q ≠ .r15 → t.getPhys q = if PhysReg.lr .abt = q then s.pc + 8 else (s1.writeBack wb).getPhys q := by
    intro q hq
    rw [State.getPhys_eq_of_regs hq d1, State.getPhys_setPhys]
    simp [hq, bankOf]
  have hsp : ∀ m, t.getSpsr m = if Mode.abt = m then some s.cpsr else s.getSpsr m := by
    intro m
    rw [State.getSpsr_eq d4, State.getSpsr_setSpsr]
    split
    · rename_i h; subst h; rfl
    · exact State.getSpsr_eq (by simpa using hs) m
  refine ⟨⟨?_, ?_, ?_, ?_, ?_, ?_, ?_, ?_, d2, d6, d7, d8⟩, ?_, ?_, d10, d12⟩
  · rw [hph _ (by simp)]; simp [bankOf]
  · rw [hsp]; simp
  · intro m' h; rw [hsp, if_neg (Ne.symm h)]
  · rw [d3]; simp
  · simp only [State.thumb, d3]; rw [psrBit_entryPsr _ _ _ _ (by decide)]; rfl
  · simp only [State.flagI, d3]; rw [psrBit_entryPsr _ _ _ _ (by decide)]; rfl
  · simp only [State.flagF, d3]; rw [psrBit_entryPsr _ _ _ _ (by decide)]; simp [descriptor, applyMask]
  · rw [d3, entryPsr_high]
  · intro n x hw hn
    have hn15 : n ≠ 15#4 := halfWriteback_names _ _ hw
    rw [hph _ (by simp [hn15]), if_neg (Ne.symm hn), hw]
    simp only [State.writeBack]
    have hm : s1.mode = s.mode := State.mode_eq hc
    rw [State.getPhys_writeReg, hm]; simp [hn15]
  · intro p hp hn
    simp only [List.mem_cons, not_or] at hn
    rw [hph _ hp, if_neg (Ne.symm hn.1)]
    cases wb with
    | none => exact State.getPhys_eq_of_regs hp hr
    | some b =>
      obtain ⟨n, x⟩ := b
      simp only [State.writeBack, State.getPhys_writeReg, State.mode_eq hc]
      rw [if_neg (by simp at hn; intro h; exact hn.2 h.1.symm)]
      exact State.getPhys_eq_of_regs hp hr

/-- The answer of a read does not see the hazard or the report. -/
theorem readAnswer_started (s : State) (a sz) : s.started.readAnswer a sz = s.readAnswer a sz := by
  have bytes : ∀ (a n : Nat), s.started.bytesAt a n = s.bytesAt a n := by
    intro a n
    induction n generalizing a with
    | zero => rfl
    | succ n ih => simp [State.bytesAt, State.byteAt, ih]
  have allp : ∀ (a n : Nat), s.started.allPlain a n = s.allPlain a n := by
    intro a n
    induction n generalizing a with
    | zero => rfl
    | succ n ih => simp [State.allPlain, State.inPlain, ih]
  have : s.started.answer = s.answer := rfl
  simp [State.readAnswer, State.plainAccess, bytes, allp, this]

/-- Nor does what is memory. -/
theorem plainAccess_started (s : State) (a sz) : s.started.plainAccess a sz = s.plainAccess a sz := by
  have allp : ∀ (a n : Nat), s.started.allPlain a n = s.allPlain a n := by
    intro a n
    induction n generalizing a with
    | zero => rfl
    | succ n ih => simp [State.allPlain, State.inPlain, ih]
  simp [State.plainAccess, allp]

/-- Two states see the same accesses: the same regions, the same answers to come, the same instruction at R15. -/
def SameAccesses (s t : State) : Prop :=
  t.plain = s.plain ∧ t.bus = s.bus ∧ t.draws = s.draws ∧ t.pc = s.pc ∧ t.cpsr = s.cpsr

/-- What is memory depends on the regions alone. -/
theorem plainAccess_congr {s t : State} (h : t.plain = s.plain) (a sz) : t.plainAccess a sz = s.plainAccess a sz := by
  have allp : ∀ (a n : Nat), t.allPlain a n = s.allPlain a n := by
    intro a n
    induction n generalizing a with
    | zero => rfl
    | succ n ih => simp [State.allPlain, State.inPlain, ih, h]
  simp [State.plainAccess, allp]

/-- So do the answers. -/
theorem SameAccesses.answer {s t : State} (h : SameAccesses s t) : t.answer = s.answer := by
  simp [State.answer, h.2.1, h.2.2.1]

/-- And whether a write is answered ok. -/
theorem SameAccesses.writeAnswersOk {s t : State} (h : SameAccesses s t) (a sz) :
    t.writeAnswersOk a sz = s.writeAnswersOk a sz := by
  simp [State.writeAnswersOk, plainAccess_congr h.1, h.answer]

/-- And the check of a write against the prefetched slots (spec/70_reset_and_hazards.md R440). -/
theorem SameAccesses.wouldSelfModify {s t : State} (h : SameAccesses s t) (a sz) :
    t.wouldSelfModify a sz = s.wouldSelfModify a sz := by
  have win : ∀ a, t.inPrefetchWindow a = s.inPrefetchWindow a := by
    intro a; simp [State.inPrefetchWindow, h.2.2.2.1, State.isz_eq h.2.2.2.2]
  have bytes : ∀ (a : Word) (n), t.selfModifies a n = s.selfModifies a n := by
    intro a n
    induction n generalizing a with
    | zero => rfl
    | succ n ih => simp [State.selfModifies, win, ih]
  simp [State.wouldSelfModify, plainAccess_congr h.1, h.answer, win, bytes]

/-- They see the same accesses after a write as well. -/
theorem SameAccesses.afterWrite {s t : State} (h : SameAccesses s t) (a sz) :
    SameAccesses (s.afterWrite a sz) (t.afterWrite a sz) := by
  obtain ⟨h1, h2, h3, h4, h5⟩ := h
  simp only [State.afterWrite, plainAccess_congr h1]
  split
  · exact ⟨h1, h2, h3, h4, h5⟩
  · cases hb : s.bus <;> simp [SameAccesses, State.answered, h2, hb, h1, h3, h4, h5]

/-- And the check of a store multiple. -/
theorem SameAccesses.wordsSelfModify {s t : State} (h : SameAccesses s t) (a : Word) (n) :
    t.wordsSelfModify a n = s.wordsSelfModify a n := by
  induction n generalizing a s t with
  | zero => rfl
  | succ n ih => simp [State.wordsSelfModify, h.wouldSelfModify, ih (h.afterWrite a .word)]

/-- And the first write that aborts. -/
theorem SameAccesses.firstWriteAbort {s t : State} (h : SameAccesses s t) (a : Word) (n) :
    t.firstWriteAbort a n = s.firstWriteAbort a n := by
  induction n generalizing a s t with
  | zero => rfl
  | succ n ih => simp [State.firstWriteAbort, h.writeAnswersOk, ih (h.afterWrite a .word)]

/-- The state an effect starts from sees the accesses of the state before. -/
theorem sameAccesses_started (s : State) : SameAccesses s s.started := ⟨rfl, rfl, rfl, rfl, rfl⟩

/-- A write is answered in one state and leaves the next answer to the next. -/
theorem sameAccesses_memWrite (a : Word) (sz v kind locked) (s : State) :
    SameAccesses (s.afterWrite a sz) (memWrite a sz v kind locked s).2 := by
  unfold memWrite State.afterWrite
  split
  · simp [SameAccesses]
  · cases hb : s.bus <;> simp [SameAccesses, State.answered, hb]

/-- A load that is answered (spec/45_single_transfer.md R251). -/
theorem loadRegister_answered (addr : Word) (sz : Size) (kind : AccessKind) (wb : Option (Reg × Word)) (rd : Reg) (ext : Word → Word) (s : State) (v : Word)
   (hrd : rd ≠ 15) (halfWriteback_names : ∀ n x, wb = some (n, x) → n ≠ 15 ∧ n ≠ rd) (hv : s.readAnswer addr sz = some v) :
   ∃ t, loadRegister addr sz kind wb rd ext s.started = .next t ∧ LoadsInto rd (ext v) wb { addr := addr, size := sz, write := none, kind := kind, locked := false } s t := by
  have hrd' : rd ≠ 15#4 := hrd
  unfold loadRegister
  have h1 : (memRead addr sz kind false s.started).1 = some v := by rw [readAnswer_eq, readAnswer_started, hv]
  have hf := memRead_frame addr sz kind false s.started
  have hq := memRead_requests addr sz kind false s.started
  generalize memRead addr sz kind false s.started = m at h1 hf hq
  obtain ⟨o, s1⟩ := m
  simp only at h1 hf hq; subst h1
  obtain ⟨f1, f2, f3, f4, f5, f6, f7, f8, f9, f10, f11⟩ := hf
  simp only [hrd, if_false]
  have hm : s1.mode = s.mode := State.mode_eq f3
  refine ⟨_, rfl, ?_, ?_, ?_, keepsAllBut_intro ?_ ?_ ?_ ?_ ?_ ?_ ?_ ?_, ?_, ?_, ?_⟩
  · simp [State.getPhys_writeReg, hm, hrd']
  · intro n x hw
    have ⟨h1, h2⟩ := halfWriteback_names n x hw
    have h1' : n ≠ 15#4 := h1
    have : ¬ physReg s.mode rd = physReg s.mode n := fun h => h2 (physReg_injective _ h).symm
    subst hw
    simp [State.getPhys_writeReg, hm, h1', this, State.writeBack]
  · simp [f3]
  · intro p hp hn
    simp only [List.mem_cons, not_or] at hn
    rw [State.advance_getPhys _ hp, State.getPhys_writeReg]
    rw [if_neg (by simp [hm]; intro h; exact absurd h.symm hn.1)]
    cases wb with
    | none => exact State.getPhys_eq_of_regs hp f1
    | some b =>
      obtain ⟨n, x⟩ := b
      simp only [State.writeBack, State.getPhys_writeReg, hm]
      rw [if_neg (by simp at hn; intro h; exact hn.2 h.1.symm)]
      exact State.getPhys_eq_of_regs hp f1
  · simp [f4]
  · simp [f7]
  · simp [f8]
  · simp [f9]
  · simp [f10]
  · simp [f6]
  · simp [f11]
  · simp [SameMemory, f5]
  · simp [GoesOn, f2]; exact State.isz_eq f3
  · simp [hq]

/-- A load that aborts (R260). -/
theorem loadRegister_aborted (addr : Word) (sz : Size) (kind : AccessKind) (wb : Option (Reg × Word)) (rd : Reg) (ext : Word → Word) (s : State)
   (halfWriteback_names : ∀ n x, wb = some (n, x) → n ≠ 15) (hv : s.readAnswer addr sz = none) :
   ∃ t, loadRegister addr sz kind wb rd ext s.started = .next t ∧ SameMemory s t ∧ AbortsWithBase wb s t := by
  unfold loadRegister
  have h1 : (memRead addr sz kind false s.started).1 = none := by rw [readAnswer_eq, readAnswer_started, hv]
  have hf := memRead_frame addr sz kind false s.started
  generalize memRead addr sz kind false s.started = m at h1 hf
  obtain ⟨o, s1⟩ := m
  simp only at h1 hf; subst h1
  obtain ⟨f1, f2, f3, f4, f5, f6, f7, f8, f9, f10, f11⟩ := hf
  refine ⟨_, rfl, ?_, dataAbort_enters _ _ _ _ f3 f1 f2 f4 f9 f10 f8 halfWriteback_names⟩
  intro a
  have := (dispatch_fields (e := .dataAbort) (m := .abt) rfl ((s1.writeBack wb).pc + 8) (.addr addr) ((s1.writeBack wb).setDispatcher .pending)).2.2.2.2.1
  unfold dataAbort raise
  rw [this]; simp [f5]

/-- A load into R15 (R251). -/
theorem loadRegister_pc (addr : Word) (sz : Size) (kind : AccessKind) (wb : Option (Reg × Word)) (ext : Word → Word) (s : State) (v : Word)
   (halfWriteback_names : ∀ n x, wb = some (n, x) → n ≠ 15) (hv : s.readAnswer addr sz = some v) :
   BranchesTo (ext v) (wb.map fun b => physReg s.mode b.1).toList s (loadRegister addr sz kind wb 15 ext s.started) ∧
    (∀ t n x, loadRegister addr sz kind wb 15 ext s.started = .next t → wb = some (n, x) → t.getPhys (physReg s.mode n) = x) := by
  unfold loadRegister
  have h1 : (memRead addr sz kind false s.started).1 = some v := by rw [readAnswer_eq, readAnswer_started, hv]
  have hf := memRead_frame addr sz kind false s.started
  generalize memRead addr sz kind false s.started = m at h1 hf
  obtain ⟨o, s1⟩ := m
  simp only at h1 hf; subst h1
  obtain ⟨f1, f2, f3, f4, f5, f6, f7, f8, f9, f10, f11⟩ := hf
  have hm : s1.mode = s.mode := State.mode_eq f3
  simp only [if_true]
  constructor
  · refine branchTo_branchesTo _ _ _ _ (by simp [f3]) (by simp [f5]) (keepsAllBut_intro ?_ ?_ ?_ ?_ ?_ ?_ ?_ ?_)
    · intro p hp hn
      cases wb with
      | none => exact State.getPhys_eq_of_regs hp f1
      | some b =>
        obtain ⟨n, x⟩ := b
        simp only [State.writeBack, State.getPhys_writeReg, hm]
        rw [if_neg (by simp at hn; intro h; exact hn h.1.symm)]
        exact State.getPhys_eq_of_regs hp f1
    all_goals simp [f4,f7,f8,f9,f10,f6,f11]
  · intro t n x ht hw
    have h15 : n ≠ 15#4 := halfWriteback_names n x hw
    rcases branchTo_cases (ext v) (s1.writeBack wb) with ⟨h, _⟩ | ⟨h, _⟩ <;> rw [h] at ht
    · cases ht
    · cases ht; subst hw; simp [State.writeBack, h15, State.getPhys_writeReg, hm]

/-- A write's memory effect, seen from the state before the instruction. -/
theorem stores_of_frame {s s1 t : State} {addr sz v} (hp : s1.plainAccess addr sz = s.plainAccess addr sz) (hm : s1.mem = s.mem) (ha : s1.answer = s.answer) (h : t.mem = s1.memAfterWrite addr sz v) : Stores s t addr sz v := by
  apply stores_memAfterWrite; rw [h]; simp [State.memAfterWrite, hp, hm, ha]

/-- A store that is answered (R253). -/
theorem storeRegister_answered (addr : Word) (sz : Size) (kind : AccessKind) (wb : Option (Reg × Word)) (v : Word) (s : State)
   (halfWriteback_names : ∀ n x, wb = some (n, x) → n ≠ 15) (hsm : s.wouldSelfModify addr sz = false) (hv : s.writeAnswersOk addr sz = true) :
   ∃ t, storeRegister addr sz kind wb v s.started = .next t ∧ StoresFrom addr sz v wb { addr := addr, size := sz, write := some (sz.low v), kind := kind, locked := false } s t := by
  unfold storeRegister
  rw [(sameAccesses_started s).wouldSelfModify, hsm]
  have hwo : s.started.writeAnswersOk addr sz = s.writeAnswersOk addr sz := by simp [State.writeAnswersOk, plainAccess_started]; rfl
  have h1 : (memWrite addr sz v kind false s.started).1 = false := by rw [writeAnswersOk_eq, hwo, hv]; rfl
  have hf := memWrite_frame addr sz v kind false s.started
  have hq := memWrite_requests addr sz v kind false s.started
  generalize memWrite addr sz v kind false s.started = m at h1 hf hq
  obtain ⟨o, s1⟩ := m
  simp only at h1 hf hq; subst h1
  obtain ⟨f1, f2, f3, f4, f5, f6, f7, f8, f9, f10, f11⟩ := hf
  have hm : s1.mode = s.mode := State.mode_eq f3
  simp only [Bool.false_eq_true, if_false]
  refine ⟨_, rfl, ?_, ?_, ?_, keepsAllBut_intro ?_ ?_ ?_ ?_ ?_ ?_ ?_ ?_, ?_, ?_⟩
  · exact stores_of_frame (s1 := s.started) (plainAccess_started ..) rfl rfl (by simp [f5])
  · intro n x hw
    have h1' : n ≠ 15#4 := halfWriteback_names n x hw
    subst hw
    simp [State.getPhys_writeReg, hm, h1', State.writeBack]
  · simp [f3]
  · intro p hp hn
    rw [State.advance_getPhys _ hp]
    cases wb with
    | none => exact State.getPhys_eq_of_regs hp f1
    | some b =>
      obtain ⟨n, x⟩ := b
      simp only [State.writeBack, State.getPhys_writeReg, hm]
      rw [if_neg (by simp at hn; intro h; exact hn h.1.symm)]
      exact State.getPhys_eq_of_regs hp f1
  · simp [f4]
  · simp [f7]
  · simp [f8]
  · simp [f9]
  · simp [f10]
  · simp [f6]
  · simp [f11]
  · simp [GoesOn, f2]; exact State.isz_eq f3
  · simp [hq]

/-- A store that aborts (R260). -/
theorem storeRegister_aborted (addr : Word) (sz : Size) (kind : AccessKind) (wb : Option (Reg × Word)) (v : Word) (s : State)
   (halfWriteback_names : ∀ n x, wb = some (n, x) → n ≠ 15) (hsm : s.wouldSelfModify addr sz = false) (hv : s.writeAnswersOk addr sz = false) :
   ∃ t, storeRegister addr sz kind wb v s.started = .next t ∧ Stores s t addr sz v ∧ AbortsWithBase wb s t := by
  unfold storeRegister
  rw [(sameAccesses_started s).wouldSelfModify, hsm]
  have hwo : s.started.writeAnswersOk addr sz = s.writeAnswersOk addr sz := by simp [State.writeAnswersOk, plainAccess_started]; rfl
  have h1 : (memWrite addr sz v kind false s.started).1 = true := by rw [writeAnswersOk_eq, hwo, hv]; rfl
  have hf := memWrite_frame addr sz v kind false s.started
  generalize memWrite addr sz v kind false s.started = m at h1 hf
  obtain ⟨o, s1⟩ := m
  simp only at h1 hf; subst h1
  obtain ⟨f1, f2, f3, f4, f5, f6, f7, f8, f9, f10, f11⟩ := hf
  simp only [Bool.false_eq_true, if_false]
  refine ⟨_, rfl, ?_, dataAbort_enters _ _ _ _ f3 f1 f2 f4 f9 f10 f8 halfWriteback_names⟩
  refine stores_of_frame (s1 := s.started) (plainAccess_started ..) rfl rfl ?_
  have := (dispatch_fields (e := .dataAbort) (m := .abt) rfl ((s1.writeBack wb).pc + 8) (.addr addr) ((s1.writeBack wb).setDispatcher .pending)).2.2.2.2.1
  unfold dataAbort raise
  rw [this]; simp [f5]

/-- A single transfer of an allowed form is refused nothing (R250). -/
theorem transferRefusals_none (wb byte : Bool) (rn rd : Reg) (off : TransferOffset) (h : TransferFormOk wb byte rn rd off) : firstRefusal (transferRefusals wb byte rn rd off) = none := by
  obtain ⟨h1, h2, h3⟩ := h
  have is : ∀ n, transferOffsetIs off n = decide (n ∈ transferOffsetRegs off) := by
    intro n; cases off <;> simp [transferOffsetIs, transferOffsetRegs]
    rename_i a b rm; by_cases h : n = rm
    · simp [h]
    · simp [h, Ne.symm h]
  have h3' : byte = true → ¬ rd = 15#4 := h3
  have h1' : 15#4 ∉ transferOffsetRegs off := h1
  have h2' : wb = true → rn ≠ 15#4 ∧ rn ≠ rd ∧ rn ∉ transferOffsetRegs off := h2
  rw [firstRefusal_eq_none_iff]
  simp only [transferRefusals, is, List.mem_cons, List.not_mem_nil, or_false]
  rintro e (rfl|rfl|rfl|rfl|rfl)
  · simpa using h1'
  · cases wb <;> simp_all
  · cases wb <;> simp_all
  · cases wb <;> simp_all
  · cases byte <;> simp_all

/-- The register a write-back names. -/
theorem writebackIf_names {wb : Bool} {rn rd : Reg} {v : Word} {P : Prop} (hfo : wb = true → rn ≠ 15 ∧ rn ≠ rd ∧ P) :
   ∀ n x, writebackIf wb rn v = some (n, x) → n ≠ 15 ∧ n ≠ rd := by
    intro n x hw
    unfold writebackIf at hw
    split at hw
    · rename_i h; cases hw; exact ⟨(hfo h).1, (hfo h).2.1⟩
    · cases hw

/-- A halfword transfer of an allowed form is refused nothing (spec/42_halfword_transfer.md R200). -/
theorem halfRefusals_none (p w : Bool) (rn rd : Reg) (off : HalfOffset) (h : HalfFormOk p w rn rd off) : firstRefusal (halfRefusals p w rn rd off) = none := by
  obtain ⟨h1, h2, h3, h4⟩ := h
  have h4' : p = false ∨ w = true → ¬ rn = 15#4 ∧ ¬ rn = rd := h4
  have h3' : ¬ rd = 15#4 := h3
  rw [firstRefusal_eq_none_iff]
  intro e he
  simp only [halfRefusals, List.mem_append, List.mem_cons, List.not_mem_nil, or_false] at he
  rcases he with he | rfl|rfl|rfl|rfl
  · cases off with
    | imm => simp [halfOffsetRefusals] at he
    | reg sbz rm =>
      have ⟨ha, hb⟩ := h1 _ _ rfl
      have hb' : ¬ rm = 15#4 := hb
      simp only [halfOffsetRefusals, List.mem_cons, List.not_mem_nil, or_false] at he
      rcases he with rfl | rfl
      · simp [ha]
      · simpa using hb'
  · cases p <;> cases w <;> simp_all
  · cases p <;> cases w <;> simp_all
  · simpa using h3'
  · cases p <;> cases w <;> simp_all

/-- The register a halfword transfer writes back. -/
theorem halfWriteback_names (p u w : Bool) (rn rd : Reg) (off : HalfOffset) (s : State) (h : HalfFormOk p w rn rd off) : ∀ n x, halfWriteback p u w rn off s = some (n, x) → n ≠ 15 ∧ n ≠ rd := by
    intro n x hw
    unfold halfWriteback writebackIf at hw
    split at hw
    · rename_i hh; cases hw; have := h.2.2.2 (by cases p <;> simp_all); exact ⟨this.1, this.2⟩
    · cases hw

/-- Consecutive word writes in memory leave their words (spec/46_block_transfer.md R270). -/
theorem storeWords_stores (first : Word) (values : List Word) (s : State) (hp : s.PlainWords first values.length) :
   (storeWords first values s).1 = none ∧ 
   (∀ (k i : Nat) (v : Word), values[k]? = some v → i < 4 → 4 * values.length ≤ 64 → 
    (storeWords first values s).2.mem.read ((first + BitVec.ofNat 32 (4 * k)).toNat + i) = some ((v >>> (8 * i)).setWidth 8)) ∧
  (∀ a : Nat, (∀ k : Nat, k < values.length →
      a < (first + BitVec.ofNat 32 (4 * k)).toNat ∨ (first + BitVec.ofNat 32 (4 * k)).toNat + 4 ≤ a) →
    (storeWords first values s).2.mem.read a = s.mem.read a) := by
  have allp : ∀ (s t : State) (a n : Nat), t.plain = s.plain → t.allPlain a n = s.allPlain a n := by
    intro s t a n hp
    induction n generalizing a with
    | zero => rfl
    | succ n ih => simp [State.allPlain, State.inPlain, ih, hp]
  induction values generalizing first s with
  | nil => simp [storeWords]
  | cons v vs ih =>
    have h0 : s.plainAccess first .word = true := by simpa using hp 0 (by simp)
    have g1 : (memWrite first .word v .data false s).1 = false := by rw [memWrite_fst, h0]; rfl
    have gf := memWrite_frame first .word v .data false s
    generalize hm : (memWrite first .word v .data false s) = m at g1 gf
    obtain ⟨o, s1⟩ := m
    simp only at g1 gf; subst g1
    have hp' : s1.PlainWords (first + 4) vs.length := by
      intro k hk
      have := hp (k + 1) (by simpa using hk)
      have e : first + BitVec.ofNat 32 (4 * (k + 1)) = first + 4 + BitVec.ofNat 32 (4 * k) := by
        rw [BitVec.add_assoc]; congr 1; apply BitVec.eq_of_toNat_eq; simp; omega
      rw [e] at this
      rw [← this]; simp only [State.plainAccess]; rw [allp s s1 _ _ (by simp [gf])]
    obtain ⟨i1, i2, i3⟩ := ih (first + 4) s1 hp'
    have hr : ∀ a, s1.mem.read a = if first.toNat ≤ a ∧ a < first.toNat + 4 then some ((v >>> (8 * (a - first.toNat))).setWidth 8) else s.mem.read a := by
      intro a; rw [gf.2.2.2.2.1, State.read_memAfterWrite _ _ h0]; rfl
    have e : ∀ k, first + BitVec.ofNat 32 (4 * (k + 1)) = first + 4 + BitVec.ofNat 32 (4 * k) := by
      intro k; rw [BitVec.add_assoc]; congr 1; apply BitVec.eq_of_toNat_eq; simp; omega
    have al : first.toNat % 4 = 0 := by
      simp only [State.plainAccess, Bool.and_eq_true, beq_iff_eq] at h0; exact h0.1
    simp only [storeWords, hm, Bool.false_eq_true, if_false]
    refine ⟨i1, ?_, ?_⟩
    · intro k i w hk hi hl
      cases k with
      | zero =>
        simp at hk; subst hk
        rw [i3, hr, if_pos (by simp; omega)]
        · simp
        · intro k hk
          simp at hl
          have : (first + 4 + BitVec.ofNat 32 (4 * k)).toNat = (first.toNat + 4 + 4 * k) % 2 ^ 32 := by simp
          rw [this]; simp; omega
      | succ k =>
        rw [e]; exact i2 k i w (by simpa using hk) hi (by simp at hl; omega)
    · intro a ha
      rw [i3, hr, if_neg]
      · have := ha 0 (by simp); simp at this; omega
      · intro k hk
        have := ha (k + 1) (by simpa using hk)
        rwa [e] at this

/-- Whether a store multiple aborts, and where first (R277). -/
theorem storeWords_fst (first : Word) (values : List Word) (s : State) :
    (storeWords first values s).1 = s.firstWriteAbort first values.length := by
  induction values generalizing first s with
  | nil => rfl
  | cons v vs ih =>
    simp only [storeWords, List.length_cons, State.firstWriteAbort, writeAnswersOk_eq, ih]
    rw [← (sameAccesses_memWrite first .word v .data false s).firstWriteAbort]
    cases s.writeAnswersOk first .word <;> simp

/-- Its writes, each leaving what its own answer says. -/
theorem storeWords_writesInTurn (first : Word) (values : List Word) {s s0 t : State} (h : SameAccesses s0 s)
    (hm : s.mem = s0.mem) (ht : t.mem = (storeWords first values s).2.mem) : WritesInTurn first values s0 t := by
  induction values generalizing first s s0 with
  | nil => intro a; rw [ht, ← hm]; rfl
  | cons v vs ih =>
    have hw := (memWrite_frame first .word v .data false s).2.2.2.2.1
    refine ⟨s.memAfterWrite first .word v, ?_, ih (first + 4) ?_ hw ht⟩
    · apply stores_memAfterWrite
      simp [State.memAfterWrite, plainAccess_congr h.1, hm, h.answer]
    · obtain ⟨a1, a2, a3, a4, a5⟩ := sameAccesses_memWrite first .word v .data false s
      obtain ⟨b1, b2, b3, b4, b5⟩ := h.afterWrite first .word
      exact ⟨a1.trans b1, a2.trans b2, a3.trans b3, a4.trans b4, a5.trans b5⟩

/-- Its requests (spec/20_memory.md R80). -/
theorem storeWords_requests (first : Word) (values : List Word) (s : State) :
    (storeWords first values s).2.out.requests = s.out.requests ++ writeRequests first values := by
  induction values generalizing first s with
  | nil => simp [storeWords, writeRequests]
  | cons v vs ih => simp [storeWords, ih, memWrite_requests, writeRequests, Size.low]

/-- A data abort keeps memory and the requests. -/
theorem dataAbort_outputs (a : Word) (s : State) :
    (dataAbort a s).mem = s.mem ∧ (dataAbort a s).out.requests = s.out.requests ∧
    (dataAbort a s).out.report = .exception .dataAbort s.pc (.addr a) := by
  have hd := dispatch_fields (e := .dataAbort) (m := .abt) rfl (s.pc + 8) (.addr a) (s.setDispatcher .pending)
  unfold dataAbort raise
  generalize dispatch _ _ _ _ = t at hd ⊢
  obtain ⟨d1, d2, d3, d4, d5, d6, d7, d8, d9, d10, d11, d12, d13⟩ := hd
  exact ⟨d5, by rw [d13]; rfl, by rw [d13]; rfl⟩

/-- A store multiple, in all its outcomes (R272, R277); it runs from the state after the draw of an UNKNOWN base. -/
theorem storeBlock_stores (first : Word) (values : List Word) (wb : Option (Reg × Word)) (s : State) (b : Bool)
    (hl : values.length ≤ 16) (hwb : ∀ n x, wb = some (n, x) → n ≠ 15) :
    StoresBlock first values wb (s.drawnIf b) s (storeBlock first values wb (s.started.drawnIf b)) := by
  have hacc : SameAccesses (s.drawnIf b) (s.started.drawnIf b) := by cases b <;> exact ⟨rfl, rfl, rfl, rfl, rfl⟩
  have hmem : (s.started.drawnIf b).mem = (s.drawnIf b).mem := by cases b <;> rfl
  have hplain : (s.started.drawnIf b).plain = s.plain := by cases b <;> rfl
  have hreq : (s.started.drawnIf b).out.requests = s.out.requests := by cases b <;> rfl
  have h0 : s.started.drawnIf b = s.started ∨ s.started.drawnIf b = s.started.drawn := by
    cases b
    · exact .inl rfl
    · exact .inr rfl
  unfold storeBlock
  rw [hacc.wordsSelfModify]
  refine ⟨fun h => by rw [h]; rfl, fun h => ?_⟩
  rw [h]
  have i1 := storeWords_fst first values (s.started.drawnIf b)
  have iw := fun t => storeWords_writesInTurn (t := t) first values hacc hmem
  have iq := storeWords_requests first values (s.started.drawnIf b)
  have is := storeWords_stores first values (s.started.drawnIf b)
  have hf := storeWords_frame first values (s.started.drawnIf b)
  rw [hacc.firstWriteAbort] at i1
  have hps : s.PlainWords first values.length → (s.started.drawnIf b).PlainWords first values.length := by
    intro hp k hk
    rw [plainAccess_congr hplain]; exact hp k hk
  have hm0 : (s.started.drawnIf b).mem = s.mem := by cases b <;> rfl
  rw [hm0] at is
  rw [hreq] at iq
  generalize s.started.drawnIf b = s0 at *
  generalize storeWords first values s0 = m at i1 iw iq is hf
  obtain ⟨o, s1⟩ := m
  simp only at i1 iw iq is hf; subst i1
  obtain ⟨f1, f2, f3, f4, f5, f6, f7, f8, f9, f10⟩ := hf
  have g1 : s1.regs = s.regs := f1.trans (by rcases h0 with rfl | rfl <;> rfl)
  have g2 : s1.pc = s.pc := f2.trans (by rcases h0 with rfl | rfl <;> rfl)
  have g3 : s1.cpsr = s.cpsr := f3.trans (by rcases h0 with rfl | rfl <;> rfl)
  have g4 : s1.spsr = s.spsr := f4.trans (by rcases h0 with rfl | rfl <;> rfl)
  have g5 : s1.hazard = false := f5.trans (by rcases h0 with rfl | rfl <;> rfl)
  have g6 : s1.dispatcher = s.dispatcher := f6.trans (by rcases h0 with rfl | rfl <;> rfl)
  have g7 : s1.stop = s.stop := f7.trans (by rcases h0 with rfl | rfl <;> rfl)
  have g8 : s1.lines = s.lines := f8.trans (by rcases h0 with rfl | rfl <;> rfl)
  have g9 : s1.plain = s.plain := f9.trans (by rcases h0 with rfl | rfl <;> rfl)
  have g10 : s1.out.report = .completed := f10.trans (by rcases h0 with rfl | rfl <;> rfl)
  have hmd : s1.mode = s.mode := State.mode_eq g3
  have words : ∀ t : State, t.mem = s1.mem → s.PlainWords first values.length → StoresWords s t first values := by
    intro t ht hp
    obtain ⟨_, i2, i3⟩ := is (hps hp)
    exact ⟨fun k i v hk hi => by rw [ht]; exact i2 k i v hk hi (by omega), fun a ha => by rw [ht]; exact i3 a ha⟩
  cases ha : (s.drawnIf b).firstWriteAbort first values.length with
  | none =>
    simp only [Bool.false_eq_true, if_false]
    refine ⟨_, rfl, iw _ (by simp), words _ (by simp), by simpa using iq, ?_, by simp [g3],
      keepsAllBut_intro ?_ ?_ ?_ ?_ ?_ ?_ ?_ ?_, by simp [GoesOn, g2, State.isz_eq g3]⟩
    · intro n x hw
      have h1' : n ≠ 15#4 := hwb n x hw
      subst hw
      simp [State.getPhys_writeReg, hmd, h1', State.writeBack]
    · intro p hp hn
      rw [State.advance_getPhys _ hp]
      cases wb with
      | none => exact State.getPhys_eq_of_regs hp g1
      | some e =>
        obtain ⟨n, x⟩ := e
        simp only [State.writeBack, State.getPhys_writeReg, hmd]
        rw [if_neg (by simp at hn; intro h; exact hn h.1.symm)]
        exact State.getPhys_eq_of_regs hp g1
    all_goals simp [g4, g5, g6, g7, g8, g9, g10]
  | some a =>
    simp only [Bool.false_eq_true, if_false]
    obtain ⟨o1, o2, o3⟩ := dataAbort_outputs a (s1.writeBack wb)
    refine ⟨_, rfl, iw _ (by simpa using o1), words _ (by simpa using o1), ?_,
      dataAbort_enters _ _ _ _ g3 g1 g2 g4 g8 g9 g7 hwb, ?_⟩
    · rw [o2]; simpa using iq
    · rw [o3]; simp [g2]

/-- A register list has at most 16 registers. -/
theorem regList_length (l : BitVec 16) : (regList l).length ≤ 16 := by
  have := List.length_filter_le (fun r => l.getLsbD r.toNat) allRegs
  exact this

/-- A list that is not zero is not empty. -/
theorem regList_empty (l : BitVec 16) (h : l ≠ 0) : (regList l).isEmpty = false := by
  cases hl : regList l with
  | cons => rfl
  | nil =>
    exfalso; apply h
    apply BitVec.eq_of_getLsbD_eq
    intro i hi
    have := mem_regList l (BitVec.ofNat 4 i)
    rw [hl] at this
    simp at this
    rw [Nat.mod_eq_of_lt (by omega)] at this
    simpa using this

/-- A draw, or none. -/
theorem drawnIf_cases (s : State) (b : Bool) : s.started.drawnIf b = s.started ∨ s.started.drawnIf b = s.started.drawn := by
  cases b
  · exact .inl rfl
  · exact .inr rfl

/-- When no read aborts, every read has its value. -/
theorem beforeAbort_all (reads : List (Reg × Option Word)) (h : ∀ e ∈ reads, e.2 ≠ none) :
   (beforeAbort reads).map Prod.fst = reads.map Prod.fst ∧ ∀ r v, (r, v) ∈ beforeAbort reads ↔ (r, some v) ∈ reads := by
  have := beforeAbort_of_none_aborts h
  constructor
  · conv_rhs => rw [← this]
    simp
  · intro r v
    conv_rhs => rw [← this]
    simp

/-- A list without R15 loads no R15. -/
theorem loadedPc_none (vals : List (Reg × Word)) (h : 15 ∉ vals.map Prod.fst) : loadedPc vals = none := by
  unfold loadedPc
  rw [List.find?_eq_none.2]; rfl
  intro e he
  simp
  intro h2; exact h (List.mem_map.2 ⟨e, he, h2⟩)

/-- A list with R15 loads one. -/
theorem loadedPc_some (vals : List (Reg × Word)) (hn : (vals.map Prod.fst).Nodup) (h : 15 ∈ vals.map Prod.fst) : ∃ v, (15, v) ∈ vals ∧ loadedPc vals = some v := by
  unfold loadedPc
  obtain ⟨⟨r, v⟩, he, hr⟩ := List.mem_map.1 h
  cases hf : vals.find? (fun rv => rv.1 == 15) with
  | none => 
    rw [List.find?_eq_none] at hf
    have := hf _ he; simp at this; exact absurd hr this
  | some e =>
    have hm := List.mem_of_find?_eq_some hf
    have hp := List.find?_some hf
    obtain ⟨r', v'⟩ := e
    simp at hp; subst hp
    exact ⟨v', hm, rfl⟩

/-- The reads of a load multiple do not see the hazard or the report. -/
theorem loadWords_started (s : State) (first : Word) (regs) : (loadWords first regs s.started).1 = (loadWords first regs s).1 := loadWords_congr _ _ rfl rfl rfl rfl

/-- A load multiple in which no access aborts (R271, R274). -/
theorem loadBlock_cases (rn : Reg) (first : Word) (regs : List Reg) (wb : Option (Reg × Word)) (onPc : Word → State → Out) (s : State) (hnd : regs.Nodup)
   (halfWriteback_names : ∀ n x, wb = some (n, x) → n ≠ 15 ∧ n ∉ regs) (hall : ∀ e ∈ (loadWords first regs s).1, e.2 ≠ none) :
   ∃ s1 : State, (∀ r v, (r, some v) ∈ (loadWords first regs s).1 → r ≠ 15 → s1.getPhys (physReg s.mode r) = v) ∧ 
     (∀ n x, wb = some (n, x) → s1.getPhys (physReg s.mode n) = x) ∧ s1.cpsr = s.cpsr ∧ s1.pc = s.pc ∧ s1.mem = s.mem ∧
     KeepsAllBut ((wb.map fun b => physReg s.mode b.1).toList ++ regs.map (physReg s.mode)) s s1 ∧
     (15 ∉ regs → loadBlock rn first regs wb onPc s.started = .next s1.advance) ∧
     (15 ∈ regs → ∃ v, (15, some v) ∈ (loadWords first regs s).1 ∧ loadBlock rn first regs wb onPc s.started = onPc v s1) := by
  unfold loadBlock
  rw [loadWords_started]
  have hf := loadWords_frame first regs s.started
  have hregs := loadWords_regs first regs s
  generalize (loadWords first regs s.started).2 = s1 at hf
  generalize (loadWords first regs s).1 = reads at hall hregs
  obtain ⟨l1, l2⟩ := beforeAbort_all reads hall
  rw [hregs] at l1
  obtain ⟨f1, f2, f3, f4, f5, f6, f7, f8, f9, f10, f11⟩ := hf
  have hm : s1.mode = s.mode := State.mode_eq f3
  have hm' : (s1.writeBack wb).mode = s.mode := by simp [hm]
  simp only [firstAbort_of_none_aborts first hall]
  refine ⟨(s1.writeBack wb).writeRegs (beforeAbort reads), ?_, ?_, ?_, ?_, ?_, keepsAllBut_intro ?_ ?_ ?_ ?_ ?_ ?_ ?_ ?_, ?_, ?_⟩
  · intro r v hr h15
    have := State.getPhys_writeRegs_mem (s1.writeBack wb) (beforeAbort reads) (l1 ▸ hnd) r v ((l2 _ _).2 hr) h15
    rwa [hm'] at this
  · intro n x hw
    obtain ⟨h1, h2⟩ := halfWriteback_names n x hw
    have h1' : n ≠ 15#4 := h1
    rw [State.getPhys_writeRegs_other]
    · subst hw; simp [State.writeBack, State.getPhys_writeReg, hm, h1']
    · intro e he hq
      rw [hm'] at hq
      have := physReg_injective _ hq
      exact h2 (l1 ▸ List.mem_map.2 ⟨e, he, this⟩)
  · simp [f3]
  · simp [f2]
  · simp [f5]
  · intro p hp hn
    simp only [List.mem_append, not_or] at hn
    rw [State.getPhys_writeRegs_other]
    · cases wb with
      | none => exact State.getPhys_eq_of_regs hp f1
      | some b =>
        obtain ⟨n, x⟩ := b
        simp only [State.writeBack, State.getPhys_writeReg, hm]
        rw [if_neg (by intro h; exact hn.1 (by simp [h.1]))]
        exact State.getPhys_eq_of_regs hp f1
    · intro e he hq
      rw [hm'] at hq
      exact hn.2 (List.mem_map.2 ⟨e.1, l1 ▸ List.mem_map.2 ⟨e, he, rfl⟩, hq⟩)
  · simp [f4]
  · simp [f7]
  · simp [f8]
  · simp [f9]
  · simp [f10]
  · simp [f6]
  · simp [f11]
  · intro h; rw [loadedPc_none _ (by rwa [l1])]
  · intro h
    obtain ⟨v, h1, h2⟩ := loadedPc_some (beforeAbort reads) (by rwa [l1]) (by rwa [l1])
    rw [h2]
    exact ⟨v, (l2 _ _).1 h1, rfl⟩

/-- The advance of R15 keeps everything else. -/
theorem keepsAllBut_advance {ch s s1} (h : KeepsAllBut ch s s1) : KeepsAllBut ch s s1.advance := by
  obtain ⟨a, b, c, d, e⟩ := h
  exact ⟨fun p hp hn => by rw [State.advance_getPhys _ hp]; exact a p hp hn, by simpa [SameSpecial] using b, by simpa [SamePlatform] using c, by simpa using d, by simpa using e⟩

/-- A load multiple of an allowed form is refused nothing (R275). -/
theorem blockRefusals_none {w : Bool} {rn : Reg} {list : BitVec 16} (hrn : rn ≠ 15) (hl : list ≠ 0) (hw : w = true → rn ∉ regList list) : firstRefusal (blockRefusals true w rn (regList list)) = none := by
  simp only [blockRefusals]; rw [regList_empty _ hl, show (rn == 15) = false by simpa using hrn]
  cases w
  · rfl
  · have : (regList list).contains rn = false := by simpa using hw rfl
    rw [this]; rfl

/-- The base is not among the registers beforeAbort_all before an abort. -/
theorem writeRegs_filter_other (s : State) (vals : List (Reg × Word)) (rn : Reg) (h : rn ≠ 15) :
   (s.writeRegs (vals.filter fun rv => rv.1 != rn)).getPhys (physReg s.mode rn) = s.getPhys (physReg s.mode rn) := by
  apply State.getPhys_writeRegs_other
  intro e he hq
  simp at he
  exact he.2 (physReg_injective _ hq)

/-- The registers beforeAbort_all before an abort are among those read. -/
theorem beforeAbort_sublist (reads : List (Reg × Option Word)) : List.Sublist ((beforeAbort reads).map Prod.fst) (reads.map Prod.fst) := by
  induction reads with
  | nil => simp [beforeAbort]
  | cons e reads ih =>
    obtain ⟨r, v⟩ := e
    cases v <;> simp [beforeAbort, ih]

/-- Read `k` of a load multiple, in the state in which it is answered (spec/46_block_transfer.md R270). -/
theorem loadWords_getElem? (addr : Word) (regs : List Reg) (s : State) (k : Nat) (r : Reg) (h : regs[k]? = some r) :
    (loadWords addr regs s).1[k]? =
      some (r, (s.afterReads addr k).readAnswer (addr + BitVec.ofNat 32 (4 * k)) .word) := by
  have same : ∀ (addr : Word) (s : State), (memRead addr .word .data false s).2.plain = (s.afterRead addr .word).plain ∧
      (memRead addr .word .data false s).2.bus = (s.afterRead addr .word).bus ∧
      (memRead addr .word .data false s).2.draws = (s.afterRead addr .word).draws ∧
      (memRead addr .word .data false s).2.mem = (s.afterRead addr .word).mem := by
    intro addr s
    unfold memRead State.afterRead
    split
    · simp
    · cases hb : s.bus <;> simp [State.answered, hb]
  induction regs generalizing addr s k with
  | nil => simp at h
  | cons r' rs ih =>
    cases k with
    | zero =>
      simp only [List.getElem?_cons_zero, Option.some.injEq] at h
      subst h
      simp [loadWords, readAnswer_eq, State.afterReads]
    | succ k =>
      simp only [List.getElem?_cons_succ] at h
      simp only [loadWords, List.getElem?_cons_succ, State.afterReads]
      obtain ⟨h1, h2, h3, h4⟩ := same addr s
      rw [loadWords_congr (addr + 4) rs h4 h1 h2 h3]
      have e : addr + BitVec.ofNat 32 (4 * (k + 1)) = addr + 4 + BitVec.ofNat 32 (4 * k) := by
        rw [BitVec.add_assoc]; congr 1; apply BitVec.eq_of_toNat_eq; simp; omega
      rw [e]
      exact ih (addr + 4) (s.afterRead addr .word) k h

/-- The requests of a load multiple: every read is issued (spec/20_memory.md R80). -/
theorem loadWords_requests (addr : Word) (regs : List Reg) (s : State) :
    (loadWords addr regs s).2.out.requests = s.out.requests ++ readRequests addr regs.length := by
  induction regs generalizing addr s with
  | nil => simp [loadWords, readRequests]
  | cons r rs ih => simp [loadWords, ih, memRead_requests, readRequests]

/-- The first abort, and what was read before it (spec/46_block_transfer.md R277). -/
theorem abortsAt_reads {k : Nat} {reads : List (Reg × Option Word)} (h : AbortsAt k reads) (first : Word) :
    firstAbort first reads = some (first + BitVec.ofNat 32 (4 * k)) ∧
    (beforeAbort reads).map (fun e => (e.1, some e.2)) = reads.take k := by
  induction reads generalizing k first with
  | nil => obtain ⟨⟨r, hr⟩, _⟩ := h; simp at hr
  | cons e reads ih =>
    obtain ⟨r, v⟩ := e
    obtain ⟨⟨r', hr⟩, hall⟩ := h
    cases k with
    | zero =>
      simp only [List.getElem?_cons_zero, Option.some.injEq, Prod.mk.injEq] at hr
      obtain ⟨rfl, rfl⟩ := hr
      simp [firstAbort, beforeAbort]
    | succ k =>
      cases v with
      | none => exact absurd rfl (hall (r, none) (by simp))
      | some v =>
        obtain ⟨i1, i2⟩ := ih ⟨⟨r', by simpa using hr⟩, fun e he => hall e (by simp [he])⟩ (first + 4)
        have e : first + BitVec.ofNat 32 (4 * (k + 1)) = first + 4 + BitVec.ofNat 32 (4 * k) := by
          rw [BitVec.add_assoc]; congr 1; apply BitVec.eq_of_toNat_eq; simp; omega
        exact ⟨by rw [firstAbort, i1, e], by simp [beforeAbort, i2]⟩

/-- A register is read before the first abort exactly when its read is among the first `k`. -/
theorem mem_beforeAbort {k : Nat} {reads : List (Reg × Option Word)} (h : AbortsAt k reads) (r : Reg) (v : Word) :
    (r, v) ∈ beforeAbort reads ↔ (r, some v) ∈ reads.take k := by
  rw [← (abortsAt_reads h 0).2]; simp

/-- A Data Abort is taken in ABT mode, which has an SPSR. -/
theorem dataAbort_lacksSpsr (a : Word) (s : State) : (dataAbort a s).lacksSpsr = false := by
  have hd := (dispatch_fields (e := .dataAbort) (m := .abt) rfl (s.pc + 8) (.addr a) (s.setDispatcher .pending)).2.2.1
  change (dataAbort a s).cpsr = _ at hd
  simp [State.lacksSpsr, State.mode, hd, State.getSpsr]

/-- A Data Abort keeps every register but R14 of ABT. -/
theorem dataAbort_getPhys (a : Word) (s : State) (q : PhysReg) (hq : q ≠ .r15) (h : q ≠ .lr .abt) :
    (dataAbort a s).getPhys q = s.getPhys q := by
  have hd := (dispatch_fields (e := .dataAbort) (m := .abt) rfl (s.pc + 8) (.addr a) (s.setDispatcher .pending)).1
  change (dataAbort a s).regs = _ at hd
  rw [State.getPhys_eq_of_regs hq hd, State.getPhys_setPhys, if_neg (fun e => h e.1.symm)]
  cases q <;> rfl

/-- The Data Abort that ends an aborted load multiple, from the state its registers are loaded in. -/
theorem dataAbort_abortsLoading {dest : Reg → PhysReg} {rn : Reg} {base first : Word} {k : Nat}
    {reads : List (Reg × Option Word)} {s loaded : State} (hc : loaded.cpsr = s.cpsr) (hpc : loaded.pc = s.pc)
    (hs : loaded.spsr = s.spsr) (hm : loaded.mem = s.mem) (hst : loaded.stop = s.stop) (hl : loaded.lines = s.lines)
    (hp : loaded.plain = s.plain)
    (hq : loaded.out.requests = s.out.requests ++ readRequests first reads.length) (hrn : rn ≠ 15)
    (hv : ∀ r v, (r, some v) ∈ reads.take k → r ≠ 15 → dest r ≠ physReg s.mode rn → loaded.getPhys (dest r) = v)
    (hd : ∀ r, r ≠ 15 → dest r ≠ .r15)
    (hb : loaded.getPhys (physReg s.mode rn) = base)
    (ho : ∀ q, q ≠ .r15 → q ≠ physReg s.mode rn → q ∉ (reads.take k).map (fun e => dest e.1) →
      loaded.getPhys q = s.getPhys q) :
    AbortsLoading dest rn base first k reads s (dataAbort (first + BitVec.ofNat 32 (4 * k)) loaded) := by
  have he := dataAbort_enters (first + BitVec.ofNat 32 (4 * k)) none { s with regs := loaded.regs } loaded
    hc rfl hpc hs hl hp hst (by simp)
  obtain ⟨o1, o2, o3⟩ := dataAbort_outputs (first + BitVec.ofNat 32 (4 * k)) loaded
  refine ⟨he.1, by rw [o3, hpc], ?_, ?_, ?_, fun a => by rw [o1, hm], he.2.2.2, by rw [o2, hq]⟩
  · intro r v hr h15 hne hlr
    rw [dataAbort_getPhys _ _ _ (hd r h15) hlr]; exact hv r v hr h15 hne
  · intro hlr
    rw [dataAbort_getPhys _ _ _ (physReg_ne_r15 _ hrn) hlr]; exact hb
  · intro q h15 hn
    simp only [List.mem_cons, not_or] at hn
    rw [dataAbort_getPhys _ _ _ h15 hn.1]; exact ho q h15 hn.2.1 hn.2.2

/-- A load multiple with a first abort (R277). -/
theorem loadBlock_aborts (rn : Reg) (first : Word) (regs : List Reg) (wb : Option Word) (onPc : Word → State → Out)
    (s : State) (k : Nat) (hnd : regs.Nodup) (hrn : rn ≠ 15) (hk : AbortsAt k (loadWords first regs s).1) :
    ∃ t, loadBlock rn first regs (wb.map fun v => (rn, v)) onPc s.started = .next t ∧
      AbortsLoading (physReg s.mode) rn (wb.getD (s.readReg rn)) first k (loadWords first regs s).1 s t := by
  have hrn' : rn ≠ 15#4 := hrn
  unfold loadBlock
  rw [loadWords_started]
  have hf := loadWords_frame first regs s.started
  have hregs := loadWords_regs first regs s
  have hreq := loadWords_requests first regs s.started
  have hlen : (loadWords first regs s).1.length = regs.length := by
    have := congrArg List.length hregs; simpa using this
  generalize (loadWords first regs s.started).2 = s1 at hf hreq
  generalize (loadWords first regs s).1 = reads at *
  obtain ⟨f1, f2, f3, f4, f5, f6, f7, f8, f9, f10, f11⟩ := hf
  obtain ⟨a1, a2⟩ := abortsAt_reads hk first
  have hsub : (beforeAbort reads).map Prod.fst = (reads.take k).map Prod.fst := by rw [← a2]; simp
  have hnd' : ((beforeAbort reads).map Prod.fst).Nodup := by
    rw [hsub]; exact hnd.sublist (hregs ▸ (List.take_sublist k reads).map Prod.fst)
  simp only [a1]
  have hm : s1.mode = s.mode := State.mode_eq f3
  have hmw : (s1.writeBack (wb.map fun v => (rn, v))).mode = s.mode := by simp [hm]
  refine ⟨_, rfl, dataAbort_abortsLoading (by simp [f3]) (by simp [f2]) (by simp [f4]) (by simp [f5]) (by simp [f8])
    (by simp [f9]) (by simp [f10]) (by simp [hreq, hlen]) hrn ?_ (fun r h => physReg_ne_r15 _ h) ?_ ?_⟩
  · intro r v hr h15 hne
    have hin : (r, v) ∈ (beforeAbort reads).filter fun rv => rv.1 != rn := by
      rw [List.mem_filter]
      exact ⟨(mem_beforeAbort hk r v).2 hr, by simp; intro e; exact hne (by rw [e])⟩
    have := State.getPhys_writeRegs_mem (s1.writeBack (wb.map fun v => (rn, v))) _
      (hnd'.sublist (List.filter_sublist.map Prod.fst)) r v hin h15
    rwa [hmw] at this
  · have := writeRegs_filter_other (s1.writeBack (wb.map fun v => (rn, v))) (beforeAbort reads) rn hrn
    rw [hmw] at this
    rw [this]
    cases wb with
    | none =>
      simp only [Option.map_none, State.writeBack, Option.getD_none, State.readReg, State.readRegAs, if_neg hrn]
      exact State.getPhys_eq_of_regs (physReg_ne_r15 _ hrn) f1
    | some v => simp [State.writeBack, State.getPhys_writeReg, hm, hrn']
  · intro q h15 hne hn
    rw [State.getPhys_writeRegs_other]
    · cases wb with
      | none => exact State.getPhys_eq_of_regs h15 f1
      | some v =>
        simp only [Option.map_some, State.writeBack, State.getPhys_writeReg, hm]
        rw [if_neg (fun h => hne h.1.symm)]
        exact State.getPhys_eq_of_regs h15 f1
    · intro e he hq
      rw [hmw] at hq
      refine hn (List.mem_map.2 ⟨(e.1, some e.2), ?_, hq⟩)
      rw [← a2]
      exact List.mem_map.2 ⟨e, (List.mem_filter.1 he).1, rfl⟩

/-- The Data Abort of a load multiple, with the hazard then set. -/
theorem loadUserBlock_aborts (rn : Reg) (first : Word) (regs : List Reg) (s : State) (k : Nat) (hnd : regs.Nodup)
    (hrn : rn ≠ 15) (hk : AbortsAt k (loadWords first regs s).1) :
    ∃ t : State, loadUserBlock rn first regs s.started = .next (t.setHazard true) ∧
      AbortsLoading (physReg .usr) rn (s.readReg rn) first k (loadWords first regs s).1 s t := by
  unfold loadUserBlock
  rw [loadWords_started]
  have hf := loadWords_frame first regs s.started
  have hregs := loadWords_regs first regs s
  have hreq := loadWords_requests first regs s.started
  have hlen : (loadWords first regs s).1.length = regs.length := by
    have := congrArg List.length hregs; simpa using this
  generalize (loadWords first regs s.started).2 = s1 at hf hreq
  generalize (loadWords first regs s).1 = reads at *
  obtain ⟨f1, f2, f3, f4, f5, f6, f7, f8, f9, f10, f11⟩ := hf
  obtain ⟨a1, a2⟩ := abortsAt_reads hk first
  have hsub : (beforeAbort reads).map Prod.fst = (reads.take k).map Prod.fst := by rw [← a2]; simp
  have hnd' : ((beforeAbort reads).map Prod.fst).Nodup := by
    rw [hsub]; exact hnd.sublist (hregs ▸ (List.take_sublist k reads).map Prod.fst)
  simp only [a1]
  refine ⟨_, rfl, dataAbort_abortsLoading (by simp [f3]) (by simp [f2]) (by simp [f4]) (by simp [f5]) (by simp [f8])
    (by simp [f9]) (by simp [f10]) (by simp [hreq, hlen]) hrn ?_ (fun r h => physReg_ne_r15 _ h) ?_ ?_⟩
  · intro r v hr h15 hne
    refine State.getPhys_writeUsers_mem s1 _ (hnd'.sublist (List.filter_sublist.map Prod.fst)) r v ?_ h15
    rw [List.mem_filter]
    exact ⟨(mem_beforeAbort hk r v).2 hr, by simpa using hne⟩
  · rw [State.getPhys_writeUsers_other]
    · simp only [State.readReg, State.readRegAs, if_neg hrn]
      exact State.getPhys_eq_of_regs (physReg_ne_r15 _ hrn) f1
    · intro e he hq
      have := (List.mem_filter.1 he).2
      simp at this
      exact this hq
  · intro q h15 hne hn
    rw [State.getPhys_writeUsers_other]
    · exact State.getPhys_eq_of_regs h15 f1
    · intro e he hq
      refine hn (List.mem_map.2 ⟨(e.1, some e.2), ?_, hq⟩)
      rw [← a2]
      exact List.mem_map.2 ⟨e, (List.mem_filter.1 he).1, rfl⟩

/-- A swap whose read is answered (spec/48_swi_swap_undefined.md R297), in all its outcomes. -/
theorem swapAccess_answered (sz : Size) (rn rd rm : Reg) (ext : Word → Word) (s : State) (v : Word) (hrd : rd ≠ 15)
    (hrm : rm ≠ 15) (hv : s.readAnswer (s.readReg rn) sz = some v) :
    let addr := s.readReg rn
    let r := s.afterRead addr sz
    let requests := s.out.requests ++
      [{ addr := addr, size := sz, write := none, kind := .data, locked := true },
       { addr := addr, size := sz, write := some (sz.low (s.readReg rm)), kind := .data, locked := true }]
    (r.wouldSelfModify addr sz = true → swapAccess sz rn rd rm ext s.started = .refused .selfModifyPrefetched) ∧
    (r.wouldSelfModify addr sz = false → ∃ t, swapAccess sz rn rd rm ext s.started = .next t ∧
      Stores r t addr sz (s.readReg rm) ∧ t.out.requests = requests ∧
      (r.writeAnswersOk addr sz = true → t.getPhys (physReg s.mode rd) = ext v ∧ t.cpsr = s.cpsr ∧
        KeepsAllBut [physReg s.mode rd] s t ∧ GoesOn s t) ∧
      (r.writeAnswersOk addr sz = false → AbortsWithBase none s t ∧
        t.out.report = .exception .dataAbort s.pc (.addr addr))) := by
  intro addr r requests
  have hrd' : rd ≠ 15#4 := hrd
  have hrm' : rm ≠ 15#4 := hrm
  have h1 : (memRead addr sz .data true s.started).1 = some v := by rw [readAnswer_eq, readAnswer_started, hv]
  have hf := memRead_frame addr sz .data true s.started
  have hq := memRead_requests addr sz .data true s.started
  have hacc : SameAccesses r (memRead addr sz .data true s.started).2 := by
    simp only [r]
    unfold memRead State.afterRead
    rw [plainAccess_started]
    split
    · exact ⟨rfl, rfl, rfl, rfl, rfl⟩
    · cases hb : s.bus <;> simp [SameAccesses, State.answered, hb]
  have hrmem : r.mem = s.mem := by
    simp only [r, State.afterRead]; split
    · rfl
    · cases hb : s.bus <;> simp [State.answered, hb]
  have haddr : s.started.readReg rn = addr := rfl
  unfold swapAccess
  simp only [haddr]
  generalize memRead addr sz .data true s.started = m at h1 hf hq hacc
  obtain ⟨o, s1⟩ := m
  simp only at h1 hf hq hacc; subst h1
  obtain ⟨f1, f2, f3, f4, f5, f6, f7, f8, f9, f10, f11⟩ := hf
  simp only [hacc.wouldSelfModify]
  have hm1 : s1.mode = s.mode := State.mode_eq f3
  have hrmv : s1.readReg rm = s.readReg rm := by
    simp only [State.readReg, State.readRegAs, if_neg hrm, hm1]
    exact State.getPhys_eq_of_regs (physReg_ne_r15 _ hrm) f1
  rw [hrmv]
  refine ⟨fun h => by rw [h]; rfl, fun h => ?_⟩
  rw [h]
  have hw := memWrite_frame addr sz (s.readReg rm) .data true s1
  have hwq := memWrite_requests addr sz (s.readReg rm) .data true s1
  have hwo : (memWrite addr sz (s.readReg rm) .data true s1).1 = !r.writeAnswersOk addr sz := by
    rw [writeAnswersOk_eq, hacc.writeAnswersOk]
  have hst : ∀ t : State, t.mem = s1.memAfterWrite addr sz (s.readReg rm) → Stores r t addr sz (s.readReg rm) :=
    fun t ht => stores_of_frame (plainAccess_congr hacc.1 ..) (f5.trans hrmem.symm) hacc.answer ht
  generalize memWrite addr sz (s.readReg rm) .data true s1 = m at hw hwq hwo
  obtain ⟨o, s2⟩ := m
  simp only at hw hwq hwo; subst hwo
  obtain ⟨g1, g2, g3, g4, g5, g6, g7, g8, g9, g10, g11⟩ := hw
  have hm2 : s2.mode = s.mode := (State.mode_eq g3).trans hm1
  have hreq : s2.out.requests = requests := by rw [hwq, hq]; simp [requests]
  cases hok : r.writeAnswersOk addr sz
  · obtain ⟨o1, o2, o3⟩ := dataAbort_outputs addr s2
    have hab := dataAbort_enters addr none s s2 (g3.trans f3) (g1.trans f1) (g2.trans f2) (g4.trans f4) (g9.trans f9)
      (g10.trans f10) (g8.trans f8) (by simp)
    refine ⟨_, rfl, hst _ (o1.trans g5), o2.trans hreq, fun h => (by simp at h), fun _ => ⟨hab, ?_⟩⟩
    rw [o3, g2, f2]; rfl
  · refine ⟨_, rfl, hst _ (by simp [g5]), by simpa using hreq, fun _ => ⟨?_, by simp [g3, f3],
      keepsAllBut_intro ?_ ?_ ?_ ?_ ?_ ?_ ?_ ?_, ?_⟩, fun h => (by simp at h)⟩
    · simp [State.getPhys_writeReg, hm2, hrd']
    · intro p hp hn
      simp only [List.mem_singleton] at hn
      rw [State.advance_getPhys _ hp, State.getPhys_writeReg, hm2, if_neg (fun h => hn h.1.symm)]
      exact State.getPhys_eq_of_regs hp (g1.trans f1)
    · simp [g4, f4]
    · simp [g7, f7]
    · simp [g8, f8]
    · simp [g9, f9]
    · simp [g10, f10]
    · simp [g6, f6]
    · simp [g11, f11]
    · simp [GoesOn, g2, f2, State.isz_eq (g3.trans f3)]

/-- The bytes of a write in memory, against the prefetched slots (spec/70_reset_and_hazards.md R440). -/
theorem selfModifies_iff (s : State) (addr : Word) (n : Nat) :
    s.selfModifies addr n = true ↔ ∃ i : Nat, i < n ∧ s.inPrefetchWindow (addr + BitVec.ofNat 32 i) = true := by
  induction n generalizing addr with
  | zero => simp [State.selfModifies]
  | succ n ih =>
    have e : ∀ i, addr + 1 + BitVec.ofNat 32 i = addr + BitVec.ofNat 32 (i + 1) := by
      intro i; rw [BitVec.add_assoc]; congr 1; apply BitVec.eq_of_toNat_eq; simp; omega
    simp only [State.selfModifies, Bool.or_eq_true, ih, e]
    constructor
    · rintro (h | ⟨i, hi, h⟩)
      · exact ⟨0, by omega, by simpa using h⟩
      · exact ⟨i + 1, by omega, h⟩
    · rintro ⟨i, hi, h⟩
      cases i with
      | zero => exact .inl (by simpa using h)
      | succ i => exact .inr ⟨i, by omega, h⟩

/-- A THUMB list has at most 8 registers. -/
theorem lowList_length (l : BitVec 8) : (lowList l).length ≤ 8 := by revert l; decide

/-- They are R0 to R7. -/
theorem lowList_low (l : BitVec 8) : ∀ r ∈ lowList l, r.toNat < 8 := by
  intro r hr
  rw [lowList, mem_regList] at hr
  by_contra h
  rw [BitVec.getLsbD_setWidth, BitVec.getLsbD_of_ge _ _ (by omega)] at hr
  simp at hr

/-- A THUMB arithmetic instruction (spec/49_thumb.md). -/
theorem thumbAlu_next (rd : LoReg) (op : State → AluResult) (s : State) (r : AluResult) (h : op s.started = r) : ∃ t, thumbAlu [] rd op s = .next t ∧ WritesResult true (lo rd) r s t := by
  subst h
  unfold thumbAlu
  rw [unconditionally_runs rfl (by simp)]
  obtain ⟨t, h1, h2⟩ := writeAlu_next (sf := true) (r := op s.started) (s := s) (lo_ne_fifteen rd)
  refine ⟨t, ?_, h2⟩
  rw [← h1]; unfold writeAlu; exact (if_neg (lo_ne_fifteen rd)).symm

/-- A THUMB comparison. -/
theorem thumbCompare_next (op : State → AluResult) (s : State) (r : AluResult) (h : op s.started = r) : ∃ t, thumbCompare op s = .next t ∧ WritesFlags r s t := by
  subst h
  unfold thumbCompare
  rw [unconditionally_runs rfl (by simp)]
  exact ⟨_, rfl, setNZCV_next _ _⟩

/-- The entry sequence (spec/60_exceptions.md R396). -/
theorem dispatch_enters (e : ExcType) (m : Mode) (link : Word) (info : ExcInfo) (s s0 : State) (setsF : Bool) (hm : (descriptor e).mode = some m) (hI : (descriptor e).maskI = .set) (hF : (descriptor e).maskF = if setsF then .set else .keep) (hne : m ≠ .usr) (hne' : m ≠ .sys)
   (h0 : s0.regs = s.regs ∧ s0.pc = s.pc ∧ s0.cpsr = s.cpsr ∧ s0.spsr = s.spsr ∧ s0.mem = s.mem ∧ s0.stop = s.stop ∧ s0.lines = s.lines ∧ s0.plain = s.plain) :
   EntersOnly m (descriptor e).vector link setsF s (dispatch e link info s0) ∧ (dispatch e link info s0).out.report = .exception e s.pc info := by
  have hd := dispatch_fields hm link info s0
  generalize dispatch _ _ _ _ = t at hd ⊢
  obtain ⟨a1, a2, a3, a4, a5, a6, a7, a8⟩ := h0
  simp only [a2, a3, a5, a6, a7, a8] at hd
  obtain ⟨d1, d2, d3, d4, d5, d6, d7, d8, d9, d10, d11, d12, d13⟩ := hd
  have hph : ∀ q, q ≠ .r15 → t.getPhys q = if PhysReg.lr (bankOf m) = q then link else s.getPhys q := by
    intro q hq
    rw [State.getPhys_eq_of_regs hq d1, State.getPhys_setPhys]
    simp [hq, State.getPhys_eq_of_regs hq a1]
  have hsp : ∀ m', t.getSpsr m' = if m = m' then some s.cpsr else s.getSpsr m' := by
    intro m'
    rw [State.getSpsr_eq d4, State.getSpsr_setSpsr]
    split
    · rename_i h; subst h; cases m <;> first | rfl | exact absurd rfl hne | exact absurd rfl hne'
    · exact State.getSpsr_eq a4 m'
  refine ⟨⟨⟨?_, ?_, ?_, ?_, ?_, ?_, ?_, ?_, d2, d6, d7, d8⟩, ?_, ?_, d10, d12⟩, ?_⟩
  · rw [hph _ (by simp)]; simp
  · rw [hsp]; simp
  · intro m' h; rw [hsp, if_neg (Ne.symm h)]
  · rw [d3]; simp
  · simp only [State.thumb, d3]; rw [psrBit_entryPsr _ _ _ _ (by decide)]; rfl
  · simp only [State.flagI, d3]; rw [psrBit_entryPsr _ _ _ _ (by decide), hI]; rfl
  · simp only [State.flagF, d3]; rw [psrBit_entryPsr _ _ _ _ (by decide), hF]; cases setsF <;> simp [applyMask]
  · rw [d3, entryPsr_high]
  · intro p hp hn; simp at hn; rw [hph _ hp, if_neg (Ne.symm hn)]
  · intro a; rw [d5]
  · rw [d13]

end Sys2Proof.Machine
end

