-- ==== Sys2Proof/Laws/Invariant.lean ====
section
/-! SUPPORT. The shared operations keep the invariant of a running core, one lemma each. -/

namespace Sys2Proof.Machine

/-- A state that agrees with one of a running core where the invariant looks is one of a running core. -/
theorem inv_of {s t : State} (h : s.Inv) (hc : t.cpsr = s.cpsr) (hs : t.spsr = s.spsr) (hp : t.pc = s.pc) (hm : t.mem.wf = true) (hd : t.dispatcher = .idle) (hst : t.stop = .running) (hz : t.hazard = false) : t.Inv := by
  obtain ⟨a1, a2, a3, a4, a5, a6, a7, a8, a9, a10, a11, a12⟩ := h
  refine ⟨?_, ?_, ?_, ?_, ?_, ?_, ?_, ?_, hm, hd, hst, by simp [hz]⟩
  · unfold State.LegalMode at *; rwa [hc]
  · rwa [hc]
  all_goals first | (rw [hs]; assumption) | skip
  unfold State.AlignedPc at *; rw [State.thumb_eq hc, hp]; exact a8

/-- So is the state an instruction's effect starts from. -/
theorem inv_started {s : State} (h : s.Inv) : s.started.Inv := inv_of h rfl rfl rfl h.memory h.idle h.running rfl

/-- Advancing an aligned address by the instruction's length leaves it aligned. -/
theorem aligned_step (pc : Word) (th : Bool) (h : pc.toNat % (if th then 2 else 4) = 0) : (pc + (if th then 2 else 4 : Word)).toNat % (if th then 2 else 4) = 0 := by
  have := pc.isLt
  cases th <;> simp at * <;> omega

/-- R15's advance keeps the invariant (spec/10_state.md R38). -/
theorem inv_advance {s : State} (h : s.Inv) (hz : s.hazard = false) : s.advance.Inv := by
  obtain ⟨a1, a2, a3, a4, a5, a6, a7, a8, a9, a10, a11, a12⟩ := h
  refine ⟨a1, a2, a3, a4, a5, a6, a7, ?_, a9, a10, a11, by simp [hz]⟩
  have := aligned_step s.pc s.thumb a8
  unfold State.AlignedPc
  simp only [State.advance_thumb, State.advance_pc, State.isz]; exact this

/-- So does an aligned R15. -/
theorem inv_setPc {s : State} (h : s.Inv) (hz : s.hazard = false) (x : Word) (hx : x.toNat % (if s.thumb then 2 else 4) = 0) : (s.setPc x).Inv := by
  obtain ⟨a1, a2, a3, a4, a5, a6, a7, a8, a9, a10, a11, a12⟩ := h
  exact ⟨a1, a2, a3, a4, a5, a6, a7, hx, a9, a10, a11, by simp [hz]⟩

/-- A target with bit 0 cleared is even. -/
theorem toNat_clear_bit0 (x : Word) : (x &&& 0xFFFFFFFE#32).toNat % 2 = 0 := by
  have h0 : (x &&& 0xFFFFFFFE#32).getLsbD 0 = false := by simp
  generalize (x &&& 0xFFFFFFFE#32) = y at h0
  simp only [BitVec.getLsbD, Nat.testBit_eq_decide_div_mod_eq] at h0
  simp at h0; omega

/-- A target with bits 1:0 clear is a multiple of 4. -/
theorem toNat_low_bits_clear (x : Word) (h : x.extractLsb' 0 2 = 0) : x.toNat % 4 = 0 := by
  have := congrArg BitVec.toNat h
  simpa using this

/-- The target of a branch is aligned for its state. -/
theorem branch_target_aligned (x : Word) (s : State) (h : s.thumb = false → x.extractLsb' 0 2 = 0) : (if s.thumb then x &&& 0xFFFFFFFE else x).toNat % (if s.thumb then 2 else 4) = 0 := by
  cases hs : s.thumb
  · simpa using toNat_low_bits_clear x (h hs)
  · simpa using toNat_clear_bit0 x

/-- A branch keeps the invariant (spec/40_cycle_condition_shifter.md R157). -/
theorem inv_branchTo {s t : State} (h : s.Inv) (hz : s.hazard = false) (x : Word) (he : branchTo x s = .next t) : t.Inv := by
  rcases branchTo_cases x s with ⟨h1, _⟩ | ⟨h1, h2⟩ <;> rw [h1] at he <;> cases he
  exact inv_setPc h hz _ (branch_target_aligned x s h2)

/-- A legal status word and an aligned R15 together keep it. -/
theorem inv_psr {s : State} (h : s.Inv) (hz : s.hazard = false) (v : Word) (pc : Word) (hm : (modeOf v).isSome = true) (hr : ReservedZero v) (hx : pc.toNat % (if psrBit v 5 then 2 else 4) = 0) : ((s.setCpsr v).setPc pc).Inv := by
  obtain ⟨a1, a2, a3, a4, a5, a6, a7, a8, a9, a10, a11, a12⟩ := h
  exact ⟨hm, hr, a3, a4, a5, a6, a7, hx, a9, a10, a11, by simp [hz]⟩

/-- The reserved bits, bit by bit. -/
theorem reserved_iff (v : Word) : ReservedZero v ↔ ∀ i, 10 ≤ i → i < 28 → psrBit v i = false := by
  unfold ReservedZero psrBit
  constructor
  · intro h i h1 h2
    have := congrArg (fun x : Word => x.getLsbD i) h
    simp only [BitVec.getLsbD_and, BitVec.getLsbD_not] at this
    have h3 : psrMask.getLsbD i = false := by unfold psrMask; interval_cases i <;> rfl
    rw [h3] at this
    simpa [show i < 32 by omega] using this
  · intro h
    apply BitVec.eq_of_getLsbD_eq
    intro i hi
    simp only [BitVec.getLsbD_and, BitVec.getLsbD_not, hi]
    by_cases h1 : 10 ≤ i ∧ i < 28
    · rw [h i h1.1 h1.2]; simp
    · have h3 : psrMask.getLsbD i = true := by
        unfold psrMask
        interval_cases i <;> first | rfl | (exfalso; apply h1; decide)
      rw [h3]; simp

/-- Writing an existing bit leaves the reserved bits zero. -/
theorem reserved_setBit (v : Word) (i : Nat) (b : Bool) (hi : i < 32) (h10 : i < 10 ∨ 28 ≤ i) (h : ReservedZero v) : ReservedZero (setPsrBit v i b) := by
  rw [reserved_iff] at *
  intro j h1 h2
  rw [psrBit_setPsrBit _ _ _ _ hi, if_neg (by omega)]; exact h j h1 h2

/-- Writing the flags leaves the reserved bits zero. -/
theorem reserved_flags (v : Word) (a b c d : Bool) (h : ReservedZero v) : ReservedZero (withFlags v a b c d) := by
  unfold withFlags
  exact reserved_setBit _ _ _ (by decide) (by decide) (reserved_setBit _ _ _ (by decide) (by decide) (reserved_setBit _ _ _ (by decide) (by decide) (reserved_setBit _ _ _ (by decide) (by decide) h)))

/-- Writing the flags keeps the invariant. -/
theorem inv_flags {s : State} (h : s.Inv) (hz : s.hazard = false) (a b c d : Bool) : (s.setCpsr (withFlags s.cpsr a b c d)).Inv := by
  have := inv_psr h hz (withFlags s.cpsr a b c d) s.pc (by simpa [State.LegalMode] using h.legalMode) (reserved_flags _ _ _ _ _ h.cpsrReserved) (by rw [psrBit_withFlags]; exact h.aligned)
  exact this

/-- So does writing the flags of a result. -/
theorem inv_setNZCV {s : State} (h : s.Inv) (hz : s.hazard = false) (r) : (s.setNZCV r).Inv := inv_flags h hz _ _ _ _

/-- BX keeps the invariant (R158). -/
theorem inv_branchExchange {s t : State} (h : s.Inv) (hz : s.hazard = false) (x : Word) (he : branchExchange x s = .next t) : t.Inv := by
  rcases branchExchange_cases x s with ⟨h1, _⟩ | ⟨h1, h2⟩ <;> rw [h1] at he <;> cases he
  refine inv_psr h hz _ _ ?_ (reserved_setBit _ _ _ (by decide) (by decide) h.cpsrReserved) ?_
  · rw [modeOf_setPsrBit _ _ _ (by decide) (by decide)]; exact h.legalMode
  · rw [psrBit_setPsrBit _ _ _ _ (by decide), if_pos rfl]
    cases h0 : x.getLsbD 0
    · have h3 := h2 h0
      have e : (x &&& 4294967294).toNat % 4 = 0 := by
        have k0 : (x &&& 0xFFFFFFFE#32).getLsbD 0 = false := by simp
        have k1 : (x &&& 0xFFFFFFFE#32).getLsbD 1 = false := by rw [BitVec.getLsbD_and, h3]; rfl
        change (x &&& 0xFFFFFFFE#32).toNat % 4 = 0
        generalize (x &&& 0xFFFFFFFE#32) = y at k0 k1
        simp only [BitVec.getLsbD, Nat.testBit_eq_decide_div_mod_eq] at k0 k1
        simp at k0 k1; omega
      simpa using e
    · exact toNat_clear_bit0 x

/-- The SPSR of the current mode has its reserved bits zero. -/
theorem spsr_reserved {s : State} (h : s.Inv) (m : Mode) (v : Word) (hv : s.getSpsr m = some v) : ReservedZero v := by
  cases m <;> simp [State.getSpsr] at hv <;> subst hv
  · exact h.fiqReserved
  · exact h.irqReserved
  · exact h.svcReserved
  · exact h.abtReserved
  · exact h.undReserved

/-- The existing bits of a word. -/
theorem reserved_and_psrMask (v : Word) : ReservedZero (v &&& psrMask) := by
  unfold ReservedZero; rw [BitVec.and_assoc]; simp

/-- An exception return keeps the invariant (spec/60_exceptions.md R403). -/
theorem inv_exceptionReturn {s t : State} (h : s.Inv) (hz : s.hazard = false) (x : Word) (he : exceptionReturn x s = .next t) : t.Inv := by
  rcases exceptionReturn_cases x s with ⟨_, h1⟩ | ⟨_, _, _, h1⟩ | ⟨v, m, h2, h3, h1⟩ <;> rw [h1] at he
  · cases he
  · cases he
  · rcases branchTo_cases x (s.setCpsr (v &&& psrMask)) with ⟨h1, _⟩ | ⟨h1, h4⟩ <;> rw [h1] at he <;> cases he
    refine inv_psr h hz _ _ (by simp [h3]) (reserved_and_psrMask v) ?_
    exact branch_target_aligned x (s.setCpsr (v &&& psrMask)) h4

/-- A write of an SPSR keeps it. -/
theorem inv_setSpsr {s : State} (h : s.Inv) (m : Mode) (v : Word) (hv : ReservedZero v) : (s.setSpsr m v).Inv := by
  obtain ⟨a1, a2, a3, a4, a5, a6, a7, a8, a9, a10, a11, a12⟩ := h
  have hl : (s.setSpsr m v).lacksSpsr = s.lacksSpsr := by
    simp only [State.lacksSpsr, State.setSpsr_mode]; cases m <;> cases s.mode <;> simp [State.setSpsr, State.getSpsr]
  refine ⟨?_, ?_, ?_, ?_, ?_, ?_, ?_, ?_, ?_, ?_, ?_, ?_⟩
  · simpa [State.LegalMode] using a1
  · simpa using a2
  · cases m <;> simp [State.setSpsr] <;> assumption
  · cases m <;> simp [State.setSpsr] <;> assumption
  · cases m <;> simp [State.setSpsr] <;> assumption
  · cases m <;> simp [State.setSpsr] <;> assumption
  · cases m <;> simp [State.setSpsr] <;> assumption
  · simpa [State.AlignedPc] using a8
  · simpa using a9
  · simpa using a10
  · simpa using a11
  · rw [hl]; simpa using a12

/-- An exception entry keeps it (R396). -/
theorem inv_dispatch {s s0 : State} (h : s.Inv) (h0 : s0.cpsr = s.cpsr ∧ s0.spsr = s.spsr ∧ s0.mem.wf = true ∧ s0.stop = .running) (e : ExcType) (m : Mode) (hm : (descriptor e).mode = some m) (link info) : (dispatch e link info s0).Inv := by
  have hd := dispatch_fields hm link info s0
  generalize dispatch e link info s0 = t at hd
  obtain ⟨b1, b2, b3, b4⟩ := h0
  obtain ⟨d1, d2, d3, d4, d5, d6, d7, d8, d9, d10, d11, d12, d13⟩ := hd
  have hres : ReservedZero (entryPsr (descriptor e) m s0.cpsr) := by
    rw [reserved_iff]; intro i h1 h2
    rw [psrBit_entryPsr _ _ _ _ (by omega), if_neg (by omega), if_neg (by omega), if_neg (by omega), b1]
    exact (reserved_iff _).1 h.cpsrReserved i h1 h2
  have hsp : ∀ m' v, t.getSpsr m' = some v → ReservedZero v := by
    intro m' v hv
    rw [State.getSpsr_eq d4, State.getSpsr_setSpsr, b1] at hv
    split at hv
    · cases hg : s0.getSpsr m' <;> rw [hg] at hv <;> simp at hv
      subst hv; exact h.cpsrReserved
    · rw [State.getSpsr_eq b2] at hv; exact spsr_reserved h m' v hv
  refine ⟨?_, ?_, hsp .fiq _ rfl, hsp .irq _ rfl, hsp .svc _ rfl, hsp .abt _ rfl, hsp .und _ rfl, ?_, ?_, d7, ?_, by simp [d6]⟩
  · unfold State.LegalMode; rw [d3]; simp
  · rw [d3]; exact hres
  · unfold State.AlignedPc; rw [d2]
    have : ∀ e, (descriptor e).vector.toNat % 4 = 0 := by intro e; cases e <;> rfl
    have := this e
    cases t.thumb <;> simp <;> omega
  · rw [d5]; exact b3
  · rw [d8, b4]

/-- A load keeps it. -/
theorem inv_loadRegister {s t : State} (h : s.Inv) (hz : s.hazard = false) (addr sz kind wb rd ext) (he : loadRegister addr sz kind wb rd ext s = .next t) : t.Inv := by
  unfold loadRegister at he
  have hf := memRead_frame addr sz kind false s
  generalize memRead addr sz kind false s = mr at hf he
  obtain ⟨o, s1⟩ := mr
  obtain ⟨f1, f2, f3, f4, f5, f6, f7, f8, f9, f10, f11⟩ := hf
  simp only at f1 f2 f3 f4 f5 f6 f7 f8 he
  have hi : s1.Inv := inv_of h f3 f4 f2 (f5 ▸ h.memory) (f7 ▸ h.idle) (f8 ▸ h.running) (f6 ▸ hz)
  have hw : ∀ rd v, ((s1.writeBack wb).writeReg rd v).Inv := fun rd v => inv_of hi (by simp) (by simp) (by simp) (by simpa using hi.memory) (by simpa using hi.idle) (by simpa using hi.running) (by simp [f6, hz])
  have hw' : ((s1.writeBack wb)).Inv := inv_of hi (by simp) (by simp) (by simp) (by simpa using hi.memory) (by simpa using hi.idle) (by simpa using hi.running) (by simp [f6, hz])
  cases o with
  | none => 
    simp only at he; cases he
    exact inv_dispatch hi ⟨by simp, by simp, by simpa using hi.memory, by simpa using hi.running⟩ .dataAbort .abt rfl _ _
  | some v =>
    simp only at he
    split at he
    · exact inv_branchTo hw' (by simp [f6, hz]) _ he
    · cases he; exact inv_advance (hw _ _) (by simp [f6, hz])

/-- A store keeps it. -/
theorem inv_storeRegister {s t : State} (h : s.Inv) (hz : s.hazard = false) (addr sz kind wb v) (he : storeRegister addr sz kind wb v s = .next t) : t.Inv := by
  unfold storeRegister at he
  split at he
  · cases he
  have hf := memWrite_frame addr sz v kind false s
  generalize memWrite addr sz v kind false s = mr at hf he
  obtain ⟨o, s1⟩ := mr
  obtain ⟨f1, f2, f3, f4, f5, f6, f7, f8, f9, f10, f11⟩ := hf
  simp only at f1 f2 f3 f4 f5 f6 f7 f8 he
  have hi : s1.Inv := inv_of h f3 f4 f2 (f5 ▸ State.wf_memAfterWrite _ _ _ h.memory) (f7 ▸ h.idle) (f8 ▸ h.running) (f6 ▸ hz)
  have hw' : ((s1.writeBack wb)).Inv := inv_of hi (by simp) (by simp) (by simp) (by simpa using hi.memory) (by simpa using hi.idle) (by simpa using hi.running) (by simp [f6, hz])
  cases o with
  | true => 
    simp only at he; cases he
    exact inv_dispatch hi ⟨by simp, by simp, by simpa using hi.memory, by simpa using hi.running⟩ .dataAbort .abt rfl _ _
  | false =>
    simp only at he; cases he; exact inv_advance hw' (by simp [f6, hz])

/-- A load multiple keeps it. -/
theorem inv_loadBlock {s t : State} (h : s.Inv) (hz : s.hazard = false) (rn first regs wb onPc) (hpc : ∀ x (u v : State), u.Inv → u.hazard = false → onPc x u = .next v → v.Inv) (he : loadBlock rn first regs wb onPc s = .next t) : t.Inv := by
  unfold loadBlock at he
  have hf := loadWords_frame first regs s
  generalize (loadWords first regs s).2 = s1 at hf he
  generalize (loadWords first regs s).1 = reads at he
  obtain ⟨f1, f2, f3, f4, f5, f6, f7, f8, f9, f10, f11⟩ := hf
  have hi : s1.Inv := inv_of h f3 f4 f2 (f5 ▸ h.memory) (f7 ▸ h.idle) (f8 ▸ h.running) (f6 ▸ hz)
  have hw : ∀ l, ((s1.writeBack wb).writeRegs l).Inv := fun l => inv_of hi (by simp) (by simp) (by simp) (by simpa using hi.memory) (by simpa using hi.idle) (by simpa using hi.running) (by simp [f6, hz])
  simp only at he
  split at he
  · cases he
    exact inv_dispatch hi ⟨by simp, by simp, by simpa using hi.memory, by simpa using hi.running⟩ .dataAbort .abt rfl _ _
  · split at he
    · exact hpc _ _ _ (hw _) (by simp [f6, hz]) he
    · cases he; exact inv_advance (hw _) (by simp [f6, hz])

/-- A store multiple keeps it. -/
theorem inv_storeBlock {s t : State} (h : s.Inv) (hz : s.hazard = false) (first values wb) (he : storeBlock first values wb s = .next t) : t.Inv := by
  unfold storeBlock at he
  split at he
  · cases he
  have hf := storeWords_frame first values s
  have hwf := storeWords_wf first values s h.memory
  generalize storeWords first values s = mr at hf he hwf
  obtain ⟨o, s1⟩ := mr
  obtain ⟨f1, f2, f3, f4, f6, f7, f8, f9, f10, f11⟩ := hf
  simp only at f1 f2 f3 f4 f6 f7 f8 he hwf
  have hi : s1.Inv := inv_of h f3 f4 f2 hwf (f7 ▸ h.idle) (f8 ▸ h.running) (f6 ▸ hz)
  have hw' : ((s1.writeBack wb)).Inv := inv_of hi (by simp) (by simp) (by simp) (by simpa using hi.memory) (by simpa using hi.idle) (by simpa using hi.running) (by simp [f6, hz])
  cases o with
  | some a => 
    simp only at he; cases he
    exact inv_dispatch hi ⟨by simp, by simp, by simpa using hi.memory, by simpa using hi.running⟩ .dataAbort .abt rfl _ _
  | none =>
    simp only at he; cases he; exact inv_advance hw' (by simp [f6, hz])

/-- A swap keeps it. -/
theorem inv_swapAccess {s t : State} (h : s.Inv) (hz : s.hazard = false) (sz rn rd rm ext) (he : swapAccess sz rn rd rm ext s = .next t) : t.Inv := by
  unfold swapAccess at he
  simp only at he
  have hf := memRead_frame (s.readReg rn) sz .data true s
  generalize memRead (s.readReg rn) sz .data true s = mr at hf he
  obtain ⟨o, s1⟩ := mr
  obtain ⟨f1, f2, f3, f4, f5, f6, f7, f8, f9, f10, f11⟩ := hf
  simp only at f1 f2 f3 f4 f5 f6 f7 f8 he
  have hi : s1.Inv := inv_of h f3 f4 f2 (f5 ▸ h.memory) (f7 ▸ h.idle) (f8 ▸ h.running) (f6 ▸ hz)
  cases o with
  | none =>
    simp only at he; cases he
    exact inv_dispatch hi ⟨by simp, by simp, by simpa using hi.memory, by simpa using hi.running⟩ .dataAbort .abt rfl _ _
  | some v =>
    simp only at he
    split at he
    · cases he
    have hf := memWrite_frame (s.readReg rn) sz (s1.readReg rm) .data true s1
    generalize memWrite (s.readReg rn) sz (s1.readReg rm) .data true s1 = mr at hf he
    obtain ⟨o, s2⟩ := mr
    obtain ⟨g1, g2, g3, g4, g5, g6, g7, g8, g9, g10, g11⟩ := hf
    simp only at g1 g2 g3 g4 g5 g6 g7 g8 he
    have hi2 : s2.Inv := inv_of hi g3 g4 g2 (g5 ▸ State.wf_memAfterWrite _ _ _ hi.memory) (g7 ▸ hi.idle) (g8 ▸ hi.running) (by simp [g6, f6, hz])
    cases o with
    | true => 
      simp only at he; cases he
      exact inv_dispatch hi2 ⟨by simp, by simp, by simpa using hi2.memory, by simpa using hi2.running⟩ .dataAbort .abt rfl _ _
    | false =>
      simp only at he; cases he
      exact inv_advance (inv_of hi2 (by simp) (by simp) (by simp) (by simpa using hi2.memory) (by simpa using hi2.idle) (by simpa using hi2.running) (by simp [g6, f6, hz])) (by simp [g6, f6, hz])

/-- A register write keeps it. -/
theorem inv_writeReg {s : State} (h : s.Inv) (hz : s.hazard = false) (rd v) : (s.writeReg rd v).Inv := inv_of h (by simp) (by simp) (by simp) (by simpa using h.memory) (by simpa using h.idle) (by simpa using h.running) (by simp [hz])

/-- A data-processing result keeps it. -/
theorem inv_writeAlu {s t : State} (h : s.Inv) (hz : s.hazard = false) (sf rd r) (he : writeAlu sf rd r s = .next t) : t.Inv := by
  unfold writeAlu at he
  split at he
  · split at he
    · exact inv_exceptionReturn h hz _ he
    · exact inv_branchTo h hz _ he
  · cases he
    cases sf
    · exact inv_advance (inv_writeReg h hz _ _) (by simp [hz])
    · exact inv_advance (inv_setNZCV (inv_writeReg h hz _ _) (by simp [hz]) r) (by simp [State.setNZCV, hz])

/-- A field mask selects no reserved bit. -/
theorem fieldMask_reserved (mask : BitVec 4) (i : Nat) (h1 : 10 ≤ i) (h2 : i < 28) : (fieldMask mask).getLsbD i = false := by
  rw [fieldMask_bit _ _ (by omega)]; simp [show ¬ 28 ≤ i by omega, show ¬ i ≤ 9 by omega]

/-- An MSR keeps it (spec/43_psr_transfer.md R213). -/
theorem inv_psrWrite {s t : State} (h : s.Inv) (hz : s.hazard = false) (r mask v) (he : psrWrite r mask v s = .next t) : t.Inv := by
  unfold psrWrite at he
  cases r
  · simp only [Bool.false_eq_true, if_false] at he
    split at he
    · cases he
    · rename_i hm
      split at he
      · cases he
      · rename_i hT
        cases he
        simp at hT hm
        suffices hh : (s.setCpsr (mergePsr s.cpsr (cpsrMask mask s.mode) v)).Inv from inv_advance hh (by simp [hz])
        refine inv_psr h hz _ s.pc (by cases hmm : modeOf (mergePsr s.cpsr (cpsrMask mask s.mode) v) <;> simp_all) ?_ ?_
        · rw [reserved_iff]; intro i h1 h2
          unfold psrBit
          rw [mergePsr_bit _ _ _ _ (by omega), cpsrMask_bit _ _ _ (by omega), if_neg (by simp [show ¬ 28 ≤ i by omega, show ¬ i ≤ 9 by omega])]
          exact (reserved_iff _).1 h.cpsrReserved i h1 h2
        · rw [hT]; exact h.aligned
  · simp only [if_true] at he
    split at he
    · cases he
    · rename_i old hold
      cases he
      refine inv_advance (inv_setSpsr h _ _ ?_) (by simp [hz])
      rw [reserved_iff]; intro i h1 h2
      unfold psrBit
      rw [mergePsr_bit _ _ _ _ (by omega), fieldMask_reserved _ _ h1 h2, if_neg (by simp)]
      exact (reserved_iff _).1 (spsr_reserved h _ _ hold) i h1 h2

/-- Multiply flags keep it. -/
theorem inv_setMulFlags {s : State} (h : s.Inv) (hz : s.hazard = false) (v) : (s.setMulFlags v).Inv := by
  have := inv_setNZCV h hz (logical s v (Config.freeBit s.draws))
  exact inv_of this rfl rfl rfl this.memory this.idle this.running (by simp [State.setMulFlags, State.setNZCV, hz])

/-- Long-multiply flags keep it. -/
theorem inv_setMulLongFlags {s : State} (h : s.Inv) (hz : s.hazard = false) (v) : (s.setMulLongFlags v).Inv := by
  have := inv_flags h hz v.msb (v == 0) (Config.freeBit s.draws) (Config.freeBit (s.draws + 1))
  exact inv_of this rfl rfl rfl this.memory this.idle this.running (by simp [State.setMulLongFlags, hz])

/-- Undefined keeps it. -/
theorem inv_undefinedInstruction {s : State} (h : s.Inv) (w) : (undefinedInstruction w s).Inv := inv_dispatch h ⟨rfl, rfl, h.memory, h.running⟩ .undefined .und rfl _ _

/-- SWI keeps it. -/
theorem inv_softwareInterrupt {s : State} (h : s.Inv) (w) : (softwareInterrupt w s).Inv := inv_dispatch h ⟨rfl, rfl, h.memory, h.running⟩ .softwareInterrupt .svc rfl _ _

/-- A user-bank load multiple keeps it (spec/46_block_transfer.md R273). -/
theorem inv_loadUserBlock {s t : State} (h : s.Inv) (hz : s.hazard = false) (hl : s.lacksSpsr = false) (rn first regs) (he : loadUserBlock rn first regs s = .next t) : t.Inv := by
  unfold loadUserBlock at he
  have hf := loadWords_frame first regs s
  generalize (loadWords first regs s).2 = s1 at hf he
  generalize (loadWords first regs s).1 = reads at he
  obtain ⟨f1, f2, f3, f4, f5, f6, f7, f8, f9, f10, f11⟩ := hf
  have hi : s1.Inv := inv_of h f3 f4 f2 (f5 ▸ h.memory) (f7 ▸ h.idle) (f8 ▸ h.running) (f6 ▸ hz)
  simp only at he
  split at he
  · cases he
    rename_i a _
    obtain ⟨a1, a2, a3, a4, a5, a6, a7, a8, a9, a10, a11, _⟩ := inv_dispatch hi
      (s0 := (s1.writeUsers ((beforeAbort reads).filter fun rv =>
        physReg .usr rv.1 != physReg s.mode rn)).setDispatcher .pending)
      ⟨by simp, by simp, by simpa using hi.memory, by simpa using hi.running⟩ .dataAbort .abt rfl
      ((s1.writeUsers ((beforeAbort reads).filter fun rv => physReg .usr rv.1 != physReg s.mode rn)).pc + 8) (.addr a)
    exact ⟨a1, a2, a3, a4, a5, a6, a7, a8, a9, a10, a11, fun _ => dataAbort_lacksSpsr a _⟩
  · cases he
    have hl1 : ∀ t : State, t.cpsr = s1.cpsr → t.spsr = s1.spsr → t.lacksSpsr = false := by
      intro t hc hs
      unfold State.lacksSpsr at *
      rw [State.mode_eq hc, State.mode_eq f3, State.getSpsr_eq (hs.trans f4)]; exact hl
    have hw : (s1.writeUsers (beforeAbort reads)).Inv := inv_of hi (by simp) (by simp) (by simp) (by simpa using hi.memory) (by simpa using hi.idle) (by simpa using hi.running) (by simp [f6, hz])
    have := inv_advance hw (by simp [f6, hz])
    obtain ⟨a1, a2, a3, a4, a5, a6, a7, a8, a9, a10, a11, a12⟩ := this
    exact ⟨a1, a2, a3, a4, a5, a6, a7, a8, a9, a10, a11, fun _ => hl1 _ (by simp) (by simp)⟩

/-- An instruction keeps the invariant if its effect does. -/
theorem inv_conditionally {s t : State} (h : s.Inv) (c form touched eff) (he : conditionally c form touched eff s = .next t) (hk : firstRefusal form = none → eff s.started = .next t → t.Inv) : t.Inv := by
  rcases conditionally_cases c form touched eff s with ⟨_, h1⟩ | ⟨_, h1⟩ | ⟨_, h2, _, h1⟩ <;> rw [h1] at he
  · cases he
    exact inv_of (inv_advance (inv_started h) rfl) rfl rfl rfl h.memory h.idle h.running rfl
  · cases he
  · exact hk h2 he

/-- A next state is the one answered. -/
theorem inv_next {t x : State} (h : x.Inv) (he : (Host.Outcome.next x : Out) = .next t) : t.Inv := by cases he; exact h

end Sys2Proof.Machine
end

