-- ==== Sys2Proof/Laws/Hazard.lean ====
section
/-! SUPPORT. What the hazard of LDM^ does to the frame of every meaning, and that no shared effect but the user-bank
load leaves it set (spec/10_state.md R62, spec/70_reset_and_hazards.md R441). -/

namespace Sys2Proof.Machine

/-! ## The frame under the hazard -/

/-- What `conditionally` answers under the hazard against what it answers without it. `named` may differ from the
registers the meaning passes, `touched`, only in registers that the mode does not bank away. -/
theorem conditionally_hazard (c : Cond) (form : List (Bool × Refusal)) (touched named : List Reg) (eff : State → Out)
    (s : State) (h : ∀ r, s.banksAway r = true → (r ∈ touched ↔ r ∈ named)) (o o' : Out)
    (ho : o = conditionally c form touched eff s) (ho' : o' = conditionally c form touched eff (s.setHazard false)) :
    (condPassed c s = true → s.hazard = true → (∃ r ∈ named, s.banksAway r = true) →
      (∃ why, o = .refused why) ∧ ((∀ why, o' ≠ .refused why) → o = .refused .bankedAccessAfterLdmUser)) ∧
    ((condPassed c s = false ∨ ∀ r ∈ named, s.banksAway r = false) → o = o') := by
  have hcB : condPassed c (s.setHazard false) = condPassed c s := by cases c <;> rfl
  subst ho ho'
  constructor
  · intro hc hz ⟨r, hr, hb⟩
    cases hf : firstRefusal form with
    | some w =>
      rw [conditionally_refuses hc hf]
      refine ⟨⟨_, rfl⟩, fun h => ?_⟩
      exact absurd (conditionally_refuses (hcB ▸ hc) hf) (h w)
    | none =>
      rw [conditionally_blocks hc hf hz ⟨r, (h r hb).2 hr, hb⟩]
      exact ⟨⟨_, rfl⟩, fun _ => rfl⟩
  · intro hh
    unfold conditionally
    rw [hcB]
    by_cases hc : condPassed c s = true
    · have hn : touched.any s.banksAway = false := by
        rw [List.any_eq_false]; intro r hr hb
        rcases hh with hh | hh
        · rw [hc] at hh; cases hh
        · have := hh r ((h r hb).1 hr); rw [hb] at this; cases this
      have hh2 : (s.hazard && touched.any s.banksAway) = false := by rw [hn]; simp
      rw [if_pos hc, if_pos hc, hh2]
      cases firstRefusal form <;> rfl
    · rw [if_neg hc, if_neg hc]; rfl

/-- R0 to R7 are never banked away. -/
theorem State.banksAway_lo (s : State) (r : LoReg) : s.banksAway (lo r) = false :=
  s.banksAway_low _ (by simp [lo]; omega)

/-- Nor is a register of a THUMB list. -/
theorem State.banksAway_lowList (s : State) (rlist : BitVec 8) (r : Reg) (h : r ∈ lowList rlist) :
    s.banksAway r = false :=
  s.banksAway_low _ (lowList_low _ _ h)

/-! ## The shared effects leave the hazard clear -/

/-- A next state is its own. -/
theorem next_hazard {x t : State} (h : x.hazard = false) (he : (Host.Outcome.next x : Out) = .next t) :
    t.hazard = false := by cases he; exact h

/-- A write of R15. -/
theorem branchTo_hazard {s t : State} (hz : s.hazard = false) (x : Word) (he : branchTo x s = .next t) :
    t.hazard = false := by
  rcases branchTo_cases x s with ⟨h1, _⟩ | ⟨h1, h2⟩ <;> rw [h1] at he <;> cases he; exact hz

/-- BX. -/
theorem branchExchange_hazard {s t : State} (hz : s.hazard = false) (x : Word)
    (he : branchExchange x s = .next t) : t.hazard = false := by
  rcases branchExchange_cases x s with ⟨h1, _⟩ | ⟨h1, h2⟩ <;> rw [h1] at he <;> cases he; exact hz

/-- An exception return. -/
theorem exceptionReturn_hazard {s t : State} (hz : s.hazard = false) (x : Word)
    (he : exceptionReturn x s = .next t) : t.hazard = false := by
  rcases exceptionReturn_cases x s with ⟨_, h1⟩ | ⟨_, _, _, h1⟩ | ⟨v, m, h2, h3, h1⟩ <;> rw [h1] at he
  · cases he
  · cases he
  · exact branchTo_hazard (by simpa using hz) _ he

/-- A load, its Data Abort included. -/
theorem loadRegister_hazard {s t : State} (hz : s.hazard = false) (addr sz kind wb rd ext)
    (he : loadRegister addr sz kind wb rd ext s = .next t) : t.hazard = false := by
  unfold loadRegister at he
  have hf := (memRead_frame addr sz kind false s).2.2.2.2.2.1
  generalize memRead addr sz kind false s = mr at hf he
  obtain ⟨o, s1⟩ := mr
  cases o with
  | none => simp only at he; cases he; rfl
  | some v =>
    simp only at he hf
    split at he
    · exact branchTo_hazard (by simp [hf, hz]) _ he
    · exact next_hazard (by simp [hf, hz]) he

/-- A store, its Data Abort included. -/
theorem storeRegister_hazard {s t : State} (hz : s.hazard = false) (addr sz kind wb v)
    (he : storeRegister addr sz kind wb v s = .next t) : t.hazard = false := by
  unfold storeRegister at he
  split at he
  · cases he
  have hf := (memWrite_frame addr sz v kind false s).2.2.2.2.2.1
  generalize memWrite addr sz v kind false s = mr at hf he
  obtain ⟨o, s1⟩ := mr
  cases o with
  | true => simp only at he; cases he; rfl
  | false => simp only at he hf; exact next_hazard (by simp [hf, hz]) he

/-- A load multiple, if what loading R15 does leaves it clear. -/
theorem loadBlock_hazard {s t : State} (hz : s.hazard = false) (rn first regs wb onPc)
    (hpc : ∀ x (u v : State), u.hazard = false → onPc x u = .next v → v.hazard = false)
    (he : loadBlock rn first regs wb onPc s = .next t) : t.hazard = false := by
  unfold loadBlock at he
  have hf := (loadWords_frame first regs s).2.2.2.2.2.1
  simp only at he
  split at he
  · cases he; rfl
  · split at he
    · exact hpc _ _ _ (by simp [hf, hz]) he
    · exact next_hazard (by simp [hf, hz]) he

/-- A store multiple. -/
theorem storeBlock_hazard {s t : State} (hz : s.hazard = false) (first values wb)
    (he : storeBlock first values wb s = .next t) : t.hazard = false := by
  unfold storeBlock at he
  split at he
  · cases he
  have hf := (storeWords_frame first values s).2.2.2.2.1
  generalize storeWords first values s = mr at hf he
  obtain ⟨o, s1⟩ := mr
  cases o with
  | some a => simp only at he; cases he; rfl
  | none => simp only at he hf; exact next_hazard (by simp [hf, hz]) he

/-- A swap. -/
theorem swapAccess_hazard {s t : State} (hz : s.hazard = false) (sz rn rd rm ext)
    (he : swapAccess sz rn rd rm ext s = .next t) : t.hazard = false := by
  unfold swapAccess at he
  simp only at he
  have hf := (memRead_frame (s.readReg rn) sz .data true s).2.2.2.2.2.1
  generalize memRead (s.readReg rn) sz .data true s = mr at hf he
  obtain ⟨o, s1⟩ := mr
  cases o with
  | none => simp only at he; cases he; rfl
  | some v =>
    simp only at he hf
    split at he
    · cases he
    have hf2 := (memWrite_frame (s.readReg rn) sz (s1.readReg rm) .data true s1).2.2.2.2.2.1
    generalize memWrite (s.readReg rn) sz (s1.readReg rm) .data true s1 = mr at hf2 he
    obtain ⟨o, s2⟩ := mr
    cases o with
    | true => simp only at he; cases he; rfl
    | false => simp only at he hf2; exact next_hazard (by simp [hf2, hf, hz]) he

/-- A data-processing result. -/
theorem writeAlu_hazard {s t : State} (hz : s.hazard = false) (sf rd r) (he : writeAlu sf rd r s = .next t) :
    t.hazard = false := by
  unfold writeAlu at he
  split at he
  · split at he
    · exact exceptionReturn_hazard hz _ he
    · exact branchTo_hazard hz _ he
  · exact next_hazard (by cases sf <;> simp [State.setNZCV, hz]) he

/-- An MSR. -/
theorem psrWrite_hazard {s t : State} (hz : s.hazard = false) (r mask v) (he : psrWrite r mask v s = .next t) :
    t.hazard = false := by
  unfold psrWrite at he
  cases r
  · simp only [Bool.false_eq_true, if_false] at he
    split at he
    · cases he
    · split at he
      · cases he
      · exact next_hazard (by simp [hz]) he
  · simp only [if_true] at he
    split at he
    · cases he
    · exact next_hazard (by simp [hz]) he

/-- A meaning that ends with the hazard set ran its effect: the condition passed and its form is not refused. -/
theorem conditionally_setsHazard {P : Prop} {s t : State} (c form touched eff)
    (he : conditionally c form touched eff s = .next t) (hz : t.hazard = true)
    (hk : condPassed c s = true → firstRefusal form = none → eff s.started = .next t → P) : P := by
  rcases conditionally_cases c form touched eff s with ⟨_, h1⟩ | ⟨_, h1⟩ | ⟨h0, h2, _, h1⟩ <;> rw [h1] at he
  · cases he; simp [State.skip] at hz
  · cases he
  · exact hk h0 h2 he

end Sys2Proof.Machine
end

