-- ==== Sys2Proof/Tests/Slice0.lean ====
section
/-! SUPPORT. Tests: ill-formed terms the check refuses, words written out from the spec's field tables and what they
decode to, one step of each instruction, and for each statement that has hypotheses a state and operands that meet
them. Expected values come from spec/95_test_vectors.md where a test names a vector, and from the cited rule, by hand,
elsewhere. -/

namespace Sys2Proof.Tests

open Sys2Proof.Machine

/-! ## Well-formedness -/

/-- 0x00000090 is MUL, line 1, so it is no Undefined word of line 4. -/
theorem test_wellFormed_mulSwapSpace : wellFormed (.undMulSwap .eq 0 0 0) = false := by decide

/-- 0xE1000090 is SWP, line 3. -/
theorem test_wellFormed_mulSwapSpace_swp : wellFormed (.undMulSwap .al 0b10000 0 0) = false := by decide

/-- With bits 7 and 4 both clear the word is MRS, line 8. -/
theorem test_wellFormed_psrSpace : wellFormed (.undPsr .al false 0 0) = false := by decide

/-- 0xE3200000 is MSR immediate, line 10. -/
theorem test_wellFormed_psrSpace_immediate : wellFormed (.undPsr .al true 1 0) = false := by decide

/-- 0xB000 is ADD sp, line 13. -/
theorem test_wellFormed_1011Space : wellFormed (.tUnd1011 0) = false := by decide

/-- 0xB400 is PUSH, line 14. -/
theorem test_wellFormed_1011Space_push : wellFormed (.tUnd1011 0x400) = false := by decide

/-- The condition 1110 is the Undefined line 18, 1111 the SWI line 17. -/
theorem test_wellFormed_thumbCond :
    wellFormed (.tBCond .al 0) = false ∧ wellFormed (.tBCond .nv 0) = false := by decide

/-- What stands in the same spaces and is an instruction passes. -/
theorem test_wellFormed_accepts : wellFormed (.undMulSwap .al 4 0 0) = true ∧ wellFormed (.undPsr .al true 0 0) = true ∧
    wellFormed (.tUnd1011 0x100) = true ∧ wellFormed (.tBCond .eq 0) = true := by decide

/-- Bytes that end inside an instruction are rejected by name. -/
theorem test_decode_truncated : decodeBytes false [0, 0, 0] = .error .truncated ∧
    decodeBytes true [0] = .error .truncated := by decide

/-! ## Decoding -/

/-- Words written out field by field from spec/30_encoding.md R107. -/
theorem test_decode_multiply :
    decode (.arm 0b1110_000000_0_0_0000_0000_0010_1001_0001) = .mul .al false 0 0 2 1 ∧
    decode (.arm 0b1110_000000_1_1_0000_0011_0010_1001_0001) = .mla .al true 0 3 2 1 ∧
    decode (.arm 0b1110_00001_0_0_0_0001_0000_0011_1001_0010) = .umull .al false 1 0 3 2 ∧
    decode (.arm 0b1110_00001_0_1_0_0001_0000_0011_1001_0010) = .umlal .al false 1 0 3 2 ∧
    decode (.arm 0b1110_00001_1_0_0_0001_0000_0011_1001_0010) = .smull .al false 1 0 3 2 ∧
    decode (.arm 0b1110_00001_1_1_1_0001_0000_0011_1001_0010) = .smlal .al true 1 0 3 2 := by decide

/-- Words written out field by field from spec/30_encoding.md R108, R102 lines 3 to 5, 11, 13. -/
theorem test_decode_swap_and_undefined :
    decode (.arm 0b1110_00010_0_00_0010_0000_0000_1001_0001) = .swp .al 2 0 1 ∧
    decode (.arm 0b1110_00010_1_00_0010_0000_0000_1001_0001) = .swpb .al 2 0 1 ∧
    decode (.arm 0b1110_000_00100_000000000000_1001_0000) = .undMulSwap .al 4 0 0 ∧
    decode (.arm 0b1110_000_10000_000000000001_1001_0001) = .undMulSwap .al 16 1 1 ∧
    decode (.arm 0b1110_000_1000_0_000000000000_1_1_0_1_0000) = .undSignedStore .al 8 0 false 0 ∧
    decode (.arm 0b1110_000_1000_0_000000000000_1_1_1_1_0000) = .undSignedStore .al 8 0 true 0 ∧
    decode (.arm 0b1110_00_1_10_00_0_00000000000000000000) = .undPsr .al true 0 0 ∧
    decode (.arm 0b1110_00_0_10_01_0_00000000000001110000) = .undPsr .al false 1 0x70 ∧
    decode (.arm 0b1110_011_11111000000000000111_1_0000) = .undMedia .al 0xF8007 0 := by decide

/-- Words written out field by field from spec/30_encoding.md R109, R119. -/
theorem test_decode_halfword :
    decode (.arm 0b1110_000_1_0_1_1_0_0001_0000_0000_1_01_1_0010) = .strh .al true false true 1 0 (.imm 2) ∧
    decode (.arm 0b1110_000_0_1_1_0_1_0001_0000_0011_1_01_1_0010) = .ldrh .al false true false 1 0 (.imm 0x32) ∧
    decode (.arm 0b1110_000_1_1_1_0_1_0001_0000_0000_1_10_1_0001) = .ldrsb .al true true false 1 0 (.imm 1) ∧
    decode (.arm 0b1110_000_1_1_0_0_1_0001_0000_0000_1_11_1_0010) = .ldrsh .al true true false 1 0 (.reg 0 2) := by decide

/-- Words written out field by field from spec/30_encoding.md R106, R110. -/
theorem test_decode_psr_and_bx :
    decode (.arm 0b1110_00010_0_00_1111_0011_0000_0_00_0_0000) = .mrs .al false 15 3 0 0 0 ∧
    decode (.arm 0b1110_00010_1_00_1111_0000_0000_0_00_0_0000) = .mrs .al true 15 0 0 0 0 ∧
    decode (.arm 0b1110_00010_0_10_1001_1111_0000_0_00_0_0101) = .msrReg .al false 9 15 0 0 5 ∧
    decode (.arm 0b1110_00110_0_10_1000_1111_0010_00001111) = .msrImm .al false 8 15 2 15 ∧
    decode (.arm 0b0001_000100101111111111110001_1110) = .bx .ne 14 := by decide

/-- Words written out field by field from spec/30_encoding.md R105. -/
theorem test_decode_data_processing :
    decode (.arm 0b1110_00_0_0000_1_0001_0000_00011_01_0_0010) = .and .al true 1 0 (.shiftImm 3 .lsr 2) ∧
    decode (.arm 0b1110_00_0_0001_1_0001_0000_00000_00_0_0001) = .eor .al true 1 0 (.shiftImm 0 .lsl 1) ∧
    decode (.arm 0b1110_00_1_0010_1_1110_1111_0000_00000100) = .sub .al true 14 15 (.imm 0 4) ∧
    decode (.arm 0b1110_00_1_0011_1_0001_0000_0000_00000000) = .rsb .al true 1 0 (.imm 0 0) ∧
    decode (.arm 0b1110_00_0_0100_0_0001_0000_00010_00_0_0010) = .add .al false 1 0 (.shiftImm 2 .lsl 2) ∧
    decode (.arm 0b1110_00_0_0101_1_0001_0000_00000_11_0_0010) = .adc .al true 1 0 (.shiftImm 0 .ror 2) ∧
    decode (.arm 0b1110_00_0_0110_1_0001_0000_0011_0_10_1_0010) = .sbc .al true 1 0 (.shiftReg 3 .asr 2) ∧
    decode (.arm 0b1110_00_0_0111_1_0001_0000_00000_00_0_0010) = .rsc .al true 1 0 (.shiftImm 0 .lsl 2) := by decide

/-- Words written out field by field from spec/30_encoding.md R105. -/
theorem test_decode_data_processing_rest :
    decode (.arm 0b1110_00_1_1000_1_0001_0000_0001_00000010) = .tst .al 1 0 (.imm 1 2) ∧
    decode (.arm 0b1110_00_0_1001_1_0001_0000_00000_00_0_0010) = .teq .al 1 0 (.shiftImm 0 .lsl 2) ∧
    decode (.arm 0b1110_00_0_1010_1_0001_0000_00000_00_0_0010) = .cmp .al 1 0 (.shiftImm 0 .lsl 2) ∧
    decode (.arm 0b1110_00_0_1011_1_0001_0000_00000_00_0_0010) = .cmn .al 1 0 (.shiftImm 0 .lsl 2) ∧
    decode (.arm 0b1110_00_0_1100_1_0001_0000_00000_00_0_0010) = .orr .al true 1 0 (.shiftImm 0 .lsl 2) ∧
    decode (.arm 0b1110_00_0_1101_0_0000_0000_0001_0_00_1_1111) = .mov .al false 0 0 (.shiftReg 1 .lsl 15) ∧
    decode (.arm 0b1110_00_1_1110_1_0001_0000_0000_11111111) = .bic .al true 1 0 (.imm 0 0xFF) ∧
    decode (.arm 0b0000_00_1_1111_1_0000_0000_0000_00000000) = .mvn .eq true 0 0 (.imm 0 0) := by decide

/-- Words written out field by field from spec/30_encoding.md R111, R118. -/
theorem test_decode_single_transfer :
    decode (.arm 0b1110_01_0_1_1_0_0_0_0001_0000_000000000100) = .strPre .al true false 1 0 (.imm 4) ∧
    decode (.arm 0b1110_01_0_0_0_0_0_0_0001_0000_000000000100) = .strPost .al false 1 0 (.imm 4) ∧
    decode (.arm 0b1110_01_1_1_1_0_1_1_0001_0000_00010_00_0_0010) = .ldrPre .al true true 1 0 (.reg 2 .lsl 2) ∧
    decode (.arm 0b1110_01_0_0_1_0_0_1_0001_0000_000000000100) = .ldrPost .al true 1 0 (.imm 4) ∧
    decode (.arm 0b1110_01_0_1_0_1_0_0_0001_0000_000000000001) = .strbPre .al false false 1 0 (.imm 1) ∧
    decode (.arm 0b1110_01_0_0_1_1_0_0_0001_0000_000000000001) = .strbPost .al true 1 0 (.imm 1) ∧
    decode (.arm 0b1110_01_0_1_1_1_0_1_0001_0000_111111111111) = .ldrbPre .al true false 1 0 (.imm 0xFFF) ∧
    decode (.arm 0b1110_01_0_0_1_1_0_1_0001_0000_000000000001) = .ldrbPost .al true 1 0 (.imm 1) ∧
    decode (.arm 0b1110_01_0_0_1_0_1_0_0001_0000_000000000100) = .strt .al true 1 0 (.imm 4) ∧
    decode (.arm 0b1110_01_0_0_1_0_1_1_0001_0000_000000000100) = .ldrt .al true 1 0 (.imm 4) ∧
    decode (.arm 0b1110_01_0_0_1_1_1_0_0001_0000_000000000100) = .strbt .al true 1 0 (.imm 4) ∧
    decode (.arm 0b1110_01_0_0_1_1_1_1_0001_0000_000000000100) = .ldrbt .al true 1 0 (.imm 4) := by decide

/-- Words written out field by field from spec/30_encoding.md R112, R113. -/
theorem test_decode_block_and_branch :
    decode (.arm 0b1110_100_1_0_0_1_0_1101_0100000000000111) = .stm .al true false true 13 0x4007 ∧
    decode (.arm 0b1110_100_0_1_0_0_1_0100_0000000000000111) = .ldm .al false true false 4 7 ∧
    decode (.arm 0b1110_100_0_1_1_0_0_0000_0110000000000000) = .stmUser .al false true false 0 0x6000 ∧
    decode (.arm 0b1110_100_0_1_1_0_1_0000_0110000000000000) = .ldmUser .al false true false 0 0x6000 ∧
    decode (.arm 0b1110_100_0_1_1_1_1_1101_1000000000000001) = .ldmReturn .al false true true 13 1 ∧
    decode (.arm 0b1110_101_0_000000000000000000111110) = .b .al 0x3E ∧
    decode (.arm 0b1110_101_1_000000000000001111111110) = .bl .al 0x3FE := by decide

/-- Words written out field by field from spec/30_encoding.md R114, R115. -/
theorem test_decode_coprocessor_and_swi :
    decode (.arm 0b1110_110_1_1_0_0_0_0001_0011_0010_00000101) = .stc .al true true false false 1 3 2 5 ∧
    decode (.arm 0b1110_110_1_1_0_0_1_0000_0000_0010_00000000) = .ldc .al true true false false 0 0 2 0 ∧
    decode (.arm 0b1110_1110_0101_0100_0011_0001_010_0_0110) = .cdp .al 5 4 3 1 2 6 ∧
    decode (.arm 0b1110_1110_101_0_0100_0011_0001_010_1_0110) = .mcr .al 5 4 3 1 2 6 ∧
    decode (.arm 0b1110_1110_000_1_0000_0000_1111_000_1_0000) = .mrc .al 0 0 0 15 0 0 ∧
    decode (.arm 0b1110_1111_000100100011010001010110) = .swi .al 0x123456 := by decide

/-- Words written out field by field from spec/30_encoding.md R122. -/
theorem test_decode_thumb_formats_1_to_3 :
    decode (.thumb 0b000_11_0_0_010_001_000) = .tAddReg 2 1 0 ∧
    decode (.thumb 0b000_11_0_1_010_001_000) = .tSubReg 2 1 0 ∧
    decode (.thumb 0b000_11_1_0_111_001_000) = .tAddImm3 7 1 0 ∧
    decode (.thumb 0b000_11_1_1_001_001_000) = .tSubImm3 1 1 0 ∧
    decode (.thumb 0b000_00_00100_001_000) = .tLslImm 4 1 0 ∧
    decode (.thumb 0b000_01_00000_001_000) = .tLsrImm 0 1 0 ∧
    decode (.thumb 0b000_10_11111_001_000) = .tAsrImm 31 1 0 ∧
    decode (.thumb 0b001_00_011_00000000) = .tMovImm 3 0 ∧
    decode (.thumb 0b001_01_011_00000101) = .tCmpImm 3 5 ∧
    decode (.thumb 0b001_10_011_11111111) = .tAddImm8 3 0xFF ∧
    decode (.thumb 0b001_11_011_00000001) = .tSubImm8 3 1 := by decide

/-- Words written out field by field from spec/30_encoding.md R123. -/
theorem test_decode_thumb_format_4 :
    decode (.thumb 0b010000_0000_001_000) = .tAnd 1 0 ∧
    decode (.thumb 0b010000_0001_001_000) = .tEor 1 0 ∧
    decode (.thumb 0b010000_0010_001_000) = .tLslReg 1 0 ∧
    decode (.thumb 0b010000_0011_001_000) = .tLsrReg 1 0 ∧
    decode (.thumb 0b010000_0100_001_000) = .tAsrReg 1 0 ∧
    decode (.thumb 0b010000_0101_001_000) = .tAdc 1 0 ∧
    decode (.thumb 0b010000_0110_001_000) = .tSbc 1 0 ∧
    decode (.thumb 0b010000_0111_001_000) = .tRorReg 1 0 ∧
    decode (.thumb 0b010000_1000_001_000) = .tTst 1 0 ∧
    decode (.thumb 0b010000_1001_001_000) = .tNeg 1 0 ∧
    decode (.thumb 0b010000_1010_001_000) = .tCmpReg 1 0 ∧
    decode (.thumb 0b010000_1011_001_000) = .tCmn 1 0 ∧
    decode (.thumb 0b010000_1100_001_000) = .tOrr 1 0 ∧
    decode (.thumb 0b010000_1101_001_000) = .tMul 1 0 ∧
    decode (.thumb 0b010000_1110_001_000) = .tBic 1 0 ∧
    decode (.thumb 0b010000_1111_001_000) = .tMvn 1 0 := by decide

/-- Words written out field by field from spec/30_encoding.md R122. -/
theorem test_decode_thumb_formats_5_to_8 :
    decode (.thumb 0b010001_00_0_1_111_000) = .tAddHi 15 0 ∧
    decode (.thumb 0b010001_01_0_1_000_000) = .tCmpHi 8 0 ∧
    decode (.thumb 0b010001_10_1_0_001_111) = .tMovHi 1 15 ∧
    decode (.thumb 0b010001_11_0_1_111_000) = .tBx false 15 0 ∧
    decode (.thumb 0b01001_000_00000001) = .tLdrPc 0 1 ∧
    decode (.thumb 0b0101_00_0_010_001_000) = .tStrReg 2 1 0 ∧
    decode (.thumb 0b0101_01_0_010_001_000) = .tStrbReg 2 1 0 ∧
    decode (.thumb 0b0101_10_0_010_001_000) = .tLdrReg 2 1 0 ∧
    decode (.thumb 0b0101_11_0_010_001_000) = .tLdrbReg 2 1 0 ∧
    decode (.thumb 0b0101_00_1_010_001_000) = .tStrhReg 2 1 0 ∧
    decode (.thumb 0b0101_01_1_010_001_000) = .tLdrsbReg 2 1 0 ∧
    decode (.thumb 0b0101_10_1_010_001_000) = .tLdrhReg 2 1 0 ∧
    decode (.thumb 0b0101_11_1_010_001_000) = .tLdrshReg 2 1 0 := by decide

/-- Words written out field by field from spec/30_encoding.md R122. -/
theorem test_decode_thumb_formats_9_to_13 :
    decode (.thumb 0b011_0_0_11111_001_000) = .tStrImm 31 1 0 ∧
    decode (.thumb 0b011_0_1_00001_001_000) = .tLdrImm 1 1 0 ∧
    decode (.thumb 0b011_1_0_11111_001_000) = .tStrbImm 31 1 0 ∧
    decode (.thumb 0b011_1_1_00010_001_000) = .tLdrbImm 2 1 0 ∧
    decode (.thumb 0b1000_0_00001_001_000) = .tStrhImm 1 1 0 ∧
    decode (.thumb 0b1000_1_11111_001_000) = .tLdrhImm 31 1 0 ∧
    decode (.thumb 0b1001_0_000_00000010) = .tStrSp 0 2 ∧
    decode (.thumb 0b1001_1_000_11111111) = .tLdrSp 0 0xFF ∧
    decode (.thumb 0b1010_0_000_00000001) = .tAddPc 0 1 ∧
    decode (.thumb 0b1010_1_000_11111111) = .tAddSp 0 0xFF ∧
    decode (.thumb 0b1011_0000_0_1111111) = .tSpAdd 127 ∧
    decode (.thumb 0b1011_0000_1_0000010) = .tSpSub 2 := by decide

/-- Words written out field by field from spec/30_encoding.md R122, R124. -/
theorem test_decode_thumb_formats_14_to_19 :
    decode (.thumb 0b1011_0_10_1_00000011) = .tPush true 3 ∧
    decode (.thumb 0b1011_1_10_1_00000001) = .tPop true 1 ∧
    decode (.thumb 0b1011_000100000000) = .tUnd1011 0x100 ∧
    decode (.thumb 0b1100_0_000_00000110) = .tStmia 0 6 ∧
    decode (.thumb 0b1100_1_000_00000110) = .tLdmia 0 6 ∧
    decode (.thumb 0b1101_1111_01000010) = .tSwi 0x42 ∧
    decode (.thumb 0b1101_1110_00000000) = .tUndCond 0 ∧
    decode (.thumb 0b1101_0000_00000110) = .tBCond .eq 6 ∧
    decode (.thumb 0b11100_01111111110) = .tB 0x3FE ∧
    decode (.thumb 0b11101_00000000000) = .tUnd11101 0 ∧
    decode (.thumb 0b1111_0_00000000011) = .tBlPrefix 3 ∧
    decode (.thumb 0b1111_1_11111111110) = .tBlSuffix 0x7FE := by decide

/-! ## One step of each instruction -/

/-- A state at A = 0x1000 with a CPSR, some registers and some memory words. -/
def testState (cpsr : Word) (regs : List (PhysReg × Word)) (mem : List (Nat × Word)) : State :=
  let placed : State := { State.reset with cpsr := cpsr, pc := 0x1000 }
  let filled := regs.foldl (fun s r => s.setPhys r.1 r.2) placed
  mem.foldl (fun s m => s.setMem (s.mem.writeBytes m.1 (leBytes 4 m.2))) filled

/-- One step of an instruction of `nbits` bits. -/
def testStep (s : State) (nbits w : Nat) : Out := step (s.withFetchWord nbits w)

/-- The step has a next state with this R15, CPSR, these registers and these memory words. -/
def answers (o : Out) (pc cpsr : Word) (regs : List (PhysReg × Word)) (mem : List (Nat × Word)) : Bool :=
  match o with
  | .next t => t.pc == pc && t.cpsr == cpsr && regs.all (fun r => t.getPhys r.1 == r.2) &&
      mem.all (fun m => leWord (t.bytesAt m.1 4) == m.2)
  | _ => false

/-- The value of a register after a step whose flags hold a free value. -/
def registerAfter (o : Out) (p : PhysReg) : Option Word :=
  match o with
  | .next t => some (t.getPhys p)
  | _ => none

/-- The SPSR of the mode a step ends in. -/
def spsrAfter (o : Out) : Option Word :=
  match o with
  | .next t => t.getSpsr t.mode
  | _ => none

/-- The refusal a step ends in. -/
def refusalOf (o : Out) : Option Refusal :=
  match o with
  | .refused r => some r
  | _ => none

/-- UserBankHazard after a step. -/
def hazardAfter (o : Out) : Option Bool :=
  match o with
  | .next t => some t.hazard
  | _ => none

/-- MU1: MUL r0, r1, r2. -/
theorem test_mul : answers (testStep (testState 0x1F [(.low 1, 0x10000), (.low 2, 0x10001)] []) 32 0xE0000291)
    0x1004 0x1F [(.low 0, 0x10000)] [] = true := by decide

/-- MU3: MLA r0, r1, r2, r3. -/
theorem test_mla : answers (testStep (testState 0x1F [(.low 1, 0x2), (.low 2, 0x3), (.low 3, 0x4)] []) 32 0xE0203291)
    0x1004 0x1F [(.low 0, 0xA)] [] = true := by decide

/-- MU4: UMULL r0, r1, r2, r3. -/
theorem test_umull : answers (testStep (testState 0x1F [(.low 2, 0xFFFFFFFF), (.low 3, 0xFFFFFFFF)] []) 32 0xE0810392)
    0x1004 0x1F [(.low 0, 0x1), (.low 1, 0xFFFFFFFE)] [] = true := by decide

/-- MU5: UMLAL r0, r1, r2, r3. -/
theorem test_umlal : answers (testStep
    (testState 0x1F [(.low 0, 0xFFFFFFFF), (.low 1, 0x0), (.low 2, 0x1), (.low 3, 0x1)] []) 32 0xE0A10392)
    0x1004 0x1F [(.low 0, 0x0), (.low 1, 0x1)] [] = true := by decide

/-- MU6: SMULL r0, r1, r2, r3. -/
theorem test_smull : answers (testStep (testState 0x1F [(.low 2, 0xFFFFFFFF), (.low 3, 0x2)] []) 32 0xE0C10392)
    0x1004 0x1F [(.low 0, 0xFFFFFFFE), (.low 1, 0xFFFFFFFF)] [] = true := by decide

/-- SW3: SWP r0, r1, [r2]. -/
theorem test_swp : answers (testStep
    (testState 0x1F [(.low 1, 0x12345678), (.low 2, 0x2000)] [(0x2000, 0xAABBCCDD)]) 32 0xE1020091)
    0x1004 0x1F [(.low 0, 0xAABBCCDD)] [(0x2000, 0x12345678)] = true := by decide

/-- SW4: SWPB r0, r1, [r2]. -/
theorem test_swpb : answers (testStep
    (testState 0x1F [(.low 1, 0x12345678), (.low 2, 0x2001)] [(0x2000, 0xAABBCCDD)]) 32 0xE1420091)
    0x1004 0x1F [(.low 0, 0xCC)] [(0x2000, 0xAABB78DD)] = true := by decide

/-- SW14: multiply-space hole 0xE0400090 (MUL with bits 23:21 = 010). -/
theorem test_undMulSwap : answers (testStep (testState 0x1F [] []) 32 0xE0400090)
    0x4 0x9B [(.lr .und, 0x1004)] [] = true := by decide

/-- HW6: STRH r0, [r1, #-2]!. -/
theorem test_strh : answers (testStep
    (testState 0x1F [(.low 0, 0x12345678), (.low 1, 0x2002)] [(0x2000, 0xFFFFFFFF)]) 32 0xE16100B2)
    0x1004 0x1F [(.low 1, 0x2000)] [(0x2000, 0xFFFF5678)] = true := by decide

/-- HW1: LDRH r0, [r1]. -/
theorem test_ldrh : answers (testStep (testState 0x1F [(.low 1, 0x2000)] [(0x2000, 0x8001F0FE)]) 32 0xE1D100B0)
    0x1004 0x1F [(.low 0, 0xF0FE)] [] = true := by decide

/-- HW3: LDRSB r0, [r1, #0]. -/
theorem test_ldrsb : answers (testStep (testState 0x1F [(.low 1, 0x2000)] [(0x2000, 0x8001F0FE)]) 32 0xE1D100D0)
    0x1004 0x1F [(.low 0, 0xFFFFFFFE)] [] = true := by decide

/-- HW5: LDRSH r0, [r1, #2]. -/
theorem test_ldrsh : answers (testStep (testState 0x1F [(.low 1, 0x2000)] [(0x2000, 0x8001F0FE)]) 32 0xE1D100F2)
    0x1004 0x1F [(.low 0, 0xFFFF8001)] [] = true := by decide

/-- BR6: BX r0 (r0 = 0x2001: to THUMB). -/
theorem test_bx : answers (testStep (testState 0x1F [(.low 0, 0x2001)] []) 32 0xE12FFF10)
    0x2000 0x3F [] [] = true := by decide

/-- PS1: MRS r0, CPSR. -/
theorem test_mrs : answers (testStep (testState 0x6000001F [] []) 32 0xE10F0000)
    0x1004 0x6000001F [(.low 0, 0x6000001F)] [] = true := by decide

/-- PS6: MSR CPSR_fc, r0 (USR: control ignored). -/
theorem test_msrReg : answers (testStep (testState 0x10 [(.low 0, 0x900000DF)] []) 32 0xE129F000)
    0x1004 0x90000010 [] [] = true := by decide

/-- PS4: MSR CPSR_f, #0xF0000000. -/
theorem test_msrImm : answers (testStep (testState 0x1F [] []) 32 0xE328F20F)
    0x1004 0xF000001F [] [] = true := by decide

/-- DP5: ANDS r0, r1, r2. -/
theorem test_and : answers (testStep (testState 0x1F [(.low 1, 0xF0F0F0F0), (.low 2, 0xFF00FF0)] []) 32 0xE0110002)
    0x1004 0x1F [(.low 0, 0xF000F0)] [] = true := by decide

/-- DP6: EORS r0, r1, r1. -/
theorem test_eor : answers (testStep (testState 0x1F [(.low 1, 0x12345678)] []) 32 0xE0310001)
    0x1004 0x4000001F [] [] = true := by decide

/-- DP27: SUB r0, r1, #1 (wraps, S=0). -/
theorem test_sub : answers (testStep (testState 0x1F [(.low 1, 0x0)] []) 32 0xE2410001)
    0x1004 0x1F [(.low 0, 0xFFFFFFFF)] [] = true := by decide

/-- DP7: RSBS r0, r1, #0. -/
theorem test_rsb : answers (testStep (testState 0x1F [(.low 1, 0x1)] []) 32 0xE2710000)
    0x1004 0x8000001F [(.low 0, 0xFFFFFFFF)] [] = true := by decide

/-- DP1: ADDS r0, r1, r2 (§8: 0x7FFFFFFF + 1). -/
theorem test_add : answers (testStep (testState 0x1F [(.low 1, 0x7FFFFFFF), (.low 2, 0x1)] []) 32 0xE0910002)
    0x1004 0x9000001F [(.low 0, 0x80000000)] [] = true := by decide

/-- DP8: ADCS r0, r1, r2 (C=1). -/
theorem test_adc : answers (testStep (testState 0x2000001F [(.low 1, 0xFFFFFFFF), (.low 2, 0x0)] []) 32 0xE0B10002)
    0x1004 0x6000001F [] [] = true := by decide

/-- DP9: SBCS r0, r1, r2 (C=0: borrow). -/
theorem test_sbc : answers (testStep (testState 0x1F [(.low 1, 0x5), (.low 2, 0x3)] []) 32 0xE0D10002)
    0x1004 0x2000001F [(.low 0, 0x1)] [] = true := by decide

/-- DP10: RSCS r0, r1, r2 (C=1). -/
theorem test_rsc : answers (testStep (testState 0x2000001F [(.low 1, 0x3), (.low 2, 0x5)] []) 32 0xE0F10002)
    0x1004 0x2000001F [(.low 0, 0x2)] [] = true := by decide

/-- DP11: TST r1, #0x80000000. -/
theorem test_tst : answers (testStep (testState 0x1F [(.low 1, 0x80000000)] []) 32 0xE3110102)
    0x1004 0xA000001F [] [] = true := by decide

/-- DP12: TEQ r1, r2. -/
theorem test_teq : answers (testStep (testState 0x1F [(.low 1, 0xAAAA), (.low 2, 0xAAAA)] []) 32 0xE1310002)
    0x1004 0x4000001F [] [] = true := by decide

/-- DP13: CMP r1, r2 (equal). -/
theorem test_cmp : answers (testStep (testState 0x1F [(.low 1, 0x7), (.low 2, 0x7)] []) 32 0xE1510002)
    0x1004 0x6000001F [] [] = true := by decide

/-- DP15: CMN r1, r2. -/
theorem test_cmn : answers (testStep (testState 0x1F [(.low 1, 0xFFFFFFFF), (.low 2, 0x1)] []) 32 0xE1710002)
    0x1004 0x6000001F [] [] = true := by decide

/-- DP16: ORRS r0, r1, r2. -/
theorem test_orr : answers (testStep (testState 0x1F [(.low 1, 0x80000000), (.low 2, 0x1)] []) 32 0xE1910002)
    0x1004 0x8000001F [(.low 0, 0x80000001)] [] = true := by decide

/-- SH10: MOVS r0, r1, RRX (C=1). -/
theorem test_mov : answers (testStep (testState 0x2000001F [(.low 1, 0x1)] []) 32 0xE1B00061)
    0x1004 0xA000001F [(.low 0, 0x80000000)] [] = true := by decide

/-- DP17: BICS r0, r1, #0xFF. -/
theorem test_bic : answers (testStep (testState 0x1F [(.low 1, 0xFF)] []) 32 0xE3D100FF)
    0x1004 0x4000001F [] [] = true := by decide

/-- DP18: MVNS r0, #0. -/
theorem test_mvn : answers (testStep (testState 0x1F [] []) 32 0xE3F00000)
    0x1004 0x8000001F [(.low 0, 0xFFFFFFFF)] [] = true := by decide

/-- SW9: undefined: 0xE7F000F0 (SYS). -/
theorem test_undMedia : answers (testStep (testState 0x8000001F [] []) 32 0xE7F000F0)
    0x4 0x8000009B [(.lr .und, 0x1004)] [] = true := by decide

/-- SD7: STR r0, [r1, #-4]!. -/
theorem test_strPre : answers (testStep
    (testState 0x1F [(.low 0, 0xCAFEF00D), (.low 1, 0x2004)] [(0x2000, 0x0)]) 32 0xE5210004)
    0x1004 0x1F [(.low 1, 0x2000)] [(0x2000, 0xCAFEF00D)] = true := by decide

/-- SD1: LDR r0, [r1]. -/
theorem test_ldrPre : answers (testStep
    (testState 0x1F [(.low 1, 0x2000)] [(0x2000, 0x11223344), (0x2004, 0x55667788)]) 32 0xE5910000)
    0x1004 0x1F [(.low 0, 0x11223344)] [] = true := by decide

/-- SD3: LDR r0, [r1], #4. -/
theorem test_ldrPost : answers (testStep
    (testState 0x1F [(.low 1, 0x2000)] [(0x2000, 0x11223344), (0x2004, 0x55667788)]) 32 0xE4910004)
    0x1004 0x1F [(.low 0, 0x11223344), (.low 1, 0x2004)] [] = true := by decide

/-- SD8: STRB r0, [r1, #1]. -/
theorem test_strbPre : answers (testStep
    (testState 0x1F [(.low 0, 0x1234ABCD), (.low 1, 0x2000)] [(0x2000, 0x0)]) 32 0xE5C10001)
    0x1004 0x1F [] [(0x2000, 0xCD00)] = true := by decide

/-- SD6: LDRB r0, [r1, #3]. -/
theorem test_ldrbPre : answers (testStep
    (testState 0x1F [(.low 1, 0x2000)] [(0x2000, 0x11223344), (0x2004, 0x55667788)]) 32 0xE5D10003)
    0x1004 0x1F [(.low 0, 0x11)] [] = true := by decide

/-- SD13: LDRT r0, [r1], #4 (SVC). -/
theorem test_ldrt : answers (testStep
    (testState 0xD3 [(.low 1, 0x2000)] [(0x2000, 0x11223344), (0x2004, 0x55667788)]) 32 0xE4B10004)
    0x1004 0xD3 [(.low 0, 0x11223344), (.low 1, 0x2004)] [] = true := by decide

/-- SD14: STRBT r0, [r1], #1 (SVC). -/
theorem test_strbt : answers (testStep
    (testState 0xD3 [(.low 0, 0x5A), (.low 1, 0x2000)] [(0x2000, 0x0)]) 32 0xE4E10001)
    0x1004 0xD3 [(.low 1, 0x2001)] [(0x2000, 0x5A)] = true := by decide

/-- BD5: STMDB r4!, {r0, r1} (push). -/
theorem test_stm : answers (testStep
    (testState 0x1F [(.low 0, 0x11), (.low 1, 0x22), (.low 4, 0x2000)] [(0x1FF8, 0x0), (0x1FFC, 0x0)]) 32 0xE9240003)
    0x1004 0x1F [(.low 4, 0x1FF8)] [(0x1FF8, 0x11), (0x1FFC, 0x22)] = true := by decide

/-- BD3: LDMDA r4, {r0, r1}. -/
theorem test_ldm : answers (testStep
    (testState 0x1F [(.low 0, 0x0), (.low 1, 0x0), (.low 2, 0x0), (.low 3, 0x0), (.low 4, 0x2000)]
      [(0x2000, 0xA0), (0x2004, 0xA4), (0x2008, 0xA8), (0x200C, 0xAC), (0x1FF8, 0x9F8),
      (0x1FFC, 0x9FC)]) 32 0xE8140003)
    0x1004 0x1F [(.low 0, 0x9FC), (.low 1, 0xA0)] [] = true := by decide

/-- BD11: STMIA r4, {r13, r14}^ (IRQ: user bank). -/
theorem test_stmUser : answers (testStep
    (testState 0x92 [(.low 4, 0x2000), (.sp .usr, 0xAAAA), (.lr .usr, 0xBBBB), (.sp .irq, 0x1),
      (.lr .irq, 0x2)] [(0x2000, 0x0), (0x2004, 0x0)]) 32 0xE8C46000)
    0x1004 0x92 [] [(0x2000, 0xAAAA), (0x2004, 0xBBBB)] = true := by decide

/-- BR1: B 0x1100. -/
theorem test_b : answers (testStep (testState 0x1F [] []) 32 0xEA00003E)
    0x1100 0x1F [] [] = true := by decide

/-- BR4: BL 0x2000. -/
theorem test_bl : answers (testStep (testState 0x1F [] []) 32 0xEB0003FE)
    0x2000 0x1F [(.lr .usr, 0x1004)] [] = true := by decide

/-- SW12: LDC p2, c0, [r0] (no coprocessor). -/
theorem test_ldc : answers (testStep (testState 0x10 [] []) 32 0xED900200)
    0x4 0x9B [(.lr .und, 0x1004)] [] = true := by decide

/-- SW11: CDP p1, 0, c0, c0, c0 (no coprocessor). -/
theorem test_cdp : answers (testStep (testState 0x10 [] []) 32 0xEE000100)
    0x4 0x9B [(.lr .und, 0x1004)] [] = true := by decide

/-- SW13: MRC p15, 0, r0, c0, c0, 0 (no coprocessor). -/
theorem test_mrc : answers (testStep (testState 0x10 [] []) 32 0xEE100F10)
    0x4 0x9B [(.lr .und, 0x1004)] [] = true := by decide

/-- SW1: SWI 0x123456 (USR). -/
theorem test_swi : answers (testStep (testState 0x60000010 [] []) 32 0xEF123456)
    0x8 0x60000093 [(.lr .svc, 0x1004)] [] = true := by decide

/-- TH5: ADD r0, r1, r2. -/
theorem test_tAddReg : answers (testStep (testState 0x3F [(.low 1, 0xFFFFFFFF), (.low 2, 0x1)] []) 16 0x1888)
    0x1002 0x6000003F [] [] = true := by decide

/-- TH6: SUB r0, r1, r2. -/
theorem test_tSubReg : answers (testStep (testState 0x3F [(.low 1, 0x1), (.low 2, 0x2)] []) 16 0x1A88)
    0x1002 0x8000003F [(.low 0, 0xFFFFFFFF)] [] = true := by decide

/-- TH7: ADD r0, r1, #7. -/
theorem test_tAddImm3 : answers (testStep (testState 0x3F [(.low 1, 0x7FFFFFFF)] []) 16 0x1DC8)
    0x1002 0x9000003F [(.low 0, 0x80000006)] [] = true := by decide

/-- TH8: SUB r0, r1, #1. -/
theorem test_tSubImm3 : answers (testStep (testState 0x3F [(.low 1, 0x1)] []) 16 0x1E48)
    0x1002 0x6000003F [] [] = true := by decide

/-- TH1: LSL r0, r1, #4. -/
theorem test_tLslImm : answers (testStep (testState 0x3F [(.low 1, 0x18000001)] []) 16 0x108)
    0x1002 0xA000003F [(.low 0, 0x80000010)] [] = true := by decide

/-- TH3: LSR r0, r1, #0 (means #32). -/
theorem test_tLsrImm : answers (testStep (testState 0x3F [(.low 1, 0x80000000)] []) 16 0x808)
    0x1002 0x6000003F [] [] = true := by decide

/-- TH4: ASR r0, r1, #31. -/
theorem test_tAsrImm : answers (testStep (testState 0x3F [(.low 1, 0x80000000)] []) 16 0x17C8)
    0x1002 0x8000003F [(.low 0, 0xFFFFFFFF)] [] = true := by decide

/-- TH9: MOV r3, #0. -/
theorem test_tMovImm : answers (testStep (testState 0x3000003F [(.low 3, 0x5)] []) 16 0x2300)
    0x1002 0x7000003F [(.low 3, 0x0)] [] = true := by decide

/-- TH10: CMP r3, #5. -/
theorem test_tCmpImm : answers (testStep (testState 0x3F [(.low 3, 0x5)] []) 16 0x2B05)
    0x1002 0x6000003F [] [] = true := by decide

/-- TH11: ADD r3, #0xFF. -/
theorem test_tAddImm8 : answers (testStep (testState 0x3F [(.low 3, 0x1)] []) 16 0x33FF)
    0x1002 0x3F [(.low 3, 0x100)] [] = true := by decide

/-- TH12: SUB r3, #1. -/
theorem test_tSubImm8 : answers (testStep (testState 0x3F [(.low 3, 0x0)] []) 16 0x3B01)
    0x1002 0x8000003F [(.low 3, 0xFFFFFFFF)] [] = true := by decide

/-- TH13: AND r0, r1. -/
theorem test_tAnd : answers (testStep (testState 0x3F [(.low 0, 0xF0), (.low 1, 0x3C)] []) 16 0x4008)
    0x1002 0x3F [(.low 0, 0x30)] [] = true := by decide

/-- TH14: EOR r0, r1. -/
theorem test_tEor : answers (testStep (testState 0x3F [(.low 0, 0xF0), (.low 1, 0xF0)] []) 16 0x4048)
    0x1002 0x4000003F [(.low 0, 0x0)] [] = true := by decide

/-- TH15: LSL r0, r1 (r1 = 32). -/
theorem test_tLslReg : answers (testStep (testState 0x3F [(.low 0, 0x1), (.low 1, 0x20)] []) 16 0x4088)
    0x1002 0x6000003F [(.low 0, 0x0)] [] = true := by decide

/-- TH16: LSR r0, r1 (r1 = 0: C kept). -/
theorem test_tLsrReg : answers (testStep (testState 0x2000003F [(.low 0, 0x80000000), (.low 1, 0x0)] []) 16 0x40C8)
    0x1002 0xA000003F [] [] = true := by decide

/-- TH17: ASR r0, r1 (r1 = 33). -/
theorem test_tAsrReg : answers (testStep (testState 0x3F [(.low 0, 0x80000000), (.low 1, 0x21)] []) 16 0x4108)
    0x1002 0xA000003F [(.low 0, 0xFFFFFFFF)] [] = true := by decide

/-- TH18: ADC r0, r1 (C=1). -/
theorem test_tAdc : answers (testStep (testState 0x2000003F [(.low 0, 0x1), (.low 1, 0x1)] []) 16 0x4148)
    0x1002 0x3F [(.low 0, 0x3)] [] = true := by decide

/-- TH19: SBC r0, r1 (C=1). -/
theorem test_tSbc : answers (testStep (testState 0x2000003F [(.low 0, 0x1), (.low 1, 0x1)] []) 16 0x4188)
    0x1002 0x6000003F [(.low 0, 0x0)] [] = true := by decide

/-- TH20: ROR r0, r1 (r1 = 4). -/
theorem test_tRorReg : answers (testStep (testState 0x3F [(.low 0, 0xF), (.low 1, 0x4)] []) 16 0x41C8)
    0x1002 0xA000003F [(.low 0, 0xF0000000)] [] = true := by decide

/-- TH21: TST r0, r1. -/
theorem test_tTst : answers (testStep (testState 0x3F [(.low 0, 0xF0), (.low 1, 0xF)] []) 16 0x4208)
    0x1002 0x4000003F [] [] = true := by decide

/-- TH22: NEG r0, r1. -/
theorem test_tNeg : answers (testStep (testState 0x3F [(.low 1, 0x1)] []) 16 0x4248)
    0x1002 0x8000003F [(.low 0, 0xFFFFFFFF)] [] = true := by decide

/-- TH24: CMP r0, r1. -/
theorem test_tCmpReg : answers (testStep (testState 0x3F [(.low 0, 0x1), (.low 1, 0x2)] []) 16 0x4288)
    0x1002 0x8000003F [] [] = true := by decide

/-- TH25: CMN r0, r1. -/
theorem test_tCmn : answers (testStep (testState 0x3F [(.low 0, 0x80000000), (.low 1, 0x80000000)] []) 16 0x42C8)
    0x1002 0x7000003F [] [] = true := by decide

/-- TH26: ORR r0, r1. -/
theorem test_tOrr : answers (testStep (testState 0x3F [(.low 0, 0xF), (.low 1, 0xF0)] []) 16 0x4308)
    0x1002 0x3F [(.low 0, 0xFF)] [] = true := by decide

/-- TH29: BIC r0, r1. -/
theorem test_tBic : answers (testStep (testState 0x3F [(.low 0, 0xFF), (.low 1, 0xF)] []) 16 0x4388)
    0x1002 0x3F [(.low 0, 0xF0)] [] = true := by decide

/-- TH30: MVN r0, r1. -/
theorem test_tMvn : answers (testStep (testState 0x3F [(.low 1, 0x0)] []) 16 0x43C8)
    0x1002 0x8000003F [(.low 0, 0xFFFFFFFF)] [] = true := by decide

/-- TH31: ADD r0, pc (hi-reg). -/
theorem test_tAddHi : answers (testStep (testState 0x3F [(.low 0, 0x10)] []) 16 0x4478)
    0x1002 0x3F [(.low 0, 0x1014)] [] = true := by decide

/-- TH33: CMP r0, r8. -/
theorem test_tCmpHi : answers (testStep (testState 0x3F [(.low 0, 0x5), (.high 0, 0x5)] []) 16 0x4540)
    0x1002 0x6000003F [] [] = true := by decide

/-- TH34: MOV pc, r1 (r1 = 0x2001). -/
theorem test_tMovHi : answers (testStep (testState 0x3F [(.low 1, 0x2001)] []) 16 0x468F)
    0x2000 0x3F [] [] = true := by decide

/-- TH37: BX r1 (r1 = 0x2000: to ARM). -/
theorem test_tBx : answers (testStep (testState 0x3F [(.low 1, 0x2000)] []) 16 0x4708)
    0x2000 0x1F [] [] = true := by decide

/-- TH42: STR r0, [r1, r2]. -/
theorem test_tStrReg : answers (testStep
    (testState 0x3F [(.low 0, 0x11223344), (.low 1, 0x2000), (.low 2, 0x4)] [(0x2004, 0x0)]) 16 0x5088)
    0x1002 0x3F [] [(0x2004, 0x11223344)] = true := by decide

/-- TH43: STRB r0, [r1, r2]. -/
theorem test_tStrbReg : answers (testStep
    (testState 0x3F [(.low 0, 0x11223344), (.low 1, 0x2000), (.low 2, 0x3)] [(0x2000, 0x0)]) 16 0x5488)
    0x1002 0x3F [] [(0x2000, 0x44000000)] = true := by decide

/-- TH44: LDR r0, [r1, r2]. -/
theorem test_tLdrReg : answers (testStep
    (testState 0x3F [(.low 1, 0x2000), (.low 2, 0x0)] [(0x2000, 0xCAFEBABE)]) 16 0x5888)
    0x1002 0x3F [(.low 0, 0xCAFEBABE)] [] = true := by decide

/-- TH45: LDRB r0, [r1, r2]. -/
theorem test_tLdrbReg : answers (testStep
    (testState 0x3F [(.low 1, 0x2000), (.low 2, 0x1)] [(0x2000, 0xCAFEBABE)]) 16 0x5C88)
    0x1002 0x3F [(.low 0, 0xBA)] [] = true := by decide

/-- TH46: STRH r0, [r1, r2]. -/
theorem test_tStrhReg : answers (testStep
    (testState 0x3F [(.low 0, 0xABCD1234), (.low 1, 0x2000), (.low 2, 0x2)] [(0x2000, 0x0)]) 16 0x5288)
    0x1002 0x3F [] [(0x2000, 0x12340000)] = true := by decide

/-- TH47: LDRSB r0, [r1, r2]. -/
theorem test_tLdrsbReg : answers (testStep
    (testState 0x3F [(.low 1, 0x2000), (.low 2, 0x0)] [(0x2000, 0x80)]) 16 0x5688)
    0x1002 0x3F [(.low 0, 0xFFFFFF80)] [] = true := by decide

/-- TH48: LDRH r0, [r1, r2]. -/
theorem test_tLdrhReg : answers (testStep
    (testState 0x3F [(.low 1, 0x2000), (.low 2, 0x2)] [(0x2000, 0x80018002)]) 16 0x5A88)
    0x1002 0x3F [(.low 0, 0x8001)] [] = true := by decide

/-- TH49: LDRSH r0, [r1, r2]. -/
theorem test_tLdrshReg : answers (testStep
    (testState 0x3F [(.low 1, 0x2000), (.low 2, 0x2)] [(0x2000, 0x80018002)]) 16 0x5E88)
    0x1002 0x3F [(.low 0, 0xFFFF8001)] [] = true := by decide

/-- TH50: STR r0, [r1, #124]. -/
theorem test_tStrImm : answers (testStep
    (testState 0x3F [(.low 0, 0x55), (.low 1, 0x2000)] [(0x207C, 0x0)]) 16 0x67C8)
    0x1002 0x3F [] [(0x207C, 0x55)] = true := by decide

/-- TH51: LDR r0, [r1, #4]. -/
theorem test_tLdrImm : answers (testStep (testState 0x3F [(.low 1, 0x2000)] [(0x2004, 0x66)]) 16 0x6848)
    0x1002 0x3F [(.low 0, 0x66)] [] = true := by decide

/-- TH52: STRB r0, [r1, #31]. -/
theorem test_tStrbImm : answers (testStep
    (testState 0x3F [(.low 0, 0x1FF), (.low 1, 0x2000)] [(0x201C, 0x0)]) 16 0x77C8)
    0x1002 0x3F [] [(0x201C, 0xFF000000)] = true := by decide

/-- TH53: LDRB r0, [r1, #2]. -/
theorem test_tLdrbImm : answers (testStep (testState 0x3F [(.low 1, 0x2000)] [(0x2000, 0xAB0000)]) 16 0x7888)
    0x1002 0x3F [(.low 0, 0xAB)] [] = true := by decide

/-- TH54: STRH r0, [r1, #2]. -/
theorem test_tStrhImm : answers (testStep
    (testState 0x3F [(.low 0, 0x12345678), (.low 1, 0x2000)] [(0x2000, 0x0)]) 16 0x8048)
    0x1002 0x3F [] [(0x2000, 0x56780000)] = true := by decide

/-- TH55: LDRH r0, [r1, #62]. -/
theorem test_tLdrhImm : answers (testStep (testState 0x3F [(.low 1, 0x2000)] [(0x203C, 0xBEEF0000)]) 16 0x8FC8)
    0x1002 0x3F [(.low 0, 0xBEEF)] [] = true := by decide

/-- TH56: STR r0, [sp, #8]. -/
theorem test_tStrSp : answers (testStep
    (testState 0x3F [(.low 0, 0x77), (.sp .usr, 0x3000)] [(0x3008, 0x0)]) 16 0x9002)
    0x1002 0x3F [] [(0x3008, 0x77)] = true := by decide

/-- TH57: LDR r0, [sp, #1020]. -/
theorem test_tLdrSp : answers (testStep (testState 0x3F [(.sp .usr, 0x3000)] [(0x33FC, 0x88)]) 16 0x98FF)
    0x1002 0x3F [(.low 0, 0x88)] [] = true := by decide

/-- TH59: ADD r0, sp, #1020. -/
theorem test_tAddSp : answers (testStep (testState 0x3F [(.sp .usr, 0x3000)] []) 16 0xA8FF)
    0x1002 0x3F [(.low 0, 0x33FC)] [] = true := by decide

/-- TH60: ADD sp, #508. -/
theorem test_tSpAdd : answers (testStep (testState 0x3F [(.sp .usr, 0x3000)] []) 16 0xB07F)
    0x1002 0x3F [(.sp .usr, 0x31FC)] [] = true := by decide

/-- TH61: SUB sp, #8. -/
theorem test_tSpSub : answers (testStep (testState 0x3F [(.sp .usr, 0x3000)] []) 16 0xB082)
    0x1002 0x3F [(.sp .usr, 0x2FF8)] [] = true := by decide

/-- TH62: PUSH {r0, r1, lr}. -/
theorem test_tPush : answers (testStep
    (testState 0x3F [(.low 0, 0xA), (.low 1, 0xB), (.sp .usr, 0x3000), (.lr .usr, 0x2001)] [(0x2FF4, 0x0),
      (0x2FF8, 0x0), (0x2FFC, 0x0)]) 16 0xB503)
    0x1002 0x3F [(.sp .usr, 0x2FF4)] [(0x2FF4, 0xA), (0x2FF8, 0xB), (0x2FFC, 0x2001)] = true := by decide

/-- TH63: POP {r0, pc}. -/
theorem test_tPop : answers (testStep
    (testState 0x3F [(.sp .usr, 0x2FF8)] [(0x2FF8, 0x5), (0x2FFC, 0x2001)]) 16 0xBD01)
    0x2000 0x3F [(.low 0, 0x5), (.sp .usr, 0x3000)] [] = true := by decide

/-- TH74: format 13 with bits 11:8 = 0001 (undefined, 0xB100). -/
theorem test_tUnd1011 : answers (testStep (testState 0x3F [] []) 16 0xB100)
    0x4 0x9B [(.lr .und, 0x1002)] [] = true := by decide

/-- TH65: STMIA r0!, {r1, r2}. -/
theorem test_tStmia : answers (testStep
    (testState 0x3F [(.low 0, 0x2000), (.low 1, 0x1), (.low 2, 0x2)] [(0x2000, 0x0), (0x2004, 0x0)]) 16 0xC006)
    0x1002 0x3F [(.low 0, 0x2008)] [(0x2000, 0x1), (0x2004, 0x2)] = true := by decide

/-- TH66: LDMIA r0!, {r1, r2}. -/
theorem test_tLdmia : answers (testStep
    (testState 0x3F [(.low 0, 0x2000)] [(0x2000, 0x10), (0x2004, 0x20)]) 16 0xC806)
    0x1002 0x3F [(.low 0, 0x2008), (.low 1, 0x10), (.low 2, 0x20)] [] = true := by decide

/-- TH72: SWI 0x42. -/
theorem test_tSwi : answers (testStep (testState 0x30 [] []) 16 0xDF42)
    0x8 0x93 [(.lr .svc, 0x1002)] [] = true := by decide

/-- TH73: B<cond> with cond = 1110 (undefined). -/
theorem test_tUndCond : answers (testStep (testState 0x3F [] []) 16 0xDE00)
    0x4 0x9B [(.lr .und, 0x1002)] [] = true := by decide

/-- TH69: BEQ 0x1010 (Z=1). -/
theorem test_tBCond : answers (testStep (testState 0x4000003F [] []) 16 0xD006)
    0x1010 0x4000003F [] [] = true := by decide

/-- TH75: B 0x1800. -/
theorem test_tB : answers (testStep (testState 0x3F [] []) 16 0xE3FE)
    0x1800 0x3F [] [] = true := by decide

/-- TH77: 0xE800 (format 18 space, bit 11 = 1: undefined). -/
theorem test_tUnd11101 : answers (testStep (testState 0x3F [] []) 16 0xE800)
    0x4 0x9B [(.lr .und, 0x1002)] [] = true := by decide

/-- TH79: BL prefix alone, backward (offset high -1). -/
theorem test_tBlPrefix : answers (testStep (testState 0x3F [] []) 16 0xF7FF)
    0x1002 0x3F [(.lr .usr, 0x4)] [] = true := by decide

/-- TH80: BL suffix alone (LR = 0x3000). -/
theorem test_tBlSuffix : answers (testStep (testState 0x3F [(.lr .usr, 0x3000)] []) 16 0xF802)
    0x3004 0x3F [(.lr .usr, 0x1003)] [] = true := by decide

/-- SMLAL r0, r1, r2, r3 with 1 + (-1) * 1 (spec/41_multiply.md R195). -/
theorem test_smlal : answers (testStep (testState 0x1F [(.low 0, 1), (.low 1, 0), (.low 2, 0xFFFFFFFF), (.low 3, 1)] [])
    32 0xE0E10392) 0x1004 0x1F [(.low 0, 0), (.low 1, 0)] [] = true := by decide

/-- MULS writes its result whatever the free carry (MU2's word, spec/41_multiply.md R190). -/
theorem test_muls : registerAfter (testStep (testState 0x1F [(.low 1, 6), (.low 2, 5)] []) 32 0xE0100291) (.low 0) =
    some 30 := by decide

/-- TH27: MUL r0, r1; C is free. -/
theorem test_tMul : registerAfter (testStep (testState 0x3F [(.low 0, 3), (.low 1, 0xFFFFFFFF)] []) 16 0x4348) (.low 0) =
    some 0xFFFFFFFD := by decide

/-- The signed-store space takes Undefined (spec/48_swi_swap_undefined.md R299). -/
theorem test_undSignedStore : answers (testStep (testState 0x1F [] []) 32 0xE10000D0)
    0x4 0x9B [(.lr .und, 0x1004)] [] = true := by decide

/-- The PSR space takes Undefined (R299). -/
theorem test_undPsr : answers (testStep (testState 0x1F [] []) 32 0xE3000000) 0x4 0x9B [(.lr .und, 0x1004)] [] = true := by
  decide

/-- STR r0, [r1], #4 (spec/45_single_transfer.md R253). -/
theorem test_strPost : answers (testStep (testState 0x1F [(.low 0, 0x55), (.low 1, 0x2000)] []) 32 0xE4810004)
    0x1004 0x1F [(.low 1, 0x2004)] [(0x2000, 0x55)] = true := by decide

/-- STRB r0, [r1], #1 (R254). -/
theorem test_strbPost : answers (testStep (testState 0x1F [(.low 0, 0x1FF), (.low 1, 0x2000)] [(0x2000, 0)]) 32 0xE4C10001)
    0x1004 0x1F [(.low 1, 0x2001)] [(0x2000, 0xFF)] = true := by decide

/-- LDRB r0, [r1], #1 (R252). -/
theorem test_ldrbPost : answers (testStep (testState 0x1F [(.low 1, 0x2000)] [(0x2000, 0x123)]) 32 0xE4D10001)
    0x1004 0x1F [(.low 0, 0x23), (.low 1, 0x2001)] [] = true := by decide

/-- STRT r0, [r1], #4 (R257). -/
theorem test_strt : answers (testStep (testState 0xD3 [(.low 0, 0x55), (.low 1, 0x2000)] []) 32 0xE4A10004)
    0x1004 0xD3 [(.low 1, 0x2004)] [(0x2000, 0x55)] = true := by decide

/-- LDRBT r0, [r1], #1 (R256). -/
theorem test_ldrbt : answers (testStep (testState 0xD3 [(.low 1, 0x2000)] [(0x2000, 0x123)]) 32 0xE4F10001)
    0x1004 0xD3 [(.low 0, 0x23), (.low 1, 0x2001)] [] = true := by decide

/-- BD12's first word: LDMIA r4, (r13, r14)^ in IRQ mode loads the User bank. -/
theorem test_ldmUser :
    answers (testStep (testState 0x92 [(.low 4, 0x2000)] [(0x2000, 0xAAAA), (0x2004, 0xBBBB)]) 32 0xE8D46000)
    0x1004 0x92 [(.sp .usr, 0xAAAA), (.lr .usr, 0xBBBB), (.sp .irq, 0), (.lr .irq, 0)] [] = true := by decide

/-- BD10: LDMIA r4, (r0, pc)^ in IRQ mode returns. -/
theorem test_ldmReturn : answers (testStep
    ((testState 0x92 [(.low 4, 0x2000)] [(0x2000, 0x11), (0x2004, 0x3000)]).setSpsr .irq 0x10) 32 0xE8D48001)
    0x3000 0x10 [(.low 0, 0x11)] [] = true := by decide

/-- STC p2, c0, [r0] with no coprocessor (R300). -/
theorem test_stc : answers (testStep (testState 0x10 [] []) 32 0xED800200) 0x4 0x9B [(.lr .und, 0x1004)] [] = true := by
  decide

/-- MCR p15, 0, r0, c0, c0, 0 with no coprocessor (R300). -/
theorem test_mcr : answers (testStep (testState 0x10 [] []) 32 0xEE000F10) 0x4 0x9B [(.lr .und, 0x1004)] [] = true := by
  decide

/-- LDR r0, [pc, #4] at 0x1000 (TH41's word, spec/49_thumb.md R342). -/
theorem test_tLdrPc : answers (testStep (testState 0x3F [] [(0x1008, 0xDEADBEEF)]) 16 0x4801)
    0x1002 0x3F [(.low 0, 0xDEADBEEF)] [] = true := by decide

/-- ADD r0, pc, #4 at 0x1000 (TH58's word, R359). -/
theorem test_tAddPc : answers (testStep (testState 0x3F [] []) 16 0xA001) 0x1002 0x3F [(.low 0, 0x1008)] [] = true := by
  decide

/-! ## Exceptions, refusals, lines -/

/-- SW1: the SPSR of SVC holds the old CPSR. -/
theorem test_swi_spsr : spsrAfter (testStep (testState 0x60000010 [] []) 32 0xEF123456) = some 0x60000010 := by decide

/-- EX1: an IRQ at the boundary in USR mode. -/
theorem test_irq : answers (step ((testState 0x60000010 [] []).setLines [{ reset := false, fiq := false, irq := true }]))
    0x18 0x60000092 [(.lr .irq, 0x1004)] [] = true := by decide

/-- HW9: LDRH r0, [r1, #2]! whose access aborts updates the base and takes Data Abort. -/
theorem test_dataAbort : answers (testStep ({ testState 0x1F [(.low 0, 7), (.low 1, 0x2000)] [] with
      plain := [{ base := 0, size := 0x2000 }], bus := [{ aborts := true, value := 0, stored := [] }] }) 32 0xE1F100B2)
    0x10 0x97 [(.low 0, 7), (.low 1, 0x2002), (.lr .abt, 0x1008)] [] = true := by decide

/-- A fetch that aborts takes Prefetch Abort with link A + 4 (spec/60_exceptions.md R406). -/
theorem test_prefetchAbort : answers (step { testState 0x1F [] [] with
      plain := [], bus := [{ aborts := true, value := 0, stored := [] }] })
    0xC 0x97 [(.lr .abt, 0x1004)] [] = true := by decide

/-- DP29: a should-be-zero field violated. -/
theorem test_refused_sbz : refusalOf (testStep (testState 0x1F [] []) 32 0xE3A10001) = some .sbz := by decide

/-- BD13: a banked register right after LDM^ of the User bank. -/
theorem test_refused_banked : refusalOf (testStep ((testState 0x92 [] []).setHazard true) 32 0xE1A0000E) =
    some .bankedAccessAfterLdmUser := by decide

/-- THUMB STR r0, [r1] to A + 6, unaligned, which the bus puts at A + 4, in the second prefetched slot: refused by the
bytes written (spec/70_reset_and_hazards.md R440, spec/20_memory.md R78, R89). -/
theorem test_refused_by_the_bytes_stored : refusalOf (testStep ({ testState 0x3F [(.low 1, 0x1006)] [] with
    bus := [{ aborts := false, value := 0, stored := [(0x1004, 0x11)] }] }) 16 0x6008) = some .selfModifyPrefetched := by
  decide

/-- ARM STR r0, [r1] to A + 1, whose nominal bytes reach A + 4 but which the bus puts at A: it runs (R78). -/
theorem test_store_by_the_bytes_stored : answers (testStep ({ testState 0x1F [(.low 1, 0x1001)] [] with
    bus := [{ aborts := false, value := 0, stored := [(0x1000, 0x11)] }] }) 32 0xE5810000)
    0x1004 0x1F [(.low 1, 0x1001)] [] = true := by decide

/-- LDMIA r4, (r13, r14)^ whose second read aborts ends with UserBankHazard set (spec/40_cycle_condition_shifter.md R150,
last line), after the Data Abort entry. -/
theorem test_aborted_ldmUser_hazard :
    let t := testStep ({ testState 0x92 [(.low 4, 0x2000)] [(0x2000, 0xAAAA)] with
      plain := [{ base := 0, size := 0x2004 }], bus := [{ aborts := true, value := 0, stored := [] }] }) 32 0xE8D46000
    hazardAfter t = some true ∧ answers t 0x10 0x97 [(.sp .usr, 0xAAAA), (.lr .abt, 0x1008)] [] = true := by decide

/-- DP20: the condition NV never passes. -/
theorem test_skipped : answers (testStep (testState 0x1F [(.low 1, 1), (.low 2, 2)] []) 32 0xF0810002)
    0x1004 0x1F [(.low 0, 0)] [] = true := by decide

/-- The first step after reset runs the instruction placed there (spec/70_reset_and_hazards.md R431). -/
theorem test_first_step : answers (step (State.reset.withFetchWord 32 0xE3A00005)) 0x4 0xD3 [(.low 0, 5)] [] = true := by
  decide

/-! ## Witnesses: states and operands that meet the hypotheses of each statement -/

/-- A SYS-mode ARM state with words at 0x2000 to 0x200F and R1 = 0x2000. -/
def sysState : State :=
  testState 0x1F [(.low 1, 0x2000), (.low 2, 4)] [(0x2000, 0x11), (0x2004, 0x22), (0x2008, 0x3000), (0x200C, 0x44)]

/-- The same in IRQ mode, whose SPSR is USR's status 0x10. -/
def irqState : State := (sysState.setCpsr 0x92).setSpsr .irq 0x10

/-- The same in THUMB state, SP at 0x2000. -/
def thumbState : State := (sysState.setCpsr 0x3F).setPhys (.sp .usr) 0x2000

/-- A state whose data accesses from 0x2000 up the bus aborts. -/
def abortState : State :=
  { sysState with plain := [{ base := 0, size := 0x2000 }], bus := [{ aborts := true, value := 0, stored := [] }] }

/-- A state whose data accesses from 0x2000 up take the given answers of the bus. -/
def busState (answers : List BusAnswer) : State := { sysState with plain := [{ base := 0, size := 0x2000 }], bus := answers }

/-- The same from 0x2004 up, where the bus aborts. -/
def secondAborts (s : State) : State :=
  { s with plain := [{ base := 0, size := 0x2004 }], bus := [{ aborts := true, value := 0, stored := [] }] }

/-- The hazard of LDM^ blocks no register that the mode does not bank away. -/
theorem witness_notBlocked : (irqState.setHazard true).NotBlocked [0, 1, 7, 8, 12, 15] ∧ sysState.NotBlocked [13, 14] := by
  unfold State.NotBlocked; decide

theorem witness_DecodeReadsEveryEncoding : wellFormed (.undMulSwap .al 31 0xFFF 15) = true ∧
    wellFormed (.tBCond .le 0xFF) = true := by decide

theorem witness_BankTable : (7 : Reg).toNat < 8 ∧ (8 ≤ (8 : Reg).toNat ∧ (8 : Reg).toNat ≤ 12) ∧
    (8 ≤ (12 : Reg).toNat ∧ (12 : Reg).toNat ≤ 12) ∧ Mode.fiq = .fiq ∧ Mode.svc ≠ .fiq ∧ (14 : Reg) ≠ 15 ∧
    PhysReg.sp .irq ≠ physReg sysState.mode 13 := by decide

theorem witness_BankedRegistersPersist : irqState.LegalMode ∧ (13 : Reg) ≠ 15 ∧
    physReg .svc 13 ≠ physReg irqState.mode 13 ∧ physReg .irq 13 = physReg irqState.mode 13 ∧
    physReg .svc 12 = physReg irqState.mode 12 := by
  unfold State.LegalMode; decide

theorem witness_SetOperatingModeKeepsOtherBits : 5 ≤ 5 ∧ 5 ≤ 31 := by decide

theorem witness_ConditionTable : HasFlags (testState 0x6000001F [] []) false true true false := by
  unfold HasFlags; decide

/-- Amounts 0, 31, 32, 33 and 255. -/
theorem witness_BarrelShifterBits : 0 < 32 ∧ 31 < 32 ∧ 255 < 256 ∧ (32 ≠ 0 ∧ 32 < 256) ∧ (33 ≠ 0 ∧ 33 < 256) := by decide

theorem witness_OperandTwoForms : sysState.thumb = false ∧ (14 : Reg) ≠ 15 := by decide

/-- In ARM and in THUMB state, from memory; and from the bus. -/
theorem witness_StepRunsDecodedInstruction :
    let arm := sysState.withFetchWord 32 0xE3A00005
    let thumb := thumbState.withFetchWord 16 0x2300
    let bus : State := { sysState with plain := [], bus := [{ aborts := false, value := 0xE3A00005, stored := [] }] }
    let movs := Instr.mov .al false 0 0 (.imm 0 5)
    (arm.stop = .running ∧ arm.LegalMode ∧ wellFormed movs = true ∧ isThumb movs = arm.thumb ∧
      arm.linesNow.reset = false ∧ (arm.linesNow.fiq = true → arm.flagF = true) ∧
      (arm.linesNow.irq = true → arm.flagI = true) ∧ arm.readAnswer arm.pc arm.fetchSize = some (instrWord movs) ∧
      arm.plainAccess arm.pc arm.fetchSize = true) ∧
    (thumb.stop = .running ∧ thumb.LegalMode ∧ wellFormed (.tMovImm 3 0) = true ∧
      isThumb (.tMovImm 3 0) = thumb.thumb ∧ thumb.readAnswer thumb.pc thumb.fetchSize = some (instrWord (.tMovImm 3 0))) ∧
    bus.readAnswer bus.pc bus.fetchSize = some (instrWord movs) ∧ bus.plainAccess bus.pc bus.fetchSize = false := by
  unfold State.LegalMode; decide

theorem witness_FailedConditionOnlyAdvances : condPassed (guardOf (.swi .eq 0)) sysState = false ∧
    condPassed (guardOf (.undMedia .nv 0 0)) sysState = false ∧
    condPassed (guardOf (.tBCond .eq 6)) thumbState = false := by decide

/-- Reset; FIQ with F = 0; IRQ with I = 0, FIQ masked; and an aborted fetch. -/
theorem witness_LinesThenFetchInPriorityOrder :
    let lines (r f i : Bool) (cpsr : Word) : State :=
      (testState cpsr [] []).setLines [{ reset := r, fiq := f, irq := i }]
    let aborted : State := { sysState with plain := [], bus := [{ aborts := true, value := 0, stored := [] }] }
    ((lines true true true 0x1F).stop = .running ∧ (lines true true true 0x1F).LegalMode ∧
      (lines true true true 0x1F).linesNow.reset = true) ∧
    ((lines false true true 0x1F).linesNow.reset = false ∧ (lines false true true 0x1F).linesNow.fiq = true ∧
      (lines false true true 0x1F).flagF = false) ∧
    ((lines false true true 0x5F).linesNow.fiq = true ∧ (lines false true true 0x5F).flagF = true ∧
      (lines false true true 0x5F).linesNow.irq = true ∧ (lines false true true 0x5F).flagI = false) ∧
    (aborted.stop = .running ∧ aborted.LegalMode ∧ aborted.linesNow.reset = false ∧ aborted.linesNow.fiq = false ∧
      aborted.linesNow.irq = false ∧ aborted.readAnswer aborted.pc aborted.fetchSize = none) := by
  unfold State.LegalMode; decide

theorem witness_MultiplyResults : condPassed .al sysState = true ∧ (0 : Reg) ≠ 15 ∧ (1 : Reg) ≠ 15 ∧ (2 : Reg) ≠ 15 ∧
    (0 : Reg) ≠ 1 ∧ (3 : Reg) ≠ 15 ∧ sysState.NotBlocked [0, 1, 2] ∧ sysState.NotBlocked [0, 1, 2, 3] := by
  unfold State.NotBlocked; decide

theorem witness_MultiplyLongResults : condPassed .al sysState = true ∧ (1 : Reg) ≠ 15 ∧ (0 : Reg) ≠ 15 ∧ (2 : Reg) ≠ 15 ∧
    (3 : Reg) ≠ 15 ∧ (1 : Reg) ≠ 0 ∧ (1 : Reg) ≠ 2 ∧ (0 : Reg) ≠ 2 ∧ sysState.NotBlocked [1, 0, 2, 3] := by
  unfold State.NotBlocked; decide

/-- R15 as an operand; Rd = Rm; a should-be-zero field; RdHi = RdLo. -/
theorem witness_MultiplyFormsRefused : condPassed .al sysState = true ∧ ((15 : Reg) = 15 ∨ (1 : Reg) = 15 ∨ (2 : Reg) = 15) ∧
    ((14 : Reg) ≠ 15 ∧ (14 : Reg) = 14) ∧ ((0 : Reg) ≠ 1 ∧ (1 : BitVec 4) ≠ 0) ∧
    ((0 : Reg) ≠ 15 ∧ ((0 : Reg) = 0 ∨ (0 : Reg) = 1 ∨ (0 : Reg) = 1)) := by decide

/-- A shift by a register, by an immediate, and a rotated immediate. -/
theorem witness_DataProcessingResults : condPassed .al sysState = true ∧ (14 : Reg) ≠ 15 ∧
    (∀ rs ty rm, Operand2.shiftReg 14 .ror 15 = .shiftReg rs ty rm → rs ≠ 15) ∧
    (∀ rs ty rm, Operand2.shiftImm 0 .lsl 15 = .shiftReg rs ty rm → rs ≠ 15) ∧
    sysState.NotBlocked (15 :: 14 :: operand2Regs (.shiftReg 14 .ror 15)) ∧
    sysState.NotBlocked (14 :: operand2Regs (.imm 15 0xFF)) := by
  refine ⟨by decide, by decide, ?_, ?_, ?_, ?_⟩
  · intro rs ty rm h; cases h; decide
  · intro rs ty rm h; cases h
  · unfold State.NotBlocked; decide
  · unfold State.NotBlocked; decide

/-- A branch taken and one misaligned; a return in each of its outcomes: no SPSR, an illegal saved mode, a misaligned
target, a legal return. -/
theorem witness_DataProcessingIntoPc : condPassed .al sysState = true ∧ condPassed .al irqState = true ∧
    (∀ rs ty rm, Operand2.shiftImm 0 .lsl 14 ≠ .shiftReg rs ty rm) ∧
    sysState.NotBlocked (0 :: operand2Regs (.shiftImm 0 .lsl 14)) ∧
    irqState.NotBlocked (0 :: operand2Regs (.shiftImm 0 .lsl 14)) ∧
    (0x2002 : Word).extractLsb' 0 2 ≠ 0 ∧ (0x2000 : Word).extractLsb' 0 2 = 0 ∧
    sysState.getSpsr sysState.mode = none ∧ (irqState.getSpsr irqState.mode = some 0x10 ∧ modeOf 0x10 ≠ none) ∧
    ((irqState.setSpsr .irq 0).getSpsr .irq = some 0 ∧ modeOf 0 = none) := by
  refine ⟨by decide, by decide, ?_, ?_, ?_, by decide, by decide, by decide, by decide, by decide⟩
  · intro rs ty rm h; cases h
  · unfold State.NotBlocked; decide
  · unfold State.NotBlocked; decide

theorem witness_DataProcessingFormsRefused : condPassed .al sysState = true ∧ (15 : Reg) = 15 ∧
    ((14 : Reg) ≠ 15 ∧ (15 : Reg) = 15) ∧ (1 : BitVec 4) ≠ 0 ∧
    (∀ rs ty rm, Operand2.imm 0 0 = .shiftReg rs ty rm → rs ≠ 15 ∧ (0 : Reg) ≠ 15) ∧
    (∀ rs ty rm, Operand2.shiftReg 14 .lsl 0 = .shiftReg rs ty rm → rs ≠ 15 ∧ (14 : Reg) ≠ 15) := by
  refine ⟨by decide, by decide, by decide, by decide, ?_, ?_⟩
  · intro rs ty rm h; cases h
  · intro rs ty rm h; cases h; decide

theorem witness_MrsReadsStatus : condPassed .al irqState = true ∧ (14 : Reg) ≠ 15 ∧ irqState.NotBlocked [14] ∧
    irqState.getSpsr irqState.mode = some 0x10 := by
  unfold State.NotBlocked; decide

/-- Values that make the mode illegal, that would change T, and that are written. -/
theorem witness_MsrWritesCpsr : condPassed .al irqState = true ∧ irqState.LegalMode ∧ (0 : Reg) ≠ 15 ∧
    irqState.NotBlocked [0] ∧ modeOf 0x80 = none ∧ (modeOf 0xBF ≠ none ∧ psrBit 0xBF 5 ≠ irqState.thumb) ∧
    (modeOf 0xF000001F ≠ none ∧ psrBit 0xF000001F 5 = irqState.thumb) := by
  unfold State.LegalMode State.NotBlocked; decide

theorem witness_MsrWritesSpsr : condPassed .al irqState = true ∧ irqState.getSpsr irqState.mode = some 0x10 ∧
    (14 : Reg) ≠ 15 ∧ irqState.NotBlocked [14] := by
  unfold State.NotBlocked; decide

theorem witness_PsrTransferFormsRefused : condPassed .al sysState = true ∧
    ((14 : BitVec 4) ≠ 15 ∨ (0 : BitVec 4) ≠ 0) ∧ (0 : Reg) ≠ 15 ∧ sysState.getSpsr sysState.mode = none := by decide

/-- A word and a byte load, with and without write-back. -/
theorem witness_SingleLoadResults : condPassed .al sysState = true ∧ (0 : Reg) ≠ 15 ∧
    sysState.NotBlocked (1 :: 0 :: transferOffsetRegs (.imm 4)) ∧
    sysState.NotBlocked (1 :: 0 :: transferOffsetRegs (.reg 0 .lsl 2)) ∧
    sysState.readAnswer (transferAddress true true 1 (.imm 4) sysState) .word = some 0x22 ∧
    sysState.readAnswer (transferAddress false true 1 (.reg 0 .lsl 2) sysState) .byte = some 0x11 := by
  unfold State.NotBlocked; decide

/-- The forms of those loads are allowed, and so is an R15-relative one. -/
theorem witness_SingleLoadResults_forms : TransferFormOk true false 1 0 (.imm 4) ∧
    TransferFormOk true true 1 0 (.reg 0 .lsl 2) ∧ TransferFormOk false false 15 0 (.imm 4) := by
  unfold TransferFormOk; decide

/-- 0x2008 holds an aligned target, 0x2000 one that is not. -/
theorem witness_LoadIntoPcBranches : condPassed .al sysState = true ∧ sysState.NotBlocked (1 :: transferOffsetRegs (.imm 8)) ∧
    TransferFormOk true false 1 15 (.imm 8) ∧ TransferFormOk false false 1 15 (.imm 0) ∧
    sysState.readAnswer (transferAddress true true 1 (.imm 8) sysState) .word = some 0x3000 ∧
    sysState.readAnswer (transferAddress true true 1 (.imm 0) sysState) .word = some 0x11 := by
  unfold State.NotBlocked TransferFormOk; decide

/-- A store of R15, a store into the prefetched slots (A + 4 to A + 11), those just outside them; and an unaligned store
that the bus answers, with its bytes in the slots and outside them. -/
theorem witness_SingleStoreResults : condPassed .al sysState = true ∧
    sysState.NotBlocked (1 :: 15 :: transferOffsetRegs (.imm 4)) ∧ TransferFormOk true false 1 15 (.imm 4) ∧
    sysState.wouldSelfModify (transferAddress true true 1 (.imm 4) sysState) .word = false ∧
    sysState.writeAnswersOk (transferAddress true true 1 (.imm 4) sysState) .word = true ∧
    sysState.wouldSelfModify 0x1004 .word = true ∧ sysState.wouldSelfModify 0x100B .byte = true ∧
    sysState.wouldSelfModify 0x1000 .word = false ∧ sysState.wouldSelfModify 0x100C .word = false ∧
    (busState [⟨false, 0, [(0x1004, 1)]⟩]).wouldSelfModify 0x2001 .word = true ∧
    (busState [⟨false, 0, [(0x1000, 1)]⟩]).wouldSelfModify 0x1005 .word = false ∧
    (busState [⟨false, 0, [(0x1000, 1)]⟩]).writeAnswersOk 0x1005 .word = true := by
  unfold State.NotBlocked TransferFormOk; decide

theorem witness_TransferFormsRefused : condPassed .al sysState = true ∧ 15 ∈ transferOffsetRegs (.reg 0 .lsl 15) ∧
    (15 ∉ transferOffsetRegs (.reg 0 .lsl 1) ∧ (1 : Reg) ≠ 15 ∧ (1 : Reg) ≠ 0 ∧ 1 ∈ transferOffsetRegs (.reg 0 .lsl 1)) ∧
    (15 ∉ transferOffsetRegs (.imm 0) ∧ (15 : Reg) = 15) ∧
    (∀ sbz rm, HalfOffset.imm 0 = .reg sbz rm → sbz = 0 ∧ rm ≠ 15) ∧
    (∀ sbz rm, HalfOffset.reg 0 14 = .reg sbz rm → sbz = 0 ∧ rm ≠ 15) := by
  refine ⟨by decide, by decide, by decide, by decide, ?_, ?_⟩
  · intro sbz rm h; cases h
  · intro sbz rm h; cases h; decide

/-- A pre-indexed write-back form, a post-indexed one and an R15-relative one; a halfword store in the prefetched slots,
outside them, and one at an odd address that the bus answers. -/
theorem witness_HalfwordTransferResults : condPassed .al sysState = true ∧ HalfFormOk true true 1 0 (.imm 2) ∧
    HalfFormOk false false 1 0 (.reg 0 2) ∧ HalfFormOk true false 15 0 (.imm 2) ∧
    sysState.NotBlocked (1 :: 0 :: halfOffsetRegs (.reg 0 2)) ∧
    sysState.readAnswer (halfAddress true true 1 (.imm 2) sysState) .half = some 0 ∧
    sysState.wouldSelfModify (halfAddress true true 1 (.imm 2) sysState) .half = false ∧
    sysState.writeAnswersOk (halfAddress true true 1 (.imm 2) sysState) .half = true ∧
    sysState.wouldSelfModify 0x1004 .half = true ∧
    ((busState [⟨false, 0, [(0x2000, 1)]⟩]).wouldSelfModify 0x1005 .half = false ∧
      (busState [⟨false, 0, [(0x2000, 1)]⟩]).writeAnswersOk 0x1005 .half = true) := by
  refine ⟨by decide, ⟨?_, by decide⟩, ⟨?_, by decide⟩, ⟨?_, by decide⟩, ?_, by decide, by decide, by decide, by decide,
    by decide⟩
  · intro sbz rm h; cases h
  · intro sbz rm h; cases h; decide
  · intro sbz rm h; cases h
  · unfold State.NotBlocked; decide

theorem witness_TransferAbortUpdatesBase : condPassed .al abortState = true ∧
    abortState.NotBlocked (1 :: 0 :: transferOffsetRegs (.imm 4)) ∧ TransferFormOk true false 1 0 (.imm 4) ∧
    abortState.readAnswer (transferAddress true true 1 (.imm 4) abortState) .word = none ∧
    abortState.wouldSelfModify (transferAddress true true 1 (.imm 4) abortState) .word = false ∧
    abortState.writeAnswersOk (transferAddress true true 1 (.imm 4) abortState) .word = false ∧
    HalfFormOk true true 1 0 (.imm 2) ∧ abortState.NotBlocked (1 :: 0 :: halfOffsetRegs (.imm 2)) ∧
    abortState.readAnswer (halfAddress true true 1 (.imm 2) abortState) .half = none ∧
    abortState.wouldSelfModify (halfAddress true true 1 (.imm 2) abortState) .half = false ∧
    abortState.writeAnswersOk (halfAddress true true 1 (.imm 2) abortState) .half = false := by
  refine ⟨by decide, ?_, ?_, by decide, by decide, by decide, ⟨?_, by decide⟩, ?_, by decide, by decide, by decide⟩
  · unfold State.NotBlocked; decide
  · unfold TransferFormOk; decide
  · intro sbz rm h; cases h
  · unfold State.NotBlocked; decide

/-- STMIA R1!, (R1, R2, R15) in memory, none aborting; (R0, R1), whose base is a free word, from 0x1000 into the
prefetched slots; and the second of two writes aborting. -/
theorem witness_StoreMultipleResults : condPassed .al sysState = true ∧ (1 : Reg) ≠ 15 ∧ (0x8006 : BitVec 16) ≠ 0 ∧
    sysState.NotBlocked (1 :: regList 0x8006) ∧ sysState.PlainWords 0x2000 (regList 0x8006).length ∧
    sysState.wordsSelfModify 0x2000 (regList 0x8006).length = false ∧
    sysState.firstWriteAbort 0x2000 (regList 0x8006).length = none ∧
    (regList 3).head? ≠ some 1 ∧ (sysState.drawnIf true).wordsSelfModify 0x1000 (regList 3).length = true ∧
    (secondAborts sysState).NotBlocked (1 :: regList 3) ∧
    (secondAborts sysState).wordsSelfModify 0x2000 (regList 3).length = false ∧
    (secondAborts sysState).firstWriteAbort 0x2000 (regList 3).length = some 0x2004 := by
  unfold State.NotBlocked State.PlainWords; decide

theorem witness_StoreUserBankResults : condPassed .al irqState = true ∧ (1 : Reg) ≠ 15 ∧ (0xE000 : BitVec 16) ≠ 0 ∧
    irqState.getSpsr irqState.mode ≠ none ∧ irqState.NotBlocked (1 :: regList 0xE000) ∧
    irqState.PlainWords (blockAddress false true 1 (regList 0xE000) irqState) (regList 0xE000).length ∧
    irqState.wordsSelfModify (blockAddress false true 1 (regList 0xE000) irqState) (regList 0xE000).length = false ∧
    irqState.firstWriteAbort (blockAddress false true 1 (regList 0xE000) irqState) (regList 0xE000).length = none ∧
    irqState.wordsSelfModify 0x1000 (regList 3).length = true ∧
    (secondAborts irqState).NotBlocked (1 :: regList 0x6000) ∧
    (secondAborts irqState).wordsSelfModify 0x2000 (regList 0x6000).length = false ∧
    (secondAborts irqState).firstWriteAbort 0x2000 (regList 0x6000).length = some 0x2004 := by
  unfold State.NotBlocked State.PlainWords; decide

theorem witness_BlockReadsAscendingWords :
    let bytes (n : Nat) : Byte := (leBytes 4 0x11 ++ leBytes 4 0x22)[n]?.getD 0
    ([0, 3] : List Reg)[1]? = some 3 ∧ sysState.PlainWords 0x2000 ([0, 3] : List Reg).length ∧
    (∀ k, k < ([0, 3] : List Reg).length → ∀ i, i < 4 →
      sysState.mem.read ((0x2000 + BitVec.ofNat 32 (4 * k)).toNat + i) = some (bytes (4 * k + i))) := by
  unfold State.PlainWords; decide

theorem witness_LoadMultipleResults : condPassed .al sysState = true ∧ (1 : Reg) ≠ 15 ∧ (0x4009 : BitVec 16) ≠ 0 ∧
    1 ∉ regList 0x4009 ∧ 15 ∉ regList 0x4009 ∧ sysState.NotBlocked (1 :: regList 0x4009) ∧
    (∀ e ∈ (loadWords (blockAddress false true 1 (regList 0x4009) sysState) (regList 0x4009) sysState).1, e.2 ≠ none) := by
  have reads : (loadWords (blockAddress false true 1 (regList 0x4009) sysState) (regList 0x4009) sysState).1 =
      [(0, some 0x11), (3, some 0x22), (14, some 0x3000)] := by decide
  rw [reads]
  unfold State.NotBlocked
  refine ⟨by decide, by decide, by decide, by decide, by decide, by decide, by simp⟩

/-- In IRQ mode the list R0, R3, R15 from 0x2000 loads R15 with 0x3000. -/
theorem witness_LoadMultipleIntoPc :
    let regs := regList (1#1 ++ (9 : BitVec 15))
    condPassed .al irqState = true ∧ (1 : Reg) ≠ 15 ∧ 1 ∉ regs ∧ irqState.NotBlocked (1 :: regs) ∧
    (∀ e ∈ (loadWords (blockAddress false true 1 regs irqState) regs irqState).1, e.2 ≠ none) ∧
    (15, some 0x3000) ∈ (loadWords (blockAddress false true 1 regs irqState) regs irqState).1 := by
  intro regs
  have reads : (loadWords (blockAddress false true 1 regs irqState) regs irqState).1 =
      [(0, some 0x11), (3, some 0x22), (15, some 0x3000)] := by decide
  rw [reads]
  unfold State.NotBlocked
  refine ⟨by decide, by decide, by decide, by decide, by simp, by decide⟩

theorem witness_LoadUserBankResults :
    let regs := regList (0#1 ++ (0x6000 : BitVec 15))
    condPassed .al irqState = true ∧ (1 : Reg) ≠ 15 ∧ (0x6000 : BitVec 15) ≠ 0 ∧
    irqState.getSpsr irqState.mode ≠ none ∧ irqState.NotBlocked (1 :: regs) ∧
    (∀ e ∈ (loadWords (blockAddress false true 1 regs irqState) regs irqState).1, e.2 ≠ none) := by
  intro regs
  have reads : (loadWords (blockAddress false true 1 regs irqState) regs irqState).1 =
      [(13, some 0x11), (14, some 0x22)] := by decide
  rw [reads]
  unfold State.NotBlocked
  refine ⟨by decide, by decide, by decide, by decide, by decide, by simp⟩

/-- The second of two reads aborts: LDM in SYS mode, LDM^ with R15 and LDM^ of the User bank in IRQ mode. -/
theorem witness_LoadMultipleAborts :
    let s := secondAborts sysState
    let q := secondAborts irqState
    condPassed .al s = true ∧ condPassed .al q = true ∧ (1 : Reg) ≠ 15 ∧
    ((9 : BitVec 16) ≠ 0 ∧ 1 ∉ regList 9 ∧ s.NotBlocked (1 :: regList 9) ∧
      AbortsAt 1 (loadWords (blockAddress false true 1 (regList 9) s) (regList 9) s).1) ∧
    (1 ∉ regList (1#1 ++ (1 : BitVec 15)) ∧ q.getSpsr q.mode ≠ none ∧ q.NotBlocked (1 :: regList (1#1 ++ (1 : BitVec 15))) ∧
      AbortsAt 1 (loadWords (blockAddress false true 1 (regList (1#1 ++ (1 : BitVec 15))) q)
        (regList (1#1 ++ (1 : BitVec 15))) q).1) ∧
    ((0x6000 : BitVec 15) ≠ 0 ∧ q.NotBlocked (1 :: regList (0#1 ++ (0x6000 : BitVec 15))) ∧
      AbortsAt 1 (loadWords (blockAddress false true 1 (regList (0#1 ++ (0x6000 : BitVec 15))) q)
        (regList (0#1 ++ (0x6000 : BitVec 15))) q).1) := by
  intro s q
  have loaded : (loadWords (blockAddress false true 1 (regList 9) s) (regList 9) s).1 =
      [(0, some 0x11), (3, none)] := by decide
  have returned : (loadWords (blockAddress false true 1 (regList (1#1 ++ (1 : BitVec 15))) q)
      (regList (1#1 ++ (1 : BitVec 15))) q).1 = [(0, some 0x11), (15, none)] := by decide
  have user : (loadWords (blockAddress false true 1 (regList (0#1 ++ (0x6000 : BitVec 15))) q)
      (regList (0#1 ++ (0x6000 : BitVec 15))) q).1 = [(13, some 0x11), (14, none)] := by decide
  rw [loaded, returned, user]
  unfold State.NotBlocked AbortsAt
  refine ⟨by decide, by decide, by decide, ⟨by decide, by decide, by decide, ⟨_, rfl⟩, by simp⟩,
    ⟨by decide, by decide, by decide, ⟨_, rfl⟩, by simp⟩, by decide, by decide, ⟨_, rfl⟩, by simp⟩

theorem witness_BlockAndThumbFormsRefused : condPassed .al sysState = true ∧ condPassed .al irqState = true ∧
    (15 : Reg) = 15 ∧ (1 : Reg) ≠ 15 ∧ 1 ∈ regList 2 ∧ 1 ∈ regList (1#1 ++ (2 : BitVec 15)) ∧
    1 ∈ regList (0#1 ++ (2 : BitVec 15)) ∧ 1 ∉ regList (1#1 ++ (1 : BitVec 15)) ∧
    1 ∉ regList (0#1 ++ (1 : BitVec 15)) ∧ (1 : BitVec 16) ≠ 0 ∧ (1 : BitVec 15) ≠ 0 ∧
    sysState.getSpsr sysState.mode = none ∧ irqState.getSpsr irqState.mode ≠ none ∧
    (2 : BitVec 8).getLsbD (1 : LoReg).toNat = true ∧ (1 : BitVec 3) ≠ 0 := by decide

theorem witness_BranchResults : condPassed .al sysState = true ∧ sysState.thumb = false ∧ sysState.AlignedPc ∧
    sysState.NotBlocked [14] := by
  unfold State.AlignedPc State.NotBlocked; decide

/-- BX from both states, to a THUMB target, an ARM target and a misaligned one. -/
theorem witness_BranchExchangeResults : sysState.NotBlocked [1] ∧ thumbState.NotBlocked [1] ∧
    condPassed .al sysState = true ∧ ((0x2002 : Word).getLsbD 0 = false ∧ (0x2002 : Word).getLsbD 1 = true) ∧
    (0x2001 : Word).getLsbD 0 = true ∧ ((0x2000 : Word).getLsbD 0 = false ∧ (0x2000 : Word).getLsbD 1 = false) := by
  unfold State.NotBlocked; decide

theorem witness_ThumbBranchResults : thumbState.thumb = true ∧ condPassed .ne thumbState = true ∧
    thumbState.NotBlocked [14] := by
  unfold State.NotBlocked; decide

theorem witness_SwiEntersSvc : condPassed .al sysState = true ∧ condPassed .le (testState 0x4000001F [] []) = true := by
  decide

theorem witness_UndefinedEntersUnd : condPassed (guardOf (.undMulSwap .al 4 0 0)) sysState = true ∧
    condPassed (guardOf (.mrc .al 0 0 0 15 0 0)) sysState = true ∧ condPassed (guardOf (.tUndCond 0)) thumbState = true := by
  decide

/-- A swap in memory; one that meets the prefetched slots, in memory and by the bus's answer; bus-answered swaps, the
write answered ok and aborted; one whose read aborts. -/
theorem witness_SwapResults : condPassed .al sysState = true ∧ (1 : Reg) ≠ 15 ∧ (0 : Reg) ≠ 15 ∧ (2 : Reg) ≠ 15 ∧
    (1 : Reg) ≠ 0 ∧ (1 : Reg) ≠ 2 ∧ sysState.NotBlocked [1, 0, 2] ∧ sysState.readAnswer 0x2000 .word = some 0x11 ∧
    (sysState.afterRead 0x2000 .word).wouldSelfModify 0x2000 .word = false ∧
    (sysState.afterRead 0x2000 .word).writeAnswersOk 0x2000 .word = true ∧
    (sysState.setPhys (.low 1) 0x1004).readReg 1 = 0x1004 ∧
    ((sysState.setPhys (.low 1) 0x1004).afterRead 0x1004 .word).wouldSelfModify 0x1004 .word = true := by
  unfold State.NotBlocked; decide

theorem witness_SwapResults_bus :
    let ok : State := busState [⟨false, 0x77, []⟩, ⟨false, 0, [(0x2000, 4)]⟩]
    let writeAborts : State := busState [⟨false, 0x77, []⟩, ⟨true, 0, []⟩]
    let meets : State := busState [⟨false, 0x77, []⟩, ⟨false, 0, [(0x1004, 4)]⟩]
    (ok.NotBlocked [1, 0, 2] ∧ ok.readReg 1 = 0x2000 ∧ ok.readAnswer 0x2000 .byte = some 0x77 ∧
      (ok.afterRead 0x2000 .byte).wouldSelfModify 0x2000 .byte = false ∧
      (ok.afterRead 0x2000 .byte).writeAnswersOk 0x2000 .byte = true) ∧
    (writeAborts.readAnswer 0x2000 .word = some 0x77 ∧
      (writeAborts.afterRead 0x2000 .word).wouldSelfModify 0x2000 .word = false ∧
      (writeAborts.afterRead 0x2000 .word).writeAnswersOk 0x2000 .word = false) ∧
    (meets.readAnswer 0x2000 .word = some 0x77 ∧
      (meets.afterRead 0x2000 .word).wouldSelfModify 0x2000 .word = true) ∧
    (abortState.NotBlocked [1, 0, 2] ∧ abortState.readAnswer (abortState.readReg 1) .word = none ∧
      abortState.readAnswer (abortState.readReg 1) .byte = none) := by
  unfold State.NotBlocked; decide

/-- R15 in each of the three places, Rn = Rd, Rn = Rm. -/
theorem witness_SwapResults_forms : condPassed .al sysState = true ∧ ((15 : Reg) = 15 ∨ (0 : Reg) = 15 ∨ (2 : Reg) = 15) ∧
    ((1 : Reg) = 15 ∨ (15 : Reg) = 15 ∨ (2 : Reg) = 15) ∧ ((1 : Reg) = 15 ∨ (0 : Reg) = 15 ∨ (15 : Reg) = 15) ∧
    ((1 : Reg) ≠ 15 ∧ (2 : Reg) ≠ 15 ∧ ((1 : Reg) = 1 ∨ (1 : Reg) = 2) ∧ ((1 : Reg) = 2 ∨ (1 : Reg) = 1)) := by decide

theorem witness_ThumbRegisterResults : (1 : LoReg) ≠ 0 := by decide

/-- R15 and R8 as high registers, and two low ones; the formats 12 and 13 in THUMB state. -/
theorem witness_ThumbHighRegisterAndAddressResults : (8 ≤ (8 : Reg).toNat ∨ 8 ≤ (0 : Reg).toNat) ∧
    thumbState.NotBlocked [8, 0] ∧ thumbState.NotBlocked [15, 7] ∧ (7 : Reg) ≠ 15 ∧ (15 : Reg) = 15 ∧
    ((7 : Reg).toNat < 8 ∧ (0 : Reg).toNat < 8) ∧ thumbState.thumb = true ∧ thumbState.NotBlocked [13] := by
  unfold State.NotBlocked; decide

/-- Loads that are answered and loads that abort. -/
theorem witness_ThumbLoadResults : thumbState.NotBlocked [] ∧ thumbState.NotBlocked [13] ∧
    thumbState.readAnswer (thumbState.readReg 13 + (1 <<< 2)) .word = some 0x22 ∧
    (abortState.setCpsr 0x3F).readAnswer ((abortState.setCpsr 0x3F).readReg (lo 1)) .byte = none := by
  unfold State.NotBlocked; decide

/-- The slots are A + 2 to A + 5. -/
theorem witness_ThumbStoreResults : thumbState.NotBlocked [] ∧ thumbState.NotBlocked [13] ∧
    thumbState.wouldSelfModify 0x2000 .word = false ∧ thumbState.writeAnswersOk 0x2000 .word = true ∧
    thumbState.wouldSelfModify 0x1002 .byte = true ∧ thumbState.wouldSelfModify 0x1005 .byte = true ∧
    thumbState.wouldSelfModify 0x1006 .half = false ∧ (abortState.setCpsr 0x3F).wouldSelfModify 0x2000 .half = false ∧
    (abortState.setCpsr 0x3F).writeAnswersOk 0x2000 .half = false := by
  unfold State.NotBlocked; decide

/-- PUSH (R0, LR) from 0x2000 and STMIA R1!, (R0, R1), whose base is a free word, none aborting; blocks that meet the
prefetched slots; and the second of two writes aborting. -/
theorem witness_ThumbStoreMultipleResults : pushRegs true 1 ≠ [] ∧ thumbState.NotBlocked (13 :: pushRegs true 1) ∧
    thumbState.readReg 13 - BitVec.ofNat 32 (4 * (pushRegs true 1).length) = 0x1FF8 ∧
    thumbState.wordsSelfModify 0x1FF8 (pushRegs true 1).length = false ∧
    thumbState.firstWriteAbort 0x1FF8 (pushRegs true 1).length = none ∧
    thumbState.wordsSelfModify 0x0FFC (pushRegs true 1).length = true ∧
    lowList 3 ≠ [] ∧ (lowList 3).head? ≠ some (lo 1) ∧ thumbState.readReg (lo 1) = 0x2000 ∧
    thumbState.PlainWords 0x2000 (lowList 3).length ∧
    (thumbState.drawnIf true).wordsSelfModify 0x2000 (lowList 3).length = false ∧
    (thumbState.drawnIf true).firstWriteAbort 0x2000 (lowList 3).length = none ∧
    (thumbState.drawnIf true).wordsSelfModify 0x1000 (lowList 3).length = true ∧
    ((secondAborts thumbState).drawnIf true).wordsSelfModify 0x2000 (lowList 3).length = false ∧
    ((secondAborts thumbState).drawnIf true).firstWriteAbort 0x2000 (lowList 3).length = some 0x2004 := by
  unfold State.NotBlocked State.PlainWords; decide

/-- POP (R0, R3, PC) from 0x2000 and LDMIA R1!, (R0, R3); and both with the second read aborting. -/
theorem witness_ThumbLoadMultipleResults : thumbState.thumb = true ∧ popRegs true 9 ≠ [] ∧
    thumbState.NotBlocked (13 :: popRegs true 9) ∧
    (∀ e ∈ (loadWords (thumbState.readReg 13) (popRegs true 9) thumbState).1, e.2 ≠ none) ∧
    lowList 9 ≠ [] ∧ lo 1 ∉ lowList 9 ∧
    (∀ e ∈ (loadWords (thumbState.readReg (lo 1)) (lowList 9) thumbState).1, e.2 ≠ none) ∧
    (secondAborts thumbState).NotBlocked (13 :: popRegs true 1) ∧
    AbortsAt 1 (loadWords ((secondAborts thumbState).readReg 13) (popRegs true 1) (secondAborts thumbState)).1 ∧
    AbortsAt 1 (loadWords ((secondAborts thumbState).readReg (lo 1)) (lowList 9) (secondAborts thumbState)).1 := by
  have popped : (loadWords (thumbState.readReg 13) (popRegs true 9) thumbState).1 =
      [(0, some 0x11), (3, some 0x22), (15, some 0x3000)] := by decide
  have loaded : (loadWords (thumbState.readReg (lo 1)) (lowList 9) thumbState).1 =
      [(0, some 0x11), (3, some 0x22)] := by decide
  have popAborts : (loadWords ((secondAborts thumbState).readReg 13) (popRegs true 1) (secondAborts thumbState)).1 =
      [(0, some 0x11), (15, none)] := by decide
  have loadAborts : (loadWords ((secondAborts thumbState).readReg (lo 1)) (lowList 9) (secondAborts thumbState)).1 =
      [(0, some 0x11), (3, none)] := by decide
  rw [popped, loaded, popAborts, loadAborts]
  unfold State.NotBlocked AbortsAt
  exact ⟨by decide, by decide, by decide, by simp, by decide, by decide, by simp, by decide, ⟨⟨_, rfl⟩, by simp⟩, ⟨_, rfl⟩,
    by simp⟩

/-- Under the hazard in IRQ mode: MOV r0, lr names a banked register and would run without it, and PUSH names SP; MOV
r0, r7 and an instruction whose condition fails do not meet it; LDM^ of the User bank leaves it. -/
theorem witness_HazardRefusesBankedRegisters :
    let s := irqState.setHazard true
    let banked := Instr.mov .al false 0 0 (.shiftImm 0 .lsl 14)
    (condPassed (guardOf banked) s = true ∧ s.hazard = true ∧ (∃ r ∈ namedRegs banked, s.banksAway r = true) ∧
      ∀ why, exec banked (s.setHazard false) ≠ .refused why) ∧
    (∃ r ∈ namedRegs (.tPush false 1), s.banksAway r = true) ∧
    condPassed (guardOf (.mov .eq false 0 0 (.shiftImm 0 .lsl 14))) s = false ∧
    (∀ r ∈ namedRegs (.mov .al false 0 0 (.shiftImm 0 .lsl 7)), s.banksAway r = false) ∧
    (∃ t, exec (.ldmUser .al false true false 4 0x6000) (irqState.setPhys (.low 4) 0x2000) = .next t ∧ t.hazard = true) ∧
    (s.mode = .irq ∧ s.banksAway 14 = true ∧ s.banksAway 12 = false) :=
  ⟨⟨rfl, rfl, by decide, fun _ h => nomatch h⟩, by decide, by decide, by decide, ⟨_, rfl, rfl⟩, by decide⟩

/-- The slots of 0x1000 are 0x1004 to 0x100B: words that meet them at either end, and those next to them; a device write
whose answer names a byte at either end, and one that does not; two words of which the second meets them. -/
theorem witness_PrefetchWindowIsTwoSlots :
    sysState.plainAccess 0x1004 .word = true ∧ sysState.wouldSelfModify 0x1004 .word = true ∧
    sysState.wouldSelfModify 0x100B .byte = true ∧ sysState.wouldSelfModify 0x1000 .word = false ∧
    sysState.wouldSelfModify 0x100C .byte = false ∧
    (busState [⟨false, 0, [(0x100B, 0)]⟩]).plainAccess 0x2000 .word = false ∧
    (busState [⟨false, 0, [(0x100B, 0)]⟩]).wouldSelfModify 0x2000 .word = true ∧
    (busState [⟨false, 0, [(0x1004, 0)]⟩]).wouldSelfModify 0x2000 .word = true ∧
    (busState [⟨false, 0, [(0x100C, 0)]⟩]).wouldSelfModify 0x2000 .word = false ∧
    sysState.wordsSelfModify 0x1000 2 = true ∧ sysState.wordsSelfModify 0x1000 1 = false := by decide

/-- SWI in USR mode answers a next state in another mode. -/
theorem witness_UserModeLeavesOnlyByException :
    let s := testState 0x10 [] []
    s.LegalMode ∧ s.mode = .usr ∧ ∃ t, exec (.swi .al 0) s = .next t ∧ t.mode ≠ .usr :=
  ⟨rfl, by decide, _, rfl, by decide⟩

/-- BX to a THUMB target, and MOVS pc, lr in IRQ mode with a THUMB status saved, change T without an exception. -/
theorem witness_StateBitChangesOnlyByBxOrReturn :
    let s := testState 0x1F [(.low 0, 0x2001)] []
    let q := irqState.setSpsr .irq 0x30
    (∃ t, exec (.bx .al 0) s = .next t ∧ t.out.report = .completed ∧ t.thumb ≠ s.thumb) ∧
    (∃ t, exec (.mov .al true 0 15 (.shiftImm 0 .lsl 14)) q = .next t ∧ t.out.report = .completed ∧ t.thumb ≠ q.thumb) :=
  ⟨⟨_, rfl, rfl, by decide⟩, _, rfl, rfl, by decide⟩

/-- Both states meet the invariant, and both SWI forms answer a next state there. -/
theorem witness_SwiReturnResumes : sysState.Inv ∧ thumbState.Inv ∧
    (∃ t, exec (.swi .al 0) sysState = .next t) ∧ isThumb (.swi .al 0) = sysState.thumb ∧
    (∃ t, exec (.tSwi 0) thumbState = .next t) ∧ isThumb (.tSwi 0) = thumbState.thumb :=
  ⟨⟨rfl, by unfold ReservedZero; decide, by unfold ReservedZero; decide, by unfold ReservedZero; decide,
      by unfold ReservedZero; decide, by unfold ReservedZero; decide, by unfold ReservedZero; decide,
      by unfold State.AlignedPc; decide, by decide, by decide, by decide, by decide⟩,
    ⟨rfl, by unfold ReservedZero; decide, by unfold ReservedZero; decide, by unfold ReservedZero; decide,
      by unfold ReservedZero; decide, by unfold ReservedZero; decide, by unfold ReservedZero; decide,
      by unfold State.AlignedPc; decide, by decide, by decide, by decide, by decide⟩,
    ⟨_, rfl⟩, by decide, ⟨_, rfl⟩, by decide⟩

/-- A state of a running core that takes a step. -/
theorem witness_StepKeepsInvariant :
    let s := sysState.withFetchWord 32 0xE3A00005
    s.Inv ∧ ∃ t, step s = .next t :=
  ⟨⟨rfl, by unfold ReservedZero; decide, by unfold ReservedZero; decide, by unfold ReservedZero; decide,
    by unfold ReservedZero; decide, by unfold ReservedZero; decide, by unfold ReservedZero; decide,
    by unfold State.AlignedPc; decide, by decide, by decide, by decide, by decide⟩, _, rfl⟩

/-- MSR of CPSR with an illegal mode faults, and so does a return to one. -/
theorem witness_FaultsOnlyByTheFatalChannel :
    (∃ f, exec (.msrImm .al false 1 15 0 0) (testState 0x1F [] []) = .fault f) ∧
    (∃ f, exec (.mov .al true 0 15 (.shiftImm 0 .lsl 14)) (irqState.setSpsr .irq 0) = .fault f) ∧
    (sysState.setStop .fatal).stop = .fatal :=
  ⟨⟨_, rfl⟩, ⟨_, rfl⟩, rfl⟩

theorem witness_TransferAddressesAndRegisterLists : sysState.thumb = false ∧ (14 : Reg) ≠ 15 := by decide
end Sys2Proof.Tests
end

/-! SUPPORT. Proofs of the statements about the state (spec/10_state.md): the bank table, mode switches, the inversion
of `exec`, the invariant of a running core, and what can change CPSR. -/

namespace Sys2Proof.Machine

/-! ### SetOperatingMode (spec/10_state.md R44) -/

/-- Settles O6: the mode is the one set, the word is the definition's, a bit from 5 up is kept. -/
theorem setOperatingModeKeepsOtherBits : Obligations.SetOperatingModeKeepsOtherBits := by
  unfold Obligations.SetOperatingModeKeepsOtherBits
  exact fun psr m => ⟨modeOf_setMode psr m, rfl, fun i hi => psrBit_setMode psr m i hi⟩

/-! ### The bank table (spec/10_state.md R33) -/

theorem physReg_of_lt_eight (m : Mode) (n : Reg) (h : n.toNat < 8) : physReg m n = .low (Fin.ofNat 8 n.toNat) := by
  cases m <;> revert n <;> decide

theorem physReg_high_fiq (n : Reg) (h : 8 ≤ n.toNat ∧ n.toNat ≤ 12) :
    physReg .fiq n = .highFiq (Fin.ofNat 5 (n.toNat - 8)) := by
  revert n; decide

theorem physReg_high {m : Mode} (hm : m ≠ .fiq) (n : Reg) (h : 8 ≤ n.toNat ∧ n.toNat ≤ 12) :
    physReg m n = .high (Fin.ofNat 5 (n.toNat - 8)) := by
  cases m with
  | fiq => exact absurd rfl hm
  | usr | irq | svc | abt | und | sys => revert n; decide

theorem State.readReg_eq_getPhys (s : State) {n : Reg} (h : n ≠ 15) :
    s.readReg n = s.getPhys (physReg s.mode n) := if_neg h

theorem State.getPhys_writeReg_same (s : State) {n : Reg} (v : Word) (h : n ≠ 15) :
    (s.writeReg n v).getPhys (physReg s.mode n) = v := s.getPhys_setPhys_same v (physReg_ne_r15 _ h)

theorem State.getPhys_writeReg_other (s : State) (n : Reg) (v : Word) {q : PhysReg} (h : q ≠ physReg s.mode n) :
    (s.writeReg n v).getPhys q = s.getPhys q := s.getPhys_setPhys_other v h

/-- Settles O4: the table by its rows, the accesses by the laws of a physical register. -/
theorem bankTable : Obligations.BankTable := by
  unfold Obligations.BankTable
  refine ⟨fun m n => ⟨physReg_of_lt_eight m n, ?_, ?_, ?_, ?_, ?_⟩, fun s n v h => ⟨?_, ?_, ?_⟩⟩
  · rintro ⟨h8, h12, rfl⟩; exact physReg_high_fiq n ⟨h8, h12⟩
  · rintro ⟨h8, h12, hm⟩; exact physReg_high hm n ⟨h8, h12⟩
  · rintro rfl; cases m <;> rfl
  · rintro rfl; cases m <;> rfl
  · rintro rfl; exact physReg_fifteen m
  · exact s.readReg_eq_getPhys h
  · exact s.getPhys_writeReg_same v h
  · exact fun q hq => s.getPhys_writeReg_other n v hq

/-! ### Registers across a mode switch (spec/10_state.md R34) -/

@[simp] theorem State.setCpsr_setMode_mode (s : State) (psr : Word) (m : Mode) :
    (s.setCpsr (setMode psr m)).mode = m := by simp [State.mode]

/-- In the mode switched to, a register number reads its storage there: the switch copies nothing. -/
theorem State.readReg_setCpsr_setMode (s : State) (psr : Word) (m : Mode) {k : Reg} (h : k ≠ 15) :
    (s.setCpsr (setMode psr m)).readReg k = s.getPhys (physReg m k) := by
  rw [State.readReg_eq_getPhys _ h, State.setCpsr_setMode_mode, State.setCpsr_getPhys]

/-- Settles O5: a switch fixes which storage a number names, and the write is seen in that storage alone. -/
theorem bankedRegistersPersist : Obligations.BankedRegistersPersist := by
  unfold Obligations.BankedRegistersPersist
  intro s m n k v _ hn hk
  refine ⟨fun hne => ?_, fun heq => ?_, ?_, rfl⟩
  · rw [State.readReg_setCpsr_setMode _ _ _ hk, State.getPhys_writeReg_other s n v hne]
  · rw [State.readReg_setCpsr_setMode _ _ _ hk, heq, State.getPhys_writeReg_same s v hn]
  · rw [State.readReg_setCpsr_setMode _ _ _ hn, State.setCpsr_getPhys, State.getPhys_writeReg_same s v hn]

/-! ### What an instruction can do

Every instruction is skipped, is refused, or ends in one of the shared operations. `EffectOf` names the operation, so
that a fact about all instructions is a fact about each operation. -/

/-- `u` is `s` with registers and flags written, and draws counted, by an instruction that stays in its mode. -/
inductive Wrote (s : State) : State → Prop where
  | refl : Wrote s s
  | reg {u : State} (h : Wrote s u) (n : Reg) (v : Word) : Wrote s (u.writeReg n v)
  | flags {u : State} (h : Wrote s u) (n z c v : Bool) : Wrote s (u.setCpsr (withFlags u.cpsr n z c v))
  | drawn {u : State} (h : Wrote s u) : Wrote s u.drawn

/-- BX of either state. -/
def IsExchange (i : Instr) : Prop := (∃ c rm, i = .bx c rm) ∨ ∃ h1 hs sbz, i = .tBx h1 hs sbz

/-- Data processing with S and Rd = R15 (spec/44_data_processing.md R238). -/
def IsAluReturn (i : Instr) : Prop :=
  (∃ e ∈ twoOperandOps, ∃ c rn op2, i = e.1 c true rn 15 op2) ∨
    ∃ e ∈ oneOperandOps, ∃ c sbz op2, i = e.1 c true sbz 15 op2

/-- LDM^ with R15 in the list (spec/46_block_transfer.md R274). -/
def IsLdmReturn (i : Instr) : Prop := ∃ c p u w rn list, i = .ldmReturn c p u w rn list

/-- An MSR; `r` selects the SPSR (spec/43_psr_transfer.md R211, R212). -/
def IsMsr (r : Bool) (i : Instr) : Prop :=
  (∃ c mask sbo hi mid rm, i = .msrReg c r mask sbo hi mid rm) ∨
    ∃ c mask sbo rot imm8, i = .msrImm c r mask sbo rot imm8

/-- The user-bank LDM, which has no write-back (spec/46_block_transfer.md R273, R275). -/
def IsLdmUser (i : Instr) : Prop := ∃ c p u rn list, i = .ldmUser c p u false rn list

/-- The outcomes of the effect of `i` in the state `s` it starts from, one case for each shared operation. -/
inductive EffectOf (i : Instr) (s : State) : Out → Prop where
  | result {u : State} (h : Wrote s u) : EffectOf i s (.next u.advance)
  | branch {u : State} (h : Wrote s u) (x : Word) : EffectOf i s (branchTo x u)
  | exchange (hi : IsExchange i) (x : Word) : EffectOf i s (branchExchange x s)
  | alu {sf : Bool} {rd : Reg} (hi : sf = true → rd = 15 → IsAluReturn i) (r : AluResult) :
      EffectOf i s (writeAlu sf rd r s)
  | load (addr : Word) (sz : Size) (kind : AccessKind) (wb : Option (Reg × Word)) (rd : Reg) (ext : Word → Word) :
      EffectOf i s (loadRegister addr sz kind wb rd ext s)
  | store (addr : Word) (sz : Size) (kind : AccessKind) (wb : Option (Reg × Word)) (v : Word) :
      EffectOf i s (storeRegister addr sz kind wb v s)
  | loadMany (rn : Reg) (first : Word) (regs : List Reg) (wb : Option (Reg × Word)) :
      EffectOf i s (loadBlock rn first regs wb branchTo s)
  | loadReturn (hi : IsLdmReturn i) (rn : Reg) (first : Word) (regs : List Reg) (wb : Option (Reg × Word)) :
      EffectOf i s (loadBlock rn first regs wb exceptionReturn s)
  | loadUser (hi : IsLdmUser i) (hs : s.lacksSpsr = false) (rn : Reg) (first : Word) (regs : List Reg) :
      EffectOf i s (loadUserBlock rn first regs s)
  | storeMany (b : Bool) (first : Word) (values : List Word) (wb : Option (Reg × Word)) :
      EffectOf i s (storeBlock first values wb (s.drawnIf b))
  | swap (sz : Size) (rn rd rm : Reg) (ext : Word → Word) : EffectOf i s (swapAccess sz rn rd rm ext s)
  | msr {r : Bool} (hi : IsMsr r i) (mask : BitVec 4) (v : Word) : EffectOf i s (psrWrite r mask v s)
  | undefined (w : Word) : EffectOf i s (.next (undefinedInstruction w s))
  | swi (w : Word) : EffectOf i s (.next (softwareInterrupt w s))

/-- Everything `i` can do from `s`, `o` being its outcome: be skipped, be refused, or have its effect. -/
def SkippedRefusedOrEffect (i : Instr) (s : State) (o : Out) : Prop :=
  (condPassed (guardOf i) s = false ∧ o = .next s.skip) ∨ (∃ why, o = .refused why) ∨
    (condPassed (guardOf i) s = true ∧ EffectOf i s.started o)

theorem conditionally_effectOf {i : Instr} {c : Cond} {form : List (Bool × Refusal)} {touched : List Reg}
    {effect : State → Out} {s : State} (hc : guardOf i = c)
    (h : firstRefusal form = none → EffectOf i s.started (effect s.started)) :
    SkippedRefusedOrEffect i s (conditionally c form touched effect s) := by
  subst hc
  rcases conditionally_cases (guardOf i) form touched effect s with hskip | href | ⟨hc, hform, _, hrun⟩
  · exact .inl hskip
  · exact .inr (.inl href)
  · exact .inr (.inr ⟨hc, hrun ▸ h hform⟩)

theorem Wrote.setNZCV {s u : State} (h : Wrote s u) (r : AluResult) : Wrote s (u.setNZCV r) := h.flags ..

theorem Wrote.setMulFlags {s u : State} (h : Wrote s u) (v : Word) : Wrote s (u.setMulFlags v) := (h.setNZCV _).drawn

theorem Wrote.setMulLongFlags {s u : State} (h : Wrote s u) (p : BitVec 64) : Wrote s (u.setMulLongFlags p) :=
  (h.flags ..).drawn.drawn

theorem Wrote.drawnIf (s : State) (b : Bool) : Wrote s (s.drawnIf b) := by
  cases b
  · exact .refl
  · exact .drawn .refl

/-- MUL and MLA: a register, and with S the flags. -/
theorem EffectOf.multiply (i : Instr) (s : State) (sf : Bool) (rd : Reg) (v : Word) :
    EffectOf i s (.next (if sf then (s.writeReg rd v).setMulFlags v else s.writeReg rd v).advance) := by
  have hw : Wrote s (s.writeReg rd v) := .reg .refl ..
  cases sf
  · exact .result hw
  · exact .result (hw.setMulFlags v)

/-- The long multiplies: two registers, and with S the flags. -/
theorem EffectOf.multiplyLong (i : Instr) (s : State) (sf : Bool) (rdLo rdHi : Reg) (lo hi : Word) (p : BitVec 64) :
    EffectOf i s (.next (if sf then ((s.writeReg rdLo lo).writeReg rdHi hi).setMulLongFlags p
      else (s.writeReg rdLo lo).writeReg rdHi hi).advance) := by
  have hw : Wrote s ((s.writeReg rdLo lo).writeReg rdHi hi) := .reg (.reg .refl ..) ..
  cases sf
  · exact .result hw
  · exact .result (hw.setMulLongFlags p)

/-- THUMB format 5: R15 as destination is a branch. -/
theorem EffectOf.writeHi (i : Instr) (s : State) (hd : Reg) (v : Word) : EffectOf i s (writeHi hd v s) := by
  unfold Machine.writeHi
  split
  · exact .branch .refl v
  · exact .result (.reg .refl ..)

/-- An entry of `twoOperandOps` with S and Rd = R15 is a return. -/
theorem isAluReturn_two {mk : Cond → Bool → Reg → Reg → Operand2 → Instr} (h : mk ∈ twoOperandOps.map Prod.fst)
    {c : Cond} {sf : Bool} {rn rd : Reg} {op2 : Operand2} (hs : sf = true) (hd : rd = 15) :
    IsAluReturn (mk c sf rn rd op2) := by
  obtain ⟨e, he, rfl⟩ := List.mem_map.1 h
  subst hs hd
  exact .inl ⟨e, he, c, rn, op2, rfl⟩

/-- An entry of `oneOperandOps` with S and Rd = R15 is a return. -/
theorem isAluReturn_one {mk : Cond → Bool → BitVec 4 → Reg → Operand2 → Instr} (h : mk ∈ oneOperandOps.map Prod.fst)
    {c : Cond} {sf : Bool} {sbz : BitVec 4} {rd : Reg} {op2 : Operand2} (hs : sf = true) (hd : rd = 15) :
    IsAluReturn (mk c sf sbz rd op2) := by
  obtain ⟨e, he, rfl⟩ := List.mem_map.1 h
  subst hs hd
  exact .inr ⟨e, he, c, sbz, op2, rfl⟩

/-- What the checks of a user-bank LDM leave: no write-back, and a mode with an SPSR (R275). -/
theorem ldmUser_accepted {w : Bool} {rn : Reg} {regs : List Reg} {s : State}
    (h : firstRefusal (blockRefusals true w rn regs ++ userBankRefusals w s) = none) :
    w = false ∧ s.lacksSpsr = false := by
  rw [firstRefusal_eq_none_iff] at h
  exact ⟨h (w, .userBankWriteback) (by simp [userBankRefusals]),
    h (s.lacksSpsr, .userBankInUserMode) (by simp [userBankRefusals])⟩

/-- The inversion of `exec`: every instruction, grouped by the shared operation its effect ends in
(spec/40_cycle_condition_shifter.md R150). -/
theorem exec_cases (i : Instr) (s : State) : SkippedRefusedOrEffect i s (exec i s) := by
  cases i with
  | mul | mla =>
    dsimp only [exec, execMul, execMla, multiply]
    exact conditionally_effectOf rfl fun _ => .multiply ..
  | umull | umlal | smull | smlal =>
    dsimp only [exec, execUmull, execUmlal, execSmull, execSmlal, multiplyLong]
    exact conditionally_effectOf rfl fun _ => .multiplyLong ..
  | swp | swpb =>
    dsimp only [exec, execSwp, execSwpb, swap]
    exact conditionally_effectOf rfl fun _ => .swap ..
  | undMulSwap | undSignedStore | undPsr | undMedia | stc | ldc | cdp | mcr | mrc =>
    dsimp only [exec, execUndMulSwap, execUndSignedStore, execUndPsr, execUndMedia, execStc, execLdc, execCdp,
      execMcr, execMrc, undefinedWord]
    exact conditionally_effectOf rfl fun _ => .undefined _
  | tUnd1011 | tUndCond | tUnd11101 =>
    dsimp only [exec, execTUnd1011, execTUndCond, execTUnd11101, thumbUndefined, unconditionally]
    exact conditionally_effectOf rfl fun _ => .undefined _
  | swi | tSwi =>
    dsimp only [exec, execSwi, execTSwi, unconditionally]
    exact conditionally_effectOf rfl fun _ => .swi _
  | ldrPre | ldrPost | ldrbPre | ldrbPost | ldrt | ldrbt =>
    dsimp only [exec, execLdrPre, execLdrPost, execLdrbPre, execLdrbPost, execLdrt, execLdrbt, singleLoad]
    exact conditionally_effectOf rfl fun _ => .load ..
  | ldrh | ldrsb | ldrsh =>
    dsimp only [exec, execLdrh, execLdrsb, execLdrsh, halfLoad]
    exact conditionally_effectOf rfl fun _ => .load ..
  | tLdrPc | tLdrReg | tLdrbReg | tLdrsbReg | tLdrhReg | tLdrshReg | tLdrImm | tLdrbImm | tLdrhImm | tLdrSp =>
    dsimp only [exec, execTLdrPc, execTLdrReg, execTLdrbReg, execTLdrsbReg, execTLdrhReg, execTLdrshReg,
      execTLdrImm, execTLdrbImm, execTLdrhImm, execTLdrSp, thumbLoad, unconditionally]
    exact conditionally_effectOf rfl fun _ => .load ..
  | strPre | strPost | strbPre | strbPost | strt | strbt =>
    dsimp only [exec, execStrPre, execStrPost, execStrbPre, execStrbPost, execStrt, execStrbt, singleStore]
    exact conditionally_effectOf rfl fun _ => .store ..
  | strh =>
    dsimp only [exec, execStrh]
    exact conditionally_effectOf rfl fun _ => .store ..
  | tStrReg | tStrbReg | tStrhReg | tStrImm | tStrbImm | tStrhImm | tStrSp =>
    dsimp only [exec, execTStrReg, execTStrbReg, execTStrhReg, execTStrImm, execTStrbImm, execTStrhImm,
      execTStrSp, thumbStore, unconditionally]
    exact conditionally_effectOf rfl fun _ => .store ..
  | mrs =>
    dsimp only [exec, execMrs]
    exact conditionally_effectOf rfl fun _ => .result (.reg .refl ..)
  | tAddPc | tAddSp | tSpAdd | tSpSub | tBlPrefix =>
    dsimp only [exec, execTAddPc, execTAddSp, execTSpAdd, execTSpSub, execTBlPrefix, unconditionally]
    exact conditionally_effectOf rfl fun _ => .result (.reg .refl ..)
  | and | eor | sub | rsb | add | adc | sbc | rsc | orr | bic =>
    dsimp only [exec, execAnd, execEor, execSub, execRsb, execAdd, execAdc, execSbc, execRsc, execOrr, execBic,
      aluTwo]
    refine conditionally_effectOf rfl fun _ => .alu (isAluReturn_two ?_) _
    simp [twoOperandOps]
  | mov | mvn =>
    dsimp only [exec, execMov, execMvn, aluOne]
    refine conditionally_effectOf rfl fun _ => .alu (isAluReturn_one ?_) _
    simp [oneOperandOps]
  | tst | teq | cmp | cmn =>
    dsimp only [exec, execTst, execTeq, execCmp, execCmn, aluCompare]
    exact conditionally_effectOf rfl fun _ => .result (Wrote.refl.setNZCV _)
  | tCmpImm | tTst | tCmpReg | tCmn =>
    dsimp only [exec, execTCmpImm, execTTst, execTCmpReg, execTCmn, thumbCompare, unconditionally]
    exact conditionally_effectOf rfl fun _ => .result (Wrote.refl.setNZCV _)
  | tCmpHi =>
    dsimp only [exec, execTCmpHi, unconditionally]
    exact conditionally_effectOf rfl fun _ => .result (Wrote.refl.setNZCV _)
  | tAddReg | tSubReg | tAddImm3 | tSubImm3 | tLslImm | tLsrImm | tAsrImm | tMovImm | tAddImm8 | tSubImm8 | tAnd
    | tEor | tLslReg | tLsrReg | tAsrReg | tAdc | tSbc | tRorReg | tNeg | tOrr | tBic | tMvn =>
    dsimp only [exec, execTAddReg, execTSubReg, execTAddImm3, execTSubImm3, execTLslImm, execTLsrImm,
      execTAsrImm, execTMovImm, execTAddImm8, execTSubImm8, execTAnd, execTEor, execTLslReg, execTLsrReg,
      execTAsrReg, execTAdc, execTSbc, execTRorReg, execTNeg, execTOrr, execTBic, execTMvn, thumbAlu,
      unconditionally]
    exact conditionally_effectOf rfl fun _ => .result ((Wrote.refl.reg ..).setNZCV _)
  | tMul =>
    dsimp only [exec, execTMul, unconditionally]
    exact conditionally_effectOf rfl fun _ => .result ((Wrote.refl.reg ..).setMulFlags _)
  | tAddHi | tMovHi =>
    dsimp only [exec, execTAddHi, execTMovHi, unconditionally]
    exact conditionally_effectOf rfl fun _ => .writeHi ..
  | stm =>
    dsimp only [exec, execStm, storeMultiple]
    exact conditionally_effectOf rfl fun _ => .storeMany ..
  | tStmia =>
    dsimp only [exec, execTStmia, unconditionally]
    exact conditionally_effectOf rfl fun _ => .storeMany ..
  | stmUser =>
    dsimp only [exec, execStmUser]
    exact conditionally_effectOf rfl fun _ => .storeMany false ..
  | tPush =>
    dsimp only [exec, execTPush, unconditionally]
    exact conditionally_effectOf rfl fun _ => .storeMany false ..
  | ldm =>
    dsimp only [exec, execLdm]
    exact conditionally_effectOf rfl fun _ => .loadMany ..
  | tPop | tLdmia =>
    dsimp only [exec, execTPop, execTLdmia, unconditionally]
    exact conditionally_effectOf rfl fun _ => .loadMany ..
  | b | tBCond =>
    dsimp only [exec, execB, execTBCond]
    exact conditionally_effectOf rfl fun _ => .branch .refl _
  | tB =>
    dsimp only [exec, execTB, unconditionally]
    exact conditionally_effectOf rfl fun _ => .branch .refl _
  | bl =>
    dsimp only [exec, execBl]
    exact conditionally_effectOf rfl fun _ => .branch (.reg .refl ..) _
  | tBlSuffix =>
    dsimp only [exec, execTBlSuffix, unconditionally]
    exact conditionally_effectOf rfl fun _ => .branch (.reg .refl ..) _
  | bx c rm =>
    dsimp only [exec, execBx]
    exact conditionally_effectOf rfl fun _ => .exchange (.inl ⟨c, rm, rfl⟩) _
  | tBx h1 hs sbz =>
    dsimp only [exec, execTBx, unconditionally]
    exact conditionally_effectOf rfl fun _ => .exchange (.inr ⟨h1, hs, sbz, rfl⟩) _
  | msrReg c r mask sbo hi mid rm =>
    dsimp only [exec, execMsrReg]
    exact conditionally_effectOf rfl fun _ => .msr (.inl ⟨c, mask, sbo, hi, mid, rm, rfl⟩) ..
  | msrImm c r mask sbo rot imm8 =>
    dsimp only [exec, execMsrImm]
    exact conditionally_effectOf rfl fun _ => .msr (.inr ⟨c, mask, sbo, rot, imm8, rfl⟩) ..
  | ldmUser c p u w rn list =>
    dsimp only [exec, execLdmUser]
    refine conditionally_effectOf rfl fun h => ?_
    obtain ⟨rfl, hs⟩ := ldmUser_accepted h
    exact .loadUser ⟨c, p, u, rn, list, rfl⟩ (s := s.started) hs ..
  | ldmReturn c p u w rn list =>
    dsimp only [exec, execLdmReturn]
    exact conditionally_effectOf rfl fun _ => .loadReturn ⟨c, p, u, w, rn, list, rfl⟩ ..

/-! ### Every instruction keeps the invariant -/

theorem Wrote.hazard {s u : State} (h : Wrote s u) : u.hazard = s.hazard := by
  induction h with
  | refl => rfl
  | reg _ n v ih => simpa using ih
  | flags _ n z c v ih => simpa using ih
  | drawn _ ih => simpa using ih

/-- Registers, flags and draws are written within the invariant. -/
theorem Wrote.inv {s u : State} (h : Wrote s u) (hs : s.Inv) (hz : s.hazard = false) : u.Inv := by
  induction h with
  | refl => exact hs
  | reg hw n v ih => exact inv_writeReg ih (hw.hazard.trans hz) n v
  | flags hw n z c v ih => exact inv_flags ih (hw.hazard.trans hz) n z c v
  | drawn hw ih => exact inv_of ih rfl rfl rfl ih.memory ih.idle ih.running (hw.hazard.trans hz)

theorem inv_skip {s : State} (h : s.Inv) : s.skip.Inv :=
  inv_of (inv_advance (inv_started h) rfl) rfl rfl rfl h.memory h.idle h.running rfl

/-- An effect that answers a next state keeps the invariant: the law of its shared operation. -/
theorem EffectOf.inv {i : Instr} {s t : State} {o : Out} (h : EffectOf i s o) (hs : s.Inv) (hz : s.hazard = false)
    (ho : o = .next t) : t.Inv := by
  cases h with
  | result hw => exact inv_next (inv_advance (hw.inv hs hz) (hw.hazard.trans hz)) ho
  | branch hw x => exact inv_branchTo (hw.inv hs hz) (hw.hazard.trans hz) x ho
  | exchange _ x => exact inv_branchExchange hs hz x ho
  | alu _ r => exact inv_writeAlu hs hz _ _ r ho
  | load => exact inv_loadRegister hs hz _ _ _ _ _ _ ho
  | store => exact inv_storeRegister hs hz _ _ _ _ _ ho
  | loadMany => exact inv_loadBlock hs hz _ _ _ _ _ (fun x _ _ hu hzu => inv_branchTo hu hzu x) ho
  | loadReturn => exact inv_loadBlock hs hz _ _ _ _ _ (fun x _ _ hu hzu => inv_exceptionReturn hu hzu x) ho
  | loadUser _ hl => exact inv_loadUserBlock hs hz hl _ _ _ ho
  | storeMany b =>
    have hw := Wrote.drawnIf s b
    exact inv_storeBlock (hw.inv hs hz) (hw.hazard.trans hz) _ _ _ ho
  | swap => exact inv_swapAccess hs hz _ _ _ _ _ ho
  | msr => exact inv_psrWrite hs hz _ _ _ ho
  | undefined w => exact inv_next (inv_undefinedInstruction hs w) ho
  | swi w => exact inv_next (inv_softwareInterrupt hs w) ho

theorem exec_inv {i : Instr} {s t : State} (hs : s.Inv) (he : exec i s = .next t) : t.Inv := by
  rcases exec_cases i s with ⟨_, hskip⟩ | ⟨why, href⟩ | ⟨_, heff⟩
  · exact inv_next (inv_skip hs) (hskip ▸ he)
  · rw [href] at he; cases he
  · exact heff.inv (inv_started hs) rfl he

/-! ### The instruction boundary and the fetch -/

/-- The invariant speaks of seven fields only; unlike `inv_of`, the hazard may be set. -/
theorem inv_congr {s t : State} (h : s.Inv) (hcpsr : t.cpsr = s.cpsr) (hspsr : t.spsr = s.spsr) (hpc : t.pc = s.pc)
    (hmem : t.mem = s.mem) (hdisp : t.dispatcher = s.dispatcher) (hstop : t.stop = s.stop)
    (hhaz : t.hazard = s.hazard) : t.Inv := by
  obtain ⟨mode, cpsr, fiq, irq, svc, abt, und, aligned, mem, idle, running, haz⟩ := h
  refine ⟨?_, hcpsr ▸ cpsr, hspsr ▸ fiq, hspsr ▸ irq, hspsr ▸ svc, hspsr ▸ abt, hspsr ▸ und, ?_, hmem ▸ mem,
    hdisp.trans idle, hstop.trans running, ?_⟩
  · rwa [State.LegalMode, hcpsr]
  · rwa [State.AlignedPc, State.thumb_eq hcpsr, hpc]
  · rwa [State.lacksSpsr, State.mode_eq hcpsr, State.getSpsr_eq hspsr, hhaz]

theorem inv_boundary {s : State} (h : s.Inv) : s.boundary.Inv := inv_congr h rfl rfl rfl rfl rfl rfl rfl

theorem inv_memRead {s : State} (h : s.Inv) (addr : Word) (sz : Size) (kind : AccessKind) (locked : Bool) :
    (memRead addr sz kind locked s).2.Inv := by
  obtain ⟨_, hpc, hcpsr, hspsr, hmem, hhaz, hdisp, hstop, _⟩ := memRead_frame addr sz kind locked s
  exact inv_congr h hcpsr hspsr hpc hmem hdisp hstop hhaz

theorem inv_raise {s : State} (h : s.Inv) {e : ExcType} {m : Mode} (hm : (descriptor e).mode = some m) (link : Word)
    (info : ExcInfo) : (raise e link info s).Inv :=
  inv_dispatch (s0 := s.setDispatcher .pending) h ⟨rfl, rfl, h.memory, h.running⟩ e m hm link info

theorem modeOf_resetPsr (k : Nat) : modeOf (resetPsr k) = some .svc := by
  have h : (resetPsr k).extractLsb' 0 5 = (0xD3#32).extractLsb' 0 5 := by
    apply BitVec.eq_of_getLsbD_eq
    intro j hj
    interval_cases j <;> simp [resetPsr]
  rw [modeOf_eq_of_low h]; rfl

theorem reserved_resetPsr (k : Nat) : ReservedZero (resetPsr k) := by
  rw [reserved_iff]
  intro j h10 h28
  interval_cases j <;> simp [resetPsr, psrBit]

/-- Reset meets the invariant whatever values the UNKNOWN registers take (spec/60_exceptions.md R412). -/
theorem inv_dispatchReset {s : State} (h : s.Inv) : (dispatchReset s).Inv where
  legalMode := by simp [State.LegalMode, dispatchReset, modeOf_resetPsr]
  cpsrReserved := reserved_resetPsr _
  fiqReserved := reserved_and_psrMask _
  irqReserved := reserved_and_psrMask _
  svcReserved := reserved_and_psrMask _
  abtReserved := reserved_and_psrMask _
  undReserved := reserved_and_psrMask _
  aligned := Nat.zero_mod _
  memory := h.memory
  idle := rfl
  running := h.running
  hazardBanked := nofun

/-- The exception the lines give is taken within the invariant (R393 to R395). -/
theorem inv_sampleLines {l : Lines} {s t : State} (h : s.Inv) (ht : sampleLines l s = some t) : t.Inv := by
  unfold sampleLines at ht
  split at ht
  · cases ht; exact inv_dispatchReset h
  split at ht
  · cases ht; exact inv_raise h rfl _ _
  split at ht
  · cases ht; exact inv_raise h rfl _ _
  · cases ht

/-- Everything a step that answers a next state does (spec/40_cycle_condition_shifter.md R150): it takes the exception
the lines give, or aborts the fetch, or executes the instruction fetched. -/
theorem step_next_cases {s t : State} (h : step s = .next t) :
    sampleLines s.linesNow s.boundary = some t ∨ t = prefetchAbort (fetch s.boundary).2 ∨
      ∃ i, exec i (fetch s.boundary).2 = .next t := by
  unfold step at h
  split at h
  · cases h
  split at h
  · cases h
  split at h
  · rename_i entered hl; cases h; exact .inl hl
  split at h
  · rename_i hf; cases h; exact .inr (.inl (by rw [hf]))
  · rename_i w fetched hf; exact .inr (.inr ⟨_, by rw [hf]; exact h⟩)

/-- Settles O58: the boundary and the fetch keep the invariant, and so does whichever of the three a step then does. -/
theorem stepKeepsInvariant : Obligations.StepKeepsInvariant := by
  unfold Obligations.StepKeepsInvariant
  intro s t hs hstep
  have hfetched : (fetch s.boundary).2.Inv := inv_memRead (inv_boundary hs) ..
  rcases step_next_cases hstep with hl | rfl | ⟨i, he⟩
  · exact inv_sampleLines (inv_boundary hs) hl
  · exact inv_raise hfetched rfl _ _
  · exact exec_inv hfetched he

/-! ### What an instruction can do to CPSR

The control bits of CPSR, the state and mode bits among them, have four ways to change (spec/10_state.md R47). -/

/-- An exception was taken from `s`: the report says which, CPSR is the entry's, and the mode's SPSR holds the old one
(spec/60_exceptions.md R396). -/
def TookException (s t : State) : Prop :=
  ∃ e m at_ info, (descriptor e).mode = some m ∧ t.out.report = .exception e at_ info ∧
    t.cpsr = entryPsr (descriptor e) m s.cpsr ∧ t.getSpsr m = some s.cpsr

/-- How CPSR of the next state `t` comes from that of `s`, `i` being the instruction. -/
inductive StatusAfter (i : Instr) (s t : State) : Prop where
  | control (h : SameControl s t)
  | exception (h : TookException s t)
  | exchanged (hi : IsExchange i) (b : Bool) (h : t.cpsr = setPsrBit s.cpsr 5 b)
  | returned (hi : IsAluReturn i ∨ IsLdmReturn i) (v : Word) (hv : s.getSpsr s.mode = some v)
      (h : t.cpsr = v &&& psrMask)
  | msr (hi : IsMsr false i) (mask : BitVec 4) (v : Word) (h : t.cpsr = mergePsr s.cpsr (cpsrMask mask s.mode) v)
      (hT : psrBit t.cpsr 5 = s.thumb)

theorem SameControl.of_cpsr {s t : State} (h : t.cpsr = s.cpsr) : SameControl s t := by rw [SameControl, h]

theorem SameControl.thumb {s t : State} (h : SameControl s t) : t.thumb = s.thumb := by
  have h5 := congrArg (fun w : Word => w.getLsbD 5) h
  simpa [State.thumb, psrBit] using h5

theorem Wrote.control {s u : State} (h : Wrote s u) : SameControl s u := by
  induction h with
  | refl => rfl
  | reg _ n v ih => simpa [SameControl] using ih
  | flags _ n z c v ih => exact (withFlags_control ..).trans ih
  | drawn _ ih => exact ih

/-- The mode of an entry has an SPSR (R391). -/
theorem getSpsr_setSpsr_of_entry {e : ExcType} {m : Mode} (hm : (descriptor e).mode = some m) (s : State) (v : Word) :
    (s.setSpsr m v).getSpsr m = some v := by
  cases e <;> cases hm <;> rfl

/-- An exception raised from a state with the CPSR of `s`. -/
theorem tookException_raise {s s1 : State} (hcpsr : s1.cpsr = s.cpsr) {e : ExcType} {m : Mode}
    (hm : (descriptor e).mode = some m) (link : Word) (info : ExcInfo) : TookException s (raise e link info s1) := by
  obtain ⟨_, _, hc, hs, _, _, _, _, _, _, _, _, hout⟩ := dispatch_fields hm link info (s1.setDispatcher .pending)
  refine ⟨e, m, _, info, hm, by rw [raise, hout], by rw [raise, hc, State.setDispatcher_cpsr, hcpsr], ?_⟩
  rw [raise, State.getSpsr_eq hs, State.setDispatcher_cpsr, hcpsr]
  exact getSpsr_setSpsr_of_entry hm ..

theorem branchTo_cpsr {x : Word} {s t : State} (h : branchTo x s = .next t) : t.cpsr = s.cpsr := by
  rcases branchTo_cases x s with ⟨href, _⟩ | ⟨hnext, _⟩
  · rw [href] at h; cases h
  · rw [hnext] at h; cases h; rfl

theorem branchExchange_cpsr {x : Word} {s t : State} (h : branchExchange x s = .next t) :
    t.cpsr = setPsrBit s.cpsr 5 (x.getLsbD 0) := by
  rcases branchExchange_cases x s with ⟨href, _⟩ | ⟨hnext, _⟩
  · rw [href] at h; cases h
  · rw [hnext] at h; cases h; rfl

theorem exceptionReturn_cpsr {x : Word} {s t : State} (h : exceptionReturn x s = .next t) :
    ∃ v, s.getSpsr s.mode = some v ∧ t.cpsr = v &&& psrMask := by
  rcases exceptionReturn_cases x s with ⟨_, href⟩ | ⟨_, _, _, hfatal⟩ | ⟨v, _, hv, _, hbranch⟩
  · rw [href] at h; cases h
  · rw [hfatal] at h; cases h
  · rw [hbranch] at h; exact ⟨v, hv, branchTo_cpsr h⟩

theorem loadRegister_cpsr {addr : Word} {sz : Size} {kind : AccessKind} {wb : Option (Reg × Word)} {rd : Reg}
    {ext : Word → Word} {s t : State} (h : loadRegister addr sz kind wb rd ext s = .next t) :
    t.cpsr = s.cpsr ∨ TookException s t := by
  obtain ⟨_, _, hcpsr, _⟩ := memRead_frame addr sz kind false s
  unfold loadRegister at h
  split at h
  · rename_i s1 hread
    rw [hread] at hcpsr
    cases h
    exact .inr (tookException_raise (by simpa using hcpsr) rfl ..)
  · rename_i v s1 hread
    rw [hread] at hcpsr
    left
    split at h
    · rw [branchTo_cpsr h]; simpa using hcpsr
    · cases h; simpa using hcpsr

theorem storeRegister_cpsr {addr : Word} {sz : Size} {kind : AccessKind} {wb : Option (Reg × Word)} {v : Word}
    {s t : State} (h : storeRegister addr sz kind wb v s = .next t) : t.cpsr = s.cpsr ∨ TookException s t := by
  obtain ⟨_, _, hcpsr, _⟩ := memWrite_frame addr sz v kind false s
  unfold storeRegister at h
  split at h
  · cases h
  split at h
  · rename_i s1 hwrite
    rw [hwrite] at hcpsr
    cases h
    exact .inr (tookException_raise (by simpa using hcpsr) rfl ..)
  · rename_i s1 hwrite
    rw [hwrite] at hcpsr
    cases h
    exact .inl (by simpa using hcpsr)

/-- A load multiple keeps CPSR, takes a Data Abort, or does what loading R15 does from a state with the old CPSR and
SPSRs. -/
theorem loadBlock_cpsr {rn : Reg} {first : Word} {regs : List Reg} {wb : Option (Reg × Word)}
    {onPc : Word → State → Out} {s t : State} (h : loadBlock rn first regs wb onPc s = .next t) :
    t.cpsr = s.cpsr ∨ TookException s t ∨ ∃ x u, u.cpsr = s.cpsr ∧ u.spsr = s.spsr ∧ onPc x u = .next t := by
  obtain ⟨_, _, hcpsr, hspsr, _⟩ := loadWords_frame first regs s
  unfold loadBlock at h
  dsimp only at h
  split at h
  · cases h
    exact .inr (.inl (tookException_raise (by simpa using hcpsr) rfl ..))
  split at h
  · exact .inr (.inr ⟨_, _, by simpa using hcpsr, by simpa using hspsr, h⟩)
  · cases h
    exact .inl (by simpa using hcpsr)

theorem loadUserBlock_cpsr {rn : Reg} {first : Word} {regs : List Reg} {s t : State}
    (h : loadUserBlock rn first regs s = .next t) : t.cpsr = s.cpsr ∨ TookException s t := by
  obtain ⟨_, _, hcpsr, _⟩ := loadWords_frame first regs s
  unfold loadUserBlock at h
  dsimp only at h
  split at h
  · cases h
    exact .inr (tookException_raise (by simpa using hcpsr) rfl ..)
  · cases h
    exact .inl (by simpa using hcpsr)

theorem storeBlock_cpsr {first : Word} {values : List Word} {wb : Option (Reg × Word)} {s t : State} {b : Bool}
    (h : storeBlock first values wb (s.drawnIf b) = .next t) : t.cpsr = s.cpsr ∨ TookException s t := by
  obtain ⟨_, _, hcpsr, _⟩ := storeWords_frame first values (s.drawnIf b)
  unfold storeBlock at h
  split at h
  · cases h
  split at h
  · rename_i a s1 hwrites
    rw [hwrites] at hcpsr
    cases h
    exact .inr (tookException_raise (by simpa using hcpsr) rfl ..)
  · rename_i s1 hwrites
    rw [hwrites] at hcpsr
    cases h
    exact .inl (by simpa using hcpsr)

theorem swapAccess_cpsr {sz : Size} {rn rd rm : Reg} {ext : Word → Word} {s t : State}
    (h : swapAccess sz rn rd rm ext s = .next t) : t.cpsr = s.cpsr ∨ TookException s t := by
  obtain ⟨_, _, hcpsr, _⟩ := memRead_frame (s.readReg rn) sz .data true s
  unfold swapAccess at h
  dsimp only at h
  split at h
  · rename_i s1 hread
    rw [hread] at hcpsr
    cases h
    exact .inr (tookException_raise hcpsr rfl ..)
  rename_i v s1 hread
  rw [hread] at hcpsr
  obtain ⟨_, _, hcpsr2, _⟩ := memWrite_frame (s.readReg rn) sz (s1.readReg rm) .data true s1
  split at h
  · cases h
  split at h
  · rename_i s2 hwrite
    rw [hwrite] at hcpsr2
    cases h
    exact .inr (tookException_raise (hcpsr2.trans hcpsr) rfl ..)
  · rename_i s2 hwrite
    rw [hwrite] at hcpsr2
    cases h
    exact .inl (by simpa using hcpsr2.trans hcpsr)

/-- An MSR of CPSR writes the masked bits and keeps T; an MSR of an SPSR keeps CPSR (spec/43_psr_transfer.md R213). -/
theorem psrWrite_cpsr_next {r : Bool} {mask : BitVec 4} {v : Word} {s t : State} (h : psrWrite r mask v s = .next t) :
    (r = true ∧ t.cpsr = s.cpsr) ∨
      (r = false ∧ t.cpsr = mergePsr s.cpsr (cpsrMask mask s.mode) v ∧ psrBit t.cpsr 5 = s.thumb) := by
  unfold psrWrite at h
  cases r with
  | true =>
    simp only [if_true] at h
    split at h
    · cases h
    · cases h; exact .inl ⟨rfl, by simp⟩
  | false =>
    simp only [Bool.false_eq_true, if_false] at h
    split at h
    · cases h
    split at h
    · cases h
    · rename_i hT
      cases h
      exact .inr ⟨rfl, rfl, by simpa using hT⟩

theorem StatusAfter.of_kept_or_exception {i : Instr} {s t : State} (h : t.cpsr = s.cpsr ∨ TookException s t) :
    StatusAfter i s t := by
  rcases h with hkept | hexc
  · exact .control (.of_cpsr hkept)
  · exact .exception hexc

theorem writeAlu_status {i : Instr} {sf : Bool} {rd : Reg} {r : AluResult} {s t : State}
    (hi : sf = true → rd = 15 → IsAluReturn i) (h : writeAlu sf rd r s = .next t) : StatusAfter i s t := by
  unfold writeAlu at h
  split at h
  · rename_i hrd
    split at h
    · rename_i hsf
      obtain ⟨v, hv, hcpsr⟩ := exceptionReturn_cpsr h
      exact .returned (.inl (hi hsf hrd)) v hv hcpsr
    · exact .control (.of_cpsr (branchTo_cpsr h))
  · cases h
    have hw : Wrote s (s.writeReg rd r.value) := .reg .refl ..
    refine .control ?_
    cases sf
    · exact hw.control
    · exact (hw.setNZCV r).control

theorem loadReturn_status {i : Instr} (hi : IsLdmReturn i) {rn : Reg} {first : Word} {regs : List Reg}
    {wb : Option (Reg × Word)} {s t : State} (h : loadBlock rn first regs wb exceptionReturn s = .next t) :
    StatusAfter i s t := by
  rcases loadBlock_cpsr h with hkept | hexc | ⟨x, u, hcpsr, hspsr, hret⟩
  · exact .control (.of_cpsr hkept)
  · exact .exception hexc
  · obtain ⟨v, hv, hnew⟩ := exceptionReturn_cpsr hret
    rw [State.mode_eq hcpsr, State.getSpsr_eq hspsr] at hv
    exact .returned (.inr hi) v hv hnew

theorem loadMany_cpsr {rn : Reg} {first : Word} {regs : List Reg} {wb : Option (Reg × Word)} {s t : State}
    (h : loadBlock rn first regs wb branchTo s = .next t) : t.cpsr = s.cpsr ∨ TookException s t := by
  rcases loadBlock_cpsr h with hkept | hexc | ⟨x, u, hcpsr, _, hbranch⟩
  · exact .inl hkept
  · exact .inr hexc
  · exact .inl ((branchTo_cpsr hbranch).trans hcpsr)

/-- What an effect that answers a next state does to CPSR, by its shared operation. -/
theorem EffectOf.status {i : Instr} {s t : State} {o : Out} (h : EffectOf i s o) (ho : o = .next t) :
    StatusAfter i s t := by
  cases h with
  | result hw => cases ho; exact .control hw.control
  | branch hw x => exact .control ((SameControl.of_cpsr (branchTo_cpsr ho)).trans hw.control)
  | exchange hi x => exact .exchanged hi _ (branchExchange_cpsr ho)
  | alu hi r => exact writeAlu_status hi ho
  | load => exact .of_kept_or_exception (loadRegister_cpsr ho)
  | store => exact .of_kept_or_exception (storeRegister_cpsr ho)
  | loadMany => exact .of_kept_or_exception (loadMany_cpsr ho)
  | loadReturn hi => exact loadReturn_status hi ho
  | loadUser => exact .of_kept_or_exception (loadUserBlock_cpsr ho)
  | storeMany => exact .of_kept_or_exception (storeBlock_cpsr ho)
  | swap => exact .of_kept_or_exception (swapAccess_cpsr ho)
  | msr hi mask v =>
    rcases psrWrite_cpsr_next ho with ⟨_, hkept⟩ | ⟨rfl, hnew, hT⟩
    · exact .control (.of_cpsr hkept)
    · exact .msr hi mask v hnew hT
  | undefined w => cases ho; exact .exception (tookException_raise rfl rfl ..)
  | swi w => cases ho; exact .exception (tookException_raise rfl rfl ..)

/-- The state an effect starts from has the status registers of the state before. -/
theorem StatusAfter.of_started {i : Instr} {s t : State} (h : StatusAfter i s.started t) : StatusAfter i s t := by
  cases h with
  | control h => exact .control h
  | exception h => exact .exception h
  | exchanged hi b h => exact .exchanged hi b h
  | returned hi v hv h => exact .returned hi v hv h
  | msr hi mask v h hT => exact .msr hi mask v h hT

theorem exec_status {i : Instr} {s t : State} (he : exec i s = .next t) : StatusAfter i s t := by
  rcases exec_cases i s with ⟨_, hskip⟩ | ⟨why, href⟩ | ⟨_, heff⟩
  · rw [hskip] at he; cases he; exact .control rfl
  · rw [href] at he; cases he
  · exact (heff.status he).of_started

/-- Settles O56: of the ways CPSR can change, only BX and the returns change T without an exception. -/
theorem stateBitChangesOnlyByBxOrReturn : Obligations.StateBitChangesOnlyByBxOrReturn := by
  unfold Obligations.StateBitChangesOnlyByBxOrReturn
  intro i s t he hreport hT
  cases exec_status he with
  | control h => exact absurd h.thumb hT
  | exception h =>
    obtain ⟨e, _, at_, info, _, hexc, _⟩ := h
    exact absurd hexc (hreport e at_ info)
  | exchanged hi b h =>
    rcases hi with hbx | htbx
    · exact .inl hbx
    · exact .inr (.inl htbx)
  | returned hi v hv h =>
    refine .inr (.inr ⟨?_, v, hv, h⟩)
    rcases hi with halu | hldm
    · exact .inr halu
    · exact .inl hldm
  | msr hi mask v h hkept => exact absurd hkept hT

end Sys2Proof.Machine

/-! SUPPORT. Proofs of the statements about memory (spec/20_memory.md): what a read of written memory answers, and the
reads of a block. -/

namespace Sys2Proof.Machine

/-! ### A word read of written memory (spec/20_memory.md R75, R76) -/

theorem leWord_four (b0 b1 b2 b3 : Byte) : leWord [b0, b1, b2, b3] = b3 ++ b2 ++ b1 ++ b0 := by
  apply BitVec.eq_of_getLsbD_eq
  intro i hi
  simp only [leWord, BitVec.getLsbD_or, BitVec.getLsbD_shiftLeft, BitVec.getLsbD_setWidth, BitVec.getLsbD_append]
  interval_cases i <;> simp

theorem State.byteAt_of_read {s : State} {a : Nat} {b : Byte} (h : s.mem.read a = some b) : s.byteAt a = b := by
  rw [State.byteAt, h, Option.getD_some]

theorem State.bytesAt_of_written {s : State} {a n : Nat} {bytes : Nat → Byte}
    (hwritten : ∀ i : Nat, i < n → s.mem.read (a + i) = some (bytes i)) :
    s.bytesAt a n = (List.range n).map bytes := by
  induction n generalizing a bytes with
  | zero => rfl
  | succ n ih =>
    have hfirst : s.byteAt a = bytes 0 := State.byteAt_of_read (hwritten 0 n.succ_pos)
    have hrest : s.bytesAt (a + 1) n = (List.range n).map (bytes ∘ Nat.succ) :=
      ih fun i hi => by rw [Nat.add_right_comm]; exact hwritten (i + 1) (by omega)
    rw [State.bytesAt, hfirst, hrest, List.range_succ_eq_map, List.map_cons, List.map_map]

/-- A word read of four written bytes of memory answers them, whatever has been drawn before it. -/
theorem State.readAnswer_word_of_written {s : State} {addr : Word} {bytes : Nat → Byte}
    (hplain : s.plainAccess addr .word = true)
    (hwritten : ∀ i : Nat, i < 4 → s.mem.read (addr.toNat + i) = some (bytes i)) :
    s.readAnswer addr .word = some (bytes 3 ++ bytes 2 ++ bytes 1 ++ bytes 0) := by
  have hbytes : s.bytesAt addr.toNat Size.word.bytes = [bytes 0, bytes 1, bytes 2, bytes 3] :=
    State.bytesAt_of_written hwritten
  rw [State.readAnswer, if_pos hplain, hbytes, leWord_four]

/-! ### The state a read of a block is answered in (spec/46_block_transfer.md R270) -/

@[simp] theorem State.afterRead_mem (s : State) (addr : Word) (sz : Size) : (s.afterRead addr sz).mem = s.mem := by
  unfold State.afterRead; split <;> simp

@[simp] theorem State.afterRead_plain (s : State) (addr : Word) (sz : Size) :
    (s.afterRead addr sz).plain = s.plain := by
  unfold State.afterRead; split <;> simp

@[simp] theorem State.afterReads_mem (s : State) (addr : Word) (k : Nat) : (s.afterReads addr k).mem = s.mem := by
  induction k generalizing s addr with
  | zero => rfl
  | succ k ih => rw [State.afterReads, ih, State.afterRead_mem]

@[simp] theorem State.afterReads_plain (s : State) (addr : Word) (k : Nat) :
    (s.afterReads addr k).plain = s.plain := by
  induction k generalizing s addr with
  | zero => rfl
  | succ k ih => rw [State.afterReads, ih, State.afterRead_plain]

theorem loadWords_length (first : Word) (regs : List Reg) (s : State) :
    (loadWords first regs s).1.length = regs.length := by
  rw [← List.length_map Prod.fst, loadWords_regs]

/-- Settles O34: read `k` is answered after the reads before it, none of which changes memory or its regions. -/
theorem blockReadsAscendingWords : Obligations.BlockReadsAscendingWords := by
  unfold Obligations.BlockReadsAscendingWords
  refine ⟨fun s first regs => ⟨loadWords_length first regs s, loadWords_getElem? first regs s⟩, ?_⟩
  intro s first regs bytes hplain hwritten
  refine List.ext_getElem? fun k => ?_
  rcases Nat.lt_or_ge k regs.length with hk | hk
  · have hplain_k : (s.afterReads first k).plainAccess (first + BitVec.ofNat 32 (4 * k)) .word = true := by
      rw [plainAccess_congr (s.afterReads_plain first k), hplain k hk]
    have hwritten_k : ∀ i : Nat, i < 4 → (s.afterReads first k).mem.read
        ((first + BitVec.ofNat 32 (4 * k)).toNat + i) = some (bytes (4 * k + i)) := by
      intro i hi
      rw [State.afterReads_mem, hwritten k i hk hi]
    have hanswer := State.readAnswer_word_of_written hplain_k hwritten_k
    rw [loadWords_getElem? first regs s k regs[k] (List.getElem?_eq_getElem hk), hanswer]
    simp [hk]
  · rw [List.getElem?_eq_none (by rwa [loadWords_length]), List.getElem?_eq_none (by simpa using hk)]

end Sys2Proof.Machine

/-! SUPPORT. Proofs of the statements about the encoding (spec/30_encoding.md): first how fields of a concatenation
and of a word are read, then each decoder function read back from the encoder (O1) and into it (O2). -/

namespace Sys2Proof

/-! ### Fields of a concatenation

simp evaluates the width `a + b` of a concatenation to a numeral, so these lemmas keep that width out of their index. -/

@[simp] theorem field_append_low {a b lo n : Nat} (x : BitVec a) (y : BitVec b) (h : lo + n ≤ b) :
    (HAppend.hAppend (γ := BitVec (no_index (a + b))) x y).extractLsb' lo n = y.extractLsb' lo n :=
  BitVec.extractLsb'_append_eq_of_add_le h

@[simp] theorem field_append_high {a b lo n : Nat} (x : BitVec a) (y : BitVec b) (h : b ≤ lo) :
    (HAppend.hAppend (γ := BitVec (no_index (a + b))) x y).extractLsb' lo n = x.extractLsb' (lo - b) n :=
  BitVec.extractLsb'_append_eq_of_le h

@[simp] theorem getElem_append_low {a b i : Nat} (x : BitVec a) (y : BitVec b) (hi : i < a + b) (h : i < b) :
    (HAppend.hAppend (γ := BitVec (no_index (a + b))) x y : BitVec (no_index (a + b)))[i] = y[i] := by
  rw [BitVec.getElem_append, dif_pos h]

@[simp] theorem getElem_append_high {a b i : Nat} (x : BitVec a) (y : BitVec b) (hi : i < a + b) (h : b ≤ i) :
    (HAppend.hAppend (γ := BitVec (no_index (a + b))) x y : BitVec (no_index (a + b)))[i] = x[i - b] := by
  rw [BitVec.getElem_append, dif_neg (Nat.not_lt.mpr h)]

@[simp] theorem field_field {m n lo lo' n' : Nat} (w : BitVec m) (h : lo' + n' ≤ n) :
    (w.extractLsb' lo n).extractLsb' lo' n' = w.extractLsb' (lo + lo') n' := by
  ext i hi
  simp [BitVec.getElem_extractLsb', Nat.add_assoc, show lo' + i < n by omega]

/-- A field across the join of two parts has a value when each part has its piece of the value. -/
@[simp] theorem field_append_straddle_eq_iff {a b lo n : Nat} (x : BitVec a) (y : BitVec b) (k : BitVec n)
    (hlo : lo < b) (hhi : b < lo + n) :
    (HAppend.hAppend (γ := BitVec (no_index (a + b))) x y).extractLsb' lo n = k ↔
      x.extractLsb' 0 (lo + n - b) = k.extractLsb' (b - lo) (lo + n - b) ∧
        y.extractLsb' lo (b - lo) = k.extractLsb' 0 (b - lo) := by
  constructor
  · rintro rfl
    rw [field_field _ (show b - lo + (lo + n - b) ≤ n by omega), field_field _ (show 0 + (b - lo) ≤ n by omega),
      field_append_high _ _ (by omega), field_append_low _ _ (by omega), Nat.add_sub_cancel' hlo.le, Nat.sub_self]
    exact ⟨rfl, rfl⟩
  · rintro ⟨hhigh, hlow⟩
    refine BitVec.eq_of_getLsbD_eq fun i hi => ?_
    have hbit : BitVec.getLsbD (x ++ y) (lo + i) = k.getLsbD i := by
      rcases Nat.lt_or_ge i (b - lo) with hib | hib
      · simpa [BitVec.getLsbD_extractLsb', BitVec.getLsbD_append, hib, show lo + i < b by omega] using
          congrArg (·.getLsbD i) hlow
      · obtain ⟨j, rfl⟩ := Nat.exists_eq_add_of_le hib
        have hj : lo + (b - lo + j) - b = j := by omega
        simpa [BitVec.getLsbD_extractLsb', BitVec.getLsbD_append, hj, show ¬ lo + (b - lo + j) < b by omega,
          show j < lo + n - b by omega] using congrArg (·.getLsbD j) hhigh
    rw [BitVec.getLsbD_extractLsb', hbit, decide_eq_true hi, Bool.true_and]

/-- A concatenation is a word when each part is the word's field at its place. -/
@[simp] theorem append_eq_iff {a b : Nat} (x : BitVec a) (y : BitVec b) (w : BitVec (no_index (a + b))) :
    HAppend.hAppend (γ := BitVec (no_index (a + b))) x y = w ↔ x = w.extractLsb' b a ∧ y = w.extractLsb' 0 b := by
  constructor
  · rintro rfl
    exact ⟨BitVec.extractLsb'_append_eq_left.symm, BitVec.extractLsb'_append_eq_right.symm⟩
  · rintro ⟨rfl, rfl⟩
    exact BitVec.extractLsb'_append_extractLsb'

/-! ### Fields bit by bit

A test of the decoder and a constant of the encoder cut a word at different places; their bits are the same. -/

theorem field_succ_eq_iff {m lo n : Nat} (w : BitVec m) (k : BitVec (no_index (n + 1))) :
    w.extractLsb' lo (no_index (n + 1)) = k ↔ w.getLsbD lo = k[0] ∧ w.extractLsb' (lo + 1) n = k.extractLsb' 1 n := by
  constructor
  · rintro rfl
    exact ⟨by simp [BitVec.getElem_extractLsb'], (field_field w (Nat.add_comm 1 n).le).symm⟩
  · rintro ⟨hbit, hrest⟩
    ext i hi
    cases i with
    | zero => simpa [BitVec.getElem_extractLsb'] using hbit
    | succ i =>
      simpa [BitVec.getElem_extractLsb', BitVec.getLsbD_extractLsb', Nat.lt_of_succ_lt_succ hi, Nat.add_assoc,
        Nat.add_comm 1] using congrArg (·.getLsbD i) hrest

theorem eq_field_succ_iff {m lo n : Nat} (w : BitVec m) (k : BitVec (no_index (n + 1))) :
    k = w.extractLsb' lo (no_index (n + 1)) ↔ k[0] = w.getLsbD lo ∧ k.extractLsb' 1 n = w.extractLsb' (lo + 1) n := by
  rw [eq_comm, field_succ_eq_iff, eq_comm, @eq_comm _ (w.extractLsb' _ _)]

@[simp] theorem bit_getElem {m i : Nat} (w : BitVec m) (h : i < m) : bit w[i] = w.extractLsb' i 1 := by
  ext j hj
  obtain rfl : j = 0 := by omega
  simp [h]

/-! ### Condition and shift codes (spec/30_encoding.md R101, R117) -/

@[simp] theorem condOfBits_condBits (c : Cond) : condOfBits (condBits c) = c := by cases c <;> rfl

@[simp] theorem condBits_condOfBits : ∀ b : BitVec 4, condBits (condOfBits b) = b := by decide

@[simp] theorem condBits_condOf (w : Word) : condBits (condOf w) = w.extractLsb' 28 4 := condBits_condOfBits _

@[simp] theorem shiftOfBits_shiftBits (t : ShiftType) : shiftOfBits (shiftBits t) = t := by cases t <;> rfl

@[simp] theorem shiftBits_shiftOfBits : ∀ b : BitVec 2, shiftBits (shiftOfBits b) = b := by decide

/-! ### The well-formed Undefined spaces of R102 -/

theorem wfMulSwapSpace_iff {op : BitVec 5} {mid : BitVec 12} :
    wfMulSwapSpace op mid = true ↔ ¬ op.extractLsb' 2 3 = 0 ∧ ¬ op.extractLsb' 3 2 = 1 ∧
      ¬ (op.extractLsb' 3 2 = 2 ∧ op.extractLsb' 0 2 = 0 ∧ mid.extractLsb' 0 4 = 0) := by
  simp [wfMulSwapSpace, and_assoc, or_iff_not_imp_left]

theorem wfPsrSpace_imm_iff {op : BitVec 2} {low : BitVec 20} : wfPsrSpace true op low = true ↔ op[0] = false := by
  simp [wfPsrSpace]

theorem wfPsrSpace_reg_iff {op : BitVec 2} {low : BitVec 20} :
    wfPsrSpace false op low = true ↔ low[7] = !low[4] ∧ ¬ (op = 1 ∧ low.extractLsb' 4 16 = 0xFFF1) := by
  simp [wfPsrSpace, or_iff_not_imp_left, ← Bool.not_eq]

/-! ### O1: decoding an encoding

Each lemma takes the constructors of one format: `simp` reads every field the decoder tests out of the encoder's
concatenation, which leaves the format's own line of the priority list. -/

/-- The instruction is what its own encoding decodes to. -/
def ReadsBack (i : Instr) : Prop := decode (encode i) = i

section ArmReadsBack

variable {c : Cond} {rn rd : Reg}

theorem readsBack_multiply : ∀ f ∈ [Instr.mul, .mla, .umull, .umlal, .smull, .smlal], ∀ c s hi lo rs rm,
    ReadsBack (f c s hi lo rs rm) := by
  intro f hf c s hi lo rs rm
  fin_cases hf <;> simp [ReadsBack, encode, decode, encodeMultiply, decodeArm, decodeExtension, decodeMultiply,
    decodeMultiplyLong, condOf]

theorem readsBack_swap : ∀ f ∈ [Instr.swp, .swpb], ∀ c rn rd rm, ReadsBack (f c rn rd rm) := by
  intro f hf c rn rd rm
  fin_cases hf <;> simp [ReadsBack, encode, decode, decodeArm, decodeExtension, decodeSwap, condOf]

theorem readsBack_undMulSwap {op : BitVec 5} {mid : BitVec 12} {low : BitVec 4} (hwf : wfMulSwapSpace op mid = true) :
    ReadsBack (.undMulSwap c op mid low) := by
  obtain ⟨hmul, hlong, hswap⟩ := wfMulSwapSpace_iff.mp hwf
  simp_all [ReadsBack, encode, decode, decodeArm, decodeExtension, condOf]

theorem readsBack_undSignedStore {op : BitVec 4} {mid : BitVec 12} {h : Bool} {low : BitVec 4} :
    ReadsBack (.undSignedStore c op mid h low) := by
  simp [ReadsBack, encode, decode, decodeArm, decodeExtension, condOf]

/-- Line 6 of R102 takes a word of the halfword format: S:H is not 00, and a store's S is clear. -/
theorem decodeArm_encodeHalf {p u w : Bool} {l : BitVec 1} {sh : BitVec 2} {off : HalfOffset}
    (hsh : sh[0] = false → sh[1] = true) (hstore : l[0] = false → sh[1] = false) :
    decodeArm (encodeHalf c p u w l rn rd sh off) = decodeHalfword (encodeHalf c p u w l rn rd sh off) := by
  have hnot9 : ¬ field (encodeHalf c p u w l rn rd sh off) 4 4 = 9 := by
    simp_all [encodeHalf, field_succ_eq_iff]
  have hnot09 : ¬ field (encodeHalf c p u w l rn rd sh off) 4 8 = 9 := fun h =>
    hnot9 (by simpa using congrArg (·.extractLsb' 0 4) h)
  rw [decodeArm, if_pos, decodeExtension, if_neg fun h => hnot9 h.2, if_neg fun h => hnot9 h.2,
    if_neg fun h => hnot09 h.2.2, if_neg hnot9, if_neg]
  · simp_all [encodeHalf]
  · simp [encodeHalf]

theorem decodeHalfOffset_encodeHalf {p u w : Bool} {l : BitVec 1} {sh : BitVec 2} {off : HalfOffset} :
    decodeHalfOffset (encodeHalf c p u w l rn rd sh off) = off := by
  cases off <;> simp [decodeHalfOffset, encodeHalf, encodeHalfOffset]

theorem readsBack_halfword : ∀ f ∈ [Instr.strh, .ldrh, .ldrsb, .ldrsh], ∀ c p u w rn rd off,
    ReadsBack (f c p u w rn rd off) := by
  intro f hf c p u w rn rd off
  fin_cases hf
  all_goals
    rw [ReadsBack, encode, decode, decodeArm_encodeHalf (by decide) (by decide), decodeHalfword,
      decodeHalfOffset_encodeHalf]
    simp [encodeHalf, condOf]

theorem readsBack_bx {rm : Reg} : ReadsBack (.bx c rm) := by
  simp [ReadsBack, encode, decode, decodeArm, decodePsrOrData, condOf]

theorem readsBack_mrs {r : Bool} {sbo sbzHi sbzLo : BitVec 4} {sbzMid : BitVec 2} :
    ReadsBack (.mrs c r sbo rd sbzHi sbzMid sbzLo) := by
  simp [ReadsBack, encode, decode, decodeArm, decodePsrOrData, condOf]

theorem readsBack_msrReg {r : Bool} {mask sbo sbzHi : BitVec 4} {sbzMid : BitVec 2} {rm : Reg} :
    ReadsBack (.msrReg c r mask sbo sbzHi sbzMid rm) := by
  simp [ReadsBack, encode, decode, decodeArm, decodePsrOrData, condOf]

theorem readsBack_msrImm {r : Bool} {mask sbo rotate : BitVec 4} {imm8 : BitVec 8} :
    ReadsBack (.msrImm c r mask sbo rotate imm8) := by
  simp [ReadsBack, encode, decode, decodeArm, decodePsrOrData, condOf]

theorem readsBack_undPsr {i : Bool} {op : BitVec 2} {low : BitVec 20} (hwf : wfPsrSpace i op low = true) :
    ReadsBack (.undPsr c i op low) := by
  cases i with
  | false =>
    obtain ⟨hbits, hbx⟩ := wfPsrSpace_reg_iff.mp hwf
    cases h4 : low[4] <;> simp_all [ReadsBack, encode, decode, decodeArm, decodePsrOrData, condOf]
  | true =>
    have hop := wfPsrSpace_imm_iff.mp hwf
    simp_all [ReadsBack, encode, decode, decodeArm, decodePsrOrData, condOf, field_succ_eq_iff]

/-- Lines 7 to 11 of R102 all need the opcode of a comparison with S clear. -/
theorem decodePsrOrData_of_data {w : Word} (h : ¬ (field w 23 2 = 2 ∧ flag w 20 = false)) :
    decodePsrOrData w = decodeDataProcessing w := by
  rw [decodePsrOrData, if_neg, if_neg, if_neg, if_neg, if_neg]
  all_goals
    intro htest
    refine h ?_
    clear h
    simp_all [field_succ_eq_iff]

theorem decodeArm_encodeData {opcode : BitVec 4} {s : BitVec 1} {op2 : Operand2}
    (hs : opcode.extractLsb' 2 2 = 2 → s = 1) :
    decodeArm (encodeData c opcode s rn rd op2) = decodeDataProcessing (encodeData c opcode s rn rd op2) := by
  rw [decodeArm, if_neg, if_pos, decodePsrOrData_of_data]
  · rintro ⟨hclass, hS⟩
    have hs1 : s = 1 := hs (by simpa [encodeData] using hclass)
    simp [encodeData, hs1] at hS
  · simp [encodeData]
  · cases op2 <;> simp [encodeData, encodeOperand2]

theorem decodeOperand2_encodeData {opcode : BitVec 4} {s : BitVec 1} {op2 : Operand2} :
    decodeOperand2 (encodeData c opcode s rn rd op2) = op2 := by
  cases op2 <;> simp [decodeOperand2, encodeData, encodeOperand2]

theorem readsBack_dataProcessing : ∀ f ∈ [Instr.and, .eor, .sub, .rsb, .add, .adc, .sbc, .rsc, .orr, .mov, .bic, .mvn],
    ∀ c s rn rd op2, ReadsBack (f c s rn rd op2) := by
  intro f hf c s rn rd op2
  fin_cases hf
  all_goals
    rw [ReadsBack, encode, decode, decodeArm_encodeData (by simp), decodeDataProcessing, decodeOperand2_encodeData]
    simp [encodeData, condOf]

theorem readsBack_comparison : ∀ f ∈ [Instr.tst, .teq, .cmp, .cmn], ∀ c rn sbz op2, ReadsBack (f c rn sbz op2) := by
  intro f hf c rn sbz op2
  fin_cases hf
  all_goals
    rw [ReadsBack, encode, decode, decodeArm_encodeData (by simp), decodeDataProcessing, decodeOperand2_encodeData]
    simp [encodeData, condOf]

theorem readsBack_undMedia {mid : BitVec 20} {low : BitVec 4} : ReadsBack (.undMedia c mid low) := by
  simp [ReadsBack, encode, decode, decodeArm, condOf]

theorem decodeArm_encodeSingle {p u b w l : BitVec 1} {off : TransferOffset} :
    decodeArm (encodeSingle c p u b w l rn rd off) = decodeSingleTransfer (encodeSingle c p u b w l rn rd off) := by
  cases off <;> simp [decodeArm, encodeSingle, encodeTransferOffset]

theorem decodeTransferOffset_encodeSingle {p u b w l : BitVec 1} {off : TransferOffset} :
    decodeTransferOffset (encodeSingle c p u b w l rn rd off) = off := by
  cases off <;> simp [decodeTransferOffset, encodeSingle, encodeTransferOffset]

theorem readsBack_preIndexed : ∀ f ∈ [Instr.strPre, .ldrPre, .strbPre, .ldrbPre], ∀ c u w rn rd off,
    ReadsBack (f c u w rn rd off) := by
  intro f hf c u w rn rd off
  fin_cases hf
  all_goals
    rw [ReadsBack, encode, decode, decodeArm_encodeSingle, decodeSingleTransfer, decodeTransferOffset_encodeSingle]
    simp [encodeSingle, condOf]

theorem readsBack_postIndexed :
    ∀ f ∈ [Instr.strPost, .ldrPost, .strbPost, .ldrbPost, .strt, .ldrt, .strbt, .ldrbt], ∀ c u rn rd off,
      ReadsBack (f c u rn rd off) := by
  intro f hf c u rn rd off
  fin_cases hf
  all_goals
    rw [ReadsBack, encode, decode, decodeArm_encodeSingle, decodeSingleTransfer, decodeTransferOffset_encodeSingle]
    simp [encodeSingle, condOf]

theorem readsBack_block : ∀ f ∈ [Instr.stm, .ldm, .stmUser], ∀ c p u w rn list, ReadsBack (f c p u w rn list) := by
  intro f hf c p u w rn list
  fin_cases hf <;> simp [ReadsBack, encode, decode, encodeBlock, decodeArm, decodeBlockTransfer, condOf]

theorem readsBack_blockUser : ∀ f ∈ [Instr.ldmUser, .ldmReturn], ∀ c p u w rn list,
    ReadsBack (f c p u w rn list) := by
  intro f hf c p u w rn list
  fin_cases hf <;> simp [ReadsBack, encode, decode, encodeBlock, decodeArm, decodeBlockTransfer, condOf]

theorem readsBack_branch : ∀ f ∈ [Instr.b, .bl, .swi], ∀ c offset, ReadsBack (f c offset) := by
  intro f hf c offset
  fin_cases hf <;> simp [ReadsBack, encode, decode, decodeArm, condOf]

theorem readsBack_coprocessorTransfer : ∀ f ∈ [Instr.stc, .ldc], ∀ c p u n w rn crd cp offset,
    ReadsBack (f c p u n w rn crd cp offset) := by
  intro f hf c p u n w rn crd cp offset
  fin_cases hf <;> simp [ReadsBack, encode, decode, decodeArm, decodeCoprocessor, condOf]

theorem readsBack_cdp {op1 crn crd cp crm : BitVec 4} {op2 : BitVec 3} :
    ReadsBack (.cdp c op1 crn crd cp op2 crm) := by
  simp [ReadsBack, encode, decode, decodeArm, decodeCoprocessor, condOf]

theorem readsBack_coprocessorRegister : ∀ f ∈ [Instr.mcr, .mrc], ∀ c op1 crn rd cp op2 crm,
    ReadsBack (f c op1 crn rd cp op2 crm) := by
  intro f hf c op1 crn rd cp op2 crm
  fin_cases hf <;> simp [ReadsBack, encode, decode, decodeArm, decodeCoprocessor, condOf]

end ArmReadsBack

section ThumbReadsBack

theorem readsBack_thumbAddSub : ∀ f ∈ [Instr.tAddReg, .tSubReg, .tAddImm3, .tSubImm3], ∀ x rs rd,
    ReadsBack (f x rs rd) := by
  intro f hf x rs rd
  fin_cases hf <;> simp [ReadsBack, encode, decode, decodeThumb, decodeThumbShiftAddImm]

theorem readsBack_thumbShift : ∀ f ∈ [Instr.tLslImm, .tLsrImm, .tAsrImm], ∀ off5 rs rd, ReadsBack (f off5 rs rd) := by
  intro f hf off5 rs rd
  fin_cases hf <;> simp [ReadsBack, encode, decode, decodeThumb, decodeThumbShiftAddImm]

theorem readsBack_thumbImm8 : ∀ f ∈ [Instr.tMovImm, .tCmpImm, .tAddImm8, .tSubImm8], ∀ rd imm8,
    ReadsBack (f rd imm8) := by
  intro f hf rd imm8
  fin_cases hf <;> simp [ReadsBack, encode, decode, decodeThumb, decodeThumbShiftAddImm]

theorem readsBack_thumbAlu :
    ∀ f ∈ [Instr.tAnd, .tEor, .tLslReg, .tLsrReg, .tAsrReg, .tAdc, .tSbc, .tRorReg, .tTst, .tNeg, .tCmpReg, .tCmn,
      .tOrr, .tMul, .tBic, .tMvn], ∀ rs rd, ReadsBack (f rs rd) := by
  intro f hf rs rd
  fin_cases hf <;> simp [ReadsBack, encode, decode, decodeThumb, decodeThumbAlu]

theorem readsBack_thumbHi : ∀ f ∈ [Instr.tAddHi, .tCmpHi, .tMovHi], ∀ hs hd, ReadsBack (f hs hd) := by
  intro f hf hs hd
  fin_cases hf <;> simp [ReadsBack, encode, decode, decodeThumb, decodeThumbHi]

theorem readsBack_thumbBx {h1 : Bool} {hs : Reg} {sbz : BitVec 3} : ReadsBack (.tBx h1 hs sbz) := by
  simp [ReadsBack, encode, decode, decodeThumb, decodeThumbHi]

theorem readsBack_thumbRegOffset :
    ∀ f ∈ [Instr.tStrReg, .tStrbReg, .tLdrReg, .tLdrbReg, .tStrhReg, .tLdrsbReg, .tLdrhReg, .tLdrshReg], ∀ ro rb rd,
      ReadsBack (f ro rb rd) := by
  intro f hf ro rb rd
  fin_cases hf <;> simp [ReadsBack, encode, decode, decodeThumb, decodeThumbRegOffset]

theorem readsBack_thumbImmOffset :
    ∀ f ∈ [Instr.tStrImm, .tLdrImm, .tStrbImm, .tLdrbImm, .tStrhImm, .tLdrhImm], ∀ off5 rb rd,
      ReadsBack (f off5 rb rd) := by
  intro f hf off5 rb rd
  fin_cases hf <;> simp [ReadsBack, encode, decode, decodeThumb, decodeThumbImmOffset]

theorem readsBack_thumbPcSpOffset : ∀ f ∈ [Instr.tLdrPc, .tStrSp, .tLdrSp, .tAddPc, .tAddSp], ∀ rd imm8,
    ReadsBack (f rd imm8) := by
  intro f hf rd imm8
  fin_cases hf <;> simp [ReadsBack, encode, decode, decodeThumb]

theorem readsBack_thumbSpAdjust : ∀ f ∈ [Instr.tSpAdd, .tSpSub], ∀ imm7, ReadsBack (f imm7) := by
  intro f hf imm7
  fin_cases hf <;> simp [ReadsBack, encode, decode, decodeThumb, decodeThumbMisc]

theorem readsBack_thumbPushPop : ∀ f ∈ [Instr.tPush, .tPop], ∀ r rlist, ReadsBack (f r rlist) := by
  intro f hf r rlist
  fin_cases hf <;> simp [ReadsBack, encode, decode, decodeThumb, decodeThumbMisc]

theorem readsBack_thumbUnd1011 {bits : BitVec 12} (hwf : wf1011Space bits = true) : ReadsBack (.tUnd1011 bits) := by
  simp_all [wf1011Space, ReadsBack, encode, decode, decodeThumb, decodeThumbMisc]

theorem readsBack_thumbMultiple : ∀ f ∈ [Instr.tStmia, .tLdmia], ∀ rb rlist, ReadsBack (f rb rlist) := by
  intro f hf rb rlist
  fin_cases hf <;> simp [ReadsBack, encode, decode, decodeThumb, decodeThumbBranch]

theorem readsBack_thumbSwi : ∀ f ∈ [Instr.tSwi, .tUndCond], ∀ value, ReadsBack (f value) := by
  intro f hf value
  fin_cases hf <;> simp [ReadsBack, encode, decode, decodeThumb, decodeThumbBranch]

theorem condBits_ne_of_wfThumbCond {c : Cond} (hwf : wfThumbCond c = true) : condBits c ≠ 14 ∧ condBits c ≠ 15 := by
  cases c <;> revert hwf <;> decide

theorem readsBack_thumbBCond {c : Cond} {offset : BitVec 8} (hwf : wfThumbCond c = true) :
    ReadsBack (.tBCond c offset) := by
  have hcond := condBits_ne_of_wfThumbCond hwf
  simp_all [ReadsBack, encode, decode, decodeThumb, decodeThumbBranch]

theorem readsBack_thumbBranch : ∀ f ∈ [Instr.tB, .tUnd11101, .tBlPrefix, .tBlSuffix], ∀ offset,
    ReadsBack (f offset) := by
  intro f hf offset
  fin_cases hf <;> simp [ReadsBack, encode, decode, decodeThumb, decodeThumbBranch]

end ThumbReadsBack

theorem readsBack_of_wellFormed {i : Instr} (hwf : wellFormed i = true) : ReadsBack i := by
  cases i
  case mul | mla | umull | umlal | smull | smlal => exact readsBack_multiply _ (by simp) ..
  case swp | swpb => exact readsBack_swap _ (by simp) ..
  case undMulSwap => exact readsBack_undMulSwap hwf
  case undSignedStore => exact readsBack_undSignedStore
  case strh | ldrh | ldrsb | ldrsh => exact readsBack_halfword _ (by simp) ..
  case bx => exact readsBack_bx
  case mrs => exact readsBack_mrs
  case msrReg => exact readsBack_msrReg
  case msrImm => exact readsBack_msrImm
  case undPsr => exact readsBack_undPsr hwf
  case and | eor | sub | rsb | add | adc | sbc | rsc | orr | mov | bic | mvn =>
    exact readsBack_dataProcessing _ (by simp) ..
  case tst | teq | cmp | cmn => exact readsBack_comparison _ (by simp) ..
  case undMedia => exact readsBack_undMedia
  case strPre | ldrPre | strbPre | ldrbPre => exact readsBack_preIndexed _ (by simp) ..
  case strPost | ldrPost | strbPost | ldrbPost | strt | ldrt | strbt | ldrbt =>
    exact readsBack_postIndexed _ (by simp) ..
  case stm | ldm | stmUser => exact readsBack_block _ (by simp) ..
  case ldmUser | ldmReturn => exact readsBack_blockUser _ (by simp) ..
  case b | bl | swi => exact readsBack_branch _ (by simp) ..
  case stc | ldc => exact readsBack_coprocessorTransfer _ (by simp) ..
  case cdp => exact readsBack_cdp
  case mcr | mrc => exact readsBack_coprocessorRegister _ (by simp) ..
  case tAddReg | tSubReg | tAddImm3 | tSubImm3 => exact readsBack_thumbAddSub _ (by simp) ..
  case tLslImm | tLsrImm | tAsrImm => exact readsBack_thumbShift _ (by simp) ..
  case tMovImm | tCmpImm | tAddImm8 | tSubImm8 => exact readsBack_thumbImm8 _ (by simp) ..
  case tAnd | tEor | tLslReg | tLsrReg | tAsrReg | tAdc | tSbc | tRorReg | tTst | tNeg | tCmpReg | tCmn | tOrr |
      tMul | tBic | tMvn => exact readsBack_thumbAlu _ (by simp) ..
  case tAddHi | tCmpHi | tMovHi => exact readsBack_thumbHi _ (by simp) ..
  case tBx => exact readsBack_thumbBx
  case tStrReg | tStrbReg | tLdrReg | tLdrbReg | tStrhReg | tLdrsbReg | tLdrhReg | tLdrshReg =>
    exact readsBack_thumbRegOffset _ (by simp) ..
  case tStrImm | tLdrImm | tStrbImm | tLdrbImm | tStrhImm | tLdrhImm => exact readsBack_thumbImmOffset _ (by simp) ..
  case tLdrPc | tStrSp | tLdrSp | tAddPc | tAddSp => exact readsBack_thumbPcSpOffset _ (by simp) ..
  case tSpAdd | tSpSub => exact readsBack_thumbSpAdjust _ (by simp) ..
  case tPush | tPop => exact readsBack_thumbPushPop _ (by simp) ..
  case tUnd1011 => exact readsBack_thumbUnd1011 hwf
  case tStmia | tLdmia => exact readsBack_thumbMultiple _ (by simp) ..
  case tSwi | tUndCond => exact readsBack_thumbSwi _ (by simp) ..
  case tBCond => exact readsBack_thumbBCond hwf
  case tB | tUnd11101 | tBlPrefix | tBlSuffix => exact readsBack_thumbBranch _ (by simp) ..

/-- Settles O1: a well-formed instruction is of one format, and each format is read back. -/
theorem decodeReadsEveryEncoding : Obligations.DecodeReadsEveryEncoding := by
  unfold Obligations.DecodeReadsEveryEncoding
  exact fun _ hwf => readsBack_of_wellFormed hwf

/-! ### O2: encoding what a word decodes to

Each lemma takes one decoder function under the tests of its line. The two sides of `encode (decode e) = e` are
compared field by field, and where the tests cut the word elsewhere than the encoder, bit by bit. -/

/-- The instruction is well formed and its encoding is `e`. -/
def StandsFor (i : Instr) (e : Encoding) : Prop := wellFormed i = true ∧ encode i = e

/-- A line of a priority list and the lines after it. -/
theorem StandsFor.ite {p : Prop} [Decidable p] {i j : Instr} {e : Encoding} (hthen : p → StandsFor i e)
    (helse : ¬ p → StandsFor j e) : StandsFor (if p then i else j) e := by
  by_cases h : p
  · rw [if_pos h]; exact hthen h
  · rw [if_neg h]; exact helse h

section ArmStandsFor

variable {w : Word}

theorem standsFor_decodeMultiply (hop : field w 22 6 = 0) (h9 : field w 4 4 = 9) :
    StandsFor (decodeMultiply w) (.arm w) := by
  unfold decodeMultiply
  split <;> simp_all [StandsFor, wellFormed, encode, encodeMultiply, field_succ_eq_iff, eq_field_succ_iff]

theorem standsFor_decodeMultiplyLong (hop : field w 23 5 = 1) (h9 : field w 4 4 = 9) :
    StandsFor (decodeMultiplyLong w) (.arm w) := by
  unfold decodeMultiplyLong
  split <;> simp_all [StandsFor, wellFormed, encode, encodeMultiply, field_succ_eq_iff, eq_field_succ_iff]

theorem standsFor_decodeSwap (hop : field w 23 5 = 2) (hop' : field w 20 2 = 0) (h9 : field w 4 8 = 9) :
    StandsFor (decodeSwap w) (.arm w) := by
  unfold decodeSwap
  split <;> simp_all [StandsFor, wellFormed, encode, field_succ_eq_iff, eq_field_succ_iff]

theorem standsFor_undMulSwap (h000 : field w 25 3 = 0) (hmul : ¬ (field w 22 6 = 0 ∧ field w 4 4 = 9))
    (hlong : ¬ (field w 23 5 = 1 ∧ field w 4 4 = 9))
    (hswap : ¬ (field w 23 5 = 2 ∧ field w 20 2 = 0 ∧ field w 4 8 = 9)) (h9 : field w 4 4 = 9) :
    StandsFor (.undMulSwap (condOf w) (field w 20 5) (field w 8 12) (field w 0 4)) (.arm w) := by
  have hwf : wfMulSwapSpace (field w 20 5) (field w 8 12) = true := by
    refine wfMulSwapSpace_iff.mpr ?_
    simp_all [field_succ_eq_iff]
  exact ⟨hwf, by simp [encode, h000, h9]⟩

theorem standsFor_undSignedStore (h000 : field w 25 3 = 0) (h7 : flag w 7 = true) (h4 : flag w 4 = true)
    (hstore : flag w 20 = false ∧ flag w 6 = true) :
    StandsFor (.undSignedStore (condOf w) (field w 21 4) (field w 8 12) (flag w 5) (field w 0 4)) (.arm w) := by
  simp_all [StandsFor, wellFormed, encode, eq_field_succ_iff, field_succ_eq_iff]

theorem encodeHalfOffset_decodeHalfOffset :
    encodeHalfOffset (decodeHalfOffset w) = (bit (flag w 22), field w 8 4, field w 0 4) := by
  unfold decodeHalfOffset
  split <;> simp_all [encodeHalfOffset]

theorem standsFor_decodeHalfword (h000 : field w 25 3 = 0) (h7 : flag w 7 = true) (h4 : flag w 4 = true)
    (hnot9 : ¬ field w 4 4 = 9) (hstore : ¬ (flag w 20 = false ∧ flag w 6 = true)) :
    StandsFor (decodeHalfword w) (.arm w) := by
  unfold decodeHalfword
  split <;> simp_all [StandsFor, wellFormed, encode, encodeHalf, encodeHalfOffset_decodeHalfOffset, field_succ_eq_iff,
    eq_field_succ_iff]

theorem standsFor_decodeExtension (hext : field w 25 3 = 0 ∧ flag w 7 = true ∧ flag w 4 = true) :
    StandsFor (decodeExtension w) (.arm w) :=
  have ⟨h000, h7, h4⟩ := hext
  .ite (fun ⟨hop, h9⟩ => standsFor_decodeMultiply hop h9) fun hmul =>
  .ite (fun ⟨hop, h9⟩ => standsFor_decodeMultiplyLong hop h9) fun hlong =>
  .ite (fun ⟨hop, hop', h9⟩ => standsFor_decodeSwap hop hop' h9) fun hswap =>
  .ite (standsFor_undMulSwap h000 hmul hlong hswap) fun hnot9 =>
  .ite (standsFor_undSignedStore h000 h7 h4) fun hstore =>
  standsFor_decodeHalfword h000 h7 h4 hnot9 hstore

theorem encodeOperand2_decodeOperand2 (h : flag w 25 = false → flag w 7 = true → flag w 4 = false) :
    encodeOperand2 (decodeOperand2 w) = (bit (flag w 25), field w 0 12) := by
  unfold decodeOperand2
  split_ifs <;> simp_all [encodeOperand2, eq_field_succ_iff]

/-- A comparison's S is encoded as 1 whatever w[20] is. -/
theorem encode_decodeDataProcessing :
    encode (decodeDataProcessing w) = .arm (encodeData (condOf w) (field w 21 4)
      (bit ((field w 21 4).extractLsb' 2 2 == 2 || flag w 20)) (field w 16 4) (field w 12 4) (decodeOperand2 w)) := by
  unfold decodeDataProcessing
  generalize field w 21 4 = opcode
  obtain ⟨n⟩ := opcode
  fin_cases n <;> rfl

theorem wellFormed_decodeDataProcessing : wellFormed (decodeDataProcessing w) = true := by
  unfold decodeDataProcessing
  split <;> rfl

theorem standsFor_decodeDataProcessing (h00 : field w 26 2 = 0)
    (hext : ¬ (field w 25 3 = 0 ∧ flag w 7 = true ∧ flag w 4 = true))
    (hpsr : ¬ (field w 23 2 = 2 ∧ flag w 20 = false)) : StandsFor (decodeDataProcessing w) (.arm w) := by
  have hS : ((field w 21 4).extractLsb' 2 2 == 2 || flag w 20) = flag w 20 := by
    rw [field_field w (by decide)]
    cases h20 : flag w 20
    · simp_all
    · simp
  have hop2 : encodeOperand2 (decodeOperand2 w) = (bit (flag w 25), field w 0 12) :=
    encodeOperand2_decodeOperand2 (by simp_all [field_succ_eq_iff])
  refine ⟨wellFormed_decodeDataProcessing, ?_⟩
  rw [encode_decodeDataProcessing, hS]
  simp [encodeData, hop2, h00]

theorem standsFor_mrs (hmrs : field w 23 5 = 2 ∧ field w 20 2 = 0 ∧ flag w 7 = false ∧ flag w 4 = false) :
    StandsFor (.mrs (condOf w) (flag w 22) (field w 16 4) (field w 12 4) (field w 8 4) (field w 5 2) (field w 0 4))
      (.arm w) := by
  simp_all [StandsFor, wellFormed, encode, field_succ_eq_iff, eq_field_succ_iff]

theorem standsFor_msrReg (hmsr : field w 23 5 = 2 ∧ field w 20 2 = 2 ∧ flag w 7 = false ∧ flag w 4 = false) :
    StandsFor (.msrReg (condOf w) (flag w 22) (field w 16 4) (field w 12 4) (field w 8 4) (field w 5 2) (field w 0 4))
      (.arm w) := by
  simp_all [StandsFor, wellFormed, encode, field_succ_eq_iff, eq_field_succ_iff]

theorem standsFor_undPsr (h00 : field w 26 2 = 0)
    (hext : ¬ (field w 25 3 = 0 ∧ flag w 7 = true ∧ flag w 4 = true)) (hbx : ¬ field w 4 24 = 0x12FFF1)
    (hmrs : ¬ (field w 23 5 = 2 ∧ field w 20 2 = 0 ∧ flag w 7 = false ∧ flag w 4 = false))
    (hmsr : ¬ (field w 23 5 = 2 ∧ field w 20 2 = 2 ∧ flag w 7 = false ∧ flag w 4 = false))
    (hmsri : ¬ (field w 23 5 = 6 ∧ field w 20 2 = 2)) (hpsr : field w 23 2 = 2 ∧ flag w 20 = false) :
    StandsFor (.undPsr (condOf w) (flag w 25) (field w 21 2) (field w 0 20)) (.arm w) := by
  have hwf : wfPsrSpace (flag w 25) (field w 21 2) (field w 0 20) = true := by
    cases h25 : flag w 25
    · refine wfPsrSpace_reg_iff.mpr ⟨?_, fun ⟨hop, hlow⟩ => hbx ?_⟩
      · clear hbx
        cases h21 : flag w 21 <;> cases h4 : flag w 4 <;> simp_all [field_succ_eq_iff]
      · clear hext hbx hmrs hmsr hmsri
        simp_all [field_succ_eq_iff]
    · refine wfPsrSpace_imm_iff.mpr ?_
      clear hbx
      simp_all [field_succ_eq_iff]
  clear hext hbx hmrs hmsr hmsri
  exact ⟨hwf, by simp_all [encode, field_succ_eq_iff, eq_field_succ_iff]⟩

theorem standsFor_decodePsrOrData (h00 : field w 26 2 = 0)
    (hext : ¬ (field w 25 3 = 0 ∧ flag w 7 = true ∧ flag w 4 = true)) : StandsFor (decodePsrOrData w) (.arm w) :=
  .ite (fun hbx => by simp [StandsFor, wellFormed, encode, hbx]) fun hbx =>
  .ite standsFor_mrs fun hmrs =>
  .ite standsFor_msrReg fun hmsr =>
  .ite (fun hmsri => by simp [StandsFor, wellFormed, encode, hmsri]) fun hmsri =>
  .ite (standsFor_undPsr h00 hext hbx hmrs hmsr hmsri) fun hpsr =>
  standsFor_decodeDataProcessing h00 hext hpsr

theorem encodeTransferOffset_decodeTransferOffset (h : flag w 25 = true → flag w 4 = false) :
    encodeTransferOffset (decodeTransferOffset w) = (bit (flag w 25), field w 0 12) := by
  unfold decodeTransferOffset
  split <;> simp_all [encodeTransferOffset, eq_field_succ_iff]

theorem standsFor_decodeSingleTransfer (h01 : field w 26 2 = 1) (hund : ¬ (field w 25 3 = 3 ∧ flag w 4 = true)) :
    StandsFor (decodeSingleTransfer w) (.arm w) := by
  have hoff : encodeTransferOffset (decodeTransferOffset w) = (bit (flag w 25), field w 0 12) :=
    encodeTransferOffset_decodeTransferOffset (by simp_all [field_succ_eq_iff])
  clear hund
  unfold decodeSingleTransfer
  split_ifs <;> split <;> simp_all [StandsFor, wellFormed, encode, encodeSingle, field_succ_eq_iff,
    eq_field_succ_iff]

theorem standsFor_decodeBlockTransfer (h100 : field w 25 3 = 4) : StandsFor (decodeBlockTransfer w) (.arm w) := by
  unfold decodeBlockTransfer
  split <;> simp_all [StandsFor, wellFormed, encode, encodeBlock, field_succ_eq_iff, eq_field_succ_iff]

theorem standsFor_decodeCoprocessor (h : field w 25 3 = 6 ∨ field w 24 4 = 14) :
    StandsFor (decodeCoprocessor w) (.arm w) := by
  unfold decodeCoprocessor
  by_cases h6 : field w 25 3 = 6
  · rw [if_pos h6]
    clear h
    split <;> simp_all [StandsFor, wellFormed, encode, field_succ_eq_iff, eq_field_succ_iff]
  · have h14 : field w 24 4 = 14 := h.resolve_left h6
    rw [if_neg h6]
    clear h h6
    split_ifs <;> simp_all [StandsFor, wellFormed, encode, field_succ_eq_iff, eq_field_succ_iff]

theorem standsFor_undMedia (hund : field w 25 3 = 3 ∧ flag w 4 = true) :
    StandsFor (.undMedia (condOf w) (field w 5 20) (field w 0 4)) (.arm w) := by
  simp_all [StandsFor, wellFormed, encode, field_succ_eq_iff, eq_field_succ_iff]

/-- The last line of R102 takes what the lines before it leave of w[27:24]. -/
theorem top_eq_swi : ∀ top : BitVec 4, top.extractLsb' 2 2 ∉ [0, 1] ∧ top.extractLsb' 1 3 ∉ [4, 5, 6] ∧ top ≠ 14 →
    top = 15 := by
  decide

theorem standsFor_decodeArm (w : Word) : StandsFor (decodeArm w) (.arm w) :=
  .ite standsFor_decodeExtension fun hext =>
  .ite (fun h00 => standsFor_decodePsrOrData h00 hext) fun h00 =>
  .ite standsFor_undMedia fun hund =>
  .ite (fun h01 => standsFor_decodeSingleTransfer h01 hund) fun h01 =>
  .ite standsFor_decodeBlockTransfer fun h100 =>
  .ite (fun h101 => .ite
    (fun hl => by simp_all [StandsFor, wellFormed, encode, field_succ_eq_iff, eq_field_succ_iff])
    (fun hl => by simp_all [StandsFor, wellFormed, encode, field_succ_eq_iff, eq_field_succ_iff])) fun h101 =>
  .ite standsFor_decodeCoprocessor fun hcop => by
    have htop : field w 24 4 = 15 := top_eq_swi _ (by simp_all)
    simp [StandsFor, wellFormed, encode, htop]

end ArmStandsFor

section ThumbStandsFor

variable {h : Half}

theorem standsFor_decodeThumbShiftAddImm (h00 : field h 14 2 = 0) :
    StandsFor (decodeThumbShiftAddImm h) (.thumb h) := by
  unfold decodeThumbShiftAddImm
  split_ifs <;> split <;> simp_all [StandsFor, wellFormed, encode, field_succ_eq_iff, eq_field_succ_iff]

theorem standsFor_decodeThumbAlu (hline : field h 10 6 = 16) : StandsFor (decodeThumbAlu h) (.thumb h) := by
  have hop : StandsFor (decodeThumbAlu h) (.thumb (16#6 ++ field h 6 4 ++ field h 3 3 ++ field h 0 3)) := by
    unfold decodeThumbAlu
    generalize field h 6 4 = op
    obtain ⟨n⟩ := op
    fin_cases n <;> exact ⟨rfl, rfl⟩
  have hfields : 16#6 ++ field h 6 4 ++ field h 3 3 ++ field h 0 3 = h := by simp [hline]
  rwa [hfields] at hop

theorem standsFor_decodeThumbHi (hline : field h 10 6 = 17) : StandsFor (decodeThumbHi h) (.thumb h) := by
  unfold decodeThumbHi
  split <;> simp_all [StandsFor, wellFormed, encode, field_succ_eq_iff, eq_field_succ_iff]

theorem standsFor_decodeThumbRegOffset (hline : field h 12 4 = 5) : StandsFor (decodeThumbRegOffset h) (.thumb h) := by
  unfold decodeThumbRegOffset
  split <;> simp_all [StandsFor, wellFormed, encode, field_succ_eq_iff, eq_field_succ_iff]

theorem standsFor_decodeThumbImmOffset (hline : field h 13 3 = 3) : StandsFor (decodeThumbImmOffset h) (.thumb h) := by
  unfold decodeThumbImmOffset
  split <;> simp_all [StandsFor, wellFormed, encode, field_succ_eq_iff, eq_field_succ_iff]

theorem standsFor_decodeThumbMisc (hline : field h 12 4 = 11) : StandsFor (decodeThumbMisc h) (.thumb h) := by
  unfold decodeThumbMisc
  split_ifs <;> simp_all [StandsFor, wellFormed, wf1011Space, encode, field_succ_eq_iff, eq_field_succ_iff]

theorem wfThumbCond_condOfBits : ∀ b : BitVec 4, b ≠ 14 → b ≠ 15 → wfThumbCond (condOfBits b) = true := by decide

theorem standsFor_thumbBCond (hline : field h 12 4 = 13) (hswi : ¬ field h 8 8 = 0xDF) (hund : ¬ field h 8 8 = 0xDE) :
    StandsFor (.tBCond (condOfBits (field h 8 4)) (field h 0 8)) (.thumb h) := by
  have hwf : wfThumbCond (condOfBits (field h 8 4)) = true := by
    refine wfThumbCond_condOfBits _ (fun h14 => hund ?_) fun h15 => hswi ?_ <;>
      simp_all [field_succ_eq_iff]
  exact ⟨hwf, by simp [encode, hline]⟩

theorem standsFor_thumbBl (hline : field h 12 4 = 15) :
    StandsFor (if flag h 11 then .tBlSuffix (field h 0 11) else .tBlPrefix (field h 0 11)) (.thumb h) := by
  split <;> simp_all [StandsFor, wellFormed, encode, field_succ_eq_iff, eq_field_succ_iff]

/-- The last line of R124 takes what the lines before it leave of h[15:11]. -/
theorem top_eq_thumbBl : ∀ top : BitVec 5, top.extractLsb' 3 2 = 3 ∧ top.extractLsb' 1 4 ∉ [12, 13] ∧ top ∉ [28, 29] →
    top.extractLsb' 1 4 = 15 := by
  decide

theorem standsFor_thumbMultiple (hline : field h 12 4 = 12) :
    StandsFor (if flag h 11 then .tLdmia (field h 8 3) (field h 0 8) else .tStmia (field h 8 3) (field h 0 8))
      (.thumb h) := by
  split <;> simp_all [StandsFor, wellFormed, encode, field_succ_eq_iff, eq_field_succ_iff]

theorem standsFor_decodeThumbBranch (h11 : field h 14 2 = 3) : StandsFor (decodeThumbBranch h) (.thumb h) :=
  .ite standsFor_thumbMultiple fun h12 =>
  .ite (fun hswi => by simp [StandsFor, wellFormed, encode, hswi]) fun hswi =>
  .ite (fun hund => by simp [StandsFor, wellFormed, encode, hund]) fun hund =>
  .ite (fun h13 => standsFor_thumbBCond h13 hswi hund) fun h13 =>
  .ite (fun h28 => by simp [StandsFor, wellFormed, encode, h28]) fun h28 =>
  .ite (fun h29 => by simp [StandsFor, wellFormed, encode, h29]) fun h29 =>
  standsFor_thumbBl (by simpa using top_eq_thumbBl (field h 11 5) (by simp_all))

theorem standsFor_thumbHalfwordImm (hline : field h 12 4 = 8) :
    StandsFor (if flag h 11 then .tLdrhImm (field h 6 5) (field h 3 3) (field h 0 3)
      else .tStrhImm (field h 6 5) (field h 3 3) (field h 0 3)) (.thumb h) := by
  split <;> simp_all [StandsFor, wellFormed, encode, field_succ_eq_iff, eq_field_succ_iff]

theorem standsFor_thumbSpOffset (hline : field h 12 4 = 9) :
    StandsFor (if flag h 11 then .tLdrSp (field h 8 3) (field h 0 8) else .tStrSp (field h 8 3) (field h 0 8))
      (.thumb h) := by
  split <;> simp_all [StandsFor, wellFormed, encode, field_succ_eq_iff, eq_field_succ_iff]

theorem standsFor_thumbAddress (hline : field h 12 4 = 10) :
    StandsFor (if flag h 11 then .tAddSp (field h 8 3) (field h 0 8) else .tAddPc (field h 8 3) (field h 0 8))
      (.thumb h) := by
  split <;> simp_all [StandsFor, wellFormed, encode, field_succ_eq_iff, eq_field_succ_iff]

/-- What the lines of R124 before the branches leave of h[15:10]. -/
theorem top_eq_thumbBranch : ∀ top : BitVec 6, top.extractLsb' 4 2 ≠ 0 ∧ top ∉ [16, 17] ∧ top.extractLsb' 1 5 ≠ 9 ∧
    top.extractLsb' 3 3 ≠ 3 ∧ top.extractLsb' 2 4 ∉ [5, 8, 9, 10, 11] → top.extractLsb' 4 2 = 3 := by
  decide

theorem standsFor_decodeThumb (h : Half) : StandsFor (decodeThumb h) (.thumb h) :=
  .ite standsFor_decodeThumbShiftAddImm fun h00 =>
  .ite standsFor_decodeThumbAlu fun halu =>
  .ite standsFor_decodeThumbHi fun hhi =>
  .ite (fun hpc => by simp [StandsFor, wellFormed, encode, hpc]) fun hpc =>
  .ite standsFor_decodeThumbRegOffset fun hreg =>
  .ite standsFor_decodeThumbImmOffset fun himm =>
  .ite standsFor_thumbHalfwordImm fun hhalf =>
  .ite standsFor_thumbSpOffset fun hsp =>
  .ite standsFor_thumbAddress fun haddr =>
  .ite standsFor_decodeThumbMisc fun hmisc =>
  standsFor_decodeThumbBranch (by simpa using top_eq_thumbBranch (field h 10 6) (by simp_all))

end ThumbStandsFor

/-- Settles O2: each line of the two priority lists stands for the word it takes. -/
theorem everyWordIsOneInstruction : Obligations.EveryWordIsOneInstruction := by
  unfold Obligations.EveryWordIsOneInstruction
  intro e
  cases e with
  | arm w => exact standsFor_decodeArm w
  | thumb h => exact standsFor_decodeThumb h

/-- Settles O3, by running the decoder on the twelve words. -/
theorem decodesWordsOfTheTables : Obligations.DecodesWordsOfTheTables := by
  unfold Obligations.DecodesWordsOfTheTables
  decide

end Sys2Proof

/-! SUPPORT. Proofs of the statements about the cycle, the conditions, the shifter and the adder
(spec/40_cycle_condition_shifter.md): each shared operation's value first, then the statements. -/

namespace Sys2Proof.Machine

/-! ### The condition (spec/40 R152, R153) -/

/-- Settles O7: each row reads the flags the row names. -/
theorem conditionTable : Obligations.ConditionTable := by
  unfold Obligations.ConditionTable
  rintro s n z c v ⟨rfl, rfl, rfl, rfl⟩
  exact ⟨rfl, rfl, rfl, rfl, rfl, rfl, rfl, rfl, rfl, rfl, rfl, rfl, rfl, rfl, rfl, rfl⟩

/-- Every meaning runs in the frame `conditionally`, under the condition `guardOf` names; a THUMB instruction outside
format 16 has AL, which never fails. -/
theorem exec_skips {i : Instr} {s : State} (h : condPassed (guardOf i) s = false) : exec i s = .next s.skip := by
  cases i with
  | mul | mla =>
    dsimp only [exec, execMul, execMla, multiply]
    exact conditionally_skips h
  | umull | umlal | smull | smlal =>
    dsimp only [exec, execUmull, execUmlal, execSmull, execSmlal, multiplyLong]
    exact conditionally_skips h
  | swp | swpb =>
    dsimp only [exec, execSwp, execSwpb, swap]
    exact conditionally_skips h
  | undMulSwap | undSignedStore | undPsr | undMedia | stc | ldc | cdp | mcr | mrc =>
    dsimp only [exec, execUndMulSwap, execUndSignedStore, execUndPsr, execUndMedia, execStc, execLdc, execCdp,
      execMcr, execMrc, undefinedWord]
    exact conditionally_skips h
  | ldrPre | ldrPost | ldrbPre | ldrbPost | ldrt | ldrbt =>
    dsimp only [exec, execLdrPre, execLdrPost, execLdrbPre, execLdrbPost, execLdrt, execLdrbt, singleLoad]
    exact conditionally_skips h
  | strPre | strPost | strbPre | strbPost | strt | strbt =>
    dsimp only [exec, execStrPre, execStrPost, execStrbPre, execStrbPost, execStrt, execStrbt, singleStore]
    exact conditionally_skips h
  | ldrh | ldrsb | ldrsh =>
    dsimp only [exec, execLdrh, execLdrsb, execLdrsh, halfLoad]
    exact conditionally_skips h
  | and | eor | sub | rsb | add | adc | sbc | rsc | orr | bic =>
    dsimp only [exec, execAnd, execEor, execSub, execRsb, execAdd, execAdc, execSbc, execRsc, execOrr, execBic,
      aluTwo]
    exact conditionally_skips h
  | mov | mvn =>
    dsimp only [exec, execMov, execMvn, aluOne]
    exact conditionally_skips h
  | tst | teq | cmp | cmn =>
    dsimp only [exec, execTst, execTeq, execCmp, execCmn, aluCompare]
    exact conditionally_skips h
  | stm | ldm | stmUser | ldmUser | ldmReturn =>
    dsimp only [exec, execStm, execLdm, execStmUser, execLdmUser, execLdmReturn, storeMultiple]
    exact conditionally_skips h
  | strh | bx | mrs | msrReg | msrImm | b | bl | swi | tBCond =>
    dsimp only [exec, execStrh, execBx, execMrs, execMsrReg, execMsrImm, execB, execBl, execSwi, execTBCond]
    exact conditionally_skips h
  | _ => cases h

/-- Settles O13: every instruction runs in one frame, which skips on a failed condition. -/
theorem failedConditionOnlyAdvances : Obligations.FailedConditionOnlyAdvances := by
  unfold Obligations.FailedConditionOnlyAdvances
  intro i s h
  exact ⟨s.skip, exec_skips h, rfl, rfl, rfl, ⟨rfl, rfl, rfl⟩, fun _ => rfl, ⟨rfl, rfl⟩, rfl, rfl, rfl, rfl, rfl⟩

/-! ### The adder (spec/40 R164) -/

/-- The overflow of two operands with one sign and a sum with the other is that the signed sum does not fit. -/
theorem addWithCarry_overflow_iff (a b : Word) (cin : Bool) : (addWithCarry a b cin).overflow = true ↔
    ¬ (-(2 ^ 31 : Int) ≤ a.toInt + b.toInt + cin.toNat ∧ a.toInt + b.toInt + cin.toNat < 2 ^ 31) := by
  have ha := a.isLt
  have hb := b.isLt
  have hc : cin.toNat ≤ 1 := Bool.toNat_le cin
  simp only [addWithCarry, exactSum, BitVec.toInt_eq_toNat_cond, BitVec.msb_eq_decide, BitVec.toNat_ofNat,
    Bool.and_eq_true, beq_iff_eq, bne_iff_ne, ne_eq, decide_eq_decide]
  omega

theorem subWithCarry_value (a b : Word) : (subWithCarry a b true).value = a - b := by
  simp [subWithCarry_eq_differenceResult, differenceResult]

theorem subWithCarry_carry_iff (a b : Word) (cin : Bool) :
    (subWithCarry a b cin).carry = true ↔ b.toNat + (!cin).toNat ≤ a.toNat := by
  simp only [subWithCarry_eq_differenceResult, differenceResult, decide_eq_true_eq]

/-- Settles O11: value and carry are read off the exact sum, overflow off the signs. -/
theorem addWithCarryIsExact : Obligations.AddWithCarryIsExact := by
  unfold Obligations.AddWithCarryIsExact
  exact fun a b cin => ⟨BitVec.toNat_ofNat .., decide_eq_true_iff, addWithCarry_overflow_iff a b cin,
    subWithCarry_value a b, subWithCarry_carry_iff a b true, subWithCarry_carry_iff a b cin⟩

/-! ### The barrel shifter (spec/40 R162, R163)

A shift by a nonzero immediate is the shift by that register amount, and the value of a shift by a register is the
plain shift at every amount, so the bits are those of the library's shifts. -/

theorem shiftByImm_eq_shiftByReg (v : Word) (ty : ShiftType) {n : Nat} (c : Bool) (h0 : n ≠ 0) (h32 : n < 32) :
    shiftByImm v ty n c = shiftByReg v ty n c := by
  have hmod : n % 32 = n := Nat.mod_eq_of_lt h32
  cases ty <;> simp [shiftByImm, shiftByReg, h0, h32, hmod]

@[simp] theorem getLsbD_allCopies (b : Bool) {i : Nat} (hi : i < 32) : (allCopies b).getLsbD i = b := by
  cases b
  · exact BitVec.getLsbD_zero
  · exact (BitVec.getLsbD_allOnes (v := 32)).trans (decide_eq_true hi)

theorem getLsbD_sshiftRight_word (v : Word) (n : Nat) {i : Nat} (hi : i < 32) :
    (v.sshiftRight n).getLsbD i = if i + n < 32 then v.getLsbD (i + n) else v.getLsbD 31 := by
  rw [BitVec.getLsbD_sshiftRight, BitVec.msb_eq_getLsbD_last, Nat.add_comm n i]
  simp [hi]

theorem getLsbD_rotateRight_word (v : Word) (n : Nat) {i : Nat} (hi : i < 32) :
    (v.rotateRight n).getLsbD i = v.getLsbD ((i + n) % 32) := by
  rw [BitVec.getLsbD_rotateRight]
  by_cases h : i < 32 - n % 32
  · rw [decide_eq_true h, cond_true, show (i + n) % 32 = n % 32 + i by omega]
  · rw [decide_eq_false h, cond_false, decide_eq_true hi, Bool.true_and,
      show (i + n) % 32 = i - (32 - n % 32) by omega]

theorem shiftByReg_lsl_value (v : Word) (n : Nat) (c : Bool) : (shiftByReg v .lsl n c).value = v <<< n := by
  simp only [shiftByReg]
  split_ifs with h0 h32 h
  · simp [h0]
  · rfl
  · exact (BitVec.shiftLeft_eq_zero (by omega)).symm
  · exact (BitVec.shiftLeft_eq_zero (by omega)).symm

theorem shiftByReg_lsl_toNat (v : Word) (n : Nat) (c : Bool) :
    (shiftByReg v .lsl n c).value.toNat = v.toNat * 2 ^ n % 2 ^ 32 := by
  rw [shiftByReg_lsl_value, BitVec.toNat_shiftLeft, Nat.shiftLeft_eq]

theorem shiftByReg_lsr_value (v : Word) (n : Nat) (c : Bool) : (shiftByReg v .lsr n c).value = v >>> n := by
  simp only [shiftByReg]
  split_ifs with h0 h32 h
  · simp [h0]
  · rfl
  · exact (BitVec.ushiftRight_eq_zero (by omega)).symm
  · exact (BitVec.ushiftRight_eq_zero (by omega)).symm

theorem shiftByReg_lsr_toNat (v : Word) (n : Nat) (c : Bool) :
    (shiftByReg v .lsr n c).value.toNat = v.toNat / 2 ^ n := by
  rw [shiftByReg_lsr_value, BitVec.toNat_ushiftRight, Nat.shiftRight_eq_div_pow]

theorem shiftByReg_asr_bit (v : Word) (n : Nat) (c : Bool) {i : Nat} (hi : i < 32) :
    (shiftByReg v .asr n c).value.getLsbD i = if i + n < 32 then v.getLsbD (i + n) else v.getLsbD 31 := by
  simp only [shiftByReg]
  split_ifs with h0 hin h32 hin hin
  · simp [h0]
  · omega
  · rw [getLsbD_sshiftRight_word v n hi, if_pos hin]
  · rw [getLsbD_sshiftRight_word v n hi, if_neg hin]
  · omega
  · exact getLsbD_allCopies _ hi

theorem shiftByReg_ror_bit (v : Word) (n : Nat) (c : Bool) {i : Nat} (hi : i < 32) :
    (shiftByReg v .ror n c).value.getLsbD i = v.getLsbD ((i + n) % 32) := by
  simp only [shiftByReg]
  split_ifs with h0 hmod
  · rw [h0, Nat.add_zero, Nat.mod_eq_of_lt hi]
  · rw [show (i + n) % 32 = i by omega]
  · rw [BitVec.rotateRight_mod_eq_rotateRight, getLsbD_rotateRight_word v n hi]

theorem shiftByReg_lsl_carry (v : Word) {n : Nat} (c : Bool) (h : n ≠ 0) :
    (shiftByReg v .lsl n c).carry = (decide (n ≤ 32) && v.getLsbD (32 - n)) := by
  simp only [shiftByReg, if_neg h]
  split_ifs with h32 heq
  · simp [h32.le]
  · simp [heq]
  · simp [show ¬ n ≤ 32 by omega]

theorem shiftByReg_lsr_carry (v : Word) {n : Nat} (c : Bool) (h : n ≠ 0) :
    (shiftByReg v .lsr n c).carry = (decide (n ≤ 32) && v.getLsbD (n - 1)) := by
  simp only [shiftByReg, if_neg h]
  split_ifs with h32 heq
  · simp [h32.le]
  · simp [heq]
  · simp [show ¬ n ≤ 32 by omega]

theorem shiftByReg_asr_carry (v : Word) {n : Nat} (c : Bool) (h : n ≠ 0) :
    (shiftByReg v .asr n c).carry = if n < 32 then v.getLsbD (n - 1) else v.getLsbD 31 := by
  simp only [shiftByReg, if_neg h]
  split_ifs <;> rfl

theorem shiftByReg_ror_carry (v : Word) {n : Nat} (c : Bool) (h : n ≠ 0) :
    (shiftByReg v .ror n c).carry = v.getLsbD ((n + 31) % 32) := by
  simp only [shiftByReg, if_neg h]
  split_ifs with hmod
  · rw [show (n + 31) % 32 = 31 by omega]
  · rw [show (n + 31) % 32 = n % 32 - 1 by omega]

/-- RRX: C comes in at the top, every other bit moves down one place. -/
theorem getLsbD_rrx (v : Word) (c : Bool) {i : Nat} (hi : i < 32) :
    (BitVec.ofBool c ++ v.extractLsb' 1 31).getLsbD i = if i = 31 then c else v.getLsbD (i + 1) := by
  rw [BitVec.getLsbD_append]
  by_cases h : i = 31
  · simp [h]
  · have hlow : i < 31 := by omega
    rw [if_pos hlow, if_neg h, BitVec.getLsbD_extractLsb', decide_eq_true hlow, Bool.true_and, Nat.add_comm]

/-- Settles O9: the special meanings of the immediate 0 by the definition, every other amount as a register amount. -/
theorem barrelShifterBits : Obligations.BarrelShifterBits := by
  unfold Obligations.BarrelShifterBits
  refine ⟨fun v n c hn => ?_, fun v ty n c _ => ⟨if_pos rfl, fun h0 => ?_⟩⟩
  · by_cases h0 : n = 0
    · subst h0
      have hlsl : v.toNat = v.toNat * 2 ^ 0 % 2 ^ 32 := by rw [pow_zero, Nat.mul_one, Nat.mod_eq_of_lt v.isLt]
      exact ⟨hlsl, rfl, rfl, rfl, fun i hi => getLsbD_allCopies _ hi, rfl, fun i hi => getLsbD_rrx v c hi, rfl⟩
    · simp only [shiftByImm_eq_shiftByReg v _ c h0 hn, h0, if_false, ne_eq, not_false_eq_true, true_and]
      refine ⟨shiftByReg_lsl_toNat v n c, ?_, shiftByReg_lsr_toNat v n c, ?_,
        fun i hi => shiftByReg_asr_bit v n c hi, ?_, fun i hi => shiftByReg_ror_bit v n c hi, ?_⟩
      · rw [shiftByReg_lsl_carry v c h0, decide_eq_true hn.le, Bool.true_and]
      · rw [shiftByReg_lsr_carry v c h0, decide_eq_true hn.le, Bool.true_and]
      · rw [shiftByReg_asr_carry v c h0, if_pos hn]
      · rw [shiftByReg_ror_carry v c h0, show (n + 31) % 32 = n - 1 by omega]
  · exact ⟨shiftByReg_lsl_toNat v n c, shiftByReg_lsl_carry v c h0, shiftByReg_lsr_toNat v n c,
      shiftByReg_lsr_carry v c h0, fun i hi => shiftByReg_asr_bit v n c hi, shiftByReg_asr_carry v c h0,
      fun i hi => shiftByReg_ror_bit v n c hi, shiftByReg_ror_carry v c h0⟩

/-! ### Operand 2 (spec/40 R154, R155, R161) -/

/-- In ARM state R15 reads A + 12 under a register-specified shift, A + 8 elsewhere. -/
theorem operand2Pc_arm {s : State} (h : s.thumb = false) (op2 : Operand2) : operand2Pc op2 s =
    s.pc + match op2 with | .shiftReg _ _ _ => 12 | .shiftImm _ _ _ => 8 | .imm _ _ => 8 := by
  have hpc : s.pcRead = s.pc + 8 := by simp [State.pcRead, h]
  cases op2 with
  | imm | shiftImm => exact hpc
  | shiftReg => exact (congrArg (· + 4) hpc).trans (BitVec.add_assoc ..)

/-- Settles O10: each form is the shifter on what its registers read as, R15 as the form says. -/
theorem operandTwoForms : Obligations.OperandTwoForms := by
  unfold Obligations.OperandTwoForms
  intro s harm
  refine ⟨fun rotate imm8 => ⟨fun i hi => getLsbD_rotateRight_word _ _ hi, rfl⟩, fun amount ty rm => ?_,
    fun rs ty rm hrs => ?_, operand2Pc_arm harm⟩
  · rw [operand2, operand2Pc_arm harm]
    rfl
  · have hamount : ((s.readReg rs).setWidth 8).toNat = (s.getPhys (physReg s.mode rs)).toNat % 256 := by
      rw [State.readReg_eq_getPhys s hrs, BitVec.toNat_setWidth]
    rw [operand2, operand2Pc_arm harm, hamount]
    rfl

/-! ### The state-changing branch (spec/40 R158) -/

/-- `pc_bx <- t` changes T and R15 alone. -/
theorem branchExchange_exchangesTo (t : Word) (s : State) : ExchangesTo t s (branchExchange t s.started) := by
  unfold ExchangesTo
  rcases branchExchange_cases t s.started with ⟨href, h0, h1⟩ | ⟨hnext, halign⟩
  · rw [if_pos ⟨h0, h1⟩, href]
  · have hok : ¬(t.getLsbD 0 = false ∧ t.getLsbD 1 = true) := fun ⟨h0, h1⟩ =>
      Bool.false_ne_true ((halign h0).symm.trans h1)
    rw [if_neg hok]
    refine ⟨_, hnext, rfl, ?_, fun i hi => ?_, ?_, fun _ => rfl⟩
    · simp [psrBit_setPsrBit]
    · simp [psrBit_setPsrBit, Ne.symm hi]
    · exact keepsAllBut_intro (fun p hp _ => by simp [hp]) rfl rfl rfl rfl rfl rfl rfl

/-- Settles O41: both forms are the state-changing branch to what the register reads. -/
theorem branchExchangeResults : Obligations.BranchExchangeResults := by
  unfold Obligations.BranchExchangeResults
  intro c rm s hrm
  refine ⟨fun hc => ?_, ?_⟩
  · have hexec : exec (.bx c rm) s = branchExchange (s.readReg rm) s.started := by
      dsimp only [exec, execBx]
      exact conditionally_runs hc rfl hrm
    exact hexec ▸ branchExchange_exchangesTo _ s
  · have hexec : exec (.tBx false rm 0) s = branchExchange (s.readReg rm) s.started := by
      dsimp only [exec, execTBx]
      exact unconditionally_runs rfl hrm
    exact hexec ▸ branchExchange_exchangesTo _ s

/-! ### The step (spec/40 R150, R151) -/

/-- A line that is not asserted, or is masked, leaves the boundary without an exception (spec/60_exceptions.md R392). -/
theorem sampleLines_eq_none {l : Lines} {s : State} (hreset : l.reset = false) (hfiq : l.fiq = true → s.flagF = true)
    (hirq : l.irq = true → s.flagI = true) : sampleLines l s = none := by
  have masked : ∀ {line mask : Bool}, (line = true → mask = true) → (line && !mask) = false := by decide
  simp [sampleLines, hreset, masked hfiq, masked hirq]

/-- In a running state with no exception at the boundary, a step executes what the fetch answers. -/
theorem step_of_fetch {s fetched : State} {w : Word} (hrun : s.stop = .running) (hmode : s.LegalMode)
    (hlines : sampleLines s.linesNow s.boundary = none) (hfetch : fetch s.boundary = (some w, fetched)) :
    step s = exec (decodeFetched s.thumb w) fetched := by
  have hlegal : (modeOf s.cpsr).isNone = false := by rw [Option.isNone_eq_false_iff]; exact hmode
  simp [step, hrun, hlegal, hlines, hfetch]

/-- The bits of a well-formed instruction, fetched in its own state, are decoded to it. -/
theorem decodeFetched_instrWord {i : Instr} (hwf : wellFormed i = true) :
    decodeFetched (isThumb i) (instrWord i) = i := by
  have hdecode := decodeReadsEveryEncoding i hwf
  unfold isThumb instrWord
  cases he : encode i with
  | arm w =>
    rw [he] at hdecode
    exact hdecode
  | thumb h =>
    rw [he] at hdecode
    have hhalf : (h.setWidth 32).setWidth 16 = h := by simp
    exact (congrArg decodeThumb hhalf).trans hdecode

/-- What a read answers depends on memory and on what `SameAccesses` names. -/
theorem SameAccesses.readAnswer {s t : State} (h : SameAccesses s t) (hmem : t.mem = s.mem) (a : Word) (sz : Size) :
    t.readAnswer a sz = s.readAnswer a sz := by
  have ⟨hplain, _, hdraws, _, _⟩ := h
  have hbytes : ∀ k n : Nat, t.bytesAt k n = s.bytesAt k n := by
    intro k n
    induction n generalizing k with
    | zero => rfl
    | succ n ih => simp only [State.bytesAt, State.byteAt, hmem, hdraws, ih]
  simp only [State.readAnswer, plainAccess_congr hplain, hbytes, h.answer]

/-- A read of memory takes no answer of the platform and counts one draw (log 6). -/
theorem memRead_plain {addr : Word} {sz : Size} {s : State} (h : s.plainAccess addr sz = true) (kind : AccessKind)
    (locked : Bool) : (memRead addr sz kind locked s).2.bus = s.bus ∧
      (memRead addr sz kind locked s).2.draws = s.draws + 1 := by
  simp [memRead, h]

/-- Settles O12: the boundary takes no exception, and the fetched bits decode to the instruction. -/
theorem stepRunsDecodedInstruction : Obligations.StepRunsDecodedInstruction := by
  unfold Obligations.StepRunsDecodedInstruction
  intro s i hrun hmode hwf hstate hreset hfiq hirq hanswer
  have hlines : sampleLines s.linesNow s.boundary = none := sampleLines_eq_none hreset hfiq hirq
  have hread : (fetch s.boundary).1 = some (instrWord i) := by
    rw [fetch, readAnswer_eq, SameAccesses.readAnswer (s := s) (t := s.boundary) ⟨rfl, rfl, rfl, rfl, rfl⟩ rfl]
    exact hanswer
  have hstep := step_of_fetch hrun hmode hlines (Prod.ext hread rfl)
  rw [← hstate, decodeFetched_instrWord hwf] at hstep
  obtain ⟨hregs, hpc, hcpsr, hspsr, hmem, hhazard, hdisp, hstop, htail, hplain, _⟩ :=
    memRead_frame s.pc s.fetchSize .fetch false s.boundary
  refine ⟨_, hstep, hregs, hpc, hcpsr, hspsr, hmem, hhazard, hdisp, hstop, hplain, htail, fun hp => ?_,
    memRead_requests s.pc s.fetchSize .fetch false s.boundary⟩
  exact memRead_plain (s := s.boundary) ((plainAccess_congr (s := s) (t := s.boundary) rfl _ _).trans hp) .fetch false

end Sys2Proof.Machine

/-! SUPPORT. Proofs of the statements about the multiplies (spec/41_multiply.md): the order of a form's refusals, the
products and the accumulator as exact integers, then the statements. -/

namespace Sys2Proof.Machine

/-! ### The refusals of a form, in order -/

theorem firstRefusal_head {b : Bool} (r : Refusal) (rest : List (Bool × Refusal)) (h : b = true) :
    firstRefusal ((b, r) :: rest) = some r := by subst h; rfl

theorem firstRefusal_tail {b : Bool} (r : Refusal) (rest : List (Bool × Refusal)) (h : b = false) :
    firstRefusal ((b, r) :: rest) = firstRefusal rest := by subst h; rfl

/-! ### MUL and MLA (spec/41 R190, R191) -/

/-- A 32-bit multiply that is refused nothing. -/
theorem multiply_writesResult {c : Cond} {sf : Bool} {rd : Reg} {form : List (Bool × Refusal)} {touched : List Reg}
    {product : State → Word} {s : State} {v : Word} (hc : condPassed c s = true) (hform : firstRefusal form = none)
    (hfree : s.NotBlocked touched) (hrd : rd ≠ 15) (hv : product s.started = v) :
    ∃ t carry, multiply c sf rd form touched product s = .next t ∧ WritesResult sf rd ⟨v, carry, s.flagV⟩ s t := by
  subst hv
  obtain ⟨carry, hresult⟩ := setMulFlags_next sf rd (product s.started) s hrd
  exact ⟨_, carry, conditionally_runs hc hform hfree, hresult⟩

theorem mul_add_eq_ofNat (a b n : Word) : a * b + n = BitVec.ofNat 32 (a.toNat * b.toNat + n.toNat) := by
  rw [BitVec.ofNat_add, ← mul_eq_ofNat, BitVec.ofNat_toNat, BitVec.setWidth_eq]

/-- Settles O16: no refusal of the form applies, and the word product is the exact one cut to 32 bits. -/
theorem multiplyResults : Obligations.MultiplyResults := by
  unfold Obligations.MultiplyResults
  intro c sf rd rn rs rm s hc hrd hrm hrs hne
  dsimp only [exec, execMul, execMla]
  have hdistinct : (rd == rm) = false := beq_eq_false_iff_ne.2 hne
  refine ⟨fun hfree => multiply_writesResult hc ?_ hfree hrd ?_,
    fun hrn hfree => multiply_writesResult hc ?_ hfree hrd ?_⟩
  · have hpc : (rd == 15 || rm == 15 || rs == 15) = false := by simpa using ⟨⟨hrd, hrm⟩, hrs⟩
    rw [firstRefusal_tail _ _ hpc, firstRefusal_tail _ _ hdistinct]
    rfl
  · exact mul_eq_ofNat ..
  · have hpc : (rd == 15 || rm == 15 || rs == 15 || rn == 15) = false := by simpa using ⟨⟨⟨hrd, hrm⟩, hrs⟩, hrn⟩
    rw [firstRefusal_tail _ _ hpc, firstRefusal_tail _ _ hdistinct]
    rfl
  · exact mul_add_eq_ofNat ..

/-! ### The long multiplies (spec/41 R192 to R195) -/

theorem unsignedProduct_eq_ofInt (a b : Word) : unsignedProduct a b = BitVec.ofInt 64 (a.toNat * b.toNat) := by
  rw [unsignedProduct, ← Int.natCast_mul, BitVec.ofInt_natCast]

theorem accumulator_eq_ofInt (rdHi rdLo : Reg) (s : State) : accumulator rdHi rdLo s =
    BitVec.ofInt 64 ((s.readReg rdHi).toNat * 2 ^ 32 + (s.readReg rdLo).toNat : Nat) := by
  rw [BitVec.ofInt_natCast]
  apply BitVec.eq_of_toNat_eq
  have hhi := (s.readReg rdHi).isLt
  have hlo := (s.readReg rdLo).isLt
  rw [accumulator, BitVec.toNat_append, ← Nat.shiftLeft_add_eq_or_of_lt hlo, Nat.shiftLeft_eq, BitVec.toNat_ofNat]
  omega

/-- Settles O17: each product, and its sum with the accumulator, is the exact integer cut to 64 bits. -/
theorem multiplyLongResults : Obligations.MultiplyLongResults := by
  unfold Obligations.MultiplyLongResults
  intro c sf rdHi rdLo rs rm s hc hHi hLo hm hs hHiLo hHiM hLoM hfree
  have runs := fun product p (hp : product s.started = p) =>
    multiplyLong_next c sf rdHi rdLo rs rm s product p hp hc hHi hLo hm hs hHiLo hHiM hLoM hfree
  simp only [List.forall_mem_cons, List.not_mem_nil, false_implies, implies_true, and_true]
  dsimp only [exec, execUmull, execUmlal, execSmull, execSmlal]
  refine ⟨runs _ _ ?umull, runs _ _ ?umlal, runs _ _ ?smull, runs _ _ ?smlal⟩
  case umull => exact unsignedProduct_eq_ofInt ..
  case umlal => rw [BitVec.ofInt_add, ← unsignedProduct_eq_ofInt, ← accumulator_eq_ofInt]; rfl
  case smull => rfl
  case smlal => rw [BitVec.ofInt_add, ← accumulator_eq_ofInt]; rfl

/-! ### The refused forms (spec/41 R190 to R195, spec/49_thumb.md R335) -/

theorem multiplyLong_refuses {c : Cond} {s : State} (sf : Bool) (rdHi rdLo rs rm : Reg) (product : State → BitVec 64)
    (hc : condPassed c s = true) :
    (rdHi = 15 ∨ rdLo = 15 ∨ rm = 15 ∨ rs = 15 →
      multiplyLong c sf rdHi rdLo rs rm product s = .refused .mulPC) ∧
    (rdHi ≠ 15 → rdLo ≠ 15 → rm ≠ 15 → rs ≠ 15 → rdHi = rdLo ∨ rdHi = rm ∨ rdLo = rm →
      multiplyLong c sf rdHi rdLo rs rm product s = .refused .mulLongOverlap) := by
  refine ⟨fun h => ?_, fun hHi hLo hm hs h => ?_⟩ <;> refine conditionally_refuses hc ?_
  · exact firstRefusal_head _ _ (by simpa [or_assoc] using h)
  · have hpc : (rdHi == 15 || rdLo == 15 || rm == 15 || rs == 15) = false := by simpa using ⟨⟨⟨hHi, hLo⟩, hm⟩, hs⟩
    exact (firstRefusal_tail _ _ hpc).trans (firstRefusal_head _ _ (by simpa [or_assoc] using h))

/-- Settles O18: each form is refused by the first of its checks that applies. -/
theorem multiplyFormsRefused : Obligations.MultiplyFormsRefused := by
  unfold Obligations.MultiplyFormsRefused
  intro c sf a b rs rm s hc
  simp only [List.forall_mem_cons, List.not_mem_nil, false_implies, implies_true, and_true]
  dsimp only [exec, execMul, execMla, multiply, execUmull, execUmlal, execSmull, execSmlal, execTMul, unconditionally]
  have long := fun product => multiplyLong_refuses sf a b rs rm product hc
  refine ⟨fun sbz => ⟨fun h => ?mulPc, fun ha hm hs => ?mul⟩, fun h => ?mlaPc, fun ha hb hm hs h => ?mla,
    ⟨long _, long _, long _, long _⟩, fun r => ?thumb⟩
  case mulPc => exact conditionally_refuses hc (firstRefusal_head _ _ (by simpa [or_assoc] using h))
  case mul =>
    have hpc : (a == 15 || rm == 15 || rs == 15) = false := by simpa using ⟨⟨ha, hm⟩, hs⟩
    refine ⟨fun h => conditionally_refuses hc ?_, fun hne hsbz => conditionally_refuses hc ?_⟩
      <;> refine (firstRefusal_tail _ _ hpc).trans ?_
    · exact firstRefusal_head _ _ (beq_iff_eq.2 h)
    · exact (firstRefusal_tail _ _ (beq_eq_false_iff_ne.2 hne)).trans (firstRefusal_head _ _ (bne_iff_ne.2 hsbz))
  case mlaPc => exact conditionally_refuses hc (firstRefusal_head _ _ (by simpa [or_assoc] using h))
  case mla =>
    have hpc : (a == 15 || rm == 15 || rs == 15 || b == 15) = false := by simpa using ⟨⟨⟨ha, hm⟩, hs⟩, hb⟩
    exact conditionally_refuses hc
      ((firstRefusal_tail _ _ hpc).trans (firstRefusal_head _ _ (beq_iff_eq.2 h)))
  case thumb => exact conditionally_refuses rfl (firstRefusal_head _ _ (beq_self_eq_true r))

end Sys2Proof.Machine

/-! SUPPORT. Proofs of the statements about the halfword and signed transfers (spec/42_halfword_transfer.md): an allowed
form runs as the shared load or store of one register, at the address and with the write-back of R200. -/

namespace Sys2Proof.Machine

/-! ### The address and the write-back (spec/42 R200), and the refusal of a store (spec/70 R440) -/

@[simp] theorem halfAddress_started (p u : Bool) (rn : Reg) (off : HalfOffset) (s : State) :
    halfAddress p u rn off s.started = halfAddress p u rn off s := rfl

@[simp] theorem halfWriteback_started (p u w : Bool) (rn : Reg) (off : HalfOffset) (s : State) :
    halfWriteback p u w rn off s.started = halfWriteback p u w rn off s := rfl

/-- The hazard and the report, which `started` sets, have no part in what a store would overwrite. -/
theorem storeRegister_refuses {addr : Word} {sz : Size} (kind : AccessKind) (wb : Option (Reg × Word)) (v : Word)
    {s : State} (h : s.wouldSelfModify addr sz = true) :
    storeRegister addr sz kind wb v s.started = .refused .selfModifyPrefetched :=
  if_pos (((sameAccesses_started s).wouldSelfModify addr sz).trans h)

/-! ### What a load does to the value (spec/42 R202 to R204) -/

theorem zeroHalf_eq (v : Word) : zeroHalf v = (v.extractLsb' 0 16).setWidth 32 := by
  rw [zeroHalf, BitVec.setWidth_eq_extractLsb' (x := v) (by decide)]

theorem signByte_eq (v : Word) : signByte v = (v.extractLsb' 0 8).signExtend 32 := by
  rw [signByte, BitVec.setWidth_eq_extractLsb' (by decide)]

theorem signHalf_eq (v : Word) : signHalf v = (v.extractLsb' 0 16).signExtend 32 := by
  rw [signHalf, BitVec.setWidth_eq_extractLsb' (by decide)]

/-! ### The loads and STRH (spec/42 R201 to R204) -/

/-- A load of this format that is refused nothing and answered by memory or the bus. -/
theorem halfLoad_loadsInto {c : Cond} {p u w : Bool} {rn rd : Reg} {off : HalfOffset} {sz : Size} {s : State} {v : Word}
    (extend : Word → Word) (hc : condPassed c s = true) (hform : HalfFormOk p w rn rd off)
    (hfree : s.NotBlocked (rn :: rd :: halfOffsetRegs off))
    (hv : s.readAnswer (halfAddress p u rn off s) sz = some v) :
    ∃ t, halfLoad c p u w rn rd off sz extend s = .next t ∧
      LoadsInto rd (extend v) (halfWriteback p u w rn off s)
        { addr := halfAddress p u rn off s, size := sz, write := none, kind := .data, locked := false } s t := by
  have ⟨_, _, hrd, _⟩ := hform
  rw [halfLoad, conditionally_runs hc (halfRefusals_none p w rn rd off hform) hfree, halfAddress_started,
    halfWriteback_started]
  exact loadRegister_answered _ sz .data _ rd extend s v hrd (halfWriteback_names p u w rn rd off s hform) hv

/-- STRH that is refused neither its form nor a register is the shared store of Rd, which is not R15. -/
theorem execStrh_runs {c : Cond} {p u w : Bool} {rn rd : Reg} {off : HalfOffset} {s : State}
    (hc : condPassed c s = true) (hform : HalfFormOk p w rn rd off)
    (hfree : s.NotBlocked (rn :: rd :: halfOffsetRegs off)) :
    execStrh c p u w rn rd off s = storeRegister (halfAddress p u rn off s) .half .data (halfWriteback p u w rn off s)
      (s.getPhys (physReg s.mode rd)) s.started := by
  have ⟨_, _, hrd, _⟩ := hform
  rw [execStrh, conditionally_runs hc (halfRefusals_none p w rn rd off hform) hfree, halfAddress_started,
    halfWriteback_started, State.started_readReg, State.readReg_eq_getPhys s hrd]

/-- Settles O30: an allowed form is the shared load or store of one register, whose completion is known. -/
theorem halfwordTransferResults : Obligations.HalfwordTransferResults := by
  unfold Obligations.HalfwordTransferResults
  refine ⟨fun c p u w rn rd off s hc hform hfree => ?loads, fun c p u w rn rd off s hc hform hfree => ?store⟩
  case loads =>
    simp only [halfLoads, List.forall_mem_cons, List.not_mem_nil, false_implies, implies_true, and_true]
    dsimp only [exec, execLdrh, execLdrsb, execLdrsh]
    simp only [← zeroHalf_eq, ← signByte_eq, ← signHalf_eq]
    exact ⟨fun _ => halfLoad_loadsInto zeroHalf hc hform hfree, fun _ => halfLoad_loadsInto signByte hc hform hfree,
      fun _ => halfLoad_loadsInto signHalf hc hform hfree⟩
  case store =>
    dsimp only [exec]
    rw [execStrh_runs hc hform hfree]
    have hbase := fun n x hn => (halfWriteback_names p u w rn rd off s hform n x hn).1
    exact ⟨storeRegister_refuses .data _ _, storeRegister_answered _ .half .data _ _ s hbase⟩

end Sys2Proof.Machine

/-! SUPPORT. Proofs of the statements about the PSR transfers (spec/43_psr_transfer.md): which form is refused and which
runs, what `PsrWrite` does to an SPSR (`psrWrite_cpsr` says it of CPSR), then the statements. -/

namespace Sys2Proof.Machine

/-! ### The accepted forms (spec/43 R210 to R212) -/

theorem lacksSpsr_eq_true {s : State} (h : s.getSpsr s.mode = none) : s.lacksSpsr = true := by
  rw [State.lacksSpsr, h, Option.isNone_none]

theorem lacksSpsr_eq_false {s : State} {v : Word} (h : s.getSpsr s.mode = some v) : s.lacksSpsr = false := by
  rw [State.lacksSpsr, h, Option.isNone_some]

/-- An accepted MRS writes the status word it names to Rd. -/
theorem execMrs_writesOnly {c : Cond} {r : Bool} {rd : Reg} {s : State} {v : Word} (hc : condPassed c s = true)
    (hrd : rd ≠ 15) (hfree : s.NotBlocked [rd]) (hspsr : (r && s.lacksSpsr) = false)
    (hv : (if r then (s.getSpsr s.mode).getD s.cpsr else s.cpsr) = v) :
    ∃ t, execMrs c r 15 rd 0 0 0 s = .next t ∧ WritesOnly rd v s t := by
  subst hv
  refine ⟨_, conditionally_runs hc ?_ hfree, writesOnly_next rd _ s hrd⟩
  exact (firstRefusal_tail _ _ rfl).trans
    ((firstRefusal_tail _ _ (beq_eq_false_iff_ne.2 hrd)).trans (firstRefusal_tail _ _ hspsr))

theorem execMsrReg_runs {c : Cond} {r : Bool} {rm : Reg} {s : State} (mask : BitVec 4) (hc : condPassed c s = true)
    (hspsr : (r && s.lacksSpsr) = false) (hrm : rm ≠ 15) (hfree : s.NotBlocked [rm]) :
    execMsrReg c r mask 15 0 0 rm s = psrWrite r mask (s.readReg rm) s.started := by
  rw [← State.started_readReg]
  refine conditionally_runs hc ?_ hfree
  exact (firstRefusal_tail _ _ rfl).trans
    ((firstRefusal_tail _ _ (beq_eq_false_iff_ne.2 hrm)).trans (firstRefusal_tail _ _ hspsr))

theorem execMsrImm_runs {c : Cond} {r : Bool} {s : State} (mask rotate : BitVec 4) (imm8 : BitVec 8)
    (hc : condPassed c s = true) (hspsr : (r && s.lacksSpsr) = false) :
    execMsrImm c r mask 15 rotate imm8 s = psrWrite r mask (rotatedImm rotate imm8) s.started :=
  conditionally_runs hc ((firstRefusal_tail _ _ rfl).trans (firstRefusal_tail _ _ hspsr)) s.NotBlocked_nil

/-- An accepted MSR, in either form, is `PsrWrite` of its operand (spec/43 R211, R212). -/
theorem msr_eq_psrWrite {c : Cond} {r : Bool} {mask : BitVec 4} {s : State} {o : Out} {v : Word}
    (hc : condPassed c s = true) (hspsr : (r && s.lacksSpsr) = false)
    (h : (∃ rm : Reg, rm ≠ 15 ∧ s.NotBlocked [rm] ∧ o = exec (.msrReg c r mask 15 0 0 rm) s ∧ v = s.readReg rm) ∨
      (∃ (rotate : BitVec 4) (imm8 : BitVec 8), o = exec (.msrImm c r mask 15 rotate imm8) s ∧
        v = (operand2 (.imm rotate imm8) s).value)) :
    o = psrWrite r mask v s.started := by
  obtain ⟨rm, hrm, hfree, rfl, rfl⟩ | ⟨rotate, imm8, rfl, rfl⟩ := h
  · exact execMsrReg_runs mask hc hspsr hrm hfree
  · exact execMsrImm_runs mask rotate imm8 hc hspsr

/-! ### `PsrWrite` of an SPSR (spec/43 R213) -/

theorem psrWrite_spsr {s : State} {old : Word} (mask : BitVec 4) (v : Word) (h : s.getSpsr s.mode = some old) :
    psrWrite true mask v s = .next (s.setSpsr s.mode (mergePsr old (fieldMask mask) v)).advance := by
  rw [psrWrite, if_pos rfl, h]

/-- The SPSR of a mode that has one, read back after its write. -/
theorem getSpsr_setSpsr_same {s : State} {m : Mode} {old : Word} (v : Word) (h : s.getSpsr m = some old) :
    (s.setSpsr m v).getSpsr m = some v := by
  rw [State.getSpsr_setSpsr, if_pos rfl, h, Option.map_some]

theorem otherSpsrs_setSpsr (s : State) (m : Mode) (v : Word) : OtherSpsrs m s (s.setSpsr m v) := fun m' h => by
  rw [State.getSpsr_setSpsr, if_neg (Ne.symm h)]

/-! ### The statements -/

/-- Settles O22: MRS is not refused, and its effect is one register write. -/
theorem mrsReadsStatus : Obligations.MrsReadsStatus := by
  unfold Obligations.MrsReadsStatus
  intro c rd s hc hrd hfree
  dsimp only [exec]
  refine ⟨execMrs_writesOnly hc hrd hfree rfl rfl, fun v hv => execMrs_writesOnly hc hrd hfree ?_ ?_⟩
  · exact lacksSpsr_eq_false hv
  · rw [if_pos rfl, hv, Option.getD_some]

/-- Settles O23: both forms are `PsrWrite` of CPSR, whose outcomes `psrWrite_cpsr` gives. -/
theorem msrWritesCpsr : Obligations.MsrWritesCpsr := by
  unfold Obligations.MsrWritesCpsr
  intro c mask s hc _ o v h
  exact psrWrite_cpsr mask v s o (msr_eq_psrWrite hc rfl h)

/-- Settles O24: both forms are `PsrWrite` of the SPSR, the old word with the masked bits of the operand. -/
theorem msrWritesSpsr : Obligations.MsrWritesSpsr := by
  unfold Obligations.MsrWritesSpsr
  intro c mask s old hc hold o v h
  have hold' : s.started.getSpsr s.started.mode = some old := hold
  refine ⟨_, mergePsr old (fieldMask mask) v,
    (msr_eq_psrWrite (r := true) hc (lacksSpsr_eq_false hold) h).trans (psrWrite_spsr mask v hold'),
    getSpsr_setSpsr_same _ hold', fun i hi => ?bits, otherSpsrs_setSpsr s.started s.mode _, ?cpsr,
    fun p hp _ => ?regs, fun a => ?mem, ⟨?lines, ?plain⟩, ?dispatcher, ?stop, ?goesOn⟩
  case bits => rw [mergePsr_bit _ _ _ _ hi, fieldMask_bit _ _ hi]
  case regs => simp [hp]
  case goesOn => simp [GoesOn]
  case cpsr | mem | lines | plain | dispatcher | stop => simp

/-- Settles O25: each form is refused by the first of its checks that applies. -/
theorem psrTransferFormsRefused : Obligations.PsrTransferFormsRefused := by
  unfold Obligations.PsrTransferFormsRefused
  intro c r mask sbo hi x mid n imm8 s hc
  dsimp only [exec, execMrs, execMsrReg, execMsrImm]
  have noSpsr : s.getSpsr s.mode = none → firstRefusal [(true && s.lacksSpsr, .noSpsr)] = some .noSpsr :=
    fun h => firstRefusal_head _ _ (lacksSpsr_eq_true h)
  refine ⟨fun h => ?mrsSbz, ?mrsPc, fun hn h => ?mrsSpsr, fun h => ?msrSbz, ?msrPc, fun hn h => ?msrSpsr,
    fun h => ?immSbz, fun h => ?immSpsr⟩ <;> refine conditionally_refuses hc ?_
  case mrsSbz | msrSbz => exact firstRefusal_head _ _ (by simpa [or_assoc] using h)
  case mrsPc | msrPc => exact (firstRefusal_tail _ _ rfl).trans (firstRefusal_head _ _ rfl)
  case mrsSpsr | msrSpsr =>
    exact (firstRefusal_tail _ _ rfl).trans
      ((firstRefusal_tail _ _ (beq_eq_false_iff_ne.2 hn)).trans (noSpsr h))
  case immSbz => exact firstRefusal_head _ _ (bne_iff_ne.2 h)
  case immSpsr => exact (firstRefusal_tail _ _ rfl).trans (noSpsr h)

end Sys2Proof.Machine

/-! SUPPORT. Proofs of the statements about data processing (spec/44_data_processing.md): each instruction is one of the
three shared sequences of R220 with its table's result, what a sequence does when its form is accepted and when it is
not, then the statements. -/

namespace Sys2Proof.Machine

/-! ### The sixteen instructions as the shared sequences (spec/44 R220 to R236) -/

theorem logical_eq_logicResult : logical = logicResult := rfl

theorem exec_twoOperand {e} (he : e ∈ twoOperandOps) (c : Cond) (sf : Bool) (rn rd : Reg) (op2 : Operand2) (s : State) :
    exec (e.1 c sf rn rd op2) s = aluTwo c sf rn rd op2 e.2 s := by
  revert e
  simp only [twoOperandOps, List.forall_mem_cons, List.not_mem_nil, false_implies, implies_true, and_true,
    ← logical_eq_logicResult, ← addWithCarry_eq_sumResult, ← subWithCarry_eq_differenceResult]
  exact ⟨rfl, rfl, rfl, rfl, rfl, rfl, rfl, rfl, rfl, rfl⟩

theorem exec_oneOperand {e} (he : e ∈ oneOperandOps) (c : Cond) (sf : Bool) (sbz : BitVec 4) (rd : Reg) (op2 : Operand2)
    (s : State) : exec (e.1 c sf sbz rd op2) s = aluOne c sf sbz rd op2 e.2 s := by
  revert e
  simp only [oneOperandOps, List.forall_mem_cons, List.not_mem_nil, false_implies, implies_true, and_true]
  exact ⟨rfl, rfl⟩

theorem exec_compare {e} (he : e ∈ compareOps) (c : Cond) (rn : Reg) (sbz : BitVec 4) (op2 : Operand2) (s : State) :
    exec (e.1 c rn sbz op2) s = aluCompare c rn sbz op2 e.2 s := by
  revert e
  simp only [compareOps, List.forall_mem_cons, List.not_mem_nil, false_implies, implies_true, and_true,
    ← addWithCarry_eq_sumResult, ← subWithCarry_eq_differenceResult]
  exact ⟨rfl, rfl, rfl, rfl⟩

/-! A result reads nothing of the state but its flags, so the hazard and the report have no part in it. -/

theorem twoOperand_started {e} (he : e ∈ twoOperandOps) (a : Word) (b : Shifted) (s : State) :
    e.2 a b s.started = e.2 a b s := by
  revert e
  simp [twoOperandOps, logicResult]

theorem oneOperand_started {e} (he : e ∈ oneOperandOps) (b : Shifted) (s : State) : e.2 b s.started = e.2 b s := by
  revert e
  simp [oneOperandOps, logicResult]

theorem compare_started {e} (he : e ∈ compareOps) (a : Word) (b : Shifted) (s : State) :
    e.2 a b s.started = e.2 a b s := by
  revert e
  simp [compareOps, logicResult]

/-! ### An accepted form (spec/44 R220, R238) -/

theorem firstRefusal_append {form : List (Bool × Refusal)} (rest : List (Bool × Refusal))
    (h : firstRefusal form = none) : firstRefusal (form ++ rest) = firstRefusal rest := by
  induction form with
  | nil => rfl
  | cons e form ih =>
    obtain ⟨b, r⟩ := e
    cases b with
    | true => cases h
    | false => exact ih h

/-- An accepted form that reads Rn ends in the write of its result. -/
theorem exec_twoOperand_runs {e} (he : e ∈ twoOperandOps) {c : Cond} (sf : Bool) {rn rd : Reg} {op2 : Operand2}
    {s : State} (hc : condPassed c s = true) (hform : firstRefusal (operand2Refusals op2 rd) = none)
    (hfree : s.NotBlocked (rn :: rd :: operand2Regs op2)) : exec (e.1 c sf rn rd op2) s =
      writeAlu sf rd (e.2 (s.readRegAs (operand2Pc op2 s) rn) (operand2 op2 s) s) s.started := by
  rw [exec_twoOperand he, ← twoOperand_started he]
  exact conditionally_runs hc hform hfree

/-- So does an accepted MOV or MVN. -/
theorem exec_oneOperand_runs {e} (he : e ∈ oneOperandOps) {c : Cond} (sf : Bool) {rd : Reg} {op2 : Operand2}
    {s : State} (hc : condPassed c s = true) (hform : firstRefusal (operand2Refusals op2 rd) = none)
    (hfree : s.NotBlocked (rd :: operand2Regs op2)) :
    exec (e.1 c sf 0 rd op2) s = writeAlu sf rd (e.2 (operand2 op2 s) s) s.started := by
  rw [exec_oneOperand he, ← oneOperand_started he]
  exact conditionally_runs hc (firstRefusal_append _ hform) hfree

/-- An accepted comparison writes the flags of its result. -/
theorem exec_compare_runs {e} (he : e ∈ compareOps) {c : Cond} {rn : Reg} {op2 : Operand2} {s : State}
    (hc : condPassed c s = true) (hform : firstRefusal (operand2Refusals op2 0) = none)
    (hfree : s.NotBlocked (rn :: operand2Regs op2)) : exec (e.1 c rn 0 op2) s =
      .next (s.started.setNZCV (e.2 (s.readRegAs (operand2Pc op2 s) rn) (operand2 op2 s) s)).advance := by
  rw [exec_compare he, ← compare_started he]
  exact conditionally_runs hc (firstRefusal_append _ hform) hfree

/-- A result to R15: without S the branch, with S the exception return. -/
theorem writeAlu_pc (r : AluResult) (s : State) : BranchesTo r.value [] s (writeAlu false 15 r s.started) ∧
    ReturnsTo r.value [] s (writeAlu true 15 r s.started) :=
  ⟨branchTo_branchesTo r.value s s.started [] rfl rfl (keepsAllBut_started s),
    exceptionReturn_returnsTo r.value s s.started [] rfl rfl rfl (keepsAllBut_started s)⟩

/-! ### A refused form (spec/44 R220, R237, spec/40 R155) -/

theorem shiftByPC_refuses {c : Cond} {s : State} (hc : condPassed c s = true) {rs : Reg} (rd rm : Reg) (ty : ShiftType)
    (rest : List (Bool × Refusal)) (touched : List Reg) (effect : State → Out) (hrs : rs = 15) :
    conditionally c (operand2Refusals (.shiftReg rs ty rm) rd ++ rest) touched effect s = .refused .shiftByPC :=
  conditionally_refuses hc (firstRefusal_head _ _ (beq_iff_eq.2 hrs))

theorem regShiftToPC_refuses {c : Cond} {s : State} (hc : condPassed c s = true) {rs rd : Reg} (rm : Reg)
    (ty : ShiftType) (rest : List (Bool × Refusal)) (touched : List Reg) (effect : State → Out) (hrs : rs ≠ 15)
    (hrd : rd = 15) :
    conditionally c (operand2Refusals (.shiftReg rs ty rm) rd ++ rest) touched effect s = .refused .regShiftToPC :=
  conditionally_refuses hc
    ((firstRefusal_tail _ _ (beq_eq_false_iff_ne.2 hrs)).trans (firstRefusal_head _ _ (beq_iff_eq.2 hrd)))

/-- A nonzero should-be-zero field is refused once operand 2 is accepted. -/
theorem sbz_refuses {c : Cond} {s : State} (hc : condPassed c s = true) {op2 : Operand2} {rd : Reg} {sbz : BitVec 4}
    (touched : List Reg) (effect : State → Out) (hsbz : sbz ≠ 0)
    (hop2 : ∀ rs ty rm, op2 = .shiftReg rs ty rm → rs ≠ 15 ∧ rd ≠ 15) :
    conditionally c (operand2Refusals op2 rd ++ [(sbz != 0, .sbz)]) touched effect s = .refused .sbz := by
  have haccepted : firstRefusal (operand2Refusals op2 rd) = none := by
    cases op2 with
    | imm | shiftImm => rfl
    | shiftReg rs ty rm =>
      have ⟨_, hrd⟩ := hop2 rs ty rm rfl
      exact operand2Refusals_none _ rd hrd fun rs ty rm h => (hop2 rs ty rm h).1
  refine conditionally_refuses hc ((firstRefusal_append _ haccepted).trans ?_)
  exact firstRefusal_head _ _ (bne_iff_ne.2 hsbz)

/-! ### The statements -/

/-- Settles O19: the form is accepted, and writes its result to Rd, or its flags alone. -/
theorem dataProcessingResults : Obligations.DataProcessingResults := by
  unfold Obligations.DataProcessingResults
  refine ⟨fun c sf rn rd op2 s hc hrd hrs => ?writes, fun c rn op2 s hc hrs hfree e he => ?compares⟩
  case writes =>
    have hform := operand2Refusals_none op2 rd hrd hrs
    refine ⟨fun hfree e he => ?two, fun hfree e he => ?one⟩
    case two => exact exec_twoOperand_runs he sf hc hform hfree ▸ writeAlu_next hrd
    case one => exact exec_oneOperand_runs he sf hc hform hfree ▸ writeAlu_next hrd
  case compares =>
    have hform := operand2Refusals_none op2 0 (by decide) hrs
    exact ⟨_, exec_compare_runs he hc hform hfree, setNZCV_next _ s⟩

/-- Settles O20: an operand 2 of these forms is accepted with Rd = R15, where the write of the result is the branch or
the return. -/
theorem dataProcessingIntoPc : Obligations.DataProcessingIntoPc := by
  unfold Obligations.DataProcessingIntoPc
  intro c rn op2 s hc hop2
  have hform : firstRefusal (operand2Refusals op2 15) = none := by rw [operand2Refusals_pc op2 15 hop2]; rfl
  refine ⟨fun hfree e he => ?two, fun hfree e he => ?one⟩
  case two =>
    have hfree15 : s.NotBlocked (rn :: 15 :: operand2Regs op2) := hfree.sub (by simp only [List.mem_cons]; tauto)
    simp only [exec_twoOperand_runs he _ hc hform hfree15]
    exact writeAlu_pc _ s
  case one =>
    have hfree15 : s.NotBlocked (15 :: operand2Regs op2) := hfree.sub (by simp only [List.mem_cons]; tauto)
    simp only [exec_oneOperand_runs he _ hc hform hfree15]
    exact writeAlu_pc _ s

/-- Settles O21: each sequence checks operand 2 first, its should-be-zero field after it. -/
theorem dataProcessingFormsRefused : Obligations.DataProcessingFormsRefused := by
  unfold Obligations.DataProcessingFormsRefused
  intro c sf rn rd rs rm ty sbz op2 s hc
  refine ⟨fun e he => ?two, fun e he => ?one, fun e he => ?compare⟩
  case two =>
    rw [exec_twoOperand he]
    exact ⟨shiftByPC_refuses hc rd rm ty [] _ _, regShiftToPC_refuses hc rm ty [] _ _⟩
  case one =>
    simp only [exec_oneOperand he]
    exact ⟨shiftByPC_refuses hc rd rm ty _ _ _, regShiftToPC_refuses hc rm ty _ _ _, sbz_refuses hc _ _⟩
  case compare =>
    simp only [exec_compare he]
    exact ⟨shiftByPC_refuses hc sbz rm ty _ _ _, regShiftToPC_refuses hc rm ty _ _ _, sbz_refuses hc _ _⟩

end Sys2Proof.Machine

/-! SUPPORT. Proofs of the statements about the single data transfers (spec/45_single_transfer.md), and of the aborts
and the refused forms of the halfword transfers (spec/42_halfword_transfer.md): each instruction is the shared load or
store of its row, an allowed form runs as one access, then the statements. -/

namespace Sys2Proof.Machine

/-! ### Each instruction is the shared load or store of its row (spec/45 R251 to R258, spec/42 R202 to R204) -/

theorem zeroByte_eq (v : Word) : zeroByte v = (v.extractLsb' 0 8).setWidth 32 := by
  rw [zeroByte, BitVec.setWidth_eq_extractLsb' (x := v) (by decide)]

theorem exec_singleLoad {e} (he : e ∈ singleLoads) (c : Cond) (u w : Bool) (rn rd : Reg) (off : TransferOffset)
    (s : State) : exec (e.1 c u w rn rd off) s =
      singleLoad c e.2.1 u (!e.2.1 || w) rn rd off e.2.2.1 e.2.2.2.1 e.2.2.2.2 s := by
  revert e
  simp only [singleLoads, List.forall_mem_cons, List.not_mem_nil, false_implies, implies_true, and_true, ← zeroByte_eq]
  exact ⟨rfl, rfl, rfl, rfl, rfl, rfl⟩

theorem exec_singleStore {e} (he : e ∈ singleStores) (c : Cond) (u w : Bool) (rn rd : Reg) (off : TransferOffset)
    (s : State) : exec (e.1 c u w rn rd off) s =
      singleStore c e.2.1 u (!e.2.1 || w) rn rd off e.2.2.1 e.2.2.2 s := by
  revert e
  simp only [singleStores, List.forall_mem_cons, List.not_mem_nil, false_implies, implies_true, and_true]
  exact ⟨rfl, rfl, rfl, rfl, rfl, rfl⟩

theorem exec_halfLoad {e} (he : e ∈ halfLoads) (c : Cond) (p u w : Bool) (rn rd : Reg) (off : HalfOffset) (s : State) :
    exec (e.1 c p u w rn rd off) s = halfLoad c p u w rn rd off e.2.1 e.2.2 s := by
  revert e
  simp only [halfLoads, List.forall_mem_cons, List.not_mem_nil, false_implies, implies_true, and_true, ← zeroHalf_eq,
    ← signByte_eq, ← signHalf_eq]
  exact ⟨rfl, rfl, rfl⟩

/-- A word load does nothing to the value. -/
theorem singleLoads_word_extend {e} (he : e ∈ singleLoads) (hword : e.2.2.1 = .word) : e.2.2.2.2 = id := by
  revert e
  simp [singleLoads]

/-! ### An allowed form is one access of a register (spec/45 R250, spec/42 R200) -/

section AllowedForm

variable {c : Cond} {p u wb : Bool} {rn rd : Reg} {off : TransferOffset} {sz : Size} {s : State}

theorem singleLoad_runs {kind : AccessKind} {ext : Word → Word} (hc : condPassed c s = true)
    (hform : TransferFormOk wb (sz == .byte) rn rd off) (hfree : s.NotBlocked (rn :: rd :: transferOffsetRegs off)) :
    singleLoad c p u wb rn rd off sz kind ext s =
      loadRegister (transferAddress p u rn off s) sz kind (transferWriteback wb u rn off s) rd ext s.started :=
  conditionally_runs hc (transferRefusals_none _ _ _ _ _ hform) hfree

theorem singleStore_runs {kind : AccessKind} (hc : condPassed c s = true)
    (hform : TransferFormOk wb (sz == .byte) rn rd off) (hfree : s.NotBlocked (rn :: rd :: transferOffsetRegs off)) :
    singleStore c p u wb rn rd off sz kind s = storeRegister (transferAddress p u rn off s) sz kind
      (transferWriteback wb u rn off s) (s.storeValue rd) s.started :=
  conditionally_runs hc (transferRefusals_none _ _ _ _ _ hform) hfree

/-- The base an allowed form writes back is neither R15 nor Rd. -/
theorem transferWriteback_names {byte : Bool} (u : Bool) (s : State) (hform : TransferFormOk wb byte rn rd off)
    (n : Reg) (x : Word) (h : transferWriteback wb u rn off s = some (n, x)) : n ≠ 15 ∧ n ≠ rd := by
  obtain ⟨_, hbase, _⟩ := hform
  exact writebackIf_names hbase n x h

theorem transferWriteback_ne_pc {byte : Bool} (u : Bool) (s : State) (hform : TransferFormOk wb byte rn rd off)
    (n : Reg) (x : Word) (h : transferWriteback wb u rn off s = some (n, x)) : n ≠ 15 :=
  (transferWriteback_names u s hform n x h).1

theorem transferWriteback_changes (wb u : Bool) (rn : Reg) (off : TransferOffset) (s : State) :
    ((transferWriteback wb u rn off s).map fun b => physReg s.mode b.1).toList =
      if wb then [physReg s.mode rn] else [] := by
  cases wb <;> rfl

theorem halfLoad_runs {w : Bool} {off : HalfOffset} {ext : Word → Word} (hc : condPassed c s = true)
    (hform : HalfFormOk p w rn rd off) (hfree : s.NotBlocked (rn :: rd :: halfOffsetRegs off)) :
    halfLoad c p u w rn rd off sz ext s =
      loadRegister (halfAddress p u rn off s) sz .data (halfWriteback p u w rn off s) rd ext s.started :=
  conditionally_runs hc (halfRefusals_none _ _ _ _ _ hform) hfree

end AllowedForm

/-! ### A refused form (spec/45 R250, R259, spec/42 R200) -/

theorem firstRefusal_cons (b : Bool) (r : Refusal) (rest : List (Bool × Refusal)) :
    firstRefusal ((b, r) :: rest) = if b then some r else firstRefusal rest := by
  cases b <;> rfl

theorem transferOffsetIs_eq (off : TransferOffset) (n : Reg) :
    transferOffsetIs off n = decide (n ∈ transferOffsetRegs off) := by
  rw [transferOffsetIs, List.any_beq', List.contains_eq_mem]

/-- Every single transfer runs after the checks of its format. -/
theorem exec_singleTransfer {e}
    (he : e ∈ (singleLoads.map fun e => (e.1, e.2.1, e.2.2.1)) ++ (singleStores.map fun e => (e.1, e.2.1, e.2.2.1)))
    (c : Cond) (u w : Bool) (rn rd : Reg) (off : TransferOffset) (s : State) :
    ∃ effect, exec (e.1 c u w rn rd off) s = conditionally c
      (transferRefusals (!e.2.1 || w) (e.2.2 == .byte) rn rd off) (rn :: rd :: transferOffsetRegs off) effect s := by
  rcases List.mem_append.1 he with hload | hstore
  · obtain ⟨row, hrow, rfl⟩ := List.mem_map.1 hload
    exact ⟨_, exec_singleLoad hrow c u w rn rd off s⟩
  · obtain ⟨row, hrow, rfl⟩ := List.mem_map.1 hstore
    exact ⟨_, exec_singleStore hrow c u w rn rd off s⟩

/-- So does every halfword transfer. -/
theorem exec_halfTransfer {mk} (hmk : mk ∈ [Instr.strh, .ldrh, .ldrsb, .ldrsh]) (c : Cond) (p u w : Bool) (rn rd : Reg)
    (off : HalfOffset) (s : State) : ∃ effect, exec (mk c p u w rn rd off) s =
      conditionally c (halfRefusals p w rn rd off) (rn :: rd :: halfOffsetRegs off) effect s := by
  revert mk
  simp only [List.forall_mem_cons, List.not_mem_nil, false_implies, implies_true, and_true]
  exact ⟨⟨_, rfl⟩, ⟨_, rfl⟩, ⟨_, rfl⟩, ⟨_, rfl⟩⟩

/-- The checks of R250, in order. -/
theorem firstRefusal_transferRefusals (wb byte : Bool) (rn rd : Reg) (off : TransferOffset) :
    firstRefusal (transferRefusals wb byte rn rd off) =
      if 15 ∈ transferOffsetRegs off then some .offsetRmPC
      else if wb = true ∧ rn = 15 then some .writebackPC
      else if wb = true ∧ rn = rd then some .writebackRnEqRd
      else if wb = true ∧ rn ∈ transferOffsetRegs off then some .writebackRmEqRn
      else if byte = true ∧ rd = 15 then some .bytePC
      else none := by
  simp [transferRefusals, firstRefusal_cons, transferOffsetIs_eq, firstRefusal]

theorem halfOffsetRefusals_none {off : HalfOffset} (h : ∀ sbz rm, off = .reg sbz rm → sbz = 0 ∧ rm ≠ 15) :
    firstRefusal (halfOffsetRefusals off) = none := by
  cases off with
  | imm => rfl
  | reg sbz rm =>
    obtain ⟨rfl, hrm⟩ := h sbz rm rfl
    exact (firstRefusal_tail _ _ rfl).trans (firstRefusal_tail _ _ (beq_eq_false_iff_ne.2 hrm))

/-- The checks of R200 after those of the offset, in order. -/
theorem firstRefusal_halfRefusals (p w : Bool) (rn rd : Reg) {off : HalfOffset}
    (hoff : ∀ sbz rm, off = .reg sbz rm → sbz = 0 ∧ rm ≠ 15) :
    firstRefusal (halfRefusals p w rn rd off) =
      if ¬ (p = true ∨ w = false) then some .halfwordPostW
      else if (p = false ∨ w = true) ∧ rn = 15 then some .writebackPC
      else if rd = 15 then some .halfwordRdPC
      else if (p = false ∨ w = true) ∧ rn = rd then some .writebackRnEqRd
      else none := by
  rw [halfRefusals, firstRefusal_append _ (halfOffsetRefusals_none hoff)]
  simp [firstRefusal_cons, firstRefusal]

/-! ### Addresses and register lists (spec/45 R250, spec/42 R200, spec/46 R270, spec/30 R121, spec/49 R363, R364) -/

theorem State.readReg_arm {s : State} (h : s.thumb = false) (n : Reg) :
    s.readReg n = if n = 15 then s.pc + 8 else s.getPhys (physReg s.mode n) := by
  rw [State.readReg, State.pcRead, h]
  rfl

theorem regList_ascending (list : BitVec 16) : (regList list).Pairwise fun a b => a.toNat < b.toNat :=
  List.Pairwise.filter _ (by decide)

theorem mem_lowList (rlist : BitVec 8) (k : Reg) : k ∈ lowList rlist ↔ rlist.getLsbD k.toNat = true := by
  rw [lowList, mem_regList, BitVec.getLsbD_setWidth, decide_eq_true k.isLt, Bool.true_and]

/-- A list of R0 to R7, and one higher register when the R bit is set: PUSH's R14, POP's R15. -/
theorem mem_lowList_append_if (rlist : BitVec 8) (r : Bool) (top k : Reg) :
    k ∈ lowList rlist ++ (if r then [top] else []) ↔ rlist.getLsbD k.toNat = true ∨ (r = true ∧ k = top) := by
  rw [List.mem_append, mem_lowList]
  cases r <;> simp

theorem lowList_append_if_ascending (rlist : BitVec 8) (r : Bool) {top : Reg} (h : 8 ≤ top.toNat) :
    (lowList rlist ++ if r then [top] else []).Pairwise fun a b => a.toNat < b.toNat := by
  refine List.pairwise_append.2 ⟨regList_ascending _, ?_, fun a ha b hb => ?_⟩
  · cases r
    · exact .nil
    · exact List.pairwise_singleton ..
  · have hlow := lowList_low rlist a ha
    have htop : b = top := by cases r <;> simp_all
    subst htop
    omega

/-! ### The statements -/

/-- Settles O26: an allowed form is the shared load of one register, answered. -/
theorem singleLoadResults : Obligations.SingleLoadResults := by
  unfold Obligations.SingleLoadResults
  intro c u w rn rd off s hc hrd hfree e he wb hform addr v hv
  rw [exec_singleLoad he, singleLoad_runs hc hform hfree]
  exact loadRegister_answered addr _ _ _ rd _ s v hrd (transferWriteback_names u s hform) hv

/-- Settles O27: the shared load of R15, which branches after its write-back. -/
theorem loadIntoPcBranches : Obligations.LoadIntoPcBranches := by
  unfold Obligations.LoadIntoPcBranches
  intro c u w rn off s hc hfree e he hword wb hform v hv
  have hfree15 : s.NotBlocked (rn :: 15 :: transferOffsetRegs off) := hfree.sub (by simp only [List.mem_cons]; tauto)
  have hnames := transferWriteback_ne_pc u s hform
  rw [exec_singleLoad he, singleLoad_runs hc (by rw [hword]; exact hform) hfree15, singleLoads_word_extend he hword,
    hword, ← transferWriteback_changes wb u rn off s]
  obtain ⟨hbranch, hbase⟩ := loadRegister_pc _ .word e.2.2.2.1 _ id s v hnames hv
  exact ⟨hbranch, fun t ht hwb => hbase t rn _ ht (if_pos hwb)⟩

/-- Settles O28: an allowed form is the shared store of one register, refused in a prefetched slot or answered. -/
theorem singleStoreResults : Obligations.SingleStoreResults := by
  unfold Obligations.SingleStoreResults
  intro c u w rn rd off s hc hfree e he wb hform
  rw [exec_singleStore he, singleStore_runs hc hform hfree]
  exact ⟨storeRegister_refuses _ _ _, storeRegister_answered _ _ _ _ _ s (transferWriteback_ne_pc u s hform)⟩

/-- Settles O31: the shared load and store abort in one way, whatever the format. -/
theorem transferAbortUpdatesBase : Obligations.TransferAbortUpdatesBase := by
  unfold Obligations.TransferAbortUpdatesBase
  intro c p u w rn rd off hoff s hc
  refine ⟨fun hfree => ⟨fun e he hform => ?load, fun e he hform => ?store⟩,
    fun hfree hform => ?half⟩
  case load =>
    rw [exec_singleLoad he, singleLoad_runs hc hform hfree]
    exact loadRegister_aborted _ _ _ _ rd _ s (transferWriteback_ne_pc u s hform)
  case store =>
    rw [exec_singleStore he, singleStore_runs hc hform hfree]
    exact storeRegister_aborted _ _ _ _ _ s (transferWriteback_ne_pc u s hform)
  case half =>
    have hbase := fun n x hn => (halfWriteback_names p u w rn rd hoff s hform n x hn).1
    have ⟨_, _, hrd, _⟩ := hform
    refine ⟨fun e he => ?load, ?store⟩
    case load =>
      rw [exec_halfLoad he, halfLoad_runs hc hform hfree]
      exact loadRegister_aborted _ _ _ _ rd _ s hbase
    case store =>
      dsimp only [exec]
      rw [execStrh_runs hc hform hfree, State.readReg_eq_getPhys s hrd]
      exact storeRegister_aborted _ _ _ _ _ s hbase

/-- Settles O60: the address functions on what the registers read in ARM state; each list is R0 to R15 filtered. -/
theorem transferAddressesAndRegisterLists : Obligations.TransferAddressesAndRegisterLists := by
  unfold Obligations.TransferAddressesAndRegisterLists
  refine ⟨fun s p u rn harm => ?addresses, fun list k => ⟨mem_regList list k, regList_ascending list⟩,
    fun rlist r k => ⟨mem_lowList rlist k, regList_ascending _, mem_lowList_append_if rlist r 14 k,
      lowList_append_if_ascending rlist r (by decide), mem_lowList_append_if rlist r 15 k,
      lowList_append_if_ascending rlist r (by decide)⟩⟩
  case addresses =>
    rw [← State.readReg_arm harm rn]
    refine ⟨fun imm12 => rfl, fun amount ty rm hrm => ?shifted, fun off => rfl, fun imm8 => rfl,
      fun rm hrm => ?register, fun off => rfl, fun regs => rfl⟩
    case shifted | register =>
      rw [← State.readReg_eq_getPhys s hrm]
      rfl

/-- Settles O29: each form is refused by the first of its checks that applies. -/
theorem transferFormsRefused : Obligations.TransferFormsRefused := by
  unfold Obligations.TransferFormsRefused
  refine ⟨fun c u w rn rd off s hc e he => ?single, fun c p u w rn rd off s hc mk hmk => ?half⟩
  case single =>
    obtain ⟨effect, hexec⟩ := exec_singleTransfer he c u w rn rd off s
    rw [hexec]
    refine ⟨fun h15 => ?offset, fun h15 hwb => ⟨fun hrn => ?pc, fun hrn hrd => ?rd, fun hrn hrd hrm => ?rm⟩,
      fun h15 hwb hbyte hrd => ?byte⟩ <;> refine conditionally_refuses hc ?_
    all_goals rw [firstRefusal_transferRefusals]
    case offset => rw [if_pos h15]
    case pc => rw [if_neg h15, if_pos ⟨hwb, hrn⟩]
    case rd => rw [if_neg h15, if_neg fun ⟨_, h⟩ => hrn h, if_pos ⟨hwb, hrd⟩]
    case rm => rw [if_neg h15, if_neg fun ⟨_, h⟩ => hrn h, if_neg fun ⟨_, h⟩ => hrd h, if_pos ⟨hwb, hrm⟩]
    case byte =>
      rw [imp_and, imp_and] at hwb
      obtain ⟨hpc, hne, hrm⟩ := hwb
      rw [if_neg h15, if_neg (not_and.2 hpc), if_neg (not_and.2 hne), if_neg (not_and.2 hrm),
        if_pos ⟨beq_iff_eq.2 hbyte, hrd⟩]
  case half =>
    obtain ⟨effect, hexec⟩ := exec_halfTransfer hmk c p u w rn rd off s
    rw [hexec]
    refine ⟨fun sbz rm hoff => ⟨fun hsbz => ?sbz, fun hsbz hrm => ?rm⟩, fun hoff => ⟨fun hp hw => ?post,
      fun hpost hwb hrn => ?pc, fun hpost hwb hrd => ?rd, fun hpost hwb hrn hrd hne => ?same⟩⟩ <;>
      refine conditionally_refuses hc ?_
    case sbz =>
      subst hoff
      exact firstRefusal_head _ _ (bne_iff_ne.2 hsbz)
    case rm =>
      subst hoff hsbz hrm
      rfl
    all_goals rw [firstRefusal_halfRefusals p w rn rd hoff]
    case post => rw [if_pos (by simp [hp, hw])]
    case pc => rw [if_neg (not_not.2 hpost), if_pos ⟨hwb, hrn⟩]
    case rd => rw [if_neg (not_not.2 hpost), if_neg (not_and.2 hwb), if_pos hrd]
    case same =>
      rw [if_neg (not_not.2 hpost), if_neg fun ⟨_, h⟩ => hrn h, if_neg hrd, if_pos ⟨hwb, hne⟩]

end Sys2Proof.Machine

/-! SUPPORT. Proofs of the statements about the block transfers (spec/46_block_transfer.md), with the refused forms of
the THUMB ones (spec/49_thumb.md): which form is refused and which runs, what the shared block load and store do from
there, then the statements. -/

namespace Sys2Proof.Machine

/-! ### The refusals of a form, in order (spec/46 R275) -/

theorem firstRefusal_append_of_some {form : List (Bool × Refusal)} {r : Refusal} (rest : List (Bool × Refusal))
    (h : firstRefusal form = some r) : firstRefusal (form ++ rest) = some r := by
  induction form with
  | nil => cases h
  | cons e form ih =>
    obtain ⟨b, r'⟩ := e
    cases b with
    | true => exact h
    | false => exact ih h

theorem unconditionally_refuses {form : List (Bool × Refusal)} {touched : List Reg} {effect : State → Out} {s : State}
    {r : Refusal} (hf : firstRefusal form = some r) : unconditionally form touched effect s = .refused r :=
  conditionally_refuses rfl hf

theorem firstRefusal_blockRefusals (loads w : Bool) (rn : Reg) (regs : List Reg) :
    firstRefusal (blockRefusals loads w rn regs) =
      if rn = 15 then some .blockBasePC
      else if regs = [] then some .emptyList
      else if loads = true ∧ w = true ∧ rn ∈ regs then some .ldmWritebackBaseInList
      else none := by
  simp [blockRefusals, firstRefusal_cons, firstRefusal, and_assoc]

theorem firstRefusal_userBankRefusals (w : Bool) (s : State) :
    firstRefusal (userBankRefusals w s) =
      if s.getSpsr s.mode = none then some .userBankInUserMode
      else if w = true then some .userBankWriteback
      else none := by
  simp [userBankRefusals, firstRefusal_cons, firstRefusal, State.lacksSpsr]

theorem userBank_refuses {c : Cond} {form : List (Bool × Refusal)} {w : Bool} {touched : List Reg}
    {effect : State → Out} {s : State} (hc : condPassed c s = true) (hform : firstRefusal form = none) :
    (s.getSpsr s.mode = none →
      conditionally c (form ++ userBankRefusals w s) touched effect s = .refused .userBankInUserMode) ∧
    (s.getSpsr s.mode ≠ none → w = true →
      conditionally c (form ++ userBankRefusals w s) touched effect s = .refused .userBankWriteback) := by
  have h := firstRefusal_append (userBankRefusals w s) hform
  rw [firstRefusal_userBankRefusals] at h
  exact ⟨fun hspsr => conditionally_refuses hc (h.trans (if_pos hspsr)),
    fun hspsr hw => conditionally_refuses hc (h.trans ((if_neg hspsr).trans (if_pos hw)))⟩

/-- A store is refused nothing for the base it writes back, so its checks are those of a load without write-back. -/
theorem blockRefusals_store_none {rn : Reg} {list : BitVec 16} (w : Bool) (hrn : rn ≠ 15) (hl : list ≠ 0) :
    firstRefusal (blockRefusals false w rn (regList list)) = none :=
  blockRefusals_none (w := false) hrn hl nofun

theorem lacksSpsr_of_ne_none {s : State} (h : s.getSpsr s.mode ≠ none) : s.lacksSpsr = false := by
  rw [State.lacksSpsr, Option.isNone_eq_false_iff, Option.isSome_iff_ne_none]
  exact h

/-! ### The lists with R15 and without, and those of THUMB (spec/30 R121) -/

theorem one_append_ne_zero (list : BitVec 15) : 1#1 ++ list ≠ (0 : BitVec 16) := by
  intro h
  simpa [BitVec.getLsbD_append] using congrArg (fun l => l.getLsbD 15) h

theorem zero_append_ne_zero {list : BitVec 15} (h : list ≠ 0) : 0#1 ++ list ≠ (0 : BitVec 16) := by
  intro h0
  have hnat := BitVec.toNat_append 0#1 list
  rw [h0] at hnat
  exact h (BitVec.eq_of_toNat_eq (by simpa using hnat.symm))

theorem fifteen_mem_regList_one (list : BitVec 15) : 15 ∈ regList (1#1 ++ list) := by
  simp [mem_regList]

theorem fifteen_not_mem_regList_zero (list : BitVec 15) : 15 ∉ regList (0#1 ++ list) := by
  simp [mem_regList]

theorem mem_lowList_lo (rlist : BitVec 8) (rb : LoReg) : lo rb ∈ lowList rlist ↔ rlist.getLsbD rb.toNat = true := by
  rw [mem_lowList, lo, BitVec.toNat_setWidth_of_le (by decide)]

/-! ### The base's write-back (spec/46 R270) -/

theorem blockWritebackOf_of_writeback {w : Bool} (u : Bool) (rn : Reg) (regs : List Reg) (s : State) (hw : w = true) :
    blockWritebackOf u w rn regs s = some (rn, if u then s.readReg rn + BitVec.ofNat 32 (4 * regs.length)
      else s.readReg rn - BitVec.ofNat 32 (4 * regs.length)) :=
  if_pos hw

theorem blockWritebackOf_base {u w : Bool} {rn : Reg} {regs : List Reg} {s : State} {n : Reg} {x : Word}
    (h : blockWritebackOf u w rn regs s = some (n, x)) : w = true ∧ n = rn := by
  cases w with
  | false => cases h
  | true =>
    cases h
    exact ⟨rfl, rfl⟩

theorem blockWritebackOf_names {u w : Bool} {rn : Reg} {regs : List Reg} {s : State} (hrn : rn ≠ 15)
    (hbase : w = true → rn ∉ regs) (n : Reg) (x : Word) (h : blockWritebackOf u w rn regs s = some (n, x)) :
    n ≠ 15 ∧ n ∉ regs := by
  obtain ⟨hw, rfl⟩ := blockWritebackOf_base h
  exact ⟨hrn, hbase hw⟩

theorem blockWritebackOf_changes (u w : Bool) (rn : Reg) (regs : List Reg) (s : State) :
    ((blockWritebackOf u w rn regs s).map fun b => physReg s.mode b.1).toList =
      if w then [physReg s.mode rn] else [] := by
  cases w <;> rfl

/-! ### An allowed form is one block load or store (spec/46 R271 to R276) -/

section AllowedForm

variable {c : Cond} {p u w : Bool} {rn : Reg} {s : State}

theorem execStm_runs {list : BitVec 16} (hc : condPassed c s = true) (hrn : rn ≠ 15) (hl : list ≠ 0)
    (hfree : s.NotBlocked (rn :: regList list)) :
    execStm c p u w rn list s = storeBlock (blockAddress p u rn (regList list) s)
      (storeBlockValues w rn (regList list) s) (blockWritebackOf u w rn (regList list) s)
      (s.started.drawnIf (storesUnknownBase w rn (regList list))) :=
  conditionally_runs hc (blockRefusals_store_none w hrn hl) hfree

theorem execStmUser_runs {list : BitVec 16} (hc : condPassed c s = true) (hrn : rn ≠ 15) (hl : list ≠ 0)
    (hspsr : s.getSpsr s.mode ≠ none) (hfree : s.NotBlocked (rn :: regList list)) :
    execStmUser c p u false rn list s =
      storeBlock (blockAddress p u rn (regList list) s) (userValues (regList list) s) none s.started := by
  refine conditionally_runs hc ((firstRefusal_append _ (blockRefusals_store_none false hrn hl)).trans ?_) hfree
  rw [firstRefusal_userBankRefusals, if_neg hspsr, if_neg Bool.false_ne_true]

theorem execLdm_runs {list : BitVec 16} (hc : condPassed c s = true) (hrn : rn ≠ 15) (hl : list ≠ 0)
    (hbase : w = true → rn ∉ regList list) (hfree : s.NotBlocked (rn :: regList list)) :
    execLdm c p u w rn list s = loadBlock rn (blockAddress p u rn (regList list) s) (regList list)
      (blockWritebackOf u w rn (regList list) s) branchTo s.started :=
  conditionally_runs hc (blockRefusals_none hrn hl hbase) hfree

theorem execLdmUser_runs {list : BitVec 15} (hc : condPassed c s = true) (hrn : rn ≠ 15) (hl : list ≠ 0)
    (hspsr : s.getSpsr s.mode ≠ none) (hfree : s.NotBlocked (rn :: regList (0#1 ++ list))) :
    execLdmUser c p u false rn list s =
      loadUserBlock rn (blockAddress p u rn (regList (0#1 ++ list)) s) (regList (0#1 ++ list)) s.started := by
  refine conditionally_runs hc
    ((firstRefusal_append _ (blockRefusals_none (w := false) hrn (zero_append_ne_zero hl) nofun)).trans ?_) hfree
  rw [firstRefusal_userBankRefusals, if_neg hspsr, if_neg Bool.false_ne_true]

theorem execLdmReturn_runs {list : BitVec 15} (hc : condPassed c s = true) (hrn : rn ≠ 15)
    (hbase : w = true → rn ∉ regList (1#1 ++ list)) (hspsr : s.getSpsr s.mode ≠ none)
    (hfree : s.NotBlocked (rn :: regList (1#1 ++ list))) :
    execLdmReturn c p u w rn list s = loadBlock rn (blockAddress p u rn (regList (1#1 ++ list)) s)
      (regList (1#1 ++ list)) (blockWritebackOf u w rn (regList (1#1 ++ list)) s) exceptionReturn s.started :=
  conditionally_runs hc ((firstRefusal_append _ (blockRefusals_none hrn (one_append_ne_zero list) hbase)).trans
    (firstRefusal_tail _ _ (lacksSpsr_of_ne_none hspsr))) hfree

theorem execLdmReturn_lacksSpsr {list : BitVec 15} (hc : condPassed c s = true) (hrn : rn ≠ 15)
    (hbase : w = true → rn ∉ regList (1#1 ++ list)) (hspsr : s.getSpsr s.mode = none) :
    execLdmReturn c p u w rn list s = .refused .noSpsr :=
  conditionally_refuses hc ((firstRefusal_append _ (blockRefusals_none hrn (one_append_ne_zero list) hbase)).trans
    (firstRefusal_head _ _ (lacksSpsr_eq_true hspsr)))

end AllowedForm

/-! ### The values a store writes (spec/46 R272) -/

theorem storesUnknownBase_eq (w : Bool) (rn : Reg) (regs : List Reg) :
    storesUnknownBase w rn regs = (w && decide (rn ∈ regs) && decide (regs.head? ≠ some rn)) := by
  rw [storesUnknownBase, List.contains_eq_mem, decide_not, bne, beq_eq_decide]

theorem storeBlockValues_eq {rn : Reg} (w : Bool) (regs : List Reg) (s : State) (hrn : rn ≠ 15) :
    storeBlockValues w rn regs s = regs.map fun r =>
      if r = 15 then s.pc + 12
      else if r = rn ∧ storesUnknownBase w rn regs = true then Config.freeWord s.draws
      else s.getPhys (physReg s.mode r) := by
  refine List.map_congr_left fun r _ => ?_
  simp only [Bool.and_eq_true, beq_iff_eq]
  by_cases hunknown : r = rn ∧ storesUnknownBase w rn regs = true
  · rw [if_pos hunknown, if_neg (hunknown.1 ▸ hrn), if_pos hunknown]
  · rw [if_neg hunknown, if_neg hunknown, State.storeValue, State.readRegAs]

theorem userValues_eq (regs : List Reg) (s : State) :
    userValues regs s = regs.map fun r => if r = 15 then s.pc + 12 else s.getPhys (physReg .usr r) := by
  refine List.map_congr_left fun r _ => ?_
  by_cases h15 : r = 15
  · rw [if_pos h15, if_pos h15]
  · rw [if_neg h15, if_neg h15, State.readUser, if_neg h15]

/-! ### A load of which no read aborts (spec/46 R271, R273, R274) -/

/-- What a load multiple leaves in the registers: in each but R15 the word read for it, in the base its write-back. -/
def HoldsBlock (reads : List (Reg × Option Word)) (wb : Option (Reg × Word)) (s t : State) : Prop :=
  (∀ r v, (r, some v) ∈ reads → r ≠ 15 → t.getPhys (physReg s.mode r) = v) ∧
  (∀ n x, wb = some (n, x) → t.getPhys (physReg s.mode n) = x)

theorem HoldsBlock.results {reads : List (Reg × Option Word)} {u w : Bool} {rn : Reg} {regs : List Reg} {s t : State}
    (h : HoldsBlock reads (blockWritebackOf u w rn regs s) s t) :
    (∀ r v, (r, some v) ∈ reads → r ≠ 15 → t.getPhys (physReg s.mode r) = v) ∧
    (w = true → t.getPhys (physReg s.mode rn) =
      if u then s.readReg rn + BitVec.ofNat 32 (4 * regs.length)
      else s.readReg rn - BitVec.ofNat 32 (4 * regs.length)) := by
  obtain ⟨hregs, hbase⟩ := h
  exact ⟨hregs, fun hw => hbase rn _ (blockWritebackOf_of_writeback u rn regs s hw)⟩

theorem branchTo_sameRegs {x : Word} {s t : State} (h : branchTo x s = .next t) : SameRegsExcept [] s t := by
  rcases branchTo_cases x s with ⟨hb, _⟩ | ⟨hb, _⟩ <;> rw [hb] at h <;> cases h
  exact fun q hq _ => State.getPhys_eq_of_regs hq rfl

theorem exceptionReturn_sameRegs {x : Word} {s t : State} (h : exceptionReturn x s = .next t) :
    SameRegsExcept [] s t := by
  rcases exceptionReturn_cases x s with ⟨_, hr⟩ | ⟨_, _, _, hr⟩ | ⟨v, m, _, _, hr⟩ <;> rw [hr] at h
  · cases h
  · cases h
  · exact fun q hq hn => (branchTo_sameRegs h q hq hn).trans (State.setCpsr_getPhys ..)

theorem mem_of_mem_loadWords {first : Word} {regs : List Reg} {s : State} {r : Reg} {v : Option Word}
    (h : (r, v) ∈ (loadWords first regs s).1) : r ∈ regs := by
  rw [← loadWords_regs first regs s]
  exact List.mem_map_of_mem (f := Prod.fst) h

/-- One word is read for a register of the list. -/
theorem loadWords_unique {first : Word} {regs : List Reg} {s : State} {r : Reg} {v v' : Option Word}
    (hnd : regs.Nodup) (h : (r, v) ∈ (loadWords first regs s).1) (h' : (r, v') ∈ (loadWords first regs s).1) :
    v = v' := by
  rw [← loadWords_regs first regs s] at hnd
  exact congrArg Prod.snd (List.inj_on_of_nodup_map hnd h h' rfl)

/-- A load of a list with R15 ends in what loading R15 does, after the other registers and the base are written. -/
theorem loadBlock_intoPc {rn : Reg} {first target : Word} {regs : List Reg} {wb : Option (Reg × Word)}
    {onPc : Word → State → Out} {s : State} (hkeeps : ∀ {x s1 t}, onPc x s1 = .next t → SameRegsExcept [] s1 t)
    (hnd : regs.Nodup) (hwb : ∀ n x, wb = some (n, x) → n ≠ 15 ∧ n ∉ regs)
    (hall : ∀ e ∈ (loadWords first regs s).1, e.2 ≠ none) (htarget : (15, some target) ∈ (loadWords first regs s).1) :
    ∃ s1 : State, loadBlock rn first regs wb onPc s.started = onPc target s1 ∧
      s1.cpsr = s.cpsr ∧ s1.pc = s.pc ∧ s1.mem = s.mem ∧
      KeepsAllBut ((wb.map fun b => physReg s.mode b.1).toList ++ regs.map (physReg s.mode)) s s1 ∧
      ∀ t, onPc target s1 = .next t → HoldsBlock (loadWords first regs s).1 wb s t := by
  obtain ⟨s1, hregs, hbase, hcpsr, hpc, hmem, hkept, _, hload⟩ := loadBlock_cases rn first regs wb onPc s hnd hwb hall
  obtain ⟨v, hv, heq⟩ := hload (mem_of_mem_loadWords htarget)
  obtain rfl : target = v := Option.some.inj (loadWords_unique hnd htarget hv)
  refine ⟨s1, heq, hcpsr, hpc, hmem, hkept, fun t ht => ⟨fun r v hr hne => ?_, fun n x hn => ?_⟩⟩
  · exact (hkeeps ht _ (physReg_ne_r15 _ hne) List.not_mem_nil).trans (hregs r v hr hne)
  · exact (hkeeps ht _ (physReg_ne_r15 _ (hwb n x hn).1) List.not_mem_nil).trans (hbase n x hn)

/-- When every read is answered, a register of the list has a word. -/
theorem loadWords_answered {first : Word} {regs : List Reg} {s : State} {r : Reg} (hr : r ∈ regs)
    (hall : ∀ e ∈ (loadWords first regs s).1, e.2 ≠ none) : ∃ v, (r, some v) ∈ (loadWords first regs s).1 := by
  rw [← loadWords_regs first regs s] at hr
  obtain ⟨⟨r, v⟩, he, rfl⟩ := List.mem_map.1 hr
  obtain ⟨v, rfl⟩ := Option.ne_none_iff_exists'.1 (hall _ he)
  exact ⟨v, he⟩

/-- A user-bank load of a list without R15 goes on, with the hazard set (R273). -/
theorem loadUserBlock_answered (rn : Reg) {first : Word} {regs : List Reg} {s : State} (hnd : regs.Nodup)
    (h15 : 15 ∉ regs) (hall : ∀ e ∈ (loadWords first regs s).1, e.2 ≠ none) :
    ∃ t : State, loadUserBlock rn first regs s.started = .next t ∧
      (∀ r v, (r, some v) ∈ (loadWords first regs s).1 → t.getPhys (physReg .usr r) = v) ∧
      SameRegsExcept (regs.map (physReg .usr)) s t ∧ t.hazard = true ∧ t.cpsr = s.cpsr ∧ SameSpecial s t ∧
      SameMemory s t ∧ SamePlatform s t ∧ GoesOn s t := by
  obtain ⟨hfst, hvals⟩ := beforeAbort_all _ hall
  rw [loadWords_regs] at hfst
  have hframe := loadWords_frame first regs s.started
  rw [loadUserBlock, loadWords_started, firstAbort_of_none_aborts first hall]
  generalize (loadWords first regs s).1 = reads at *
  generalize (loadWords first regs s.started).2 = s1 at *
  obtain ⟨hregs, hpc, hcpsr, hspsr, hmem, _, hdisp, hstop, hlines, hplain, _⟩ := hframe
  have hloaded : ∀ q, q ≠ .r15 → (((s1.writeUsers (beforeAbort reads)).setHazard true).advance).getPhys q =
      (s1.writeUsers (beforeAbort reads)).getPhys q := fun q hq => State.getPhys_eq_of_regs hq rfl
  refine ⟨_, rfl, fun r v hr => ?value, fun q hq hn => ?other, by simp, by simp [hcpsr],
    by simp [SameSpecial, hspsr, hdisp, hstop], by simp [SameMemory, hmem], by simp [SamePlatform, hlines, hplain],
    by simp [GoesOn, hpc, State.isz_eq hcpsr]⟩
  case value =>
    have hvalue := (hvals r v).2 hr
    have hne : r ≠ 15 := ne_of_mem_of_not_mem (hfst ▸ List.mem_map_of_mem (f := Prod.fst) hvalue) h15
    rw [hloaded _ (physReg_ne_r15 _ hne)]
    exact s1.getPhys_writeUsers_mem _ (hfst ▸ hnd) r v hvalue hne
  case other =>
    rw [hloaded q hq, State.getPhys_writeUsers_other, State.getPhys_eq_of_regs hq hregs, State.started_getPhys]
    rintro e he rfl
    exact hn (List.mem_map_of_mem (hfst ▸ List.mem_map_of_mem (f := Prod.fst) he))

/-! ### A load with an aborted read (spec/46 R277) -/

theorem loadBlock_aborts_base {u w : Bool} {rn : Reg} {first : Word} {regs : List Reg} {s : State} {k : Nat}
    (onPc : Word → State → Out) (hnd : regs.Nodup) (hrn : rn ≠ 15) (hk : AbortsAt k (loadWords first regs s).1) :
    ∃ t : State, loadBlock rn first regs (blockWritebackOf u w rn regs s) onPc s.started = .next t ∧
      AbortsLoading (physReg s.mode) rn
        (if w = false then s.readReg rn
         else if u then s.readReg rn + BitVec.ofNat 32 (4 * regs.length)
         else s.readReg rn - BitVec.ofNat 32 (4 * regs.length))
        first k (loadWords first regs s).1 s t := by
  cases w with
  | false => exact loadBlock_aborts rn first regs none onPc s k hnd hrn hk
  | true => exact loadBlock_aborts rn first regs (some (blockWriteback u _ _)) onPc s k hnd hrn hk

/-! ### The statements -/

/-- Settles O32: an allowed form is the shared store of the list's values, from the state after the draw of an UNKNOWN
base. -/
theorem storeMultipleResults : Obligations.StoreMultipleResults := by
  unfold Obligations.StoreMultipleResults
  intro c p u w rn list s hc hrn hl hfree n4 base first wbv unknown
  have hfirst : first = blockAddress p u rn (regList list) s := by cases p <;> cases u <;> rfl
  have hunknown : unknown = storesUnknownBase w rn (regList list) := (storesUnknownBase_eq ..).symm
  refine ⟨Config.freeWord s.draws, ?_⟩
  dsimp only [exec]
  rw [execStm_runs hc hrn hl hfree, hfirst, hunknown, storeBlockValues_eq w _ s hrn]
  exact storeBlock_stores _ _ (blockWritebackOf u w rn (regList list) s) s _
    ((List.length_map _).trans_le (regList_length list)) fun n x hn => (blockWritebackOf_base hn).2 ▸ hrn

/-- Settles O33: an allowed form is the shared store of the User bank's values, without write-back. -/
theorem storeUserBankResults : Obligations.StoreUserBankResults := by
  unfold Obligations.StoreUserBankResults
  intro c p u rn list s hc hrn hl hspsr hfree
  dsimp only [exec]
  rw [execStmUser_runs hc hrn hl hspsr hfree, userValues_eq]
  exact storeBlock_stores _ _ none s false ((List.length_map _).trans_le (regList_length list)) nofun

/-- Settles O35: an allowed form is the shared load, and a list without R15 goes on. -/
theorem loadMultipleResults : Obligations.LoadMultipleResults := by
  unfold Obligations.LoadMultipleResults
  intro c p u w rn list s hc hrn hl hbase h15 hfree reads hall
  obtain ⟨s1, hregs, hwb, hcpsr, hpc, hmem, hkept, hload, _⟩ := loadBlock_cases rn _ _ _ branchTo s (regList_nodup list)
    (blockWritebackOf_names (u := u) (s := s) hrn hbase) hall
  rw [blockWritebackOf_changes] at hkept
  dsimp only [exec]
  rw [execLdm_runs hc hrn hl hbase hfree]
  have hadvance : ∀ r, r ≠ 15 → s1.advance.getPhys (physReg s.mode r) = s1.getPhys (physReg s.mode r) :=
    fun r hr => s1.advance_getPhys (physReg_ne_r15 _ hr)
  refine ⟨_, hload h15, fun r v hr => ?value, fun hw => ?base, hcpsr, keepsAllBut_advance hkept,
    by simp [SameMemory, hmem], by simp [GoesOn, hpc, State.isz_eq hcpsr]⟩
  case value =>
    have hne : r ≠ 15 := ne_of_mem_of_not_mem (mem_of_mem_loadWords hr) h15
    rw [hadvance r hne, hregs r v hr hne]
  case base => rw [hadvance rn hrn, hwb rn _ (blockWritebackOf_of_writeback u rn _ s hw)]

/-- Settles O36: both forms are the shared load, which ends in a branch or in an exception return. -/
theorem loadMultipleIntoPc : Obligations.LoadMultipleIntoPc := by
  unfold Obligations.LoadMultipleIntoPc
  intro c p u w rn list s hc hrn hbase hfree regs reads hall changed
  have hnd : regs.Nodup := regList_nodup _
  have hnames := blockWritebackOf_names (u := u) (s := s) hrn hbase
  obtain ⟨target, htarget⟩ := loadWords_answered (fifteen_mem_regList_one list) hall
  obtain ⟨b, hb, hbcpsr, -, hbmem, hbkept, hbholds⟩ :=
    loadBlock_intoPc (rn := rn) (onPc := branchTo) branchTo_sameRegs hnd hnames hall htarget
  obtain ⟨e, he, hecpsr, hepc, hemem, hekept, heholds⟩ :=
    loadBlock_intoPc (rn := rn) (onPc := exceptionReturn) exceptionReturn_sameRegs hnd hnames hall htarget
  rw [blockWritebackOf_changes] at hbkept hekept
  dsimp only [exec]
  rw [execLdm_runs hc hrn (one_append_ne_zero list) hbase hfree, hb]
  refine ⟨target, htarget, branchTo_branchesTo target s b changed hbcpsr hbmem hbkept, ?_⟩
  by_cases hspsr : s.getSpsr s.mode = none
  · rw [execLdmReturn_lacksSpsr hc hrn hbase hspsr]
    exact ⟨by rw [ReturnsTo, hspsr], fun t ht => (hbholds t (ht.resolve_right nofun)).results⟩
  · rw [execLdmReturn_runs hc hrn hbase hspsr hfree, he]
    exact ⟨exceptionReturn_returnsTo target s e changed hecpsr hepc hemem hekept,
      fun t ht => (ht.elim (hbholds t) (heholds t)).results⟩

/-- Settles O37: an allowed form is the shared user-bank load. -/
theorem loadUserBankResults : Obligations.LoadUserBankResults := by
  unfold Obligations.LoadUserBankResults
  intro c p u rn list s hc hrn hl hspsr hfree regs reads hall
  dsimp only [exec]
  rw [execLdmUser_runs hc hrn hl hspsr hfree]
  exact loadUserBlock_answered rn (regList_nodup _) (fifteen_not_mem_regList_zero list) hall

/-- Settles O38: the shared loads abort in one way, whatever loading R15 would do. -/
theorem loadMultipleAborts : Obligations.LoadMultipleAborts := by
  unfold Obligations.LoadMultipleAborts
  intro c p u w rn s k hc hrn base
  dsimp only [exec]
  refine ⟨fun list hl hbase hfree hk => ?ldm, fun list hbase hspsr hfree hk => ?ldmReturn,
    fun list hl hspsr hfree hk => ?ldmUser⟩
  case ldm =>
    rw [execLdm_runs hc hrn hl hbase hfree]
    exact loadBlock_aborts_base branchTo (regList_nodup _) hrn hk
  case ldmReturn =>
    rw [execLdmReturn_runs hc hrn hbase hspsr hfree]
    exact loadBlock_aborts_base exceptionReturn (regList_nodup _) hrn hk
  case ldmUser =>
    rw [execLdmUser_runs hc hrn hl hspsr hfree]
    exact loadUserBlock_aborts rn _ _ s k (regList_nodup _) hrn hk

/-- Settles O39: each form is refused by the first of its checks that applies. -/
theorem blockAndThumbFormsRefused : Obligations.BlockAndThumbFormsRefused := by
  unfold Obligations.BlockAndThumbFormsRefused
  dsimp only [exec]
  refine ⟨fun c p u w rn list low s hc => ⟨fun hrn => ?pc, fun hrn => ?empty, fun hrn hw => ?base,
    fun hrn hbase => execLdmReturn_lacksSpsr hc hrn hbase, fun hrn hl => ?stmUser, fun hrn hl hbase => ?ldmUser⟩,
    fun s rb rlist hs sbz => ⟨?push, ?pop, ?stmia, ?ldmia, fun hmem => ?ldmiaBase, ?bxH1, fun hsbz => ?bxSbz⟩⟩
  case pc =>
    have h : ∀ loads regs, firstRefusal (blockRefusals loads w rn regs) = some .blockBasePC := fun loads regs => by
      rw [firstRefusal_blockRefusals, if_pos hrn]
    exact ⟨conditionally_refuses hc (h ..), conditionally_refuses hc (h ..),
      conditionally_refuses hc (firstRefusal_append_of_some _ (h ..)),
      conditionally_refuses hc (firstRefusal_append_of_some _ (h ..)),
      conditionally_refuses hc (firstRefusal_append_of_some _ (h ..))⟩
  case empty =>
    have h : ∀ loads, firstRefusal (blockRefusals loads w rn []) = some .emptyList := fun loads => by
      rw [firstRefusal_blockRefusals, if_neg hrn, if_pos rfl]
    exact ⟨conditionally_refuses hc (h false), conditionally_refuses hc (h true),
      conditionally_refuses hc (firstRefusal_append_of_some _ (h false)),
      conditionally_refuses hc (firstRefusal_append_of_some _ (h true))⟩
  case base =>
    have h : ∀ regs, rn ∈ regs → firstRefusal (blockRefusals true w rn regs) = some .ldmWritebackBaseInList :=
      fun regs hmem => by
        rw [firstRefusal_blockRefusals, if_neg hrn, if_neg (List.ne_nil_of_mem hmem), if_pos ⟨rfl, hw, hmem⟩]
    exact ⟨fun hmem => conditionally_refuses hc (h _ hmem),
      fun hmem => conditionally_refuses hc (firstRefusal_append_of_some _ (h _ hmem)),
      fun hmem => conditionally_refuses hc (firstRefusal_append_of_some _ (h _ hmem))⟩
  case stmUser => exact userBank_refuses hc (blockRefusals_store_none w hrn hl)
  case ldmUser => exact userBank_refuses hc (blockRefusals_none hrn (zero_append_ne_zero hl) hbase)
  case push | pop | stmia | ldmia | bxH1 => exact unconditionally_refuses (firstRefusal_head _ _ rfl)
  case ldmiaBase =>
    have hbase : lo rb ∈ lowList rlist := (mem_lowList_lo rlist rb).2 hmem
    have hlist : (lowList rlist).isEmpty = false := List.isEmpty_eq_false_iff_exists_mem.2 ⟨_, hbase⟩
    exact unconditionally_refuses
      ((firstRefusal_tail _ _ hlist).trans (firstRefusal_head _ _ (List.contains_iff_mem.2 hbase)))
  case bxSbz =>
    exact unconditionally_refuses ((firstRefusal_tail _ _ rfl).trans (firstRefusal_head _ _ (bne_iff_ne.2 hsbz)))

end Sys2Proof.Machine

/-! SUPPORT. Proof of the statement about the ARM branches (spec/47_branch.md): the target is a word address when R15
is, so the branch is taken; the link of BL is written before it. -/

namespace Sys2Proof.Machine

/-! ### The target (spec/47 R285) -/

theorem branchTarget_arm {s : State} (offset : BitVec 24) (harm : s.thumb = false) :
    branchTarget offset s = s.pc + 8 + (offset ++ 0#2).signExtend 32 := by
  simp [branchTarget, State.pcRead, harm]

/-- R15 as a multiple of 4 has its two low bits clear. -/
theorem State.AlignedPc.pc_low {s : State} (h : s.AlignedPc) (harm : s.thumb = false) : s.pc.extractLsb' 0 2 = 0 := by
  have hmod : s.pc.toNat % 4 = 0 := by simpa [State.AlignedPc, harm] using h
  exact BitVec.eq_of_toNat_eq (by simp [hmod])

/-- R15, the 8 and the word offset are multiples of 4, so their sum is one. -/
theorem branchTarget_low {s : State} (offset : BitVec 24) (harm : s.thumb = false) (haligned : s.AlignedPc) :
    (branchTarget offset s).extractLsb' 0 2 = 0 := by
  have hpc := haligned.pc_low harm
  have hoffset : ((offset ++ 0#2).signExtend 32).setWidth 2 = 0 := by
    ext i hi
    have hi26 : i < 26 := by omega
    have hi32 : i < 32 := by omega
    simp [BitVec.getElem_signExtend, hi, hi26, hi32]
  rw [← BitVec.setWidth_eq_extractLsb' (by decide)] at hpc ⊢
  rw [branchTarget_arm offset harm, BitVec.setWidth_add _ _ (by decide), BitVec.setWidth_add _ _ (by decide), hpc,
    hoffset]
  rfl

/-- A write of R15 to a word address in ARM state is taken. -/
theorem BranchesTo.taken {target : Word} {changed : List PhysReg} {s : State} {o : Out}
    (h : BranchesTo target changed s o) (harm : s.thumb = false) (hlow : target.extractLsb' 0 2 = 0) :
    ∃ t, o = .next t ∧ t.pc = target ∧ t.cpsr = s.cpsr ∧ KeepsAllBut changed s t ∧ SameMemory s t := by
  rw [BranchesTo, if_neg fun hbad => hbad.2 hlow] at h
  simpa [harm] using h

/-! ### The link (spec/47 R286) -/

/-- A register written as an effect starts is the one thing it changes. -/
theorem keepsAllBut_started_writeReg (s : State) (n : Reg) (v : Word) :
    KeepsAllBut [physReg s.mode n] s (s.started.writeReg n v) := by
  refine keepsAllBut_intro (fun q _ hq => ?_) ?_ ?_ ?_ ?_ ?_ ?_ ?_
  · exact (s.started.getPhys_writeReg_other n v (List.ne_of_not_mem_cons hq)).trans (s.started_getPhys q)
  all_goals simp

/-! ### The statement -/

/-- Settles O40: B is the branch from the state the effect starts in, BL the same branch after its link, and its
target is a word address. -/
theorem branchResults : Obligations.BranchResults := by
  unfold Obligations.BranchResults
  intro c offset s hc harm haligned
  rw [← branchTarget_arm offset harm]
  have hlow := branchTarget_low offset harm haligned
  refine ⟨?b, fun hfree => ?bl⟩
  case b =>
    have hexec : exec (.b c offset) s = branchTo (branchTarget offset s) s.started := by
      dsimp only [exec, execB]
      exact conditionally_runs hc rfl s.NotBlocked_nil
    exact hexec ▸ (branchTo_branchesTo _ s s.started [] rfl rfl (keepsAllBut_started s)).taken harm hlow
  case bl =>
    have hexec : exec (.bl c offset) s =
        branchTo (branchTarget offset s) (s.started.writeReg 14 (s.pc + 4)) := by
      dsimp only [exec, execBl]
      exact conditionally_runs hc rfl hfree
    obtain ⟨t, ht, hpc, hcpsr, hkept, hmem⟩ := (branchTo_branchesTo _ s (s.started.writeReg 14 (s.pc + 4)) _ (by simp)
      (by simp) (keepsAllBut_started_writeReg s 14 _)).taken harm hlow
    have hlink : t.getPhys (physReg s.mode 14) = s.pc + 4 :=
      (branchTo_sameRegs ht _ (physReg_ne_r15 _ (by decide)) List.not_mem_nil).trans
        (s.started.getPhys_writeReg_same _ (by decide))
    exact ⟨t, hexec ▸ ht, hpc, hlink, hcpsr, hkept, hmem⟩

end Sys2Proof.Machine

/-! SUPPORT. Proofs of the statements about SWI, the Undefined encodings and the swaps (spec/48_swi_swap_undefined.md):
an exception entry as statements say it, the swap whose read aborts, then the statements. -/

namespace Sys2Proof.Machine

/-! ### An exception raised by an instruction (spec/60_exceptions.md R396, R408, R409) -/

/-- The mode of an entry is an exception mode (R391). -/
theorem mode_of_descriptor {e : ExcType} {m : Mode} (hm : (descriptor e).mode = some m) : m ≠ .usr ∧ m ≠ .sys := by
  cases e <;> cases hm <;> decide

/-- An exception raised from a state `s1` that has the registers, status, memory and platform of `s`. -/
theorem raise_entersOnly {e : ExcType} {m : Mode} {setsF : Bool} (hm : (descriptor e).mode = some m)
    (hI : (descriptor e).maskI = .set) (hF : (descriptor e).maskF = if setsF then .set else .keep) (link : Word)
    (info : ExcInfo) {s s1 : State} (h : s1.regs = s.regs ∧ s1.pc = s.pc ∧ s1.cpsr = s.cpsr ∧ s1.spsr = s.spsr ∧
      s1.mem = s.mem ∧ s1.stop = s.stop ∧ s1.lines = s.lines ∧ s1.plain = s.plain) :
    EntersOnly m (descriptor e).vector link setsF s (raise e link info s1) ∧
      (raise e link info s1).out.report = .exception e s.pc info :=
  dispatch_enters e m link info s (s1.setDispatcher .pending) setsF hm hI hF (mode_of_descriptor hm).1
    (mode_of_descriptor hm).2 h

theorem softwareInterrupt_entersOnly (w : Word) (s : State) :
    EntersOnly .svc 0x08 (s.pc + s.isz) false s (softwareInterrupt w s.started) ∧
      (softwareInterrupt w s.started).out.report = .exception .softwareInterrupt s.pc (.word w) :=
  raise_entersOnly rfl rfl rfl _ _ ⟨rfl, rfl, rfl, rfl, rfl, rfl, rfl, rfl⟩

theorem undefinedInstruction_entersOnly (w : Word) (s : State) :
    EntersOnly .und 0x04 (s.pc + s.isz) false s (undefinedInstruction w s.started) ∧
      (undefinedInstruction w s.started).out.report = .exception .undefined s.pc (.word w) :=
  raise_entersOnly rfl rfl rfl _ _ ⟨rfl, rfl, rfl, rfl, rfl, rfl, rfl, rfl⟩

theorem exec_swi {c : Cond} {s : State} (comment : BitVec 24) (hc : condPassed c s = true) :
    exec (.swi c comment) s = .next (softwareInterrupt (instrWord (.swi c comment)) s.started) := by
  dsimp only [exec, execSwi]
  exact conditionally_runs hc rfl s.NotBlocked_nil

theorem exec_tSwi (value : BitVec 8) (s : State) :
    exec (.tSwi value) s = .next (softwareInterrupt (instrWord (.tSwi value)) s.started) := by
  dsimp only [exec, execTSwi]
  exact unconditionally_runs rfl s.NotBlocked_nil

/-- Settles O43: SWI of either state is the entry, from the state its effect starts in. -/
theorem swiEntersSvc : Obligations.SwiEntersSvc := by
  unfold Obligations.SwiEntersSvc
  exact fun s => ⟨fun c comment hc => ⟨_, exec_swi comment hc, softwareInterrupt_entersOnly _ s⟩,
    fun value => ⟨_, exec_tSwi value s, softwareInterrupt_entersOnly _ s⟩⟩

/-- Settles O44: every one of these encodings has the Undefined Instruction entry as its effect. -/
theorem undefinedEntersUnd : Obligations.UndefinedEntersUnd := by
  unfold Obligations.UndefinedEntersUnd
  intro i s hc hi
  have hexec : exec i s = .next (undefinedInstruction (instrWord i) s.started) := by
    rcases hi with ⟨_, _, _, _, rfl⟩ | ⟨_, _, _, _, _, rfl⟩ | ⟨_, _, _, _, rfl⟩ | ⟨_, _, _, rfl⟩ |
      ⟨_, _, _, _, _, _, _, _, _, rfl⟩ | ⟨_, _, _, _, _, _, _, _, _, rfl⟩ | ⟨_, _, _, _, _, _, _, rfl⟩ |
      ⟨_, _, _, _, _, _, _, rfl⟩ | ⟨_, _, _, _, _, _, _, rfl⟩ | ⟨_, rfl⟩ | ⟨_, rfl⟩ | ⟨_, rfl⟩ <;>
      dsimp only [exec, execUndMulSwap, execUndSignedStore, execUndPsr, execUndMedia, execStc, execLdc, execCdp,
        execMcr, execMrc, undefinedWord, execTUnd1011, execTUndCond, execTUnd11101, thumbUndefined,
        unconditionally] <;>
      exact conditionally_runs hc rfl s.NotBlocked_nil
  exact ⟨_, hexec, undefinedInstruction_entersOnly (instrWord i) s⟩

/-! ### The swaps (spec/48 R297, R298, spec/60 R407) -/

/-- The Data Abort of an access that left the registers, the status and memory alone. -/
theorem dataAbort_entersOnly (addr : Word) {s s1 : State} (hpc : s1.pc = s.pc) (h : s1.regs = s.regs ∧
    s1.cpsr = s.cpsr ∧ s1.spsr = s.spsr ∧ s1.mem = s.mem ∧ s1.stop = s.stop ∧ s1.lines = s.lines ∧
    s1.plain = s.plain) : EntersOnly .abt 0x10 (s.pc + 8) false s (dataAbort addr s1) := by
  obtain ⟨hregs, hrest⟩ := h
  rw [dataAbort, hpc]
  exact (raise_entersOnly rfl rfl rfl _ _ ⟨hregs, hpc, hrest⟩).1

/-- A swap whose read aborts issues no write. -/
theorem swapAccess_readAborts {sz : Size} {rn : Reg} {s : State} (rd rm : Reg) (extend : Word → Word)
    (hanswer : s.readAnswer (s.readReg rn) sz = none) :
    ∃ t, swapAccess sz rn rd rm extend s.started = .next t ∧ EntersOnly .abt 0x10 (s.pc + 8) false s t ∧
      t.out.requests = s.out.requests ++
        [{ addr := s.readReg rn, size := sz, write := none, kind := .data, locked := true }] := by
  have hread : (memRead (s.readReg rn) sz .data true s.started).1 = none := by
    rw [readAnswer_eq, readAnswer_started, hanswer]
  obtain ⟨hregs, hpc, hcpsr, hspsr, hmem, -, -, hstop, hlines, hplain, -⟩ :=
    memRead_frame (s.readReg rn) sz .data true s.started
  have hrequests := memRead_requests (s.readReg rn) sz .data true s.started
  simp only [swapAccess, State.started_readReg]
  generalize memRead (s.readReg rn) sz .data true s.started = read at *
  obtain ⟨answer, s1⟩ := read
  obtain rfl : answer = none := hread
  exact ⟨_, rfl, dataAbort_entersOnly _ hpc ⟨hregs, hcpsr, hspsr, hmem, hstop, hlines, hplain⟩,
    (dataAbort_outputs _ s1).2.1.trans hrequests⟩

theorem swap_runs {sz : Size} {c : Cond} {rn rd rm : Reg} {s : State} (extend : Word → Word)
    (hc : condPassed c s = true) (hrn : rn ≠ 15) (hrd : rd ≠ 15) (hrm : rm ≠ 15) (hnd : rn ≠ rd) (hnm : rn ≠ rm)
    (hfree : s.NotBlocked [rn, rd, rm]) : swap sz c rn rd rm extend s = swapAccess sz rn rd rm extend s.started := by
  have hpc : (rn == 15 || rd == 15 || rm == 15) = false := by simpa using ⟨⟨hrn, hrd⟩, hrm⟩
  have hdistinct : (rn == rd || rn == rm) = false := by simpa using ⟨hnd, hnm⟩
  exact conditionally_runs hc ((firstRefusal_tail _ _ hpc).trans (firstRefusal_tail _ _ hdistinct)) hfree

theorem swap_refuses {c : Cond} {s : State} (sz : Size) (rn rd rm : Reg) (extend : Word → Word)
    (hc : condPassed c s = true) :
    (rn = 15 ∨ rd = 15 ∨ rm = 15 → swap sz c rn rd rm extend s = .refused .swapPC) ∧
    (rn ≠ 15 → rd ≠ 15 → rm ≠ 15 → rn = rd ∨ rn = rm → swap sz c rn rd rm extend s = .refused .swapOverlap) := by
  refine ⟨fun h => ?_, fun hrn hrd hrm h => ?_⟩ <;> refine conditionally_refuses hc ?_
  · exact firstRefusal_head _ _ (by simpa [or_assoc] using h)
  · have hpc : (rn == 15 || rd == 15 || rm == 15) = false := by simpa using ⟨⟨hrn, hrd⟩, hrm⟩
    exact (firstRefusal_tail _ _ hpc).trans (firstRefusal_head _ _ (by simpa using h))

/-- Settles O45: an accepted swap is its two accesses, whose outcomes follow the two answers. -/
theorem swapResults : Obligations.SwapResults := by
  unfold Obligations.SwapResults
  refine ⟨fun c rn rd rm s hc hrn hrd hrm hnd hnm hfree => ?runs, fun c rn rd rm s hc => ?refused⟩
  case runs =>
    simp only [List.forall_mem_cons, List.not_mem_nil, false_implies, implies_true, and_true, ← zeroByte_eq]
    dsimp only [exec, execSwp, execSwpb]
    simp only [swap_runs _ hc hrn hrd hrm hnd hnm hfree]
    exact ⟨⟨fun v => swapAccess_answered .word rn rd rm id s v hrd hrm, swapAccess_readAborts rd rm id⟩,
      fun v => swapAccess_answered .byte rn rd rm zeroByte s v hrd hrm, swapAccess_readAborts rd rm zeroByte⟩
  case refused =>
    simp only [List.forall_mem_cons, List.not_mem_nil, false_implies, implies_true, and_true]
    exact ⟨swap_refuses .word rn rd rm id hc, swap_refuses .byte rn rd rm zeroByte hc⟩

end Sys2Proof.Machine

/-! SUPPORT. Proofs of the statements about THUMB (spec/49_thumb.md): the branches, the ALU formats, the transfers of
one register and of a list. -/

namespace Sys2Proof.Machine

/-! ### The branches (spec/49_thumb.md R367, R370 to R372) -/

theorem State.pcRead_thumb {s : State} (h : s.thumb = true) : s.pcRead = s.pc + 4 := by
  rw [State.pcRead, if_pos h]

theorem State.started_pcRead (s : State) : s.started.pcRead = s.pcRead := rfl

/-- A write of R15 in THUMB state is taken, with bit 0 cleared. -/
theorem BranchesTo.taken_thumb {target : Word} {changed : List PhysReg} {s : State} {o : Out}
    (h : BranchesTo target changed s o) (hthumb : s.thumb = true) :
    ∃ t, o = .next t ∧ t.pc = target &&& 0xFFFFFFFE ∧ t.cpsr = s.cpsr ∧ KeepsAllBut changed s t ∧ SameMemory s t := by
  simpa [BranchesTo, hthumb] using h

/-- A branch that is an instruction's whole effect. -/
theorem branchTo_started_thumb {s : State} (target : Word) (hthumb : s.thumb = true) :
    ∃ t, branchTo target s.started = .next t ∧ t.pc = target &&& 0xFFFFFFFE ∧ t.cpsr = s.cpsr ∧ KeepsAllBut [] s t ∧
      SameMemory s t :=
  (branchTo_branchesTo target s s.started [] rfl rfl (keepsAllBut_started s)).taken_thumb hthumb

/-- Settles O42: the branches from the state the effect starts in; the prefix is one register write, the suffix a branch
after its link. -/
theorem thumbBranchResults : Obligations.ThumbBranchResults := by
  unfold Obligations.ThumbBranchResults
  intro s hthumb
  rw [← State.pcRead_thumb hthumb]
  dsimp only [exec, execTBCond, execTB, execTBlPrefix, execTBlSuffix]
  refine ⟨fun c offset hc => ?bCond, fun offset => ?b, fun hfree offset => ⟨?blPrefix, ?blSuffix⟩⟩
  case bCond =>
    rw [conditionally_runs hc rfl s.NotBlocked_nil]
    exact branchTo_started_thumb _ hthumb
  case b =>
    rw [unconditionally_runs rfl s.NotBlocked_nil]
    exact branchTo_started_thumb _ hthumb
  case blPrefix =>
    -- In the statement this 4 is a natural number, cast.
    have hcast : s.pc + ((4 : ℕ) : Word) = s.pcRead := (State.pcRead_thumb hthumb).symm
    rw [unconditionally_runs rfl hfree, State.started_pcRead, hcast]
    exact ⟨_, rfl, writesOnly_next 14 _ s (by decide)⟩
  case blSuffix =>
    rw [unconditionally_runs rfl hfree, State.started_readReg]
    obtain ⟨t, ht, hpc, hcpsr, hkept, hmem⟩ :=
      (branchTo_branchesTo (s.readReg 14 + offset.setWidth 32 <<< 1) s (s.started.writeReg 14 ((s.pc + 2) ||| 1)) _
        (by simp) (by simp) (keepsAllBut_started_writeReg s 14 _)).taken_thumb hthumb
    have hlink : t.getPhys (physReg s.mode 14) = (s.pc + 2) ||| 1 :=
      (branchTo_sameRegs ht _ (physReg_ne_r15 _ (by decide)) List.not_mem_nil).trans
        (s.started.getPhys_writeReg_same _ (by decide))
    exact ⟨t, ht, hpc, hlink, hcpsr, hkept, hmem⟩

/-! ### Formats 1 to 4 (spec/49_thumb.md R311 to R337) -/

/-- Settles O46: each instruction is the shared ALU step or comparison of its row. -/
theorem thumbImmediateResults : Obligations.ThumbImmediateResults := by
  unfold Obligations.ThumbImmediateResults
  intro s i3 i5 i8 rn rs rd
  simp only [thumbImmediateOps, List.forall_mem_cons, List.not_mem_nil, false_implies, implies_true, and_true,
    ← addWithCarry_eq_sumResult, ← subWithCarry_eq_differenceResult]
  dsimp only [exec, execTAddImm3, execTSubImm3, execTLslImm, execTLsrImm, execTAsrImm, execTMovImm, execTAddImm8,
    execTSubImm8, execTAddReg, execTSubReg, execTCmpImm]
  refine ⟨⟨?_, ?_, ?_, ?_, ?_, ?_, ?_, ?_⟩, ?_, ?_, thumbCompare_next _ s _ rfl⟩ <;> exact thumbAlu_next rd _ s _ rfl

/-- Settles O47: each instruction is the shared ALU step or comparison of its row, MUL the multiply's register write. -/
theorem thumbRegisterResults : Obligations.ThumbRegisterResults := by
  unfold Obligations.ThumbRegisterResults
  intro s rs rd
  have hamount : ((s.readReg (lo rs)).setWidth 8).toNat = (s.readReg (lo rs)).toNat % 256 := BitVec.toNat_setWidth ..
  simp only [thumbRegisterOps, thumbCompareOps, List.forall_mem_cons, List.not_mem_nil, false_implies, implies_true,
    and_true, ← addWithCarry_eq_sumResult, ← subWithCarry_eq_differenceResult, ← hamount]
  dsimp only [exec, execTAnd, execTEor, execTLslReg, execTLsrReg, execTAsrReg, execTAdc, execTSbc, execTRorReg,
    execTNeg, execTOrr, execTBic, execTMvn, execTTst, execTCmpReg, execTCmn, execTMul]
  refine ⟨?writes, ⟨?_, ?_, ?_⟩, fun hne => ?mul⟩
  case writes =>
    refine ⟨?_, ?_, ?_, ?_, ?_, ?_, ?_, ?_, ?_, ?_, ?_, ?_⟩ <;> exact thumbAlu_next rd _ s _ rfl
  case mul =>
    have hform : firstRefusal [(rd == rs, .mulRdEqRm)] = none := firstRefusal_tail _ _ (beq_eq_false_iff_ne.2 hne.symm)
    rw [← mul_eq_ofNat]
    obtain ⟨carry, hresult⟩ :=
      setMulFlags_next true (lo rd) (s.readReg (lo rs) * s.readReg (lo rd)) s (lo_ne_fifteen rd)
    exact ⟨_, carry, unconditionally_runs hform s.NotBlocked_nil, hresult⟩
  all_goals exact thumbCompare_next _ s _ rfl

/-! ### Formats 5, 12 and 13 (spec/49_thumb.md R338 to R340, R359 to R362) -/

/-- An immediate in words, as a number of bytes. -/
theorem setWidth_shiftLeft_two {n : Nat} (imm : BitVec n) :
    (imm.setWidth 32 <<< 2 : Word) = BitVec.ofNat 32 (4 * imm.toNat) := by
  apply BitVec.eq_of_toNat_eq
  simp only [BitVec.toNat_shiftLeft, BitVec.toNat_setWidth, BitVec.toNat_ofNat, Nat.shiftLeft_eq]
  omega

theorem hiRegForm_none {hs hd : Reg} (h : 8 ≤ hs.toNat ∨ 8 ≤ hd.toNat) : firstRefusal (hiRegForm hs hd) = none := by
  refine firstRefusal_tail _ _ ?_
  simp only [Bool.and_eq_false_iff, decide_eq_false_iff_not]
  omega

theorem hiRegForm_refuses {hs hd : Reg} (hsLow : hs.toNat < 8) (hdLow : hd.toNat < 8) :
    firstRefusal (hiRegForm hs hd) = some .hiRegLoLo :=
  firstRefusal_head _ _ (by simp [hsLow, hdLow])

/-- A format 5 result: a register other than R15 is written. -/
theorem writeHi_writesOnly {hd : Reg} (v : Word) (s : State) (h : hd ≠ 15) :
    ∃ t, writeHi hd v s.started = .next t ∧ WritesOnly hd v s t :=
  ⟨_, if_neg h, writesOnly_next hd v s h⟩

/-- R15 is branched to. -/
theorem writeHi_branchesTo {hd : Reg} (v : Word) (s : State) (h : hd = 15) :
    BranchesTo v [] s (writeHi hd v s.started) := by
  rw [writeHi, if_pos h]
  exact branchTo_branchesTo v s s.started [] rfl rfl (keepsAllBut_started s)

/-- Settles O48: an accepted format 5 is its result or its flags; formats 12 and 13 are one register write. -/
theorem thumbHighRegisterAndAddressResults : Obligations.ThumbHighRegisterAndAddressResults := by
  unfold Obligations.ThumbHighRegisterAndAddressResults
  dsimp only [exec, execTAddHi, execTCmpHi, execTMovHi, execTAddPc, execTAddSp, execTSpAdd, execTSpSub]
  refine ⟨fun s hs hd => ⟨fun hhigh hfree => ?high, fun hsLow hdLow => ?low⟩, fun s rd i8 i7 hthumb => ?address⟩
  case high =>
    simp only [unconditionally_runs (hiRegForm_none hhigh) hfree, State.started_readReg,
      ← subWithCarry_eq_differenceResult]
    exact ⟨fun hne => ⟨writeHi_writesOnly _ s hne, writeHi_writesOnly _ s hne⟩,
      fun heq => ⟨writeHi_branchesTo _ s heq, writeHi_branchesTo _ s heq⟩, _, rfl, setNZCV_next _ s⟩
  case low =>
    have hform := hiRegForm_refuses hsLow hdLow
    exact ⟨unconditionally_refuses hform, unconditionally_refuses hform, unconditionally_refuses hform⟩
  case address =>
    rw [← State.pcRead_thumb hthumb]
    simp only [← setWidth_shiftLeft_two]
    have hrd : lo rd ≠ 15 := lo_ne_fifteen rd
    have hsp : (13 : Reg) ≠ 15 := by decide
    refine ⟨?pc, fun hfree => ?sp⟩
    case pc =>
      rw [unconditionally_runs rfl s.NotBlocked_nil]
      exact ⟨_, rfl, writesOnly_next (lo rd) _ s hrd⟩
    case sp =>
      simp only [unconditionally_runs (form := []) rfl hfree, State.started_readReg]
      exact ⟨⟨_, rfl, writesOnly_next (lo rd) _ s hrd⟩, ⟨_, rfl, writesOnly_next 13 _ s hsp⟩,
        _, rfl, writesOnly_next 13 _ s hsp⟩

/-! ### The transfers of one register (spec/49_thumb.md R342 to R358, R373) -/

theorem immOffsetAddress_zero (off5 : BitVec 5) (rb : LoReg) (s : State) :
    immOffsetAddress off5 0 rb s = s.readReg (lo rb) + off5.setWidth 32 := by
  rw [immOffsetAddress, BitVec.shiftLeft_zero]

section OneRegister

variable (ro rb rd : LoReg) (i5 : BitVec 5) (i8 : BitVec 8) (s : State)

theorem exec_thumbLoad {e} (he : e ∈ thumbLoads) : exec (e.1 ro rb rd i5 i8) s =
    thumbLoad e.2.2.2.2 (e.2.1 ro rb i5 i8) e.2.2.1 e.2.2.2.1 rd s := by
  revert e
  simp only [thumbLoads, List.forall_mem_cons, List.not_mem_nil, false_implies, implies_true, and_true, ← zeroByte_eq,
    ← zeroHalf_eq, ← signByte_eq, ← signHalf_eq, ← immOffsetAddress_zero]
  exact ⟨rfl, rfl, rfl, rfl, rfl, rfl, rfl, rfl, rfl, rfl⟩

theorem exec_thumbStore {e} (he : e ∈ thumbStores) : exec (e.1 ro rb rd i5 i8) s =
    thumbStore e.2.2.2 (e.2.1 ro rb i5 i8) e.2.2.1 rd s := by
  revert e
  simp only [thumbStores, List.forall_mem_cons, List.not_mem_nil, false_implies, implies_true, and_true,
    ← immOffsetAddress_zero]
  exact ⟨rfl, rfl, rfl, rfl, rfl, rfl, rfl⟩

/-! An address reads registers alone, so the hazard and the report have no part in it. -/

theorem thumbLoad_address_started {e} (he : e ∈ thumbLoads) : e.2.1 ro rb i5 i8 s.started = e.2.1 ro rb i5 i8 s := by
  revert e
  simp only [thumbLoads, List.forall_mem_cons, List.not_mem_nil, false_implies, implies_true, and_true]
  exact ⟨rfl, rfl, rfl, rfl, rfl, rfl, rfl, rfl, rfl, rfl⟩

theorem thumbStore_address_started {e} (he : e ∈ thumbStores) : e.2.1 ro rb i5 i8 s.started = e.2.1 ro rb i5 i8 s := by
  revert e
  simp only [thumbStores, List.forall_mem_cons, List.not_mem_nil, false_implies, implies_true, and_true]
  exact ⟨rfl, rfl, rfl, rfl, rfl, rfl, rfl⟩

end OneRegister

/-- Settles O49: each instruction is the shared load of a low register, without write-back. -/
theorem thumbLoadResults : Obligations.ThumbLoadResults := by
  unfold Obligations.ThumbLoadResults
  intro s ro rb rd i5 i8 e he hfree addr
  rw [exec_thumbLoad ro rb rd i5 i8 s he, thumbLoad, unconditionally_runs rfl hfree,
    thumbLoad_address_started ro rb i5 i8 s he]
  refine ⟨fun v hv => ?answered, fun hv => ?aborted⟩
  case answered => exact loadRegister_answered addr _ .data none (lo rd) _ s v (lo_ne_fifteen rd) nofun hv
  case aborted =>
    obtain ⟨t, ht, hmem, habort⟩ := loadRegister_aborted addr _ .data none (lo rd) e.2.2.2.1 s nofun hv
    exact ⟨t, ht, habort, hmem⟩

/-- Settles O50: each instruction is the shared store of a low register, without write-back. -/
theorem thumbStoreResults : Obligations.ThumbStoreResults := by
  unfold Obligations.ThumbStoreResults
  intro s ro rb rd i5 i8 e he hfree addr v
  rw [exec_thumbStore ro rb rd i5 i8 s he, thumbStore, unconditionally_runs rfl hfree,
    thumbStore_address_started ro rb i5 i8 s he, State.started_readReg]
  exact ⟨storeRegister_refuses .data none v, fun hsafe => ⟨storeRegister_answered addr _ .data none v s nofun hsafe,
    storeRegister_aborted addr _ .data none v s nofun hsafe⟩⟩

/-! ### The stores of a list (spec/49_thumb.md R363, R365) -/

theorem fifteen_not_mem_lowList (rlist : BitVec 8) : 15 ∉ lowList rlist := fun h =>
  absurd (lowList_low rlist 15 h) (by decide)

theorem firstRefusal_emptyList {regs : List Reg} (h : regs ≠ []) : firstRefusal [(regs.isEmpty, .emptyList)] = none :=
  firstRefusal_tail _ _ (List.isEmpty_eq_false_iff.2 h)

theorem pushRegs_range {r : Bool} {rlist : BitVec 8} {k : Reg} (h : k ∈ pushRegs r rlist) : k ≠ 13 ∧ k ≠ 15 := by
  rcases (mem_lowList_append_if rlist r 14 k).1 h with hlow | ⟨_, rfl⟩
  · have hk := lowList_low rlist k ((mem_lowList rlist k).2 hlow)
    constructor <;> rintro rfl <;> exact absurd hk (by decide)
  · decide

theorem pushRegs_length (r : Bool) (rlist : BitVec 8) : (pushRegs r rlist).length ≤ 16 := by
  have hlow := lowList_length rlist
  rw [pushRegs, List.length_append]
  cases r <;> simp <;> omega

/-- With no R15 in the list, a store writes what the registers read as, but a base that is UNKNOWN. -/
theorem storeBlockValues_eq_readReg {w : Bool} {rn : Reg} {regs : List Reg} (s : State) (h15 : 15 ∉ regs) :
    storeBlockValues w rn regs s = regs.map fun k =>
      if k = rn ∧ storesUnknownBase w rn regs = true then Config.freeWord s.draws else s.readReg k := by
  refine List.map_congr_left fun k hk => ?_
  have hne : k ≠ 15 := ne_of_mem_of_not_mem hk h15
  simp only [Bool.and_eq_true, beq_iff_eq, State.storeValue, State.readReg, State.readRegAs, if_neg hne]

/-- A base that is not in the list is stored by no one. -/
theorem storeBlockValues_eq_readReg_of_base {w : Bool} {rn : Reg} {regs : List Reg} (s : State) (h15 : 15 ∉ regs)
    (hbase : rn ∉ regs) : storeBlockValues w rn regs s = regs.map fun k => s.readReg k := by
  rw [storeBlockValues_eq_readReg s h15]
  exact List.map_congr_left fun k hk => if_neg fun h => ne_of_mem_of_not_mem hk hbase h.1

/-- Settles O51: each instruction is the shared store of the list's values; SP is not among those PUSH stores. -/
theorem thumbStoreMultipleResults : Obligations.ThumbStoreMultipleResults := by
  unfold Obligations.ThumbStoreMultipleResults
  intro s r rb rlist pushed stored start base unknown
  dsimp only [exec, execTPush, execTStmia]
  refine ⟨fun hne hfree => ?push, fun hne => ⟨Config.freeWord s.draws, ?stmia⟩⟩
  case push =>
    have hform : firstRefusal [(pushed.isEmpty, .emptyList)] = none := firstRefusal_emptyList hne
    have hvalues : storeBlockValues true 13 pushed s = pushed.map fun k => s.readReg k :=
      storeBlockValues_eq_readReg_of_base s (fun h => (pushRegs_range h).2 rfl) fun h => (pushRegs_range h).1 rfl
    rw [unconditionally_runs hform hfree, ← hvalues]
    have hlength : (storeBlockValues true 13 pushed s).length ≤ 16 :=
      (List.length_map _).trans_le (pushRegs_length r rlist)
    refine storeBlock_stores start _ (some (13, start)) s false hlength ?_
    rintro n x ⟨⟩
    decide
  case stmia =>
    have hform : firstRefusal [(stored.isEmpty, .emptyList)] = none := firstRefusal_emptyList hne
    have hunknown : unknown = storesUnknownBase true (lo rb) stored := by
      rw [storesUnknownBase_eq, Bool.true_and]
    rw [unconditionally_runs hform s.NotBlocked_nil, hunknown,
      ← storeBlockValues_eq_readReg s (fifteen_not_mem_lowList rlist)]
    refine storeBlock_stores base _ (some (lo rb, base + BitVec.ofNat 32 (4 * stored.length))) s _
      ((List.length_map _).trans_le ((lowList_length rlist).trans (by decide))) ?_
    rintro n x ⟨⟩
    exact lo_ne_fifteen rb

/-! ### The loads of a list (spec/49_thumb.md R364, R366, R373) -/

theorem popRegs_nodup (r : Bool) (rlist : BitVec 8) : (popRegs r rlist).Nodup :=
  (lowList_append_if_ascending rlist r (top := 15) (by decide)).imp fun h => by rintro rfl; exact lt_irrefl _ h

theorem thirteen_not_mem_popRegs (r : Bool) (rlist : BitVec 8) : 13 ∉ popRegs r rlist := fun h => by
  rcases (mem_lowList_append_if rlist r 15 13).1 h with hlow | ⟨_, heq⟩
  · exact absurd (lowList_low rlist 13 ((mem_lowList rlist 13).2 hlow)) (by decide)
  · exact absurd heq (by decide)

theorem fifteen_mem_popRegs (r : Bool) (rlist : BitVec 8) : 15 ∈ popRegs r rlist ↔ r = true := by
  cases r
  · simpa [popRegs] using fifteen_not_mem_lowList rlist
  · simp [popRegs]

section AnsweredLoad

variable {rn : Reg} {first x : Word} {regs : List Reg} {s : State}

/-- A list without R15 goes on after the load. -/
theorem loadBlock_goesOn (onPc : Word → State → Out) (hnd : regs.Nodup) (hrn : rn ≠ 15) (hbase : rn ∉ regs)
    (h15 : 15 ∉ regs) (hall : ∀ e ∈ (loadWords first regs s).1, e.2 ≠ none) :
    ∃ t, loadBlock rn first regs (some (rn, x)) onPc s.started = .next t ∧
      HoldsBlock (loadWords first regs s).1 (some (rn, x)) s t ∧ t.cpsr = s.cpsr ∧
      KeepsAllBut (physReg s.mode rn :: regs.map (physReg s.mode)) s t ∧ SameMemory s t ∧ GoesOn s t := by
  have hnames : ∀ n y, some (rn, x) = some (n, y) → n ≠ 15 ∧ n ∉ regs := by rintro n y ⟨⟩; exact ⟨hrn, hbase⟩
  obtain ⟨s1, hregs, hwb, hcpsr, hpc, hmem, hkept, hload, _⟩ := loadBlock_cases rn first regs _ onPc s hnd hnames hall
  have hadvance : ∀ k, k ≠ 15 → s1.advance.getPhys (physReg s.mode k) = s1.getPhys (physReg s.mode k) :=
    fun k hk => s1.advance_getPhys (physReg_ne_r15 _ hk)
  refine ⟨_, hload h15, ⟨fun k v hv hk => ?_, fun n y hn => ?_⟩, hcpsr, keepsAllBut_advance hkept,
    by simp [SameMemory, hmem], by simp [GoesOn, hpc, State.isz_eq hcpsr]⟩
  · rw [hadvance k hk, hregs k v hv hk]
  · rw [hadvance n (hnames n y hn).1, hwb n y hn]

/-- In THUMB state a list with R15 branches to the word loaded for it. -/
theorem loadBlock_branches (hthumb : s.thumb = true) (hnd : regs.Nodup) (hrn : rn ≠ 15) (hbase : rn ∉ regs)
    (h15 : 15 ∈ regs) (hall : ∀ e ∈ (loadWords first regs s).1, e.2 ≠ none) :
    ∃ t v, loadBlock rn first regs (some (rn, x)) branchTo s.started = .next t ∧
      HoldsBlock (loadWords first regs s).1 (some (rn, x)) s t ∧ t.cpsr = s.cpsr ∧
      KeepsAllBut (physReg s.mode rn :: regs.map (physReg s.mode)) s t ∧ SameMemory s t ∧
      (15, some v) ∈ (loadWords first regs s).1 ∧ t.pc = v &&& 0xFFFFFFFE := by
  have hnames : ∀ n y, some (rn, x) = some (n, y) → n ≠ 15 ∧ n ∉ regs := by rintro n y ⟨⟩; exact ⟨hrn, hbase⟩
  obtain ⟨v, hv⟩ := loadWords_answered h15 hall
  obtain ⟨s1, hload, hcpsr, -, hmem, hkept, hholds⟩ :=
    loadBlock_intoPc (rn := rn) (onPc := branchTo) branchTo_sameRegs hnd hnames hall hv
  obtain ⟨t, ht, hpc, htcpsr, htkept, htmem⟩ := (branchTo_branchesTo v s s1 _ hcpsr hmem hkept).taken_thumb hthumb
  exact ⟨t, v, hload.trans ht, hholds t ht, htcpsr, htkept, htmem, hv, hpc⟩

end AnsweredLoad

/-- Settles O52: each instruction is the shared load; POP of R15 ends in a branch, every other list goes on. -/
theorem thumbLoadMultipleResults : Obligations.ThumbLoadMultipleResults := by
  unfold Obligations.ThumbLoadMultipleResults
  intro s r rb rlist hthumb popped loaded sp base
  dsimp only [exec, execTPop, execTLdmia]
  refine ⟨fun hne hfree => ?pop, fun hne hbase => ?ldmia⟩
  case pop =>
    have hform : firstRefusal [(popped.isEmpty, .emptyList)] = none := firstRefusal_emptyList hne
    have hnd : popped.Nodup := popRegs_nodup r rlist
    have hsp : (13 : Reg) ≠ 15 := by decide
    have hbase : 13 ∉ popped := thirteen_not_mem_popRegs r rlist
    rw [unconditionally_runs hform hfree]
    refine ⟨fun hall => ?answered, fun k hk => ?aborted⟩
    case aborted => exact loadBlock_aborts 13 sp popped (some _) branchTo s k hnd hsp hk
    case answered =>
      cases r with
      | false =>
        have h15 : 15 ∉ popped := fun h => Bool.false_ne_true ((fifteen_mem_popRegs false rlist).1 h)
        obtain ⟨t, ht, ⟨hregs, hwb⟩, hcpsr, hkept, hmem, hgoes⟩ := loadBlock_goesOn branchTo hnd hsp hbase h15 hall
        exact ⟨t, ht, hregs, hwb 13 _ rfl, hcpsr, hkept, hmem, fun _ => hgoes, nofun⟩
      | true =>
        have h15 : 15 ∈ popped := (fifteen_mem_popRegs true rlist).2 rfl
        obtain ⟨t, v, ht, ⟨hregs, hwb⟩, hcpsr, hkept, hmem, hv, hpc⟩ :=
          loadBlock_branches hthumb hnd hsp hbase h15 hall
        exact ⟨t, ht, hregs, hwb 13 _ rfl, hcpsr, hkept, hmem, nofun, fun _ => ⟨v, hv, hpc⟩⟩
  case ldmia =>
    have hform : firstRefusal [(loaded.isEmpty, .emptyList), (loaded.contains (lo rb), .ldmWritebackBaseInList)] =
        none :=
      (firstRefusal_tail _ _ (List.isEmpty_eq_false_iff.2 hne)).trans (firstRefusal_tail _ _ (by simpa using hbase))
    have hnd : loaded.Nodup := regList_nodup _
    have hrb : lo rb ≠ 15 := lo_ne_fifteen rb
    have h15 : 15 ∉ loaded := fifteen_not_mem_lowList rlist
    rw [unconditionally_runs hform s.NotBlocked_nil]
    refine ⟨fun hall => ?answered, fun k hk => ?aborted⟩
    case aborted => exact loadBlock_aborts (lo rb) base loaded (some _) branchTo s k hnd hrb hk
    case answered =>
      obtain ⟨t, ht, ⟨hregs, hwb⟩, hcpsr, hkept, hmem, hgoes⟩ := loadBlock_goesOn branchTo hnd hrb hbase h15 hall
      exact ⟨t, ht, fun k v hv => hregs k v hv (ne_of_mem_of_not_mem (mem_of_mem_loadWords hv) h15), hwb (lo rb) _ rfl,
        hcpsr, hkept, hmem, hgoes⟩

end Sys2Proof.Machine

/-! SUPPORT. Proofs of the statements about the exceptions (spec/60_exceptions.md): the entries, the lines and the fetch
at the boundary, the ways out of USR mode, the return from a software interrupt, and the fatal channel. -/

namespace Sys2Proof.Machine

/-! ### The entries (spec/60_exceptions.md R391, R396 to R402, R413) -/

/-- The row of an exception with a mode, as `dispatch` follows it. -/
theorem dispatch_entersOnly {e : ExcType} {m : Mode} {setsF : Bool} (hm : (descriptor e).mode = some m)
    (hI : (descriptor e).maskI = .set) (hF : (descriptor e).maskF = if setsF then .set else .keep) (link : Word)
    (info : ExcInfo) (s : State) : EntersOnly m (descriptor e).vector link setsF s (dispatch e link info s) :=
  (dispatch_enters e m link info s s setsF hm hI hF (mode_of_descriptor hm).1 (mode_of_descriptor hm).2
    ⟨rfl, rfl, rfl, rfl, rfl, rfl, rfl, rfl⟩).1

/-- Settles O15: each row has its vector, mode and masks; the legacy row has no mode and does nothing. -/
theorem dispatchFollowsTheTable : Obligations.DispatchFollowsTheTable := by
  unfold Obligations.DispatchFollowsTheTable
  exact fun s link info => ⟨dispatch_entersOnly rfl rfl rfl link info s, dispatch_entersOnly rfl rfl rfl link info s,
    dispatch_entersOnly rfl rfl rfl link info s, dispatch_entersOnly rfl rfl rfl link info s,
    dispatch_entersOnly rfl rfl rfl link info s, dispatch_entersOnly rfl rfl rfl link info s, rfl⟩

/-! ### The boundary and the fetch (spec/60_exceptions.md R392 to R395, R406, R410 to R412) -/

theorem raise_requests {e : ExcType} {m : Mode} (hm : (descriptor e).mode = some m) (link : Word) (info : ExcInfo)
    (s : State) : (raise e link info s).out.requests = s.out.requests := by
  obtain ⟨_, _, _, _, _, _, _, _, _, _, _, _, hout⟩ := dispatch_fields hm link info (s.setDispatcher .pending)
  rw [raise, hout]
  rfl

/-- The entry of FIQ or IRQ, from the state the boundary leaves; no request has been issued. -/
theorem interrupt_boundary {e : ExcType} {m : Mode} {setsF : Bool} (hm : (descriptor e).mode = some m)
    (hI : (descriptor e).maskI = .set) (hF : (descriptor e).maskF = if setsF then .set else .keep) (s : State) :
    EntersOnly m (descriptor e).vector (s.pc + 4) setsF s.boundary (interrupt e s.boundary) ∧
      (interrupt e s.boundary).out.requests = [] :=
  ⟨(raise_entersOnly hm hI hF _ _ ⟨rfl, rfl, rfl, rfl, rfl, rfl, rfl, rfl⟩).1, raise_requests hm ..⟩

/-- In a running state a step takes the exception the lines give. -/
theorem step_of_lines {s t : State} (hrun : s.stop = .running) (hmode : s.LegalMode)
    (hlines : sampleLines s.linesNow s.boundary = some t) : step s = .next t := by
  have hlegal : (modeOf s.cpsr).isNone = false := by rw [Option.isNone_eq_false_iff]; exact hmode
  simp [step, hrun, hlegal, hlines]

/-- With no exception at the boundary, an aborted fetch is a Prefetch Abort. -/
theorem step_of_abortedFetch {s : State} (hrun : s.stop = .running) (hmode : s.LegalMode)
    (hlines : sampleLines s.linesNow s.boundary = none) (hfetch : (fetch s.boundary).1 = none) :
    step s = .next (prefetchAbort (fetch s.boundary).2) := by
  have hlegal : (modeOf s.cpsr).isNone = false := by rw [Option.isNone_eq_false_iff]; exact hmode
  have hpair : fetch s.boundary = (none, (fetch s.boundary).2) := Prod.ext hfetch rfl
  simp only [step, hrun, hlegal, hlines]
  rw [hpair]
  rfl

theorem psrBit_resetPsr_control (k : Nat) :
    psrBit (resetPsr k) 5 = false ∧ psrBit (resetPsr k) 6 = true ∧ psrBit (resetPsr k) 7 = true := by
  simp [psrBit, resetPsr]

/-- The Prefetch Abort of an aborted fetch, which left everything but the outputs and the platform's answers alone. -/
theorem prefetchAbort_fetch (s : State) :
    EntersOnly .abt 0x0C (s.pc + 4) false s.boundary (prefetchAbort (fetch s.boundary).2) ∧
      (prefetchAbort (fetch s.boundary).2).out.report = .exception .prefetchAbort s.pc (.addr s.pc) := by
  obtain ⟨hregs, hpc, hcpsr, hspsr, hmem, -, -, hstop, hlines, hplain, -⟩ :=
    memRead_frame s.pc s.fetchSize .fetch false s.boundary
  have hfetched : (fetch s.boundary).2.pc = s.pc := hpc
  rw [prefetchAbort, hfetched]
  exact raise_entersOnly rfl rfl rfl _ _ ⟨hregs, hpc, hcpsr, hspsr, hmem, hstop, hlines, hplain⟩

/-- Settles O14: the lines are sampled in priority order, each entry leaving from the boundary; the fetch follows. -/
theorem linesThenFetchInPriorityOrder : Obligations.LinesThenFetchInPriorityOrder := by
  unfold Obligations.LinesThenFetchInPriorityOrder
  refine ⟨fun s hrun hmode => ⟨fun hreset => ?reset, fun hreset hfiq hF => ?fiq, fun hreset hfiq hirq hI => ?irq⟩,
    fun s hrun hmode hreset hfiq hirq hanswer => ?fetch⟩
  case reset =>
    have hstep := step_of_lines hrun hmode (t := dispatchReset s.boundary) (by simp [sampleLines, hreset])
    obtain ⟨hT, hF, hI⟩ := psrBit_resetPsr_control s.draws
    refine ⟨_, hstep, rfl, ?_, hT, hI, hF, reserved_resetPsr _, rfl, rfl, hrun, fun _ => rfl, rfl⟩
    rw [State.mode, dispatchReset, modeOf_resetPsr, Option.getD_some]
  case fiq =>
    have hstep := step_of_lines hrun hmode (t := interrupt .fiq s.boundary) (by simp [sampleLines, hreset, hfiq, hF])
    obtain ⟨⟨henters, hregs, hmem, _⟩, hrequests⟩ := interrupt_boundary (e := .fiq) (setsF := true) rfl rfl rfl s
    exact ⟨_, hstep, henters, hregs, hmem, hrequests⟩
  case irq =>
    have hmasked : (s.linesNow.fiq && !s.flagF) = false := by
      cases h : s.linesNow.fiq
      · rfl
      · simp [hfiq h]
    have hstep := step_of_lines hrun hmode (t := interrupt .irq s.boundary)
      (by simp [sampleLines, hreset, hmasked, hirq, hI])
    obtain ⟨⟨henters, hregs, hmem, _⟩, hrequests⟩ := interrupt_boundary (e := .irq) (setsF := false) rfl rfl rfl s
    exact ⟨_, hstep, henters, hregs, hmem, hrequests⟩
  case fetch =>
    have hfetch : (fetch s.boundary).1 = none := by
      rw [fetch, readAnswer_eq, SameAccesses.readAnswer (s := s) (t := s.boundary) ⟨rfl, rfl, rfl, rfl, rfl⟩ rfl]
      exact hanswer
    have hstep := step_of_abortedFetch hrun hmode (sampleLines_eq_none hreset hfiq hirq) hfetch
    obtain ⟨⟨henters, hregs, hmem, _⟩, hreport⟩ := prefetchAbort_fetch s
    exact ⟨_, hstep, henters, hregs, hmem, hreport⟩

/-! ### USR mode (spec/60_exceptions.md R417) -/

theorem modeOf_eq_of_low_bits {a b : Word} (h : ∀ i : Nat, i < 5 → a.getLsbD i = b.getLsbD i) :
    modeOf a = modeOf b := by
  apply modeOf_eq_of_low
  apply BitVec.eq_of_getLsbD_eq
  intro i hi
  simp [hi, h i hi]

theorem SameControl.mode {s t : State} (h : SameControl s t) : t.mode = s.mode := by
  have hlow : modeOf t.cpsr = modeOf s.cpsr := modeOf_eq_of_low_bits fun i hi => by
    have hbit := congrArg (fun w : Word => w.getLsbD i) h
    interval_cases i <;> simpa using hbit
  rw [State.mode, hlow, State.mode]

/-- An MSR in USR mode writes flags alone (spec/43_psr_transfer.md R213). -/
theorem modeOf_mergePsr_usr (old v : Word) (mask : BitVec 4) :
    modeOf (mergePsr old (cpsrMask mask .usr) v) = modeOf old :=
  modeOf_eq_of_low_bits fun i hi => by
    rw [mergePsr_bit _ _ _ _ (by omega), cpsrMask_bit _ _ _ (by omega)]
    simp [show ¬ 28 ≤ i by omega]

/-- The state an exception leaves: ARM, I set, and the old CPSR in the SPSR of its mode (spec/60_exceptions.md R396). -/
theorem TookException.entry {s t : State} (h : TookException s t) :
    ∃ e at_ info, t.out.report = .exception e at_ info ∧ t.thumb = false ∧ t.flagI = true ∧
      t.getSpsr t.mode = some s.cpsr := by
  obtain ⟨e, m, at_, info, hm, hreport, hcpsr, hspsr⟩ := h
  have hI : (descriptor e).maskI = .set := by cases e <;> cases hm <;> rfl
  have hmode : t.mode = m := by rw [State.mode, hcpsr, modeOf_entryPsr, Option.getD_some]
  refine ⟨e, at_, info, hreport, ?_, ?_, hmode ▸ hspsr⟩
  · rw [State.thumb, hcpsr, psrBit_entryPsr _ _ _ _ (by decide), if_pos rfl]
  · rw [State.flagI, hcpsr, psrBit_entryPsr _ _ _ _ (by decide), if_neg (by decide), if_pos rfl, hI]
    rfl

/-- Settles O55: of the ways CPSR can change, only an exception changes the mode of USR. -/
theorem userModeLeavesOnlyByException : Obligations.UserModeLeavesOnlyByException := by
  unfold Obligations.UserModeLeavesOnlyByException
  intro i s t _ husr he hne
  cases exec_status he with
  | control h => exact absurd (h.mode.trans husr) hne
  | exception h => exact h.entry
  | exchanged hi b h =>
    have hmode : t.mode = s.mode := by rw [State.mode, h, modeOf_setPsrBit _ _ _ (by decide) (by decide), State.mode]
    exact absurd (hmode.trans husr) hne
  | returned hi v hv h =>
    rw [husr] at hv
    cases hv
  | msr hi mask v h hT =>
    have hkept : modeOf t.cpsr = modeOf s.cpsr := by rw [h, husr, modeOf_mergePsr_usr]
    have hmode : t.mode = s.mode := by rw [State.mode, hkept, State.mode]
    exact absurd (hmode.trans husr) hne

/-! ### The return from a software interrupt (spec/60_exceptions.md R403, R404) -/

theorem State.AlignedPc.advance {s : State} (h : s.AlignedPc) : s.advance.AlignedPc := aligned_step s.pc s.thumb h

theorem and_clear_bit0_of_even {x : Word} (h : x.toNat % 2 = 0) : x &&& 0xFFFFFFFE = x := by
  have hbit0 : x.getLsbD 0 = false := by simp [BitVec.getLsbD, h]
  apply BitVec.eq_of_getLsbD_eq
  intro i hi
  rw [BitVec.getLsbD_and]
  interval_cases i
  · rw [hbit0, Bool.false_and]
  all_goals exact Bool.and_true _

/-- Clearing bit 0 leaves the aligned R15 of THUMB state. -/
theorem State.AlignedPc.pc_clear_bit0 {s : State} (h : s.AlignedPc) :
    (if s.thumb then s.pc &&& 0xFFFFFFFE else s.pc) = s.pc := by
  cases hthumb : s.thumb with
  | false => rfl
  | true => exact and_clear_bit0_of_even (by simpa [State.AlignedPc, hthumb] using h)

theorem ReservedZero.and_psrMask {psr : Word} (h : ReservedZero psr) : psr &&& psrMask = psr := by
  have hsplit : psr &&& psrMask ||| psr &&& ~~~psrMask = psr := by
    rw [← BitVec.and_or_distrib_left, BitVec.or_not_self, BitVec.and_allOnes]
  rwa [show psr &&& ~~~psrMask = 0#32 from h, BitVec.or_zero] at hsplit

/-- `MOVS pc, lr` is the exception return to what R14 holds. -/
theorem movsPcLr_returnsTo {t : State} (hfree : t.NotBlocked [15, 14]) :
    ReturnsTo (t.readReg 14) [] t (exec (.mov .al true 0 15 (.shiftImm 0 .lsl 14)) t) := by
  have hrow : (Instr.mov, fun (b : Shifted) (s : State) => logicResult s b.value b.carry) ∈ oneOperandOps := by
    simp [oneOperandOps]
  have hexec := exec_oneOperand_runs hrow (c := .al) (s := t) (op2 := .shiftImm 0 .lsl 14) true rfl rfl hfree
  exact hexec ▸ (writeAlu_pc _ t).2

/-- Settles O57: the entry saves CPSR and the address of the next instruction, which the return restores; the invariant
makes the saved mode legal, the reserved bits zero and the address aligned. -/
theorem swiReturnResumes : Obligations.SwiReturnResumes := by
  unfold Obligations.SwiReturnResumes
  intro s t i hinv hi _ he
  obtain ⟨w, rfl⟩ : ∃ w, t = softwareInterrupt w s.started := by
    rcases hi with ⟨comment, rfl⟩ | ⟨value, rfl⟩
    · rw [exec_swi comment rfl] at he
      cases he
      exact ⟨_, rfl⟩
    · rw [exec_tSwi] at he
      cases he
      exact ⟨_, rfl⟩
  obtain ⟨⟨⟨hlr, hspsr, _, hsvc, _, _, _, _, _, hhazard, _, _⟩, _, hmem, _⟩, _⟩ := softwareInterrupt_entersOnly w s
  generalize softwareInterrupt w s.started = t at *
  have hmode : t.mode = .svc := by rw [State.mode, hsvc, Option.getD_some]
  have hlink : t.readReg 14 = s.advance.pc := by
    rw [State.readReg_eq_getPhys t (by decide), hmode]
    exact hlr
  have hlegal : modeOf s.cpsr ≠ none := Option.isSome_iff_ne_none.1 hinv.legalMode
  have haligned : s.advance.AlignedPc := hinv.aligned.advance
  have hreturn := movsPcLr_returnsTo (State.NotBlocked_of_no_hazard [15, 14] hhazard)
  simp only [ReturnsTo, hmode, hspsr, hlink] at hreturn
  rw [if_neg hlegal, if_neg fun h => h.2 (haligned.pc_low h.1)] at hreturn
  obtain ⟨u, hu, hcpsr, hpc, _, humem⟩ := hreturn
  exact ⟨u, hu, hcpsr.trans hinv.cpsrReserved.and_psrMask, hpc.trans haligned.pc_clear_bit0,
    fun a => (humem a).trans (hmem a)⟩

/-! ### The fatal channel (spec/60_exceptions.md R428, spec/10_state.md R43, R56) -/

/-- The fault of the fatal channel, raised from `s`: the stop status is Fatal, CPSR as it was. -/
def FatalFrom (s : State) (f : Fault) : Prop := ∃ left, f = .corruptMode left ∧ left.stop = .fatal ∧ left.cpsr = s.cpsr

theorem fatalCorruptMode_fault {s : State} {f : Fault} (h : fatalCorruptMode s = .fault f) : FatalFrom s f := by
  cases h
  exact ⟨_, rfl, rfl, rfl⟩

theorem branchTo_ne_fault {x : Word} {s : State} {f : Fault} : branchTo x s ≠ .fault f := by
  rcases branchTo_cases x s with ⟨h, _⟩ | ⟨h, _⟩ <;> rw [h] <;> exact nofun

theorem branchExchange_ne_fault {x : Word} {s : State} {f : Fault} : branchExchange x s ≠ .fault f := by
  rcases branchExchange_cases x s with ⟨h, _⟩ | ⟨h, _⟩ <;> rw [h] <;> exact nofun

/-- An exception return faults on an illegal saved mode alone. -/
theorem exceptionReturn_fault {x : Word} {s : State} {f : Fault} (h : exceptionReturn x s = .fault f) :
    FatalFrom s f := by
  rcases exceptionReturn_cases x s with ⟨_, hr⟩ | ⟨_, _, _, hr⟩ | ⟨_, _, _, _, hr⟩ <;> rw [hr] at h
  · cases h
  · exact fatalCorruptMode_fault h
  · exact absurd h branchTo_ne_fault

theorem writeAlu_fault {sf : Bool} {rd : Reg} {r : AluResult} {s : State} {f : Fault}
    (h : writeAlu sf rd r s = .fault f) : sf = true ∧ rd = 15 ∧ FatalFrom s f := by
  unfold writeAlu at h
  split at h
  · rename_i hrd
    split at h
    · rename_i hsf
      exact ⟨hsf, hrd, exceptionReturn_fault h⟩
    · exact absurd h branchTo_ne_fault
  · cases h

theorem loadRegister_ne_fault {addr : Word} {sz : Size} {kind : AccessKind} {wb : Option (Reg × Word)} {rd : Reg}
    {ext : Word → Word} {s : State} {f : Fault} : loadRegister addr sz kind wb rd ext s ≠ .fault f := by
  unfold loadRegister
  split
  · exact nofun
  split
  · exact branchTo_ne_fault
  · exact nofun

theorem storeRegister_ne_fault {addr : Word} {sz : Size} {kind : AccessKind} {wb : Option (Reg × Word)} {v : Word}
    {s : State} {f : Fault} : storeRegister addr sz kind wb v s ≠ .fault f := by
  unfold storeRegister
  split
  · exact nofun
  split <;> exact nofun

/-- A load multiple faults only in what loading R15 does. -/
theorem loadBlock_fault {rn : Reg} {first : Word} {regs : List Reg} {wb : Option (Reg × Word)}
    {onPc : Word → State → Out} {s : State} {f : Fault} (h : loadBlock rn first regs wb onPc s = .fault f) :
    ∃ x u, u.cpsr = s.cpsr ∧ onPc x u = .fault f := by
  obtain ⟨_, _, hcpsr, _⟩ := loadWords_frame first regs s
  unfold loadBlock at h
  dsimp only at h
  split at h
  · cases h
  split at h
  · exact ⟨_, _, by simpa using hcpsr, h⟩
  · cases h

theorem loadUserBlock_ne_fault {rn : Reg} {first : Word} {regs : List Reg} {s : State} {f : Fault} :
    loadUserBlock rn first regs s ≠ .fault f := by
  unfold loadUserBlock
  dsimp only
  split <;> exact nofun

theorem storeBlock_ne_fault {first : Word} {values : List Word} {wb : Option (Reg × Word)} {s : State} {f : Fault} :
    storeBlock first values wb s ≠ .fault f := by
  unfold storeBlock
  split
  · exact nofun
  split <;> exact nofun

theorem swapAccess_ne_fault {sz : Size} {rn rd rm : Reg} {ext : Word → Word} {s : State} {f : Fault} :
    swapAccess sz rn rd rm ext s ≠ .fault f := by
  unfold swapAccess
  dsimp only
  split
  · exact nofun
  split
  · exact nofun
  split <;> exact nofun

/-- An MSR faults when it would write an illegal mode into CPSR; an MSR of an SPSR takes any mode (R428). -/
theorem psrWrite_fault {r : Bool} {mask : BitVec 4} {v : Word} {s : State} {f : Fault}
    (h : psrWrite r mask v s = .fault f) : r = false ∧ FatalFrom s f := by
  unfold psrWrite at h
  cases r with
  | true =>
    simp only [if_true] at h
    split at h <;> cases h
  | false =>
    simp only [Bool.false_eq_true, if_false] at h
    split at h
    · exact ⟨rfl, fatalCorruptMode_fault h⟩
    split at h <;> cases h

/-- An effect that faults is an MSR of CPSR or an exception return. -/
theorem EffectOf.fault {i : Instr} {s : State} {o : Out} {f : Fault} (h : EffectOf i s o) (ho : o = .fault f) :
    FatalFrom s f ∧ (IsMsr false i ∨ IsLdmReturn i ∨ IsAluReturn i) := by
  cases h with
  | alu hi r =>
    obtain ⟨hsf, hrd, hfatal⟩ := writeAlu_fault ho
    exact ⟨hfatal, .inr (.inr (hi hsf hrd))⟩
  | loadReturn hi =>
    obtain ⟨x, u, hcpsr, hfault⟩ := loadBlock_fault ho
    obtain ⟨left, hf, hstop, hleft⟩ := exceptionReturn_fault hfault
    exact ⟨⟨left, hf, hstop, hleft.trans hcpsr⟩, .inr (.inl hi)⟩
  | msr hi mask v =>
    obtain ⟨rfl, hfatal⟩ := psrWrite_fault ho
    exact ⟨hfatal, .inl hi⟩
  | loadMany =>
    obtain ⟨x, u, _, hfault⟩ := loadBlock_fault ho
    exact absurd hfault branchTo_ne_fault
  | branch => exact absurd ho branchTo_ne_fault
  | exchange => exact absurd ho branchExchange_ne_fault
  | load => exact absurd ho loadRegister_ne_fault
  | store => exact absurd ho storeRegister_ne_fault
  | loadUser => exact absurd ho loadUserBlock_ne_fault
  | storeMany => exact absurd ho storeBlock_ne_fault
  | swap => exact absurd ho swapAccess_ne_fault
  | result | undefined | swi => cases ho

/-- Settles O59: a step tests the stop status first; an instruction faults in its effect alone. -/
theorem faultsOnlyByTheFatalChannel : Obligations.FaultsOnlyByTheFatalChannel := by
  unfold Obligations.FaultsOnlyByTheFatalChannel
  refine ⟨fun s hstop => if_pos hstop, fun i s f hfault => ?_⟩
  rcases exec_cases i s with ⟨_, hskip⟩ | ⟨why, href⟩ | ⟨_, heffect⟩
  · rw [hskip] at hfault
    cases hfault
  · rw [href] at hfault
    cases hfault
  · obtain ⟨hfatal, hi⟩ := heffect.fault hfault
    refine ⟨hfatal, ?_⟩
    simpa only [IsMsr, IsLdmReturn, IsAluReturn, or_assoc] using hi

end Sys2Proof.Machine

/-! SUPPORT. Proofs of the statements about reset and the hazards (spec/70_reset_and_hazards.md): the state after reset,
the check of a store against the prefetched slots, and the hazard of LDM^. -/

namespace Sys2Proof.Machine

/-! ### Reset (spec/70_reset_and_hazards.md R431) -/

theorem inv_reset : State.reset.Inv where
  legalMode := rfl
  cpsrReserved := rfl
  fiqReserved := rfl
  irqReserved := rfl
  svcReserved := rfl
  abtReserved := rfl
  undReserved := rfl
  aligned := Nat.zero_mod _
  memory := Memory.wf_reset
  idle := rfl
  running := rfl
  hazardBanked := nofun

/-- Settles O8: the values are those of the definition. -/
theorem resetMeetsInvariant : Obligations.ResetMeetsInvariant := by
  unfold Obligations.ResetMeetsInvariant
  exact ⟨inv_reset, rfl, rfl, rfl, rfl, rfl, rfl, rfl, rfl⟩

/-! ### The prefetched slots (spec/70_reset_and_hazards.md R440) -/

/-- An address lies in a range exactly when it is the base and an offset less than the size, with wrap-around. -/
theorem toNat_sub_lt_iff (a base : Word) {n : Nat} (hn : n ≤ 2 ^ 32) :
    (a - base).toNat < n ↔ ∃ j : Nat, j < n ∧ a = base + BitVec.ofNat 32 j := by
  constructor
  · intro h
    refine ⟨(a - base).toNat, h, ?_⟩
    rw [BitVec.ofNat_toNat, BitVec.setWidth_eq, BitVec.add_comm, BitVec.sub_add_cancel]
  · rintro ⟨j, hj, rfl⟩
    rw [BitVec.add_comm, BitVec.add_sub_cancel, BitVec.toNat_ofNat, Nat.mod_eq_of_lt (by omega)]
    exact hj

theorem State.inPrefetchWindow_iff (s : State) (a : Word) : s.inPrefetchWindow a = true ↔
    ∃ j : Nat, j < 2 * s.isz.toNat ∧ a = s.pc + s.isz + BitVec.ofNat 32 j := by
  have hsize : 2 * s.isz.toNat ≤ 2 ^ 32 := by
    rw [State.isz]
    cases s.thumb <;> decide
  rw [State.inPrefetchWindow, decide_eq_true_eq, toNat_sub_lt_iff _ _ hsize]

/-- A store multiple meets the check exactly when one of its writes does. -/
theorem wordsSelfModify_iff (s : State) (addr : Word) (n : Nat) : s.wordsSelfModify addr n = true ↔
    ∃ k : Nat, k < n ∧ (s.afterWrites addr k).wouldSelfModify (addr + BitVec.ofNat 32 (4 * k)) .word = true := by
  induction n generalizing s addr with
  | zero => simp [State.wordsSelfModify]
  | succ n ih =>
    have hnext : ∀ k : Nat, addr + 4 + BitVec.ofNat 32 (4 * k) = addr + BitVec.ofNat 32 (4 * (k + 1)) := fun k => by
      rw [Nat.mul_succ, Nat.add_comm, BitVec.ofNat_add, ← BitVec.add_assoc]
      rfl
    rw [State.wordsSelfModify, Bool.or_eq_true, ih]
    simp only [hnext]
    constructor
    · rintro (hfirst | ⟨k, hk, hrest⟩)
      · exact ⟨0, n.succ_pos, by simpa [State.afterWrites] using hfirst⟩
      · exact ⟨k + 1, by omega, hrest⟩
    · rintro ⟨k, hk, h⟩
      cases k with
      | zero => exact .inl (by simpa [State.afterWrites] using h)
      | succ k => exact .inr ⟨k, by omega, h⟩

/-- Settles O53: each kind of write is judged by its bytes, a byte by its distance from the first slot. -/
theorem prefetchWindowIsTwoSlots : Obligations.PrefetchWindowIsTwoSlots := by
  unfold Obligations.PrefetchWindowIsTwoSlots
  refine fun s addr => ⟨fun sz hplain => ?plain, fun sz hplatform => ?platform, wordsSelfModify_iff s addr⟩
  case plain =>
    rw [State.wouldSelfModify, if_pos hplain, selfModifies_iff]
    simp only [State.inPrefetchWindow_iff, exists_and_left]
  case platform =>
    rw [State.wouldSelfModify, hplatform, if_neg Bool.false_ne_true, List.any_eq_true]
    simp only [State.inPrefetchWindow_iff]

/-! ### The hazard of LDM^ (spec/70_reset_and_hazards.md R441, spec/10_state.md R62) -/

/-- The two results are one frame under the condition of `i`, in `s` and in `s` without the hazard; the registers it
passes differ from those `i` names only in ones the mode does not bank away. -/
def RunsInFrame (i : Instr) (s : State) (o o' : Out) : Prop :=
  ∃ form touched effect, (∀ r, s.banksAway r = true → (r ∈ touched ↔ r ∈ namedRegs i)) ∧
    o = conditionally (guardOf i) form touched effect s ∧
    o' = conditionally (guardOf i) form touched effect (s.setHazard false)

theorem conditionally_runsInFrame {i : Instr} {c : Cond} {form : List (Bool × Refusal)} {touched : List Reg}
    {effect : State → Out} {s : State} (hc : guardOf i = c)
    (hregs : ∀ r, s.banksAway r = true → (r ∈ touched ↔ r ∈ namedRegs i)) :
    RunsInFrame i s (conditionally c form touched effect s) (conditionally c form touched effect (s.setHazard false)) :=
  ⟨form, touched, effect, hregs, hc ▸ rfl, hc ▸ rfl⟩

/-- A register of a THUMB low field is never banked away, so it does not count among those named. -/
theorem banksAway_ne_lo {s : State} {r : Reg} (h : s.banksAway r = true) (n : LoReg) : r ≠ lo n := by
  rintro rfl
  rw [s.banksAway_lo] at h
  cases h

theorem banksAway_not_mem_lowList {s : State} {r : Reg} (h : s.banksAway r = true) (rlist : BitVec 8) :
    r ∉ lowList rlist := fun hr => by
  rw [s.banksAway_lowList rlist r hr] at h
  cases h

/-- Every instruction runs in one frame, which the hazard does not change; a THUMB format that passes no register of a
low field is the reason why the registers named and passed may differ. -/
theorem exec_runsInFrame (i : Instr) (s : State) : RunsInFrame i s (exec i s) (exec i (s.setHazard false)) := by
  cases i with
  | mul | mla | umull | umlal | smull | smlal | swp | swpb =>
    dsimp only [exec, execMul, execMla, execUmull, execUmlal, execSmull, execSmlal, execSwp, execSwpb, multiply,
      multiplyLong, swap]
    exact conditionally_runsInFrame rfl fun _ _ => Iff.rfl
  | undMulSwap | undSignedStore | undPsr | undMedia | stc | ldc | cdp | mcr | mrc =>
    dsimp only [exec, execUndMulSwap, execUndSignedStore, execUndPsr, execUndMedia, execStc, execLdc, execCdp, execMcr,
      execMrc, undefinedWord]
    exact conditionally_runsInFrame rfl fun _ _ => Iff.rfl
  | ldrPre | ldrPost | ldrbPre | ldrbPost | ldrt | ldrbt | strPre | strPost | strbPre | strbPost | strt | strbt | ldrh
    | ldrsb | ldrsh | strh =>
    dsimp only [exec, execLdrPre, execLdrPost, execLdrbPre, execLdrbPost, execLdrt, execLdrbt, execStrPre, execStrPost,
      execStrbPre, execStrbPost, execStrt, execStrbt, execLdrh, execLdrsb, execLdrsh, execStrh, singleLoad,
      singleStore, halfLoad]
    exact conditionally_runsInFrame rfl fun _ _ => Iff.rfl
  | and | eor | sub | rsb | add | adc | sbc | rsc | orr | bic | mov | mvn | tst | teq | cmp | cmn =>
    dsimp only [exec, execAnd, execEor, execSub, execRsb, execAdd, execAdc, execSbc, execRsc, execOrr, execBic, execMov,
      execMvn, execTst, execTeq, execCmp, execCmn, aluTwo, aluOne, aluCompare]
    exact conditionally_runsInFrame rfl fun _ _ => Iff.rfl
  | stm | ldm | stmUser | ldmUser | ldmReturn =>
    dsimp only [exec, execStm, execLdm, execStmUser, execLdmUser, execLdmReturn, storeMultiple]
    exact conditionally_runsInFrame rfl fun _ _ => Iff.rfl
  | bx | mrs | msrReg | msrImm | b | bl | swi | tBCond =>
    dsimp only [exec, execBx, execMrs, execMsrReg, execMsrImm, execB, execBl, execSwi, execTBCond]
    exact conditionally_runsInFrame rfl fun _ _ => Iff.rfl
  | tAddHi | tCmpHi | tMovHi | tBx | tPush | tPop | tSpAdd | tSpSub | tSwi | tB | tBlPrefix | tBlSuffix | tUnd1011
    | tUndCond | tUnd11101 =>
    dsimp only [exec, execTAddHi, execTCmpHi, execTMovHi, execTBx, execTPush, execTPop, execTSpAdd, execTSpSub,
      execTSwi, execTB, execTBlPrefix, execTBlSuffix, execTUnd1011, execTUndCond, execTUnd11101, thumbUndefined,
      unconditionally]
    exact conditionally_runsInFrame rfl fun _ _ => Iff.rfl
  | tAddReg | tSubReg | tAddImm3 | tSubImm3 | tLslImm | tLsrImm | tAsrImm | tMovImm | tCmpImm | tAddImm8 | tSubImm8
    | tAnd | tEor | tLslReg | tLsrReg | tAsrReg | tAdc | tSbc | tRorReg | tTst | tNeg | tCmpReg | tCmn | tOrr | tMul
    | tBic | tMvn =>
    dsimp only [exec, execTAddReg, execTSubReg, execTAddImm3, execTSubImm3, execTLslImm, execTLsrImm, execTAsrImm,
      execTMovImm, execTCmpImm, execTAddImm8, execTSubImm8, execTAnd, execTEor, execTLslReg, execTLsrReg,
      execTAsrReg, execTAdc, execTSbc, execTRorReg, execTTst, execTNeg, execTCmpReg, execTCmn, execTOrr, execTMul,
      execTBic, execTMvn, thumbAlu, thumbCompare, unconditionally]
    exact conditionally_runsInFrame rfl fun r hr => by simp [namedRegs, banksAway_ne_lo hr]
  | tLdrPc | tStrReg | tStrbReg | tLdrReg | tLdrbReg | tStrhReg | tLdrsbReg | tLdrhReg | tLdrshReg | tStrImm | tLdrImm
    | tStrbImm | tLdrbImm | tStrhImm | tLdrhImm | tStrSp | tLdrSp | tAddPc | tAddSp =>
    dsimp only [exec, execTLdrPc, execTStrReg, execTStrbReg, execTLdrReg, execTLdrbReg, execTStrhReg, execTLdrsbReg,
      execTLdrhReg, execTLdrshReg, execTStrImm, execTLdrImm, execTStrbImm, execTLdrbImm, execTStrhImm, execTLdrhImm,
      execTStrSp, execTLdrSp, execTAddPc, execTAddSp, thumbLoad, thumbStore, unconditionally]
    exact conditionally_runsInFrame rfl fun r hr => by simp [namedRegs, banksAway_ne_lo hr]
  | tStmia | tLdmia =>
    dsimp only [exec, execTStmia, execTLdmia, unconditionally]
    exact conditionally_runsInFrame rfl fun r hr => by
      simp [namedRegs, banksAway_ne_lo hr, banksAway_not_mem_lowList hr]

/-- Only the user-bank LDM sets the hazard again. -/
theorem EffectOf.setsHazard {i : Instr} {s t : State} {o : Out} (h : EffectOf i s o) (hs : s.hazard = false)
    (ho : o = .next t) (ht : t.hazard = true) : IsLdmUser i := by
  have clear : t.hazard = false → IsLdmUser i := fun hclear => absurd (hclear.symm.trans ht) Bool.false_ne_true
  cases h with
  | loadUser hi => exact hi
  | result hw =>
    cases ho
    exact clear (hw.hazard.trans hs)
  | branch hw x => exact clear (branchTo_hazard (hw.hazard.trans hs) x ho)
  | exchange _ x => exact clear (branchExchange_hazard hs x ho)
  | alu _ r => exact clear (writeAlu_hazard hs _ _ r ho)
  | load => exact clear (loadRegister_hazard hs _ _ _ _ _ _ ho)
  | store => exact clear (storeRegister_hazard hs _ _ _ _ _ ho)
  | loadMany => exact clear (loadBlock_hazard hs _ _ _ _ _ (fun x _ _ hu => branchTo_hazard hu x) ho)
  | loadReturn => exact clear (loadBlock_hazard hs _ _ _ _ _ (fun x _ _ hu => exceptionReturn_hazard hu x) ho)
  | storeMany b => exact clear (storeBlock_hazard ((Wrote.drawnIf s b).hazard.trans hs) _ _ _ ho)
  | swap => exact clear (swapAccess_hazard hs _ _ _ _ _ ho)
  | msr => exact clear (psrWrite_hazard hs _ _ _ ho)
  | undefined | swi => exact clear (next_hazard rfl ho)

/-- An instruction that ends with the hazard set is a user-bank LDM whose condition passed. -/
theorem exec_setsHazard {i : Instr} {s t : State} (he : exec i s = .next t) (ht : t.hazard = true) :
    IsLdmUser i ∧ condPassed (guardOf i) s = true := by
  rcases exec_cases i s with ⟨_, hskip⟩ | ⟨why, href⟩ | ⟨hc, heffect⟩
  · rw [hskip] at he
    cases he
    cases ht
  · rw [href] at he
    cases he
  · exact ⟨heffect.setsHazard rfl he ht, hc⟩

/-- Settles O54: the frame refuses a banked register after its form, and is the frame without the hazard otherwise. -/
theorem hazardRefusesBankedRegisters : Obligations.HazardRefusesBankedRegisters := by
  unfold Obligations.HazardRefusesBankedRegisters
  refine ⟨fun i s hc hz hnamed => ?refused, fun i s hfree => ?same, fun i s t he ht => ?sets, fun s n => ?banks⟩
  case refused =>
    obtain ⟨form, touched, effect, hregs, hexec, hclear⟩ := exec_runsInFrame i s
    exact (conditionally_hazard _ form touched (namedRegs i) effect s hregs _ _ hexec hclear).1 hc hz hnamed
  case same =>
    obtain ⟨form, touched, effect, hregs, hexec, hclear⟩ := exec_runsInFrame i s
    exact (conditionally_hazard _ form touched (namedRegs i) effect s hregs _ _ hexec hclear).2 hfree
  case sets =>
    obtain ⟨⟨c, p, u, rn, list, rfl⟩, hc⟩ := exec_setsHazard he ht
    exact ⟨c, p, u, rn, list, rfl, hc⟩
  case banks =>
    rw [State.banksAway]
    generalize s.mode = m
    cases m <;> revert n <;> decide

end Sys2Proof.Machine
